-- ==== Sys2Proof/Word.lean ====
section
/-! DEFINITION. The widths the guide gives its values: bytes, line addresses, lines of 64 bytes,
checkpoint numbers and sequence numbers (00_scope.md, Table 2). -/

namespace Sys2Proof

/-- One byte of a frame or of a line. -/
abbrev Byte := BitVec 8

/-- A byte address with its low six bits removed (00_scope.md, Table 2). -/
abbrev LineAddr := BitVec 30

/-- The 64 bytes of a line; byte `n` is bits `8 * n` to `8 * n + 7` (R182, little-endian). -/
abbrev LineData := BitVec 512

/-- One enable for each byte of a line (R123). -/
abbrev ByteMask := BitVec 64

/-- A checkpoint number (R10); FFFFFFFFh stands for NONE where a number is laid out (R182). -/
abbrev CheckpointNo := BitVec 32

/-- A sequence number (R10). -/
abbrev SeqNo := BitVec 64

/-- A downstream tag, 0 to 63 (R133). -/
abbrev DownTag := Fin 64

end Sys2Proof
end

