-- ==== Sys2Proof/Syntax.lean ====
section
/-! DEFINITION. The commands: one constructor for each row of spec/opcode_table.json, with its operands. -/

namespace Sys2Proof

/-- What an upstream or downstream request does to its line. A read is always of a whole line and carries no mask
and no data (R123). -/
inductive Access where
  | read
  | write (mask : ByteMask) (data : LineData)
deriving DecidableEq, Repr

/-- An upstream request: the fields of Table 7.1 (R123). -/
structure UpRequest where
  initiator : Fin 8
  tag       : Byte
  line      : LineAddr
  access    : Access
deriving DecidableEq, Repr

/-- How memory completes a read: with the line's 64 bytes, or with an error, which carries no data (R135). -/
inductive ReadResult where
  | ok (data : LineData)
  | error
deriving DecidableEq, Repr

/-- The levels present on the pins when a reset ends (R71, R149, R152). `straps` is ADDR1 ADDR0, ADDR1 high. -/
structure PinLevels where
  straps : BitVec 2
  fltreq : Bool
  frz    : Bool
deriving DecidableEq, Repr

/-- One constructor for each row of spec/opcode_table.json.

The nineteen management commands stand for the end of a write transfer that carries their frame, their operands being
the parameter bytes of Table 11.2 in the widths of their fields (log 1). The other rows are the events of the port,
the memory path, the timers and the lines. -/
inductive Instr where
  -- reading the unit (R166 to R168, R120)
  | getStatus (sec : Byte)
  | getCheckpoints
  | getWindow (index : Byte)
  | getInitiator (number : Byte)
  | readViolation
  -- configuring the unit (R109, R113, R114, R2, R171, R142)
  | setWindow (index kind : Byte) (base size : BitVec 32)
  | clearWindow (index : Byte)
  | setInitiator (number cls permission : Byte)
  | setJournal (base : BitVec 64) (slots : BitVec 32) (reserve depth : Byte) (runStamp : BitVec 16) (policy : Byte)
      (paceMark : BitVec 32) (pacingInterval holdTimeout : BitVec 16)
  | setTiming (paceMark : BitVec 32) (pacingInterval holdTimeout ageLimit : BitVec 16) (freezeMask : Byte)
  | setAlertMask (mask : BitVec 16)
  | clearAlerts (selection : BitVec 16)
  -- checkpoint commands (R173, R72, R85, R86, R66, R92, R178)
  | mark (value : BitVec 64)
  | rollback (depth : Byte)
  | retry
  | abandon
  | discard
  | adopt (start : BitVec 32)
  | reset
  -- the port (R156, R157, R162); the bytes are those after the address byte
  | writeTransfer (address : BitVec 7) (bytes : List Byte)
  | readTransfer (address : BitVec 7)
  | responseConsumed
  -- the memory path (R124, R130, R133)
  | requestArrival (request : UpRequest)
  | acceptance
  | downstreamIssue (tag : DownTag)
  -- completions (R135)
  | passedRequestCompletion (tag : DownTag) (result : ReadResult)
  | oldLineReadCompletion (tag : DownTag) (result : ReadResult)
  | forwardedWriteCompletion (tag : DownTag) (error : Bool)
  | journalWriteCompletion (tag : DownTag) (error : Bool)
  | undoReadCompletion (tag : DownTag) (result : ReadResult)
  | undoWriteCompletion (tag : DownTag) (error : Bool)
  | voidWriteCompletion (tag : DownTag) (error : Bool)
  | scanReadCompletion (tag : DownTag) (result : ReadResult)
  | abandonedCompletion (tag : DownTag) (result : ReadResult)
  | strayCompletion (tag : DownTag) (result : ReadResult)
  -- requests that waited for room, and an allocation that waited (R35, R14, R79, R96, R13)
  | forwardedWriteQueued
  | journalWritesQueued
  | undoRequestQueued
  | scanReadQueued
  | allocationWaitEnd
  -- timers (R43, R38, R65)
  | holdTimerExpiry
  | pacingIntervalElapsed
  | epochAgeTimerExpiry
  -- lines (R71, R88, R147, R150, R151)
  | fltreqRisingEdge
  | fltreqFall
  | frzRise
  | frzFall
  | porstFall
  | porstRise (levels : PinLevels)
  | wrstFall
  | wrstRise (levels : PinLevels)
deriving DecidableEq, Repr

end Sys2Proof
end

