-- ==== Sys2Proof/Decode.lean ====
section
/-! DEFINITION. The words of the opcode table. spec/opcode_table.json gives no row any bits, so no word spells a
command. -/

namespace Sys2Proof

/-- The command that a word spells by the table's bits: none, for the table gives no row any. -/
def decodeTableWord (_nbits _w : Nat) : Option Instr := none

end Sys2Proof
end

