-- ==== Sys2Proof/Config.lean ====
section
/-! DEFINITION. What every 7640 has in common: the capacities of 00_scope.md Table 4, and the free
values, which no rule of the spec fixes and nothing in the model can evaluate. -/

namespace Sys2Proof.Config

/-- Requests an ingress queue holds (R124). -/
abbrev ingressPlaces : Nat := 4

/-- Entries of the capture queue (R28). -/
abbrev captureEntries : Nat := 16

/-- Ways of one set of the capture filter (R25). -/
abbrev filterWays : Nat := 16

/-- Places of the downstream outgoing queue (R132). -/
abbrev outgoingPlaces : Nat := 32

/-- Entries of the violation list (R119). -/
abbrev violationEntries : Nat := 8

/-- The longest command frame: code, count, 255 parameters and check (R156). -/
abbrev longestFrame : Nat := 258

/-- FREE VALUE (R55, R73; log 7): whether, of a line request and a command that one pending mark held,
the line request is taken first. -/
opaque lineFirst : Nat → Bool

/-- FREE VALUE (R55, R73, R180; log 35): whether a marker write that a pending mark held at the arbiter is taken before the
line request and the command that the same mark held. -/
opaque markerFirst : Nat → Bool

/-- FREE VALUE (R152, R178; log 16): the levels of the straps, ADDR1 ADDR0, present when a RESET command is carried out. -/
opaque strapsAtReset : Nat → BitVec 2

end Sys2Proof.Config
end

