-- ==== Sys2Proof/Machine/State.lean ====
section
/-! DEFINITION. The machine's state, block by block (00_scope.md Table 1), its reset, and the reasons a step can stop.
INVENTORY.md lists every field with the rule that names it. -/

namespace Sys2Proof.Machine

/-! ### The journal manager (01_the_journal.md) -/

/-- What a capture does at the capture limit (Table 1.1). -/
inductive OverflowPolicy where
  | break_
  | hold
deriving DecidableEq, Repr

/-- The nine values of Table 1.1 (R1). Reserve and depth at reset are 0 (Table 1.5). -/
structure JournalConfig where
  base           : BitVec 36
  slots          : Nat
  reserve        : Nat
  depth          : Nat
  runStamp       : BitVec 16
  policy         : OverflowPolicy
  paceMark       : Nat
  /-- in µs -/
  pacingInterval : Nat
  /-- in ms -/
  holdTimeout    : Nat
deriving DecidableEq, Repr

/-- The causes a BREAK record can carry (R7). -/
inductive RecordCause where
  | limit
  | holdTimeout
  | journalWrite
deriving DecidableEq, Repr

/-- One of the two lines of a slot (R4). -/
inductive Half where
  | header
  | data
deriving DecidableEq, Repr

/-- Where one line write of a slot stands (R14). -/
inductive WriteState where
  | outstanding
  | ok
  | error
deriving DecidableEq, Repr

/-- Whom a slot was allocated for (R13, R15). A capture entry is named by its entry number. -/
inductive SlotOwner where
  | capture (entry : Nat)
  | mark
  | brk
deriving DecidableEq, Repr

/-- The bookkeeping of a slot allocated and not yet passed by the commit point, or forgotten by an emptying while a
line write was outstanding (R14 to R16, R20). -/
structure SlotRecord where
  slot      : Nat
  seq       : SeqNo
  owner     : SlotOwner
  header    : WriteState
  data      : WriteState
  forgotten : Bool
deriving DecidableEq, Repr

/-- Which block placed a downstream request, and what it needs to know on completion (R133). An old-line read and a
forwarded write name their capture entry by its entry number, a scan read its scan by its number (log 18). -/
inductive Source where
  | passed (initiator : Fin 8) (tag : Byte) (isRead guarded : Bool)
  | oldLine (entry : Nat)
  | forwarded (entry : Nat)
  | journal (slot : Nat) (half : Half)
  | undoRead (slot : Nat) (half : Half)
  | undoWrite (slot : Nat)
  | voidWrite (slot : Nat)
  | scanRead (run slot : Nat) (half : Half)
deriving DecidableEq, Repr

/-- One request to memory: a whole-line read, or a write with its byte mask and data (R132). -/
structure DownRequest where
  line   : LineAddr
  access : Access
deriving DecidableEq, Repr

/-- A request of the outgoing queue with the source that placed it (R132). -/
structure DownEntry where
  request : DownRequest
  source  : Source
deriving DecidableEq, Repr

/-- An allocation request that waits for the writes of a forgotten slot (R13). -/
inductive AllocRequest where
  | capture (entry : Nat)
  | mark
  | brk (epoch : CheckpointNo) (cause : RecordCause)
deriving DecidableEq, Repr

/-- The journal manager. -/
structure Journal where
  configured     : Bool
  config         : JournalConfig
  head           : Nat
  commit         : Nat
  tail           : Nat
  occupancy      : Nat
  seq            : SeqNo
  nextCheckpoint : CheckpointNo
  exhausted      : Bool
  adoptable      : Bool
  trailing       : Bool
  slotRecords    : List SlotRecord
  /-- slots whose two line writes wait for room, in allocation order (R14) -/
  writeWait      : List (DownEntry × DownEntry)
  allocWait      : List AllocRequest
  /-- the voided slot whose void write failed (R21) -/
  voidFailed     : Option Nat
deriving DecidableEq, Repr

/-! ### The capture engine (02_capture.md) -/

/-- The states of Table 2.1. -/
inductive EntryState where
  | lineRead
  | awaitMark
  | awaitSpace
  | recording
  | awaitCommit
  | forwarding
deriving DecidableEq, Repr

/-- A capture queue entry (R28). `id` is the entry number, the model's own (log 18). -/
structure CaptureEntry where
  id        : Nat
  line      : LineAddr
  mask      : ByteMask
  data      : LineData
  initiator : Fin 8
  tag       : Byte
  epoch     : CheckpointNo
  state     : EntryState
  slot      : Option Nat
  oldData   : Option LineData
  recorded  : Bool
deriving DecidableEq, Repr

/-- The hold timer: `timeout` in ms is the one it started with (R3, R41). -/
structure HoldTimer where
  running : Bool
  /-- in µs; 0 when stopped -/
  count   : Nat
  timeout : Nat
deriving DecidableEq, Repr

/-- The capture engine. -/
structure Capture where
  entries       : List CaptureEntry
  nextEntry     : Nat
  filter        : List LineAddr
  spaceWait     : List Nat
  /-- entries in FORWARDING whose held write waits for a place (R35) -/
  forwardWait   : List Nat
  hold          : HoldTimer
  /-- µs since the last entry was created; none when none was created since the last reset (R38) -/
  pacing        : Option Nat
  nearFull      : Bool
  closing       : Option CheckpointNo
  closingBroken : Bool
deriving DecidableEq, Repr

/-! ### The checkpoint controller (03_checkpoints_and_marks.md) -/

/-- The controller state (R49). -/
inductive CtlState where
  | unarmed
  | armed
  | rolling
  | failed
  | adopting
deriving DecidableEq, Repr

/-- The epoch condition (R50). -/
inductive Condition where
  | intact
  | holding
  | broken
deriving DecidableEq, Repr

/-- The last break cause (R50). -/
inductive BreakCause where
  | limit
  | holdTimeout
  | journalWrite
  | exhausted
  | markWrite
deriving DecidableEq, Repr

/-- Where a mark request came from (R52). -/
inductive MarkSource where
  | initiator (number : Fin 8)
  | management
deriving DecidableEq, Repr

/-- The status of a checkpoint (R52). -/
inductive CheckpointStatus where
  | pending
  | established
deriving DecidableEq, Repr

/-- A checkpoint list entry (R52, Table 3.2). -/
structure Checkpoint where
  number   : CheckpointNo
  status   : CheckpointStatus
  markSlot : Option Nat
  markSeq  : Option SeqNo
  value    : BitVec 64
  source   : MarkSource
  captures : BitVec 32
deriving DecidableEq, Repr

/-- Why a mark was refused or failed (R56). -/
inductive MarkReason where
  | state
  | noJournal
  | exhausted
  | journalFull
  | writeError
deriving DecidableEq, Repr

/-- The last refused mark (R56). -/
structure RefusedMark where
  source : MarkSource
  value  : BitVec 64
  reason : MarkReason
deriving DecidableEq, Repr

/-- What the MARK record of the pending checkpoint will carry beside its list entry (R57, R59). -/
structure PendingMark where
  previous : Option CheckpointNo
  restart  : Bool
deriving DecidableEq, Repr

/-- The epoch age timer (R64, R65). -/
structure AgeTimer where
  running : Bool
  /-- in µs -/
  count   : Nat
  /-- in ms -/
  limit   : Nat
  stale   : Bool
deriving DecidableEq, Repr

/-- The checkpoint controller. -/
structure Controller where
  state         : CtlState
  condition     : Condition
  lastBreak     : Option BreakCause
  openEpoch     : Option CheckpointNo
  checkpoints   : List Checkpoint
  pendingMark   : Option PendingMark
  lastRefused   : Option RefusedMark
  age           : AgeTimer
  memorySuspect : Bool
deriving DecidableEq, Repr

/-! ### The rollback engine (04_rollback.md) -/

/-- The phase (R69). -/
inductive Phase where
  | idle
  | waiting
  | retract
  | undo
  | stopped
deriving DecidableEq, Repr

/-- What started the rollback (R69). -/
inductive Origin where
  | line
  | management
deriving DecidableEq, Repr

/-- The checkpoint a rollback returns to (R75). -/
structure Target where
  number : CheckpointNo
  slot   : Nat
  seq    : SeqNo
deriving DecidableEq, Repr

/-- Why a walk stopped (R80, R81). -/
inductive WalkCause where
  | readError
  | check
  | runStamp
  | kind
  | order
  | writeError
deriving DecidableEq, Repr

/-- The failure record (R84). -/
structure Failure where
  slot      : Nat
  cause     : WalkCause
  remaining : Nat
deriving DecidableEq, Repr

/-- Why a FLTREQ request was refused (R74). -/
inductive LineRefusal where
  | noCheckpoint
  | broken
  | state
deriving DecidableEq, Repr

/-- The two line reads of the slot in progress, each once it has completed (R79, R96). -/
structure PairRead where
  header : Option ReadResult
  data   : Option ReadResult
deriving DecidableEq, Repr

/-- The rollback engine (Table 4.1) and the walk's working state. -/
structure Rollback where
  phase        : Phase
  origin       : Option Origin
  ackMark      : Bool
  pendingLine  : Bool
  target       : Option Target
  undoLimit    : Option Nat
  undoPointer  : Option Nat
  lastUndone   : Option SeqNo
  remaining    : Nat
  failure      : Option Failure
  lastRefusal  : Option LineRefusal
  fltreq       : Bool
  pair         : PairRead
  /-- sequence number of the record whose undo write is in progress (R81) -/
  current      : Option SeqNo
  undoWait     : List DownEntry
  /-- entry numbers of cancelled entries whose old-line read is in flight (R77, R78) -/
  readsLeft    : List Nat
deriving DecidableEq, Repr

/-! ### The adoption scanner (05_adoption_after_warm_reset.md) -/

/-- The outcome of a scan (R91). -/
inductive ScanResult where
  | none
  | adopted
  | noAnchor
  | noCheckpoint
deriving DecidableEq, Repr

/-- Why a scan stopped (R91). -/
inductive ScanCause where
  | none
  | check
  | runStamp
  | kind
  | order
  | epoch
  | foreignLine
  | readError
  | wrapped
  | discard
deriving DecidableEq, Repr

/-- The adoption scanner (Table 5.1). `run` numbers the scans, the model's own (log 18). -/
structure Scanner where
  start    : Option Nat
  pointer  : Option Nat
  scanned  : Nat
  lastSlot : Option Nat
  lastSeq  : Option SeqNo
  segment  : Option CheckpointNo
  working  : List Checkpoint
  segBreak : Option RecordCause
  dropped  : BitVec 32
  result   : ScanResult
  endCause : ScanCause
  endSlot  : Option Nat
  pair     : PairRead
  scanWait : List DownEntry
  run      : Nat
deriving DecidableEq, Repr

/-! ### The classifier (06_windows_initiators_and_protection.md) -/

/-- The kinds of window (R108). -/
inductive WindowKind where
  | guarded
  | marker
  | frozen
deriving DecidableEq, Repr

/-- A window entry (R108, Table 6.1); base and size in granules. -/
structure Window where
  enabled : Bool
  kind    : WindowKind
  base    : Nat
  size    : Nat
deriving DecidableEq, Repr

/-- The classes of initiators (R114). -/
inductive InitiatorClass where
  | tracked
  | untracked
  | blocked
deriving DecidableEq, Repr

/-- An initiator entry (R114). -/
structure InitiatorEntry where
  cls        : InitiatorClass
  permission : Bool
deriving DecidableEq, Repr

/-- The causes of a violation (R119). -/
inductive ViolationCause where
  | journalWrite
  | frozenWrite
  | blockedWrite
  | markNotPermitted
deriving DecidableEq, Repr

/-- An entry of the violation list (R119). -/
structure Violation where
  initiator : Fin 8
  tag       : Byte
  line      : LineAddr
  cause     : ViolationCause
deriving DecidableEq, Repr

/-- The classifier. -/
structure Classifier where
  windows       : Vector Window 16
  initiators    : Vector InitiatorEntry 8
  violations    : List Violation
  violationLost : Bool
deriving DecidableEq, Repr

/-! ### The memory path (07_the_memory_path.md) -/

/-- The kinds of response to an initiator (R131); an OKAY to a read carries the line. -/
inductive ResponseKind where
  | okay (data : Option LineData)
  | denied
  | dataError
  | retracted
deriving DecidableEq, Repr

/-- A response delivered to an initiator (R131). -/
structure UpResponse where
  initiator : Fin 8
  tag       : Byte
  kind      : ResponseKind
deriving DecidableEq, Repr

/-- The upstream port and request arbiter. `delivered` is the log of responses, oldest first (log 4). -/
structure Upstream where
  ingress   : Vector (List UpRequest) 8
  credits   : Vector Nat 8
  position  : Fin 8
  delivered : List UpResponse
deriving DecidableEq, Repr

/-- A downstream tag: free, in use, or abandoned at a warm reset (R133, R138). -/
inductive TagState where
  | free
  | inUse (source : Source)
  | abandoned
deriving DecidableEq, Repr

/-- The downstream port. `sent` is the log of requests sent to memory, oldest first (log 4). -/
structure Downstream where
  outgoing    : List DownEntry
  outstanding : Vector TagState 64
  sent        : List (DownTag × DownRequest)
deriving DecidableEq, Repr

/-! ### The alert and status unit (08_alerts_time_base_and_control_lines.md) -/

/-- The twelve alert causes (Table 8.1), in the order of their bits (Table 11.3). -/
inductive AlertCause where
  | nearFull
  | holding
  | broken
  | marked
  | markRefused
  | rollbackDone
  | rollbackFailed
  | rollbackRefused
  | adoptDone
  | violation
  | dataError
  | staleEpoch
deriving DecidableEq, Repr

/-- The alert and status unit. Freeze mask bits: 0 hold timer, 1 pacing measurement, 2 epoch age timer (Table 11.2). -/
structure Alerts where
  latches          : BitVec 12
  mask             : BitVec 12
  capturesWritten  : BitVec 32
  filterHits       : BitVec 32
  filterFull       : BitVec 32
  dataErrors       : BitVec 32
  absorbed         : BitVec 32
  recordsUndone    : BitVec 32
  breakUnrecorded  : Bool
  /-- where the last break that set BREAK_UNRECORDED stands among the sequence numbers (R145, log 24) -/
  unrecordedAt     : SeqNo
  freezeMask       : BitVec 3
  frz              : Bool
deriving DecidableEq, Repr

/-! ### The management port (09_the_management_port.md) -/

/-- The response status codes (Table 9.1), in the order of their numbers (R183). -/
inductive Status where
  | ok
  | started
  | pending
  | noResponse
  | frameError
  | unknown
  | range
  | state
  | armed
  | overlap
  | noJournal
  | noCheckpoint
  | broken
  | busy
  | exhausted
  | journalFull
deriving DecidableEq, Repr

/-- The two commands that can stand in EXECUTING between events (R161). A MARK is `taken` once its mark point has come;
until then its request waits for a pending mark. -/
inductive SlotCommand where
  | mark (value : BitVec 64) (taken : Bool)
  | rollback (depth : Byte)
deriving DecidableEq, Repr

/-- A response held in the response buffer; its OVERRUN flag and frame check follow from the port's flag (R160, R163). -/
structure Response where
  status : Status
  echo   : Byte
  data   : List Byte
deriving DecidableEq, Repr

/-- The command slot (R161). -/
inductive CommandSlot where
  | idle
  | executing (command : SlotCommand)
  | done (response : Response)
deriving DecidableEq, Repr

/-- The frame fixed at the address byte of the read transfer in progress, and whether it is the held response (R157). -/
structure ReadFrame where
  bytes : List Byte
  held  : Bool
deriving DecidableEq, Repr

/-- The management port. -/
structure Port where
  address       : BitVec 7
  receiveBuffer : List Byte
  slot          : CommandSlot
  overrun       : Bool
  reading       : Option ReadFrame
deriving DecidableEq, Repr

/-- The reset inputs, the RBACK output and the strap levels (R150 to R153). -/
structure Lines where
  porstLow : Bool
  wrstLow  : Bool
  rback    : Bool
  straps   : BitVec 2
deriving DecidableEq, Repr

/-! ### The machine -/

/-- The whole machine, and the queue of the commands that wait for it, first in first out. `free` counts the free
values taken (log 7, log 16, log 35). -/
structure State where
  journal  : Journal
  capture  : Capture
  ctl      : Controller
  rollback : Rollback
  scan     : Scanner
  cls      : Classifier
  up       : Upstream
  down     : Downstream
  alerts   : Alerts
  port     : Port
  lines    : Lines
  pending  : List Instr
  free     : Nat
deriving DecidableEq, Repr

/-- The model has no fault: every stop the guide describes (a refused command, a DENIED or DATA_ERROR response, the
FAILED state) is an effect on State, so no meaning raises one. -/
inductive Fault where
deriving DecidableEq, Repr

/-- Why a step can be refused. -/
inductive Refusal where
  /-- Raised by an arm of Dispatch.lean whose command has no meaning yet; safe. No arm raises it now. -/
  | notModelled (mnemonic : String)
deriving DecidableEq, Repr

/-! ### Reset values -/

/-- Table 1.5, after power-on reset. -/
def Journal.reset : Journal :=
  { configured := false
    config := { base := 0, slots := 0, reserve := 0, depth := 0, runStamp := 0, policy := .break_, paceMark := 0,
                pacingInterval := 64, holdTimeout := 10 }
    head := 0, commit := 0, tail := 0, occupancy := 0, seq := 1, nextCheckpoint := 1, exhausted := false
    adoptable := false, trailing := false, slotRecords := [], writeWait := [], allocWait := [], voidFailed := none }

/-- Table 2.2. -/
def Capture.reset : Capture :=
  { entries := [], nextEntry := 0, filter := [], spaceWait := [], forwardWait := []
    hold := { running := false, count := 0, timeout := 0 }
    pacing := none, nearFull := false, closing := none, closingBroken := false }

/-- Table 3.4, after power-on reset. -/
def Controller.reset : Controller :=
  { state := .unarmed, condition := .intact, lastBreak := none, openEpoch := none, checkpoints := [], pendingMark := none
    lastRefused := none, age := { running := false, count := 0, limit := 0, stale := false }, memorySuspect := false }

/-- Table 4.2; the FLTREQ level is set when the reset ends. -/
def Rollback.reset : Rollback :=
  { phase := .idle, origin := none, ackMark := false, pendingLine := false, target := none, undoLimit := none
    undoPointer := none, lastUndone := none, remaining := 0, failure := none, lastRefusal := none, fltreq := false
    pair := { header := none, data := none }, current := none, undoWait := [], readsLeft := [] }

/-- Table 5.3. -/
def Scanner.reset : Scanner :=
  { start := none, pointer := none, scanned := 0, lastSlot := none, lastSeq := none, segment := none, working := []
    segBreak := none, dropped := 0, result := .none, endCause := .none, endSlot := none
    pair := { header := none, data := none }, scanWait := [], run := 0 }

/-- Table 6.3. -/
def Classifier.reset : Classifier :=
  { windows := Vector.replicate 16 { enabled := false, kind := .guarded, base := 0, size := 1 }
    initiators := Vector.replicate 8 { cls := .tracked, permission := false }
    violations := [], violationLost := false }

/-- Table 7.4. -/
def Upstream.reset : Upstream :=
  { ingress := Vector.replicate 8 [], credits := Vector.replicate 8 4, position := 7, delivered := [] }

/-- Table 7.4, after power-on reset. -/
def Downstream.reset : Downstream :=
  { outgoing := [], outstanding := Vector.replicate 64 .free, sent := [] }

/-- R143, R144, R145, R149; the FRZ level is set when the reset ends. -/
def Alerts.reset : Alerts :=
  { latches := 0, mask := 0xFF7#12, capturesWritten := 0, filterHits := 0, filterFull := 0, dataErrors := 0
    absorbed := 0, recordsUndone := 0, breakUnrecorded := false, unrecordedAt := 0, freezeMask := 7#3, frz := false }

/-- Table 9.3, with straps 00. -/
def Port.reset : Port :=
  { address := 0x4C#7, receiveBuffer := [], slot := .idle, overrun := false, reading := none }

/-- The machine right after a power-on reset has ended, with FLTREQ and FRZ low, WRST high and straps 00 (log 15). -/
def State.reset : State :=
  { journal := Journal.reset, capture := Capture.reset, ctl := Controller.reset, rollback := Rollback.reset
    scan := Scanner.reset, cls := Classifier.reset, up := Upstream.reset, down := Downstream.reset
    alerts := Alerts.reset, port := Port.reset
    lines := { porstLow := false, wrstLow := false, rback := false, straps := 0 }
    pending := [], free := 0 }

end Sys2Proof.Machine
end

