-- ==== Sys2Proof/Machine/Operands.lean ====
section
/-! DEFINITION. Operand forms: little-endian bytes, the two check codes, the layout of journal records, and the
codes of frames (R8, R159, R182 to R184). -/

namespace Sys2Proof.Machine

/-! ### Bytes (R182) -/

/-- The low `count` bytes of a value, least significant first. -/
def bytesLE {w : Nat} (count : Nat) (v : BitVec w) : List Byte :=
  (List.range count).map fun k => v.extractLsb' (8 * k) 8

/-- The low `count` bytes of a number, least significant first. -/
def natLE (count n : Nat) : List Byte := bytesLE count (BitVec.ofNat (8 * count) n)

/-- A 32-bit field of four bytes, least significant first. -/
def word32 (b0 b1 b2 b3 : Byte) : BitVec 32 := b3 ++ b2 ++ b1 ++ b0

/-- A 16-bit field of two bytes, least significant first. -/
def word16 (b0 b1 : Byte) : BitVec 16 := b1 ++ b0

/-- A 64-bit field of its low and high halves. -/
def word64 (lo hi : BitVec 32) : BitVec 64 := hi ++ lo

/-- A flag as a bit of a flag byte (R184). -/
def flagBit (b : Bool) (bit : Nat) : Byte := if b then 1#8 <<< bit else 0

/-- A yes or no byte. -/
def boolByte (b : Bool) : Byte := if b then 1 else 0

/-- Zero bytes. -/
def zeros (n : Nat) : List Byte := List.replicate n 0

/-- A slot number, or FFFFFFFFh when it is absent (R182). -/
def slotLE (slot : Option Nat) : List Byte :=
  match slot with
  | some n => natLE 4 n
  | none => bytesLE 4 0xFFFFFFFF#32

/-- The value that stands for NONE or absent in a checkpoint number field (R182). -/
def checkpointField (n : Option CheckpointNo) : BitVec 32 := n.getD 0xFFFFFFFF#32

/-- A 64-bit sequence number, or all ones when it is absent (R182). -/
def seqField (n : Option SeqNo) : BitVec 64 := n.getD 0xFFFFFFFFFFFFFFFF#64

/-! ### The check codes -/

/-- One bit of a cyclic redundancy check: shift left, and combine with the polynomial when the bit shifted out differs
from the data bit (R8, R159). -/
def crcBit {w : Nat} (poly remainder : BitVec w) (bit : Bool) : BitVec w :=
  if remainder.msb ^^ bit then (remainder <<< 1) ^^^ poly else remainder <<< 1

/-- One byte, most significant bit first. -/
def crcByte {w : Nat} (poly remainder : BitVec w) (b : Byte) : BitVec w :=
  [7, 6, 5, 4, 3, 2, 1, 0].foldl (fun r k => crcBit poly r (b.getLsbD k)) remainder

/-- The CRC-32 of the journal's records (R8). -/
def crc32 (bytes : List Byte) : BitVec 32 :=
  ~~~ (bytes.foldl (crcByte 0x04C11DB7#32) 0xFFFFFFFF#32)

/-- The CRC-8 frame check (R159). -/
def crc8 (bytes : List Byte) : Byte :=
  bytes.foldl (crcByte 0x07#8) 0

/-! ### Lines, granules and slots -/

/-- The granule of a line: its address without the low six bits (R108). -/
def granuleOf (line : LineAddr) : Nat := line.toNat / 64

/-- The first line of the journal area. -/
def journalFirstLine (j : Journal) : Nat := j.config.base.toNat / 64

/-- The line of a slot's header or data line (R4). -/
def slotLine (j : Journal) (slot : Nat) (half : Half) : LineAddr :=
  match half with
  | .header => BitVec.ofNat 30 (journalFirstLine j + 2 * slot)
  | .data => BitVec.ofNat 30 (journalFirstLine j + 2 * slot + 1)

/-- The line lies within the journal area, which exists while the journal is configured (R1). -/
def inJournal (j : Journal) (line : LineAddr) : Bool :=
  j.configured && decide (journalFirstLine j ≤ line.toNat) &&
    decide (line.toNat < journalFirstLine j + 2 * j.config.slots)

/-- A whole-line read (R132). -/
def readOf (line : LineAddr) (source : Source) : DownEntry := ⟨⟨line, .read⟩, source⟩

/-- A whole-line write with every byte enabled (R4, R81). -/
def wholeWrite (line : LineAddr) (data : LineData) (source : Source) : DownEntry :=
  ⟨⟨line, .write (-1) data⟩, source⟩

/-! ### Journal records (R4 to R7, R182) -/

/-- What a journal record says, by kind (R5 to R7). The run stamp, the sequence number and the checkpoint number
are common to all (R4). -/
inductive RecordBody where
  | capture (line : LineAddr) (initiator : Fin 8) (oldData : LineData)
  | mark (value : BitVec 64) (source : MarkSource) (previous : Option CheckpointNo) (restart : Bool)
  | brk (cause : RecordCause)
deriving DecidableEq, Repr

/-- A journal record (R4). -/
structure Record where
  runStamp   : BitVec 16
  seq        : SeqNo
  checkpoint : CheckpointNo
  body       : RecordBody
deriving DecidableEq, Repr

/-- The source byte of a MARK record: 00h to 07h, or 80h for MANAGEMENT (Table 11.1). -/
def sourceByte : MarkSource → Byte
  | .initiator n => BitVec.ofNat 8 n.val
  | .management => 0x80#8

/-- A source byte read back: bit 7 set is MANAGEMENT, else bits 0 to 2 (R182). -/
def sourceOfByte (b : Byte) : MarkSource :=
  if b.getLsbD 7 then .management else .initiator ⟨b.toNat % 8, Nat.mod_lt _ (by decide)⟩

/-- The cause byte of a BREAK record (Table 11.1). -/
def causeByte : RecordCause → Byte
  | .limit => 1
  | .holdTimeout => 2
  | .journalWrite => 3

/-- A cause byte read back: any value but 01h and 02h is JOURNAL_WRITE (R182). -/
def causeOfByte (b : Byte) : RecordCause :=
  if b = 1 then .limit else if b = 2 then .holdTimeout else .journalWrite

/-- Header bytes 20 to 59 of a record (Table 11.1), highest offset first. -/
def bodyField : RecordBody → BitVec 320
  | .capture line initiator _ =>
      (0 : BitVec 280) ++ BitVec.ofNat 8 initiator.val ++ (0 : BitVec 2) ++ line
  | .mark value source previous restart =>
      (0 : BitVec 192) ++ checkpointField previous ++ (0 : BitVec 16) ++ boolByte restart ++ sourceByte source ++ value
  | .brk cause => (0 : BitVec 312) ++ causeByte cause

/-- The kind byte (Table 11.1). -/
def kindByte : RecordBody → Byte
  | .capture _ _ _ => 1
  | .mark _ _ _ _ => 2
  | .brk _ => 3

/-- Header bytes 0 to 59 of a record, highest offset first (Table 11.1). -/
def headerFields (r : Record) : BitVec 480 :=
  bodyField r.body ++ r.checkpoint ++ r.seq ++ (0 : BitVec 32) ++ r.runStamp ++ (0 : BitVec 8) ++ kindByte r.body

/-- The data line of a record: the old data of a CAPTURE record, zero for the others (R5 to R7). -/
def recordData (r : Record) : LineData :=
  match r.body with
  | .capture _ _ old => old
  | .mark _ _ _ _ => 0
  | .brk _ => 0

/-- The check code over header bytes 0 to 59 and then the data line (R8). -/
def checkCode (fields : BitVec 480) (data : LineData) : BitVec 32 :=
  crc32 (bytesLE 60 fields ++ bytesLE 64 data)

/-- The header line of a record: its fields and, in its last four bytes, the check code (R8, R182). -/
def recordHeader (r : Record) : LineData :=
  checkCode (headerFields r) (recordData r) ++ headerFields r

/-- The check test of R9. -/
def checkPasses (header data : LineData) : Bool :=
  header.extractLsb' 480 32 == checkCode (header.extractLsb' 0 480) data

/-- The run stamp stored in a header line. -/
def headerRunStamp (header : LineData) : BitVec 16 := header.extractLsb' 16 16

/-- The sequence number stored in a header line. -/
def headerSeq (header : LineData) : SeqNo := header.extractLsb' 64 64

/-- The checkpoint number stored in a header line. -/
def headerCheckpoint (header : LineData) : CheckpointNo := header.extractLsb' 128 32

/-- The record's kind and the fields of that kind, or none when the kind test of R9 fails (R182). The initiator byte of a
CAPTURE record is read modulo 8 (log 36). -/
def decodeBody (header data : LineData) : Option RecordBody :=
  let kind : Byte := header.extractLsb' 0 8
  if kind = 1 then
    some (.capture (header.extractLsb' 160 30)
      ⟨(header.extractLsb' 192 8).toNat % 8, Nat.mod_lt _ (by decide)⟩ data)
  else if kind = 2 then
    let previous : BitVec 32 := header.extractLsb' 256 32
    some (.mark (header.extractLsb' 160 64) (sourceOfByte (header.extractLsb' 224 8))
      (if previous = 0xFFFFFFFF#32 then none else some previous) (header.getLsbD 232))
  else if kind = 3 then some (.brk (causeOfByte (header.extractLsb' 160 8)))
  else none

/-! ### Codes of frames and status data (R183, Table 11.5) -/

/-- Status codes (R183). -/
def statusCode : Status → Byte
  | .ok => 0x00
  | .started => 0x01
  | .pending => 0x02
  | .noResponse => 0x03
  | .frameError => 0x04
  | .unknown => 0x05
  | .range => 0x06
  | .state => 0x07
  | .armed => 0x08
  | .overlap => 0x09
  | .noJournal => 0x0A
  | .noCheckpoint => 0x0B
  | .broken => 0x0C
  | .busy => 0x0D
  | .exhausted => 0x0E
  | .journalFull => 0x0F

/-- A response frame: status with the OVERRUN flag in bit 7, echo, data count, data and frame check (R160, R183). -/
def responseFrame (r : Response) (overrun : Bool) : List Byte :=
  let before := [statusCode r.status ||| flagBit overrun 7, r.echo, BitVec.ofNat 8 r.data.length] ++ r.data
  before ++ [crc8 before]

/-- The number of parameter bytes of each command, by its code; none where the code names no command (Table 11.2). -/
def paramCount (code : Byte) : Option Nat :=
  if code = 0x01 then some 1
  else if code = 0x02 then some 0
  else if code = 0x03 then some 1
  else if code = 0x04 then some 1
  else if code = 0x05 then some 0
  else if code = 0x10 then some 10
  else if code = 0x11 then some 1
  else if code = 0x12 then some 3
  else if code = 0x13 then some 25
  else if code = 0x14 then some 11
  else if code = 0x15 then some 2
  else if code = 0x16 then some 2
  else if code = 0x20 then some 8
  else if code = 0x21 then some 1
  else if code = 0x22 then some 0
  else if code = 0x23 then some 0
  else if code = 0x24 then some 0
  else if code = 0x25 then some 4
  else if code = 0x3F then some 0
  else none

/-- The window kind a parameter byte names (Table 11.2). -/
def kindOfByte (b : Byte) : Option WindowKind :=
  if b = 1 then some .guarded else if b = 2 then some .marker else if b = 3 then some .frozen else none

/-- The byte of a window kind. -/
def windowKindByte : WindowKind → Byte
  | .guarded => 1
  | .marker => 2
  | .frozen => 3

/-- The initiator class a parameter byte names (Table 11.2). -/
def classOfByte (b : Byte) : Option InitiatorClass :=
  if b = 1 then some .tracked else if b = 2 then some .untracked else if b = 3 then some .blocked else none

/-- The byte of an initiator class. -/
def classByte : InitiatorClass → Byte
  | .tracked => 1
  | .untracked => 2
  | .blocked => 3

/-- The overflow policy a parameter byte names (Table 11.2). -/
def policyOfByte (b : Byte) : Option OverflowPolicy :=
  if b = 1 then some .break_ else if b = 2 then some .hold else none

/-- The byte of an overflow policy (Table 11.5). -/
def policyByte : OverflowPolicy → Byte
  | .break_ => 1
  | .hold => 2

/-- The byte of a violation cause (Table 11.4). -/
def violationByte : ViolationCause → Byte
  | .journalWrite => 1
  | .frozenWrite => 2
  | .blockedWrite => 3
  | .markNotPermitted => 4

/-- Table 11.5. -/
def ctlStateByte : CtlState → Byte
  | .unarmed => 0
  | .armed => 1
  | .rolling => 2
  | .failed => 3
  | .adopting => 4

/-- Table 11.5. -/
def conditionByte : Condition → Byte
  | .intact => 0
  | .holding => 1
  | .broken => 2

/-- Table 11.5. -/
def breakByte : Option BreakCause → Byte
  | none => 0
  | some .limit => 1
  | some .holdTimeout => 2
  | some .journalWrite => 3
  | some .exhausted => 4
  | some .markWrite => 5

/-- Table 11.5. -/
def markReasonByte : MarkReason → Byte
  | .state => 1
  | .noJournal => 2
  | .exhausted => 3
  | .journalFull => 4
  | .writeError => 5

/-- Table 11.5. -/
def phaseByte : Phase → Byte
  | .idle => 0
  | .waiting => 1
  | .retract => 2
  | .undo => 3
  | .stopped => 4

/-- Table 11.5. -/
def originByte : Option Origin → Byte
  | none => 0
  | some .line => 1
  | some .management => 2

/-- Table 11.5. -/
def walkCauseByte : WalkCause → Byte
  | .readError => 1
  | .check => 2
  | .runStamp => 3
  | .kind => 4
  | .order => 5
  | .writeError => 6

/-- Table 11.5. -/
def refusalByte : Option LineRefusal → Byte
  | none => 0
  | some .noCheckpoint => 1
  | some .broken => 2
  | some .state => 3

/-- Table 11.5. -/
def scanResultByte : ScanResult → Byte
  | .none => 0
  | .adopted => 1
  | .noAnchor => 2
  | .noCheckpoint => 3

/-- Table 11.5. -/
def scanCauseByte : ScanCause → Byte
  | .none => 0
  | .check => 1
  | .runStamp => 2
  | .kind => 3
  | .order => 4
  | .epoch => 5
  | .foreignLine => 6
  | .readError => 7
  | .wrapped => 8
  | .discard => 9

/-- The status byte of a checkpoint list entry (Table 11.4). -/
def checkpointStatusByte : CheckpointStatus → Byte
  | .pending => 1
  | .established => 2

end Sys2Proof.Machine
end

