-- ==== Sys2Proof/Machine/Flags.lean ====
section
/-! DEFINITION. The alert latches, the counters and the status flags (R140 to R145), and the queries on State that
other rules are stated in. -/

namespace Sys2Proof.Machine

/-! ### Latches (R140) -/

/-- The bit of a cause (Table 11.3). -/
def alertBit : AlertCause → BitVec 12
  | .nearFull => 0x001#12
  | .holding => 0x002#12
  | .broken => 0x004#12
  | .marked => 0x008#12
  | .markRefused => 0x010#12
  | .rollbackDone => 0x020#12
  | .rollbackFailed => 0x040#12
  | .rollbackRefused => 0x080#12
  | .adoptDone => 0x100#12
  | .violation => 0x200#12
  | .dataError => 0x400#12
  | .staleEpoch => 0x800#12

/-- Sets a cause's latch; a latch already set stays set (R140). -/
def latch (c : AlertCause) (s : State) : State :=
  { s with alerts := { s.alerts with latches := s.alerts.latches ||| alertBit c } }

/-- ALERT is pulled low while a cause has its latch set and its enable on (R141). -/
def alertLow (s : State) : Bool := s.alerts.latches &&& s.alerts.mask != 0

/-! ### Counters (R144) -/

/-- A saturating increase. -/
def satInc (c : BitVec 32) : BitVec 32 := if c = 0xFFFFFFFF#32 then c else c + 1

/-- One more data error, with its alert (R31, R36, R136). -/
def countDataError (s : State) : State :=
  latch .dataError { s with alerts := { s.alerts with dataErrors := satInc s.alerts.dataErrors } }

/-- One more absorbed fault request (R71). -/
def countAbsorbed (s : State) : State :=
  { s with alerts := { s.alerts with absorbed := satInc s.alerts.absorbed } }

/-- One more capture written (R34). -/
def countCaptureWritten (s : State) : State :=
  { s with alerts := { s.alerts with capturesWritten := satInc s.alerts.capturesWritten } }

/-! ### BREAK_UNRECORDED (R145) -/

/-- Sets the flag for a break that stands at `at_` among the sequence numbers; the latest such break counts
(log 24). -/
def setUnrecorded (at_ : SeqNo) (s : State) : State :=
  { s with alerts :=
    { s.alerts with
      breakUnrecorded := true
      unrecordedAt :=
        if s.alerts.breakUnrecorded && decide (at_ < s.alerts.unrecordedAt) then s.alerts.unrecordedAt else at_ } }

/-- An established mark clears the flag when its MARK slot was allocated after the last break that set it. -/
def clearUnrecorded (markSeq : SeqNo) (s : State) : State :=
  if s.alerts.unrecordedAt ≤ markSeq then
    { s with alerts := { s.alerts with breakUnrecorded := false, unrecordedAt := 0 } }
  else s

/-! ### Free values -/

/-- A free value is taken (log 7, log 16). -/
def takeFree (s : State) : State := { s with free := s.free + 1 }

/-! ### Queries -/

/-- PORST or WRST holds the unit in reset (R150, R151). -/
def held (s : State) : Bool := s.lines.porstLow || s.lines.wrstLow

/-- The gate on guarded windows (R127). -/
def gateClosed (s : State) : Bool :=
  match s.ctl.state with
  | .unarmed => false
  | .armed => false
  | .rolling => true
  | .failed => true
  | .adopting => true

/-- The capture limit (R1): slots less reserve, 0 while the journal is not configured. -/
def captureLimit (j : Journal) : Nat := if j.configured then j.config.slots - j.config.reserve else 0

/-- The slot after `n` in ring order. -/
def nextSlot (j : Journal) (n : Nat) : Nat := if n + 1 < j.config.slots then n + 1 else 0

/-- The slot before `n` in ring order. -/
def prevSlot (j : Journal) (n : Nat) : Nat := if n = 0 then j.config.slots - 1 else n - 1

/-- The number of slots from `a` up to, but not including, `b`, in ring order; less than the number of slots. -/
def ringDistance (j : Journal) (a b : Nat) : Nat := (b + j.config.slots - a) % j.config.slots

/-- The records of the slots from the commit point to the tail, in ring order: those not forgotten. -/
def liveRecords (j : Journal) : List SlotRecord := j.slotRecords.filter fun r => !r.forgotten

/-- Both line writes of the slot have completed (R14). -/
def SlotRecord.settled (r : SlotRecord) : Bool := r.header != .outstanding && r.data != .outstanding

/-- A settled slot with an error (R14). -/
def SlotRecord.failed (r : SlotRecord) : Bool := r.header == .error || r.data == .error

/-- The slot at the tail still has line writes outstanding from an earlier allocation (R13). -/
def tailBlocked (j : Journal) : Bool := j.slotRecords.any fun r => r.forgotten && r.slot == j.tail

/-- The checkpoint list holds a PENDING entry (R55). -/
def hasPending (s : State) : Bool := s.ctl.checkpoints.any fun c => c.status == .pending

/-- The PENDING entry (at most one, the newest; R52). -/
def pendingEntry (s : State) : Option Checkpoint := s.ctl.checkpoints.find? fun c => c.status == .pending

/-- Either counter stands at its largest value, or the exhausted flag is set (R11, R54 step 3). -/
def countersSpent (j : Journal) : Bool :=
  j.exhausted || j.seq == 0xFFFFFFFFFFFFFFFF#64 || j.nextCheckpoint == 0xFFFFFFFF#32

/-- No slot can be allocated: the sequence counter is spent or the exhausted flag is set (R11). -/
def allocationSpent (j : Journal) : Bool := j.exhausted || j.seq == 0xFFFFFFFFFFFFFFFF#64

/-- The capture entry with an entry number. -/
def entryOf (s : State) (id : Nat) : Option CaptureEntry := s.capture.entries.find? fun e => e.id == id

/-- The line has a capture queue entry (R24). -/
def lineHeld (s : State) (line : LineAddr) : Bool := s.capture.entries.any fun e => e.line == line

/-- The window that holds a granule, if one does (R108). -/
def windowOf (s : State) (granule : Nat) : Option Window :=
  s.cls.windows.toList.find? fun w => w.enabled && decide (w.base ≤ granule) && decide (granule < w.base + w.size)

/-- The line lies in an enabled GUARDED window (R80, R97). -/
def lineGuarded (s : State) (line : LineAddr) : Bool :=
  match windowOf s (granuleOf line) with
  | some w => w.kind == .guarded
  | none => false

/-- A timer is frozen while FRZ is high and its bit of the freeze mask is set (R147). -/
def frozen (s : State) (bit : Nat) : Bool := s.alerts.frz && s.alerts.freezeMask.getLsbD bit

/-- Pacing is in force (R38). -/
def pacingInForce (s : State) : Bool :=
  s.journal.config.paceMark != 0 && decide (s.journal.config.paceMark ≤ s.journal.occupancy)

/-- The pacing interval in force has elapsed (R38, R3). -/
def pacingElapsed (s : State) : Bool :=
  match s.capture.pacing with
  | none => true
  | some n => decide (s.journal.config.pacingInterval ≤ n)

end Sys2Proof.Machine
end

