-- ==== Sys2Proof/Machine/Classify.lean ====
section
/-! DEFINITION. The classifier's judgement of a request and the conditions that hold a head request (R23, R24, R115 to
R117, R126, R137). -/

namespace Sys2Proof.Machine

/-- What a request's line belongs to (R115). -/
inductive Place where
  | journalArea
  | window (kind : WindowKind)
  | ordinary
deriving DecidableEq, Repr

/-- The three cases of R115, in order. -/
def targetOf (s : State) (line : LineAddr) : Place :=
  if inJournal s.journal line then .journalArea
  else match windowOf s (granuleOf line) with
    | some w => .window w.kind
    | none => .ordinary

/-- The treatment of an accepted request (Table 6.2, R117), a capture-path write being a filter hit or a miss (R24). -/
inductive Treatment where
  | pass (guarded : Bool)
  | passUnpermitted
  | passMark (value : BitVec 64)
  | denied (cause : ViolationCause)
  | filterHit
  | capture (mask : ByteMask) (data : LineData)
deriving DecidableEq, Repr

/-- The request would request a mark (R117). -/
def Treatment.requestsMark : Treatment → Bool
  | .pass _ => false
  | .passUnpermitted => false
  | .passMark _ => true
  | .denied _ => false
  | .filterHit => false
  | .capture _ _ => false

/-- The write's mask enables all of the first 8 bytes (R117). -/
def markerCell (mask : ByteMask) : Bool := mask.extractLsb' 0 8 == 0xFF#8

/-- The entry of an initiator (R114). -/
def initiatorOf (s : State) (n : Fin 8) : InitiatorEntry := s.cls.initiators[n.val]

/-- The capture path is open: ARMED with the condition INTACT or HOLDING (R23). -/
def capturing (s : State) : Bool := s.ctl.state == .armed && s.ctl.condition != .broken

/-- The treatment of a write to a GUARDED window, by class (R116). -/
def guardedWrite (s : State) (r : UpRequest) (mask : ByteMask) (data : LineData) : Treatment :=
  match (initiatorOf s r.initiator).cls with
  | .untracked => .pass true
  | .blocked => .denied .blockedWrite
  | .tracked =>
      if capturing s then
        if s.capture.filter.contains r.line then .filterHit else .capture mask data
      else .pass true

/-- The treatment of a write to a MARKER window (R117). The marker value is the first 8 bytes (R53). -/
def markerWrite (s : State) (r : UpRequest) (mask : ByteMask) (data : LineData) : Treatment :=
  if markerCell mask then
    if (initiatorOf s r.initiator).permission then .passMark (data.extractLsb' 0 64) else .passUnpermitted
  else .pass false

/-- The treatment a request receives (Table 6.2). -/
def treatment (s : State) (r : UpRequest) : Treatment :=
  match r.access with
  | .read => .pass (targetOf s r.line == .window .guarded)
  | .write mask data =>
      match targetOf s r.line with
      | .journalArea => .denied .journalWrite
      | .ordinary => .pass false
      | .window .frozen => .denied .frozenWrite
      | .window .marker => markerWrite s r mask data
      | .window .guarded => guardedWrite s r mask data

/-- The hold reasons (R137). -/
inductive HoldReason where
  | empty
  | gate
  | line
  | markPending
  | captureFull
  | pacing
  | downstreamFull
  | none
deriving DecidableEq, Repr

/-- Table 11.5. -/
def holdReasonByte : HoldReason → Byte
  | .empty => 0
  | .gate => 1
  | .line => 2
  | .markPending => 3
  | .captureFull => 4
  | .pacing => 5
  | .downstreamFull => 6
  | .none => 7

/-- A request that needs a place in the outgoing queue (R126, R137). -/
def needsPlace (s : State) : HoldReason :=
  if s.down.outgoing.length < Config.outgoingPlaces then .none else .downstreamFull

/-- The first condition of R137 that holds for a request at the head of its queue. -/
def requestHold (s : State) (r : UpRequest) : HoldReason :=
  if gateClosed s && targetOf s r.line == .window .guarded then .gate
  else if lineHeld s r.line then .line
  else match treatment s r with
    | .denied _ => .none
    | .passMark _ => if hasPending s then .markPending else needsPlace s
    | .capture _ _ =>
        if Config.captureEntries ≤ s.capture.entries.length then .captureFull
        else if pacingInForce s && !pacingElapsed s then .pacing
        else needsPlace s
    | .pass _ => needsPlace s
    | .passUnpermitted => needsPlace s
    | .filterHit => needsPlace s

/-- The hold reason of an initiator's head request (R137). -/
def holdReason (s : State) (n : Fin 8) : HoldReason :=
  match s.up.ingress[n.val] with
  | [] => .empty
  | r :: _ => requestHold s r

end Sys2Proof.Machine
end

