-- ==== Sys2Proof/Machine/Ops.lean ====
section
/-! DEFINITION. The shared operations of the blocks on their queues: the outgoing queue and the downstream tags,
responses, capture entries on their way to memory, the hold, and the journal's slots (R13 to R20, R34 to R47). -/

namespace Sys2Proof.Machine

/-! ### The downstream port (R132, R133) -/

/-- The outgoing queue has `k` free places. -/
def hasRoom (s : State) (k : Nat) : Bool := decide (s.down.outgoing.length + k ≤ Config.outgoingPlaces)

/-- Places one request in the outgoing queue. -/
def enqueue (e : DownEntry) (s : State) : State :=
  { s with down := { s.down with outgoing := s.down.outgoing ++ [e] } }

/-- The state of a downstream tag. -/
def tagState (s : State) (tag : DownTag) : TagState := s.down.outstanding[tag.val]

/-- Sets a downstream tag. -/
def setTag (tag : DownTag) (x : TagState) (s : State) : State :=
  { s with down := { s.down with outstanding := s.down.outstanding.set tag.val x } }

/-- Some request in the outgoing queue or at memory comes from a source that `p` selects. -/
def anyInFlight (p : Source → Bool) (s : State) : Bool :=
  (s.down.outgoing.any fun e => p e.source) ||
  (s.down.outstanding.toList.any fun t => match t with
    | .free => false
    | .inUse src => p src
    | .abandoned => false)

/-- Places requests in order while there is room, and gives back those that wait (R79, R96). -/
def placeWhileRoom : List DownEntry → State → List DownEntry × State
  | [], s => ([], s)
  | e :: rest, s => if hasRoom s 1 then placeWhileRoom rest (enqueue e s) else (e :: rest, s)

/-- A block's requests enter behind those of its own that wait already (R132). -/
def submit (waiting new : List DownEntry) (s : State) : List DownEntry × State :=
  match waiting with
  | [] => placeWhileRoom new s
  | e :: rest => (e :: rest ++ new, s)

/-! ### Responses -/

/-- Delivers a response to an initiator (R131). -/
def deliver (initiator : Fin 8) (tag : Byte) (kind : ResponseKind) (s : State) : State :=
  { s with up := { s.up with delivered := s.up.delivered ++ [⟨initiator, tag, kind⟩] } }

/-- Places a response in the response buffer; the slot becomes DONE (R161). -/
def respond (status : Status) (echo : Byte) (data : List Byte) (s : State) : State :=
  { s with port := { s.port with slot := .done ⟨status, echo, data⟩ } }

/-- The command stays in EXECUTING (R161). -/
def keepExecuting (c : SlotCommand) (s : State) : State :=
  { s with port := { s.port with slot := .executing c } }

/-- Answers the MARK command whose own mark is pending, if the slot holds one (R61, R62). -/
def answerMark (status : Status) (data : List Byte) (s : State) : State :=
  match s.port.slot with
  | .executing (.mark _ true) => respond status 0x20 data s
  | _ => s

/-! ### Capture entries (R28, R35) -/

/-- Changes one entry. -/
def updateEntry (id : Nat) (f : CaptureEntry → CaptureEntry) (s : State) : State :=
  { s with capture :=
    { s.capture with entries := s.capture.entries.map fun e => if e.id == id then f e else e } }

/-- Frees an entry. -/
def freeEntry (id : Nat) (s : State) : State :=
  { s with capture := { s.capture with entries := s.capture.entries.filter fun e => e.id != id } }

/-- The entry has not reached RECORDING (R44, R46). -/
def CaptureEntry.early (e : CaptureEntry) : Bool :=
  match e.state with
  | .lineRead => true
  | .awaitMark => true
  | .awaitSpace => true
  | .recording => false
  | .awaitCommit => false
  | .forwarding => false

/-- An entry's held write as a request to memory, unchanged in data, mask and line (R35). -/
def heldWrite (e : CaptureEntry) : DownEntry := ⟨⟨e.line, .write e.mask e.data⟩, .forwarded e.id⟩

/-- A held write is queued, or waits behind those that wait for a place (R35, R132). -/
def queueHeld (e : CaptureEntry) (s : State) : State :=
  if s.capture.forwardWait.isEmpty && hasRoom s 1 then enqueue (heldWrite e) s
  else { s with capture := { s.capture with forwardWait := s.capture.forwardWait ++ [e.id] } }

/-- The entry enters FORWARDING (R35). -/
def forwardEntry (e : CaptureEntry) (recorded : Bool) (s : State) : State :=
  queueHeld e (updateEntry e.id (fun x => { x with state := .forwarding, recorded := recorded }) s)

/-- The hold ends when no entry waits for space: the timer stops, and HOLDING returns to INTACT (R42). -/
def endHold (s : State) : State :=
  if s.capture.spaceWait.isEmpty then
    { s with
      capture := { s.capture with hold := { running := false, count := 0, timeout := 0 } }
      ctl := { s.ctl with condition := if s.ctl.condition = .holding then .intact else s.ctl.condition } }
  else s

/-- Takes entries off the space wait list and off the waiting allocations. -/
def stopWaiting (ids : List Nat) (s : State) : State :=
  { s with
    capture := { s.capture with spaceWait := s.capture.spaceWait.filter fun id => !ids.contains id }
    journal := { s.journal with allocWait := s.journal.allocWait.filter fun r => match r with
      | .capture id => !ids.contains id
      | .mark => true
      | .brk _ _ => true } }

/-- Sends the entries that `p` selects and that have not reached RECORDING to forwarding without a record, in the order
of their acceptance (R46, R47; log 19). -/
def letGo (p : CaptureEntry → Bool) (s : State) : State :=
  let gone := s.capture.entries.filter fun e => e.early && p e
  endHold (gone.foldl (fun s e => forwardEntry e false s) (stopWaiting (gone.map (·.id)) s))

/-! ### Slots (R13, R14, R39) -/

/-- The near-full flag is set and NEAR_FULL latched (R39). -/
def noteNearFull (s : State) : State := latch .nearFull { s with capture := { s.capture with nearFull := true } }

/-- The change of occupancy from `old` reaches the pace mark with the near-full flag clear (R39). -/
def reachesPaceMark (old : Nat) (s : State) : Bool :=
  s.journal.occupancy != old && s.journal.config.paceMark != 0 &&
  decide (s.journal.config.paceMark ≤ s.journal.occupancy) && !s.capture.nearFull

/-- The occupancy count itself. -/
def putOccupancy (n : Nat) (s : State) : State := { s with journal := { s.journal with occupancy := n } }

/-- A change of occupancy, which the capture engine compares with the pace mark (R39). -/
def setOccupancy (n : Nat) (s : State) : State :=
  if reachesPaceMark s.journal.occupancy (putOccupancy n s) then noteNearFull (putOccupancy n s) else putOccupancy n s

/-- Queues a slot's two line writes together, header line first, or holds them behind those that wait (R14, R132). -/
def queuePair (header data : DownEntry) (s : State) : State :=
  if s.journal.writeWait.isEmpty && hasRoom s 2 then enqueue data (enqueue header s)
  else { s with journal := { s.journal with writeWait := s.journal.writeWait ++ [(header, data)] } }

/-- The record of the next slot: the requester's fields with the common ones (R4, R14). -/
def nextRecord (s : State) (checkpoint : CheckpointNo) (body : RecordBody) : Record :=
  { runStamp := s.journal.config.runStamp, seq := s.journal.seq, checkpoint := checkpoint, body := body }

/-- The slot at the tail is given out with the next sequence number (R13). -/
def takeSlot (owner : SlotOwner) (s : State) : State :=
  let j := s.journal
  let r : SlotRecord :=
    { slot := j.tail, seq := j.seq, owner := owner, header := .outstanding, data := .outstanding, forgotten := false }
  { s with journal := { j with seq := j.seq + 1, tail := nextSlot j j.tail, slotRecords := j.slotRecords ++ [r] } }

/-- The header-line write of a record (R14). -/
def headerWrite (s : State) (slot : Nat) (r : Record) : DownEntry :=
  wholeWrite (slotLine s.journal slot .header) (recordHeader r) (.journal slot .header)

/-- The data-line write of a record (R14). -/
def dataWrite (s : State) (slot : Nat) (r : Record) : DownEntry :=
  wholeWrite (slotLine s.journal slot .data) (recordData r) (.journal slot .data)

/-- Allocates the slot at the tail to a record of the given owner, checkpoint number and body, and writes it
(R13, R14). -/
def allocateSlot (owner : SlotOwner) (checkpoint : CheckpointNo) (body : RecordBody) (s : State) : State :=
  let r := nextRecord s checkpoint body
  queuePair (headerWrite s s.journal.tail r) (dataWrite s s.journal.tail r)
    (setOccupancy (s.journal.occupancy + 1) (takeSlot owner s))

/-! ### Exhaustion (R11) -/

/-- The condition becomes BROKEN with cause EXHAUSTED, without a record (R11, R145). -/
def noteExhaustedBreak (s : State) : State :=
  latch .broken (setUnrecorded s.journal.seq
    { s with ctl := { s.ctl with condition := .broken, lastBreak := some .exhausted } })

/-- The break of counter exhaustion: taken while ARMED with the condition INTACT or HOLDING; it writes no record. -/
def exhaustBreak (s : State) : State :=
  if s.ctl.state = .armed ∧ s.ctl.condition ≠ .broken then letGo (fun _ => true) (noteExhaustedBreak s) else s

/-- The exhausted flag is set. -/
def setExhausted (s : State) : State := { s with journal := { s.journal with exhausted := true } }

/-- The journal becomes exhausted; an event that finds it exhausted already changes nothing. -/
def enterExhaustion (s : State) : State :=
  if s.journal.exhausted then s else exhaustBreak (setExhausted s)

/-! ### Trailing head and release (R17, R18) -/

/-- The MARK slot at which a trailing head stops, once it is allocated. -/
def trailStop (s : State) : Option Nat :=
  match s.ctl.checkpoints with
  | c :: _ => c.markSlot
  | [] => none

/-- Slots from head to the commit point. -/
def committedSlots (j : Journal) : Nat := j.occupancy - (liveRecords j).length

/-- The slots a trailing head can pass: up to the commit point, or to the MARK slot if that comes first (R18). -/
def trailCount (s : State) : Nat :=
  match trailStop s with
  | some m => min (committedSlots s.journal) (ringDistance s.journal s.journal.head m)
  | none => committedSlots s.journal

/-- The head moves to a slot, trailing on or not (R17, R18). -/
def moveHead (head : Nat) (trailing : Bool) (s : State) : State :=
  { s with journal := { s.journal with head := head, trailing := trailing } }

/-- A trailing head moves up to the commit point, or to the MARK slot if that comes first; trailing ends there (R18). -/
def trailStep (s : State) : State :=
  if s.journal.trailing then
    let head := (s.journal.head + trailCount s) % s.journal.config.slots
    setOccupancy (s.journal.occupancy - trailCount s) (moveHead head (trailStop s != some head) s)
  else s

/-- Trailing begins (R18). -/
def startTrailing (s : State) : State := trailStep (moveHead s.journal.head true s)

/-- The checkpoint list is set. -/
def setList (l : List Checkpoint) (s : State) : State := { s with ctl := { s.ctl with checkpoints := l } }

/-- The oldest checkpoint leaves the list and its segment is released: the head moves to the next checkpoint's MARK slot,
or trails when none is left (R17, R18, R58). -/
def releaseOldest (s : State) : State :=
  match s.ctl.checkpoints with
  | _ :: next :: rest =>
      match next.markSlot with
      | some m =>
          setOccupancy (s.journal.occupancy - ringDistance s.journal s.journal.head m)
            (moveHead m s.journal.trailing (setList (next :: rest) s))
      | none => setList (next :: rest) s
  | _ => startTrailing (setList [] s)

/-! ### Emptying (R20, R47) -/

/-- The pointers of an emptied journal; slots with writes outstanding are forgotten (R20). An allocation request that waited is
dropped, a BREAK among them without a record and without BREAK_UNRECORDED (log 8). -/
def forgetSlots (s : State) : State :=
  let j := s.journal
  { s with journal :=
    { j with
      head := j.tail, commit := j.tail, adoptable := false, trailing := false, allocWait := [], voidFailed := none
      slotRecords := (j.slotRecords.filter fun r => !r.settled).map fun r => { r with forgotten := true } } }

/-- The journal is emptied: head and commit point move to the tail, occupancy is 0, ADOPTABLE is cleared, and slots
with writes outstanding are forgotten (R20). -/
def emptyJournal (s : State) : State := setOccupancy 0 (forgetSlots s)

/-- The order of slots in the ring, taken from the tail, where the oldest slot of a full ring stands: the slot of `a` comes no
later than that of `b` (R12, R35). -/
def slotNoLater (j : Journal) (a b : CaptureEntry) : Bool :=
  decide (ringDistance j j.tail (a.slot.getD 0) ≤ ringDistance j j.tail (b.slot.getD 0))

/-- Entries in the order of their slots (R35). -/
def inSlotOrder (j : Journal) (l : List CaptureEntry) : List CaptureEntry :=
  l.insertionSort fun a b => slotNoLater j a b = true

/-- The entries that an emptying sends to forwarding, in the order in which they enter it: those in AWAIT_COMMIT in the order of
their slots (R35, R132), and then those without a slot in the order of their acceptance (log 19). -/
def leavingOrder (s : State) : List CaptureEntry :=
  inSlotOrder s.journal (s.capture.entries.filter fun e => e.state == .awaitCommit) ++
  s.capture.entries.filter CaptureEntry.early

/-- How one entry responds to an emptying: without a slot it forwards without a record, in AWAIT_COMMIT it forwards at
once, and in RECORDING it waits until its writes have completed (R47). -/
def releaseEntry (s : State) (e : CaptureEntry) : State :=
  if e.early then forwardEntry e false s
  else if e.state = .awaitCommit then forwardEntry e e.recorded s
  else s

/-- The space wait list empties (R47). -/
def clearSpace (s : State) : State := { s with capture := { s.capture with spaceWait := [] } }

/-- How the capture entries respond to an emptying (R47); one in RECORDING stays. -/
def releaseAfterEmptying (s : State) : State := endHold ((leavingOrder s).foldl releaseEntry (clearSpace s))

/-- Entry into UNARMED: no checkpoint, condition INTACT, no open epoch, the epoch age timer at zero, the near-full flag
clear, the phase IDLE until the event's end judges the requests that wait (R39, R49 to R51, R64, R69). -/
def enterUnarmed (s : State) : State :=
  { s with
    ctl := { s.ctl with
      state := .unarmed, condition := .intact, openEpoch := none, checkpoints := [], pendingMark := none
      age := { s.ctl.age with running := false, count := 0 } }
    rollback := { s.rollback with phase := .idle }
    capture := { s.capture with nearFull := false, closing := none, closingBroken := false } }

/-- The capture filter is cleared (R27). -/
def clearFilter (s : State) : State := { s with capture := { s.capture with filter := [] } }

/-- The epoch age timer restarts from zero, which clears its stale flag (R64). -/
def restartAge (s : State) : State :=
  { s with ctl := { s.ctl with age := { s.ctl.age with running := true, count := 0, stale := false } } }

end Sys2Proof.Machine
end

