-- ==== Sys2Proof/Machine/Marks.lean ====
section
/-! DEFINITION. Shared operations of breaks, allocation requests and marks: what R13, R33, R40 to R47 and R54 to R62 say
of them, once for every command that reaches them. -/

namespace Sys2Proof.Machine

/-! ### Breaks (R44, R45) -/

/-- The allocation requests that wait. -/
def setWaiting (l : List AllocRequest) (s : State) : State := { s with journal := { s.journal with allocWait := l } }

/-- The break cause of a BREAK record as the controller records it (R50). -/
def breakOfRecord : RecordCause → BreakCause
  | .limit => .limit
  | .holdTimeout => .holdTimeout
  | .journalWrite => .journalWrite

/-- No BREAK record is written for a break; BREAK_UNRECORDED is set (R13, R145). -/
def refuseBreak (s : State) : State := setUnrecorded s.journal.seq s

/-- Judges a request for a BREAK slot (Table 1.4). -/
def judgeBreak (epoch : CheckpointNo) (cause : RecordCause) (s : State) : State :=
  if allocationSpent s.journal then refuseBreak (enterExhaustion s)
  else if s.journal.occupancy < s.journal.config.slots then allocateSlot .brk epoch (.brk cause) s
  else refuseBreak s

/-- The waiting requests with one more: at the back, or, where its record is of the closing epoch, before a waiting MARK
request, whose record it precedes (R13, R45, R60; log 10). -/
def insertBreak (closing : Bool) (r : AllocRequest) (waiting : List AllocRequest) : List AllocRequest :=
  if closing then waiting.takeWhile (· != .mark) ++ [r] ++ waiting.dropWhile (· != .mark) else waiting ++ [r]

/-- Requests a BREAK slot for the closing epoch or for the open one. The record of the open epoch lies after its MARK record
(R44), so that its request, where it must wait, joins the back (R13). -/
def requestBreak (closing : Bool) (epoch : CheckpointNo) (cause : RecordCause) (s : State) : State :=
  if tailBlocked s.journal || !s.journal.allocWait.isEmpty then
    setWaiting (insertBreak closing (.brk epoch cause) s.journal.allocWait) s
  else judgeBreak epoch cause s

/-- The condition becomes BROKEN, and the controller records the cause (R44, R50). -/
def noteOpenBreak (cause : RecordCause) (s : State) : State :=
  { s with ctl := { s.ctl with condition := .broken, lastBreak := some (breakOfRecord cause) } }

/-- The entries a break sends to forwarding: those of the broken epoch, and every entry that waits for space
(R44, R45). -/
def breakReaches (epoch : CheckpointNo) (e : CaptureEntry) : Bool := e.epoch == epoch || e.state == .awaitSpace

/-- A break of the open epoch (R44). -/
def breakOpen (cause : RecordCause) (s : State) : State :=
  let epoch := checkpointField s.ctl.openEpoch
  latch .broken (requestBreak false epoch cause (letGo (breakReaches epoch) (noteOpenBreak cause s)))

/-- The closing epoch has broken, and the controller records the cause (R45, R50). -/
def noteClosingBreak (cause : RecordCause) (s : State) : State :=
  { s with
    ctl := { s.ctl with lastBreak := some (breakOfRecord cause) }
    capture := { s.capture with closingBroken := true } }

/-- The pending mark becomes a restart, which drops every older checkpoint (R45, R59). -/
def pendingRestarts (s : State) : State :=
  { s with ctl := { s.ctl with
    checkpoints := s.ctl.checkpoints.filter fun c => c.status == .pending
    pendingMark := s.ctl.pendingMark.map fun p => { p with restart := true } } }

/-- A break of the closing epoch: its early entries go without records, a BREAK record is asked for, and the pending mark
becomes a restart (R45, R59). -/
def breakClosing (epoch : CheckpointNo) (cause : RecordCause) (s : State) : State :=
  startTrailing (pendingRestarts (latch .broken (requestBreak true epoch cause
    (letGo (breakReaches epoch) (noteClosingBreak cause s)))))

/-- A break raised by the capture engine (R44, R45): not taken outside ARMED, nor against an epoch already broken. -/
def raiseBreak (cause : RecordCause) (s : State) : State :=
  if s.ctl.state = .armed then
    match s.capture.closing with
    | none => if s.ctl.condition = .broken then s else breakOpen cause s
    | some epoch => if s.capture.closingBroken then s else breakClosing epoch cause s
  else s

/-! ### CAPTURE slots (R32, R33, R40, R41) -/

/-- The capture count of the checkpoint whose number a CAPTURE record carries (R52). -/
def countCapture (number : CheckpointNo) (s : State) : State :=
  { s with ctl := { s.ctl with checkpoints := s.ctl.checkpoints.map fun c =>
    if c.number == number then { c with captures := satInc c.captures } else c } }

/-- An entry leaves the space wait list (R41). -/
def leaveSpace (id : Nat) (s : State) : State :=
  { s with capture := { s.capture with spaceWait := s.capture.spaceWait.filter fun x => x != id } }

/-- A CAPTURE slot is granted: the entry enters RECORDING with it (R33). -/
def grantCapture (e : CaptureEntry) (s : State) : State :=
  endHold (countCapture e.epoch
    (updateEntry e.id (fun x => { x with state := .recording, slot := some s.journal.tail })
      (leaveSpace e.id (allocateSlot (.capture e.id) e.epoch (.capture e.line e.initiator (e.oldData.getD 0)) s))))

/-- The entry enters AWAIT_SPACE at the back of the space wait list (R41). -/
def enterSpace (id : Nat) (s : State) : State :=
  let s := updateEntry id (fun x => { x with state := .awaitSpace }) s
  { s with capture := { s.capture with spaceWait := s.capture.spaceWait ++ [id] } }

/-- The hold begins: the condition becomes HOLDING and the hold timer starts (R41). -/
def beginHold (s : State) : State :=
  latch .holding
    { s with
      ctl := { s.ctl with condition := .holding }
      capture := { s.capture with hold := { running := true, count := 0, timeout := s.journal.config.holdTimeout } } }

/-- The entry joins the space wait list; the first to join begins the hold (R41). -/
def joinSpace (id : Nat) (s : State) : State :=
  if s.capture.spaceWait.contains id then s
  else if s.capture.spaceWait.isEmpty then beginHold (enterSpace id s)
  else enterSpace id s

/-- Judges an entry's request for a CAPTURE slot (Table 1.4, R33). -/
def judgeCapture (id : Nat) (s : State) : State :=
  match entryOf s id with
  | none => s
  | some e =>
      if !e.early then s
      else if allocationSpent s.journal then
        letGo (fun x => x.id == id) (exhaustBreak (enterExhaustion s))
      else if s.journal.occupancy < captureLimit s.journal then grantCapture e s
      else match s.journal.config.policy with
        | .break_ => letGo (fun x => x.id == id) (raiseBreak .limit s)
        | .hold => joinSpace id s

/-- An entry asks the journal manager for a CAPTURE slot; the request waits while the tail's slot still has writes
outstanding, or behind requests that wait (R13). -/
def requestCapture (id : Nat) (s : State) : State :=
  if tailBlocked s.journal || !s.journal.allocWait.isEmpty then
    setWaiting (s.journal.allocWait ++ [.capture id]) s
  else judgeCapture id s

/-- An entry that has not reached RECORDING is ready to ask; while others wait for space it joins them instead
(R33). -/
def askCapture (id : Nat) (s : State) : State :=
  match entryOf s id with
  | none => s
  | some e =>
      if !e.early then s
      else if s.capture.spaceWait.isEmpty then requestCapture id s
      else joinSpace id s

/-- Slots are granted to the space wait list, from its front, while occupancy stays below the capture limit (R41). -/
def grantSpace : Nat → State → State
  | 0, s => s
  | n + 1, s =>
    match s.capture.spaceWait with
    | [] => s
    | id :: _ =>
      if s.journal.occupancy < captureLimit s.journal ∧ s.journal.allocWait.contains (.capture id) = false then
        grantSpace n (requestCapture id s)
      else s

/-! ### The end of a mark (R61, R62) -/

/-- The PENDING entry becomes ESTABLISHED, and MEMORY_SUSPECT is cleared (R61, R67). -/
def setEstablished (s : State) : State :=
  { s with ctl := { s.ctl with
    checkpoints := s.ctl.checkpoints.map fun x =>
      if x.status == .pending then { x with status := .established } else x
    pendingMark := none
    memorySuspect := false } }

/-- The pending checkpoint becomes ESTABLISHED (R61). -/
def establish (c : Checkpoint) (s : State) : State :=
  answerMark .ok (bytesLE 4 c.number ++ bytesLE 8 (seqField c.markSeq))
    (latch .marked (restartAge (clearUnrecorded (seqField c.markSeq) (setEstablished s))))

/-- The response a failed mark gives its MARK command (R62). -/
def failStatus : MarkReason → Status
  | .state => .state
  | .noJournal => .noJournal
  | .exhausted => .exhausted
  | .journalFull => .journalFull
  | .writeError => .broken

/-- The condition becomes BROKEN with cause MARK_WRITE, unless it is BROKEN already or the break was that of exhaustion
(R62). -/
def breakCondition (reason : MarkReason) (s : State) : State :=
  if s.ctl.condition = .broken ∨ reason = .exhausted then s
  else { s with ctl := { s.ctl with condition := .broken, lastBreak := some .markWrite } }

/-- What a failed MARK record leaves when older checkpoints remain: a break without a record (R62). -/
def breakByMark (reason : MarkReason) (s : State) : State :=
  letGo (fun _ => true) (latch .broken (breakCondition reason s))

/-- The PENDING entry is removed, and the last refused mark replaced; the closing epoch ends with its mark (R62). -/
def removePending (c : Checkpoint) (reason : MarkReason) (s : State) : State :=
  { s with
    ctl := { s.ctl with
      checkpoints := s.ctl.checkpoints.filter fun x => x.status != .pending
      pendingMark := none
      lastRefused := some ⟨c.source, c.value, reason⟩ }
    capture := { s.capture with closing := none, closingBroken := false } }

/-- Every checkpoint is gone: the journal is emptied, the filter cleared, the entries let go and the state UNARMED
(R20, R27, R47, R62, R66). -/
def dropCheckpoints (s : State) : State := enterUnarmed (releaseAfterEmptying (clearFilter (emptyJournal s)))

/-- The pending mark fails (R62). -/
def failMark (reason : MarkReason) (s : State) : State :=
  match pendingEntry s with
  | none => s
  | some c =>
      let s := answerMark (failStatus reason) [] (latch .markRefused (removePending c reason s))
      if s.ctl.checkpoints.isEmpty then dropCheckpoints s else breakByMark reason s

/-! ### The MARK slot (R60) -/

/-- The PENDING entry records its MARK slot and sequence, and the closing epoch ends (R60). -/
def placeMark (slot : Nat) (seq : SeqNo) (s : State) : State :=
  { s with
    ctl := { s.ctl with checkpoints := s.ctl.checkpoints.map fun x =>
      if x.status == .pending then { x with markSlot := some slot, markSeq := some seq } else x }
    capture := { s.capture with closing := none, closingBroken := false } }

/-- The entries in AWAIT_MARK ask for CAPTURE slots in the order of their acceptance (R32). -/
def askWaiting (s : State) : State :=
  ((s.capture.entries.filter fun e => e.state == .awaitMark).map (·.id)).foldl (fun s id => askCapture id s) s

/-- The MARK record of the PENDING entry (R60). -/
def markBody (c : Checkpoint) (s : State) : RecordBody :=
  let p := s.ctl.pendingMark.getD { previous := none, restart := false }
  .mark c.value c.source p.previous p.restart

/-- The MARK slot is granted: the closing epoch ends, a trailing head may stop, and the entries in AWAIT_MARK ask
(R32, R60). -/
def grantMark (c : Checkpoint) (s : State) : State :=
  askWaiting (trailStep (placeMark s.journal.tail s.journal.seq (allocateSlot .mark c.number (markBody c s) s)))

/-- Judges the request for the MARK slot (Table 1.4, R60). -/
def judgeMark (s : State) : State :=
  match pendingEntry s with
  | none => s
  | some c =>
      if allocationSpent s.journal then failMark .exhausted (enterExhaustion s)
      else if s.journal.occupancy < s.journal.config.slots then grantMark c s
      else failMark .journalFull s

/-- Requests the MARK slot (R60, R13). -/
def requestMark (s : State) : State :=
  if tailBlocked s.journal || !s.journal.allocWait.isEmpty then
    setWaiting (s.journal.allocWait ++ [.mark]) s
  else judgeMark s

/-- Every record of the closing epoch has been allocated, or its entry has gone to forwarding without one: none of its
entries is in LINE_READ or AWAIT_SPACE, nor in AWAIT_MARK, where its request for a slot still waits for a forgotten slot's
writes (R13, R37). -/
def closingClear (s : State) : Bool :=
  match s.capture.closing with
  | none => true
  | some epoch => s.capture.entries.all fun e => !(e.epoch == epoch && e.early)

/-- The capture engine's report at the end of an event: the MARK slot of a pending mark is requested once the closing
epoch is clear (R37, R60). -/
def reportClosing (s : State) : State :=
  match pendingEntry s with
  | none => s
  | some c =>
      if c.markSlot = none ∧ s.journal.allocWait.contains .mark = false ∧ closingClear s = true then requestMark s
      else s

/-- Freed space is granted, and then the closing report is given: a MARK request comes after any slot that its own event
allocates (R41, R60). -/
def afterSpace (s : State) : State := reportClosing (grantSpace s.capture.spaceWait.length s)

/-- Judges an allocation request (R13). -/
def judgeRequest (r : AllocRequest) (s : State) : State :=
  match r with
  | .capture id => judgeCapture id s
  | .mark => judgeMark s
  | .brk epoch cause => judgeBreak epoch cause s

/-- Judges the allocation requests that waited, in order, until one must wait again (R13). -/
def judgeWaiting : Nat → State → State
  | 0, s => s
  | n + 1, s =>
    match s.journal.allocWait with
    | [] => s
    | r :: rest =>
      if tailBlocked s.journal then s
      else
        judgeWaiting n (judgeRequest r (setWaiting rest s))

/-! ### Mark requests and the mark point (R54 to R59) -/

/-- How a mark request is judged (R54). -/
inductive MarkVerdict where
  | refused (reason : MarkReason)
  | held
  | taken
deriving DecidableEq, Repr

/-- The four steps of R54. -/
def markVerdict (s : State) : MarkVerdict :=
  if gateClosed s then .refused .state
  else if !s.journal.configured then .refused .noJournal
  else if countersSpent s.journal then .refused .exhausted
  else if hasPending s then .held
  else .taken

/-- The last refused mark is replaced, and MARK_REFUSED latched (R56). -/
def noteRefused (source : MarkSource) (value : BitVec 64) (reason : MarkReason) (s : State) : State :=
  latch .markRefused { s with ctl := { s.ctl with lastRefused := some ⟨source, value, reason⟩ } }

/-- A mark request is refused; a refusal for exhaustion may be the event that enters it (R11, R56). -/
def refuseMark (source : MarkSource) (value : BitVec 64) (reason : MarkReason) (s : State) : State :=
  noteRefused source value reason (if reason = .exhausted then enterExhaustion s else s)

/-- What happens to the older checkpoints at a mark point: a restart from BROKEN drops them all and the head trails; any
other mark releases the oldest when the list is at depth (R57 to R59). -/
def makeRoom (restart : Bool) (s : State) : State :=
  if restart then if s.ctl.checkpoints.isEmpty then s else startTrailing (setList [] s)
  else if s.journal.config.depth ≤ s.ctl.checkpoints.length then releaseOldest s
  else s

/-- The capture engine's part of a mark point: the filter and the near-full flag are cleared, and an epoch that a mark
other than a restart closes is the closing epoch (R37, R57). -/
def closeEpoch (restart : Bool) (s : State) : State :=
  { s with capture := { s.capture with
    filter := [], nearFull := false, closing := if restart then none else s.ctl.openEpoch, closingBroken := false } }

/-- The controller's part of a mark point: the state is ARMED, and the new PENDING entry is the open epoch (R57). -/
def appendPending (source : MarkSource) (value : BitVec 64) (pending : PendingMark) (entersArmed : Bool) (s : State) :
    State :=
  let number := s.journal.nextCheckpoint
  { s with
    journal := { s.journal with
      nextCheckpoint := number + 1, adoptable := s.journal.adoptable || entersArmed }
    ctl := { s.ctl with
      state := .armed
      condition := if s.capture.spaceWait.isEmpty then .intact else s.ctl.condition
      openEpoch := some number
      checkpoints := s.ctl.checkpoints ++
        [{ number := number, status := .pending, markSlot := none, markSeq := none, value := value, source := source
           captures := 0 }]
      pendingMark := some pending } }

/-- The mark point (R57): one event with the effects of R37 and R57 to R59. The MARK slot is asked for by the closing
report at the end of the event. -/
def markPoint (source : MarkSource) (value : BitVec 64) (s : State) : State :=
  let fromUnarmed : Bool := s.ctl.state == .unarmed
  let restart : Bool := fromUnarmed || s.ctl.condition == .broken
  let previous := if fromUnarmed then none else s.ctl.openEpoch
  appendPending source value { previous := previous, restart := restart } fromUnarmed
    (makeRoom restart (closeEpoch restart s))

/-- A marker write's mark request, judged at acceptance (R53, R54). -/
def requestMarkFrom (source : MarkSource) (value : BitVec 64) (s : State) : State :=
  match markVerdict s with
  | .refused reason => refuseMark source value reason s
  | .held => s
  | .taken => markPoint source value s

/-- The response of a MARK command refused by R54 (R63). -/
def refuseStatus (s : State) : MarkReason → Status
  | .state => if s.ctl.state = .failed then .state else .busy
  | .noJournal => .noJournal
  | .exhausted => .exhausted
  | .journalFull => .journalFull
  | .writeError => .broken

/-- Judges a MARK command's request, when it is taken and again when its wait ends (R55, R173). -/
def judgeMarkCommand (value : BitVec 64) (s : State) : State :=
  match markVerdict s with
  | .refused reason => respond (refuseStatus s reason) 0x20 [] (refuseMark .management value reason s)
  | .held => keepExecuting (.mark value false) s
  | .taken => markPoint .management value (keepExecuting (.mark value true) s)

/-! ### Slots that settle, and the commit point (R15, R16, R34) -/

/-- The commit point tells a slot's owner (R15). -/
def tellOwner (r : SlotRecord) (s : State) : State :=
  match r.owner with
  | .capture id =>
      match entryOf s id with
      | some e => if e.state = .awaitCommit then forwardEntry e e.recorded s else s
      | none => s
  | .mark =>
      match pendingEntry s with
      | some c => if r.failed = false ∧ c.markSlot = some r.slot then establish c s else s
      | none => s
  | .brk => s

/-- The commit point moves past a settled slot; passing the slot whose void write failed sets ADOPTABLE again
(R15, R21). -/
def moveCommit (r : SlotRecord) (s : State) : State :=
  let j := s.journal
  let voided := j.voidFailed == some r.slot
  { s with journal := { j with
    commit := nextSlot j j.commit
    slotRecords := j.slotRecords.erase r
    adoptable := j.adoptable || voided
    voidFailed := if voided then none else j.voidFailed } }

/-- The commit point passes a settled slot: its owner is told (R15), and a trailing head follows (R18). -/
def passSlot (r : SlotRecord) (s : State) : State := trailStep (tellOwner r (moveCommit r s))

/-- The commit point advances over the settled slots that follow it (R15). -/
def passSettled : Nat → State → State
  | 0, s => s
  | n + 1, s =>
    match liveRecords s.journal with
    | [] => s
    | r :: _ => if r.settled then passSettled n (passSlot r s) else s

/-- The commit point stands still in ROLLING and FAILED (R15). -/
def advanceCommit (s : State) : State :=
  match s.ctl.state with
  | .rolling => s
  | .failed => s
  | .unarmed => passSettled s.journal.slotRecords.length s
  | .armed => passSettled s.journal.slotRecords.length s
  | .adopting => passSettled s.journal.slotRecords.length s

/-- A settled slot is reported to its owner, before the commit point passes it (R16, R34). -/
def reportSettled (r : SlotRecord) (s : State) : State :=
  match r.owner with
  | .capture id =>
      let s := updateEntry id (fun e => if e.state = .recording then { e with state := .awaitCommit } else e) s
      if r.failed then raiseBreak .journalWrite s
      else if (entryOf s id).isSome then countCaptureWritten s
      else s
  | .mark =>
      match pendingEntry s with
      | some c => if r.failed = true ∧ c.markSlot = some r.slot then failMark .writeError s else s
      | none => s
  | .brk => if r.failed then setUnrecorded r.seq s else s

/-- The bookkeeping of a slot goes. -/
def eraseSlot (r : SlotRecord) (s : State) : State :=
  { s with journal := { s.journal with slotRecords := s.journal.slotRecords.erase r } }

/-- A forgotten slot's writes have completed: its record goes, and the capture entry that holds it forwards
(R20, R47). -/
def dropForgotten (r : SlotRecord) (s : State) : State :=
  match r.owner with
  | .capture id =>
      match entryOf s id with
      | some e => if e.state = .recording then forwardEntry e e.recorded (eraseSlot r s) else eraseSlot r s
      | none => eraseSlot r s
  | .mark => eraseSlot r s
  | .brk => eraseSlot r s

/-- One line write of a slot has completed (R14). -/
def SlotRecord.complete (half : Half) (error : Bool) (r : SlotRecord) : SlotRecord :=
  let w : WriteState := if error then .error else .ok
  match half with
  | .header => { r with header := w }
  | .data => { r with data := w }

/-- Replaces the bookkeeping of a slot. -/
def replaceSlot (r r' : SlotRecord) (s : State) : State :=
  { s with journal := { s.journal with slotRecords := s.journal.slotRecords.map fun x => if x = r then r' else x } }

/-- A journal line write completes: the slot may settle, and the commit point may advance (R14 to R16, R20). -/
def journalWriteDone (slot : Nat) (half : Half) (error : Bool) (s : State) : State :=
  match s.journal.slotRecords.find? fun r => r.slot == slot with
  | none => s
  | some r =>
      let r' := r.complete half error
      let s := replaceSlot r r' s
      if r'.settled then
        if r'.forgotten then dropForgotten r' s else advanceCommit (reportSettled r' s)
      else s

end Sys2Proof.Machine
end

