-- ==== Sys2Proof/Machine/Rollback.lean ====
section
/-! DEFINITION. Shared operations of rollback: the start and the retraction, the undo walk, the settle and the failure, the
judgement of waiting requests, and what every event ends with (R70 to R88). -/

namespace Sys2Proof.Machine

/-! ### The start (R75, R77) -/

/-- The entries a rollback cancels: those not in FORWARDING (R77). -/
def CaptureEntry.cancellable (e : CaptureEntry) : Bool := e.state != .forwarding

/-- The cancelled entries are freed, the space wait list empties and the hold timer stops; the old-line reads they leave
in flight are noted (R47, R77). -/
def dropCancelled (s : State) : State :=
  { s with
    capture := { s.capture with
      entries := s.capture.entries.filter fun e => !e.cancellable
      spaceWait := []
      hold := { running := false, count := 0, timeout := 0 } }
    journal := { s.journal with allocWait := s.journal.allocWait.filter fun r => match r with
      | .capture _ => false
      | .mark => true
      | .brk _ _ => true }
    rollback := { s.rollback with
      readsLeft := (s.capture.entries.filter fun e => e.cancellable && e.state == .lineRead && e.oldData.isNone).map
        (·.id) } }

/-- Every entry that has not reached FORWARDING is answered RETRACTED and freed, in the order of acceptance (R77;
log 19). -/
def retractEntries (s : State) : State :=
  dropCancelled ((s.capture.entries.filter CaptureEntry.cancellable).foldl
    (fun s e => deliver e.initiator e.tag .retracted s) s)

/-- The engine and the controller at the start event (R75). -/
def fixTarget (origin : Origin) (c : Checkpoint) (s : State) : State :=
  let target : Target := { number := c.number, slot := c.markSlot.getD 0, seq := seqField c.markSeq }
  let limit := s.journal.commit
  { s with
    ctl := { s.ctl with
      state := .rolling, condition := .intact, age := { s.ctl.age with running := false } }
    alerts := { s.alerts with recordsUndone := 0 }
    rollback := { s.rollback with
      phase := .retract, origin := some origin, ackMark := origin == .line, target := some target
      undoLimit := some limit, undoPointer := none, lastUndone := none, failure := none, current := none
      pair := { header := none, data := none }, undoWait := []
      remaining := ringDistance s.journal (nextSlot s.journal target.slot) limit } }

/-- The start event of a rollback to an ESTABLISHED checkpoint (R75). The retraction's end is judged when the event ends
(R78). -/
def startRollback (origin : Origin) (c : Checkpoint) (s : State) : State := retractEntries (fixTarget origin c s)

/-! ### The settle (R19, R83) -/

/-- The tail and the commit point move back to the slot after a MARK slot (R19). -/
def moveTailBack (slot : Nat) (s : State) : State :=
  let j := s.journal
  { s with journal :=
    { j with
      tail := nextSlot j slot, commit := nextSlot j slot
      slotRecords := j.slotRecords.filter fun r => r.forgotten } }

/-- Truncation: the tail and the commit point move back to the slot after the target's MARK slot, and occupancy is
recounted (R19). -/
def truncate (slot : Nat) (s : State) : State :=
  setOccupancy (ringDistance s.journal s.journal.head slot + 1) (moveTailBack slot s)

/-- The target's epoch is open again: what every block takes at a settle, after the truncation (R83). -/
def reopenTarget (t : Target) (voidFailed : Bool) (s : State) : State :=
  { s with
    journal := { s.journal with
      adoptable := !voidFailed, voidFailed := if voidFailed then some (nextSlot s.journal t.slot) else none }
    capture := { s.capture with filter := [], nearFull := false }
    ctl := { s.ctl with
      state := .armed, condition := .intact, openEpoch := some t.number
      checkpoints := s.ctl.checkpoints.map fun c =>
        if c.number == t.number then { c with captures := 0 } else c }
    rollback := { s.rollback with
      phase := .idle, ackMark := false, undoPointer := some t.slot, remaining := 0, current := none }
    lines := { s.lines with rback := s.lines.rback || (s.rollback.ackMark && s.rollback.fltreq) } }

/-- The settle event; `voidFailed` says that a void write completed with an error (R79, R83). -/
def settle (voidFailed : Bool) (s : State) : State :=
  match s.rollback.target with
  | none => s
  | some t => latch .rollbackDone (restartAge (reopenTarget t voidFailed (truncate t.slot s)))

/-! ### The walk (R78 to R82, R84) -/

/-- Places requests of the rollback engine, behind those of its own that wait for room (R79, R132). -/
def undoSubmit (new : List DownEntry) (s : State) : State :=
  let (waiting, s) := submit s.rollback.undoWait new s
  { s with rollback := { s.rollback with undoWait := waiting } }

/-- A slot's reads begin: neither line has been read. -/
def clearPair (s : State) : State :=
  { s with rollback := { s.rollback with pair := { header := none, data := none }, current := none } }

/-- The two line reads of a slot of the walk, header line first (R79). -/
def readSlot (slot : Nat) (s : State) : State :=
  undoSubmit
    [readOf (slotLine s.journal slot .header) (.undoRead slot .header),
     readOf (slotLine s.journal slot .data) (.undoRead slot .data)] (clearPair s)

/-- The write that voids the header line of the slot after the target's MARK slot (R79). -/
def placeVoidWrite (target : Nat) (s : State) : State :=
  let slot := nextSlot s.journal target
  undoSubmit [wholeWrite (slotLine s.journal slot .header) 0 (.voidWrite slot)] s

/-- The phase becomes UNDO with the pointer at a slot (R78). -/
def enterUndo (pointer : Nat) (s : State) : State :=
  { s with rollback := { s.rollback with phase := .undo, undoPointer := some pointer } }

/-- The retraction has ended: the walk begins at the slot before the undo limit, or the rollback settles when there is
nothing to walk (R78, R79). -/
def beginUndo (s : State) : State :=
  match s.rollback.undoLimit with
  | none => s
  | some limit =>
      let pointer := prevSlot s.journal limit
      if s.rollback.remaining = 0 then settle false (enterUndo pointer s) else readSlot pointer (enterUndo pointer s)

/-- Everything the retraction waits for has completed (R78). -/
def retractionDone (s : State) : Bool :=
  s.capture.entries.isEmpty && (liveRecords s.journal).all SlotRecord.settled && s.rollback.readsLeft.isEmpty &&
  !anyInFlight (fun src => match src with
    | .passed _ _ _ guarded => guarded
    | .oldLine _ => false
    | .forwarded _ => false
    | .journal _ _ => false
    | .undoRead _ _ => false
    | .undoWrite _ => false
    | .voidWrite _ => false
    | .scanRead _ _ _ => false) s

/-- In RETRACT, the walk begins once the retraction is done (R78). -/
def checkRetraction (s : State) : State :=
  if s.rollback.phase = .retract ∧ retractionDone s = true then beginUndo s else s

/-- The four changes when a slot of the walk is done (R79). -/
def countSlot (seq : SeqNo) (pointer : Nat) (s : State) : State :=
  { s with
    alerts := { s.alerts with recordsUndone := satInc s.alerts.recordsUndone }
    rollback := { s.rollback with
      lastUndone := some seq, remaining := s.rollback.remaining - 1, undoPointer := some pointer, current := none } }

/-- A slot of the walk is done: the pointer moves back, and at the target's MARK slot the void write follows (R79). -/
def slotDone (seq : SeqNo) (s : State) : State :=
  match s.rollback.target, s.rollback.undoPointer with
  | some t, some p =>
      let back := prevSlot s.journal p
      if s.rollback.remaining ≤ 1 then placeVoidWrite t.slot (countSlot seq back s) else readSlot back (countSlot seq back s)
  | _, _ => s

/-- The failure record, and the state FAILED (R84). -/
def noteFailure (slot : Nat) (cause : WalkCause) (s : State) : State :=
  { s with
    ctl := { s.ctl with state := .failed }
    rollback := { s.rollback with
      phase := .stopped, current := none
      failure := some { slot := slot, cause := cause, remaining := s.rollback.remaining } } }

/-- The walk stops: the state becomes FAILED (R84). -/
def stopWalk (cause : WalkCause) (s : State) : State :=
  match s.rollback.undoPointer with
  | none => s
  | some p => latch .rollbackFailed (noteFailure p cause s)

/-- The order test of the walk (R80). -/
def walkOrder (s : State) (t : Target) (seq : SeqNo) : Bool :=
  decide (t.seq < seq) &&
  match s.rollback.lastUndone with
  | some last => decide (seq < last)
  | none => decide (seq < s.journal.seq)

/-- The list entry that a MARK record of the walk matches (R80, place test). -/
def matchesMark (number : CheckpointNo) (slot : Nat) (seq : SeqNo) (c : Checkpoint) : Bool :=
  c.number == number && c.markSlot == some slot && c.markSeq == some seq

/-- The undo write of a CAPTURE record (R81). -/
def placeUndoWrite (slot : Nat) (seq : SeqNo) (line : LineAddr) (old : LineData) (s : State) : State :=
  undoSubmit [wholeWrite line old (.undoWrite slot)] { s with rollback := { s.rollback with current := some seq } }

/-- The list entries that a MARK record of the walk matches are removed (R82). -/
def removeMatched (number : CheckpointNo) (slot : Nat) (seq : SeqNo) (s : State) : State :=
  setList (s.ctl.checkpoints.filter fun c => !matchesMark number slot seq c) s

/-- What the walk does with a record that has passed the tests but the place test, by kind (R80 to R82). -/
def undoRecord (slot : Nat) (seq : SeqNo) (number : CheckpointNo) (body : RecordBody) (s : State) : State :=
  match body with
  | .capture line _ old => if lineGuarded s line then placeUndoWrite slot seq line old s else stopWalk .kind s
  | .mark _ _ _ _ =>
      if s.ctl.checkpoints.any (matchesMark number slot seq) then slotDone seq (removeMatched number slot seq s)
      else stopWalk .kind s
  | .brk _ => stopWalk .kind s

/-- What the walk does with the two lines of a slot: the tests of R80 in order, then R81 or R82 by kind. -/
def undoSlot (header data : LineData) (s : State) : State :=
  match s.rollback.target, s.rollback.undoPointer with
  | some t, some p =>
      if !checkPasses header data then stopWalk .check s
      else if headerRunStamp header ≠ s.journal.config.runStamp then stopWalk .runStamp s
      else match decodeBody header data with
        | none => stopWalk .kind s
        | some body =>
            if walkOrder s t (headerSeq header) then undoRecord p (headerSeq header) (headerCheckpoint header) body s
            else stopWalk .order s
  | _, _ => s

/-- Records the completion of one of a pair of line reads. -/
def PairRead.store (half : Half) (result : ReadResult) (p : PairRead) : PairRead :=
  match half with
  | .header => { p with header := some result }
  | .data => { p with data := some result }

/-- One of the walk's two line reads is recorded (R79). -/
def storePair (half : Half) (result : ReadResult) (s : State) : State :=
  { s with rollback := { s.rollback with pair := s.rollback.pair.store half result } }

/-- Acts on the slot once both of its lines have been read (R80; log 21). -/
def judgePair (s : State) : State :=
  match s.rollback.pair.header, s.rollback.pair.data with
  | some (.ok header), some (.ok data) => undoSlot header data s
  | some _, some _ => stopWalk .readError s
  | _, _ => s

/-- One of the walk's two line reads has completed; when both have, the record is tested (R79, R80). -/
def undoReadDone (half : Half) (result : ReadResult) (s : State) : State := judgePair (storePair half result s)

/-! ### Requests and refusals (R70 to R74) -/

/-- A FLTREQ request is refused (R74). -/
def refuseLine (reason : LineRefusal) (s : State) : State :=
  latch .rollbackRefused { s with rollback := { s.rollback with lastRefusal := some reason } }

/-- A FLTREQ edge is absorbed (R71). -/
def absorbEdge (s : State) : State := countAbsorbed s

/-- Whether a line request is pending (R71). -/
def setLineRequest (present : Bool) (s : State) : State :=
  { s with rollback := { s.rollback with pendingLine := present } }

/-- A FLTREQ edge is absorbed by a rollback in progress, whose acknowledge mark is set (R71). -/
def absorbInRolling (s : State) : State :=
  absorbEdge { s with rollback := { s.rollback with ackMark := true } }

/-- A line request in ARMED, judged by R70 at depth 1; it becomes the pending line request where it has to wait. -/
def judgeArmedLine (s : State) : State :=
  if hasPending s then setLineRequest true s
  else if s.ctl.condition = .broken then refuseLine .broken s
  else match s.ctl.checkpoints.getLast? with
    | some c => startRollback .line c s
    | none => refuseLine .noCheckpoint s

/-- Judges a line request: an edge when it is seen, and a pending one when its wait ends (R70, R71, R73). -/
def judgeLine (s : State) : State :=
  match s.ctl.state with
  | .unarmed => refuseLine .noCheckpoint (setLineRequest false s)
  | .armed => judgeArmedLine (setLineRequest false s)
  | .rolling => absorbInRolling (setLineRequest false s)
  | .failed => refuseLine .state (setLineRequest false s)
  | .adopting => setLineRequest true s

/-- Judges a ROLLBACK command, when it is taken and again when its wait ends (R70, R72, R73). -/
def judgeRollback (depth : Byte) (s : State) : State :=
  match s.ctl.state with
  | .rolling => respond .busy 0x21 [] s
  | .adopting => respond .busy 0x21 [] s
  | .failed => respond .state 0x21 [] s
  | .unarmed => respond .noCheckpoint 0x21 [] s
  | .armed =>
      if depth.toNat = 0 ∨ 4 < depth.toNat then respond .range 0x21 [] s
      else if hasPending s then keepExecuting (.rollback depth) s
      else if s.ctl.condition = .broken then respond .broken 0x21 [] s
      else match s.ctl.checkpoints.reverse[depth.toNat - 1]? with
        | none => respond .range 0x21 [] s
        | some c => startRollback .management c (respond .started 0x21 (bytesLE 4 c.number) s)

/-! ### The end of an event -/

/-- The command that waits for the pending mark, if the slot holds one (R55, R73). -/
def waitingCommand (s : State) : Option SlotCommand :=
  match s.port.slot with
  | .executing (.mark value false) => some (.mark value false)
  | .executing (.rollback depth) => some (.rollback depth)
  | _ => none

/-- Judges the waiting command afresh (R55, R73). -/
def judgeCommand (c : SlotCommand) (s : State) : State :=
  match c with
  | .mark value _ => judgeMarkCommand value s
  | .rollback depth => judgeRollback depth s

/-- When no mark is pending and no scan runs, one waiting request is judged; of a line request and a command, a free value
says which (R55, R73; log 7). -/
def judgeWaiter (s : State) : State :=
  if hasPending s ∨ s.ctl.state = .adopting then s
  else match s.rollback.pendingLine, waitingCommand s with
    | false, none => s
    | true, none => judgeLine s
    | false, some c => judgeCommand c s
    | true, some c =>
        if Config.lineFirst s.free then judgeLine (takeFree s) else judgeCommand c (takeFree s)

/-- A line request or a ROLLBACK command waits (R73). -/
def rollbackWaits (s : State) : Bool :=
  s.rollback.pendingLine || (match s.port.slot with
    | .executing (.rollback _) => true
    | _ => false)

/-- The phase is WAITING while a line request or a ROLLBACK command waits, and IDLE otherwise, outside ROLLING and FAILED
(R69, R73). -/
def setPhase (s : State) : State :=
  if s.ctl.state = .rolling ∨ s.ctl.state = .failed then s
  else { s with rollback := { s.rollback with phase := if rollbackWaits s then .waiting else .idle } }

/-- A marker write that would request a mark stands at the head of an ingress queue (R55, Table 7.2). -/
def markerWaits (s : State) : Bool :=
  s.up.ingress.toList.any fun queue => match queue with
    | [] => false
    | r :: _ => (treatment s r).requestsMark

/-- In ARMED, where a mark has ended, a marker write that it held may be taken before a request that waits here (R55, R73). -/
def markerMayLead (s : State) : Bool :=
  s.ctl.state == .armed && !hasPending s && (s.rollback.pendingLine || (waitingCommand s).isSome) && markerWaits s

/-- The waiting requests come to their turn. Where a marker write may be taken before them, a free value says whether it is;
they then go on waiting, and the end of a later event asks again (R55, R73, R180; log 35). -/
def inTurn (judge : State → State) (s : State) : State :=
  if markerMayLead s then if Config.markerFirst s.free then takeFree s else judge (takeFree s) else judge s

/-- One waiting request is judged, and what follows from it is granted. -/
def judgeNext (s : State) : State := afterSpace (judgeWaiter s)

/-- The end of a retraction is judged, and the phase set (R69, R78). -/
def closeEvent (s : State) : State := setPhase (checkRetraction s)

/-- What an event that may free space, clear the closing epoch, end a wait or end a retraction ends with: space is granted
and the closing report given, the waiting requests are judged in their turn (there are at most two), and the retraction's
end is judged (R41, R55, R60, R73, R78; log 9, log 35). -/
def finish (s : State) : State :=
  closeEvent (inTurn (fun s => inTurn judgeNext (judgeNext s)) (afterSpace s))

/-- The end of an event of a scan, likewise: a line request that the adoption held is judged when the adoption ends, which is
before any marker write (R71). -/
def finishScan (s : State) : State := closeEvent (judgeNext (judgeNext (afterSpace s)))

end Sys2Proof.Machine
end

