-- ==== Sys2Proof/Machine/Adoption.lean ====
section
/-! DEFINITION. Shared operations of the adoption scan: its start, the tests of a record, what an accepted record
changes, and the ends of a scan (R91 to R106). -/

namespace Sys2Proof.Machine

/-! ### Reading a slot (R95, R96) -/

/-- Places requests of the scanner, behind those of its own that wait for room (R96, R132). -/
def scanSubmit (new : List DownEntry) (s : State) : State :=
  let (waiting, s) := submit s.scan.scanWait new s
  { s with scan := { s.scan with scanWait := waiting } }

/-- The two line reads of a slot, header line first (R95, R96). -/
def readScanSlot (slot : Nat) (s : State) : State :=
  scanSubmit
    [readOf (slotLine s.journal slot .header) (.scanRead s.scan.run slot .header),
     readOf (slotLine s.journal slot .data) (.scanRead s.scan.run slot .data)]
    { s with scan := { s.scan with pair := { header := none, data := none } } }

/-- The scan starts (R93); the near-full flag is cleared (R39). -/
def startScan (start : Nat) (s : State) : State :=
  readScanSlot start
    { s with
      ctl := { s.ctl with state := .adopting }
      capture := { s.capture with filter := [], nearFull := false }
      scan := { Scanner.reset with start := some start, pointer := some start, run := s.scan.run + 1 } }

/-! ### The tests (R95, R97) -/

/-- What the tests say of a slot: the fields of an accepted record, or the end cause. -/
inductive ScanVerdict where
  | accepted (seq : SeqNo) (number : CheckpointNo) (body : RecordBody)
  | ends (cause : ScanCause)
deriving DecidableEq, Repr

/-- The tests the anchor and the walk share: read, check, run stamp and kind (R95, Table 5.2). -/
def recordTests (header data : ReadResult) (s : State) : ScanVerdict :=
  match header, data with
  | .ok h, .ok d =>
      if !checkPasses h d then .ends .check
      else if headerRunStamp h ≠ s.journal.config.runStamp then .ends .runStamp
      else match decodeBody h d with
        | none => .ends .kind
        | some body => .accepted (headerSeq h) (headerCheckpoint h) body
  | _, _ => .ends .readError

/-- The anchor must be a MARK record (R95). -/
def anchorTests (header data : ReadResult) (s : State) : ScanVerdict :=
  match recordTests header data s with
  | .ends cause => .ends cause
  | .accepted seq number (.mark value source previous restart) => .accepted seq number (.mark value source previous restart)
  | .accepted _ _ _ => .ends .kind

/-- The epoch test: the number of a CAPTURE or BREAK record equals the segment number, that of a MARK record is greater
(Table 5.2). -/
def epochTest (segment number : CheckpointNo) (body : RecordBody) : Bool :=
  match body with
  | .capture _ _ _ => number == segment
  | .mark _ _ _ _ => decide (segment < number)
  | .brk _ => number == segment

/-- The place test: a CAPTURE record names a line of an enabled GUARDED window (Table 5.2). -/
def placeTest (body : RecordBody) (s : State) : Bool :=
  match body with
  | .capture line _ _ => lineGuarded s line
  | .mark _ _ _ _ => true
  | .brk _ => true

/-- The tests of Table 5.2, in their order. -/
def walkTests (header data : ReadResult) (s : State) : ScanVerdict :=
  match recordTests header data s with
  | .ends cause => .ends cause
  | .accepted seq number body =>
      if seq ≤ s.scan.lastSeq.getD 0 then .ends .order
      else if !epochTest (s.scan.segment.getD 0) number body then .ends .epoch
      else if !placeTest body s then .ends .foreignLine
      else .accepted seq number body

/-! ### Accepted records (R98 to R100) -/

/-- A saturating increase by `n` (R91). -/
def satAdd (c : BitVec 32) (n : Nat) : BitVec 32 := BitVec.ofNat 32 (min (c.toNat + n) 0xFFFFFFFF)

/-- One more capture for the newest entry of the working list (R98). -/
def countNewest : List Checkpoint → List Checkpoint
  | [] => []
  | [c] => [{ c with captures := satInc c.captures }]
  | c :: next :: rest => c :: countNewest (next :: rest)

/-- An accepted MARK record: the entries that the restart flag or the segment break drops, the entry appended, and the
oldest entry removed beyond the depth (R99). -/
def acceptMark (slot : Nat) (seq : SeqNo) (number : CheckpointNo) (value : BitVec 64) (source : MarkSource)
    (restart : Bool) (s : State) : State :=
  let c : Checkpoint :=
    { number := number, status := .established, markSlot := some slot, markSeq := some seq, value := value
      source := source, captures := 0 }
  let kept := if restart || s.scan.segBreak.isSome then [] else s.scan.working
  let all := kept ++ [c]
  let shown := all.drop (all.length - s.journal.config.depth)
  { s with scan := { s.scan with
    working := shown
    dropped := satAdd s.scan.dropped (s.scan.working.length + 1 - shown.length)
    segment := some number
    segBreak := none } }

/-- The change an accepted record makes to the working list, by kind (R98 to R100). -/
def acceptBody (slot : Nat) (seq : SeqNo) (number : CheckpointNo) (body : RecordBody) (s : State) : State :=
  match body with
  | .capture _ _ _ => { s with scan := { s.scan with working := countNewest s.scan.working } }
  | .mark value source _ restart => acceptMark slot seq number value source restart s
  | .brk cause => { s with scan := { s.scan with segBreak := some cause } }

/-! ### The ends of a scan (R101 to R104) -/

/-- The result, end cause and end slot are recorded, the working items go, and ADOPT_DONE is latched (R91, R102, R104,
R106; log 23). -/
def recordEnd (result : ScanResult) (cause : ScanCause) (endSlot : Option Nat) (s : State) : State :=
  latch .adoptDone
    { s with scan := { s.scan with
      result := result, endCause := cause, endSlot := endSlot, lastSlot := none, lastSeq := none, segment := none
      working := [], segBreak := none, pair := { header := none, data := none }, scanWait := [] } }

/-- A counter after an adoption: the larger of its retained value and the last accepted value plus one, which saturates at
the counter's largest value (R101; 00_scope.md, Conventions). -/
def adoptedCounter {w : Nat} (retained last : BitVec w) : BitVec w :=
  let next := if last = BitVec.allOnes w then last else last + 1
  if retained ≤ next then next else retained

/-- The scan ends ADOPTED (R101, R102). The recount of occupancy is not compared with the pace mark (R101, log 13). -/
def endAdopted (cause : ScanCause) (endSlot : Nat) (s : State) : State :=
  match s.scan.working.head?, s.scan.working.getLast?, s.scan.lastSlot with
  | some oldest, some newest, some last =>
      let j := s.journal
      let head := oldest.markSlot.getD 0
      let broken := s.scan.segBreak.isSome
      recordEnd .adopted cause (some endSlot)
        (restartAge
          { s with
            journal := { j with
              head := head, commit := nextSlot j last, tail := nextSlot j last
              occupancy := ringDistance j head last + 1
              seq := adoptedCounter j.seq (s.scan.lastSeq.getD 0)
              nextCheckpoint := adoptedCounter j.nextCheckpoint (s.scan.segment.getD 0)
              adoptable := true, voidFailed := none }
            ctl := { s.ctl with
              state := .armed, checkpoints := s.scan.working, openEpoch := some newest.number
              condition := if broken then .broken else .intact
              lastBreak := match s.scan.segBreak with
                | some c => some (breakOfRecord c)
                | none => s.ctl.lastBreak } })
  | _, _, _ => s

/-- The scan ends in UNARMED (R104, R106). -/
def endUnarmed (result : ScanResult) (cause : ScanCause) (endSlot : Option Nat) (s : State) : State :=
  recordEnd result cause endSlot (enterUnarmed (emptyJournal s))

/-- The walk stops at a slot (R101, R103). -/
def stopScan (cause : ScanCause) (endSlot : Nat) (s : State) : State :=
  if s.scan.scanned = 0 then endUnarmed .noAnchor cause (some endSlot) s
  else if cause = .foreignLine ∨ cause = .readError then endUnarmed .noCheckpoint cause (some endSlot) s
  else endAdopted cause endSlot s

/-- An accepted record: its changes, and the next slot's reads, or the end of the scan where the pointer returns to the
start slot (R95, R96; log 14). -/
def acceptRecord (slot : Nat) (seq : SeqNo) (number : CheckpointNo) (body : RecordBody) (s : State) : State :=
  let s := acceptBody slot seq number body s
  let next := nextSlot s.journal slot
  let s := { s with scan := { s.scan with
    lastSlot := some slot, lastSeq := some seq, scanned := s.scan.scanned + 1, pointer := some next } }
  if s.scan.start = some next then stopScan .wrapped next s else readScanSlot next s

/-- The tests of the slot at the pointer and what follows from them (R95 to R97). -/
def scanSlot (slot : Nat) (header data : ReadResult) (s : State) : State :=
  match (if s.scan.scanned = 0 then anchorTests header data s else walkTests header data s) with
  | .accepted seq number body => acceptRecord slot seq number body s
  | .ends cause => stopScan cause slot s

/-- One of the scan's two line reads has completed; when both have, the record is tested (log 21). A read of a scan that
has stopped has no effect (R106). -/
def scanReadDone (run slot : Nat) (half : Half) (result : ReadResult) (s : State) : State :=
  if s.ctl.state = .adopting ∧ run = s.scan.run then
    let pair := s.scan.pair.store half result
    let s := { s with scan := { s.scan with pair := pair } }
    match pair.header, pair.data with
    | some header, some data => scanSlot slot header data s
    | _, _ => s
  else s

/-! ### ADOPT and DISCARD (R92, R106) -/

/-- How an ADOPT command is judged (R92, R177). -/
inductive AdoptVerdict where
  | refused (status : Status)
  | taken (start : Nat)
deriving DecidableEq, Repr

/-- The range test of R177, then the rows of R92. -/
def adoptVerdict (start : BitVec 32) (s : State) : AdoptVerdict :=
  let retained : Bool := start == 0xFFFFFFFF#32
  if !retained && decide (1048575 < start.toNat) then .refused .range
  else match s.ctl.state with
    | .rolling => .refused .busy
    | .adopting => .refused .busy
    | .failed => .refused .state
    | .armed => .refused .armed
    | .unarmed =>
        if !s.journal.configured then .refused .noJournal
        else if !(s.cls.windows.toList.any fun w => w.enabled && w.kind == .guarded) then .refused .state
        else if retained then
          if s.journal.adoptable then .taken s.journal.head else .refused .noCheckpoint
        else if s.journal.config.slots ≤ start.toNat then .refused .range
        else .taken start.toNat

/-- ADOPT (R92, R93). -/
def judgeAdopt (start : BitVec 32) (s : State) : State :=
  match adoptVerdict start s with
  | .refused status => respond status 0x25 [] s
  | .taken slot => respond .started 0x25 (natLE 4 slot) (startScan slot s)

end Sys2Proof.Machine
end

