-- ==== Sys2Proof/Machine/Path.lean ====
section
/-! DEFINITION. The memory path: arrivals, the arbiter and acceptance, the issue of requests, completions by source, and
the requests that waited for room (R13, R14, R24, R29 to R36, R79, R96, R119, R124, R129 to R139). -/

namespace Sys2Proof.Machine

/-- What every meaning answers: the next state. -/
abbrev Outcome := Host.Outcome State Fault Refusal

/-! ### Arrivals (R124) -/

/-- An initiator spends a credit (R124; log 26). -/
def spendCredit (n : Fin 8) (s : State) : State :=
  { s with up := { s.up with credits := s.up.credits.set n.val (s.up.credits[n.val] - 1) } }

/-- An arriving request joins the back of its initiator's queue, or is discarded while the unit is held in reset or the
queue holds 4 requests (R124). -/
def arrive (r : UpRequest) (s : State) : State :=
  let s := spendCredit r.initiator s
  let queue := s.up.ingress[r.initiator.val]
  if held s then s
  else if Config.ingressPlaces ≤ queue.length then s
  else { s with up := { s.up with ingress := s.up.ingress.set r.initiator.val (queue ++ [r]) } }

/-- REQUEST_ARRIVAL (R124). -/
def execRequestArrival (request : UpRequest) (s : State) : Outcome := .next (arrive request s)

/-! ### Acceptance (R129, R130) -/

/-- The initiators in the order the arbiter takes them: from the one after the position, the position last (R129). -/
def arbiterOrder (position : Fin 8) : List (Fin 8) :=
  [position + 1, position + 2, position + 3, position + 4, position + 5, position + 6, position + 7, position]

/-- The first initiator of that order whose head request is eligible (R129). -/
def chosen (s : State) : Option (Fin 8) :=
  (arbiterOrder s.up.position).find? fun n => holdReason s n == .none

/-- The request leaves its queue, its credit is returned, and the position is its initiator's number (R129, R130). -/
def popIngress (n : Fin 8) (rest : List UpRequest) (s : State) : State :=
  { s with up := { s.up with
    ingress := s.up.ingress.set n.val rest
    credits := s.up.credits.set n.val (s.up.credits[n.val] + 1)
    position := n } }

/-- A violation is appended to the list and latched, or lost when the list is full (R119). -/
def recordViolation (r : UpRequest) (cause : ViolationCause) (s : State) : State :=
  if s.cls.violations.length < Config.violationEntries then
    latch .violation { s with cls := { s.cls with
      violations := s.cls.violations ++ [⟨r.initiator, r.tag, r.line, cause⟩] } }
  else { s with cls := { s.cls with violationLost := true } }

/-- A request that goes to memory as it was received (R115, R130). -/
def passRequest (r : UpRequest) (guarded : Bool) (s : State) : State :=
  enqueue ⟨⟨r.line, r.access⟩, .passed r.initiator r.tag (r.access == .read) guarded⟩ s

/-- A filter hit: queued as a plain write and counted (R24). -/
def filterHitWrite (r : UpRequest) (s : State) : State :=
  passRequest r true { s with alerts := { s.alerts with filterHits := satInc s.alerts.filterHits } }

/-- A new capture entry, its old-line read, and the restart of the pacing measurement (R29). -/
def createEntry (r : UpRequest) (mask : ByteMask) (data : LineData) (s : State) : State :=
  let id := s.capture.nextEntry
  let e : CaptureEntry :=
    { id := id, line := r.line, mask := mask, data := data, initiator := r.initiator, tag := r.tag
      epoch := checkpointField s.ctl.openEpoch, state := .lineRead, slot := none, oldData := none, recorded := true }
  enqueue (readOf r.line (.oldLine id))
    { s with capture := { s.capture with
      entries := s.capture.entries ++ [e], nextEntry := id + 1, pacing := some 0 } }

/-- The first step of an accepted request's treatment (R130). -/
def treat (r : UpRequest) (t : Treatment) (s : State) : State :=
  match t with
  | .pass guarded => passRequest r guarded s
  | .passUnpermitted => recordViolation r .markNotPermitted (passRequest r false s)
  | .passMark value => finish (requestMarkFrom (.initiator r.initiator) value (passRequest r false s))
  | .denied cause => recordViolation r cause (deliver r.initiator r.tag .denied s)
  | .filterHit => filterHitWrite r s
  | .capture mask data => createEntry r mask data s

/-- One acceptance event; where no head is eligible nothing is accepted (R129, R130; log 2). -/
def accept (s : State) : State :=
  match chosen s with
  | none => s
  | some n =>
      match s.up.ingress[n.val] with
      | [] => s
      | r :: rest => treat r (treatment s r) (popIngress n rest s)

/-- ACCEPTANCE (R130). -/
def execAcceptance (s : State) : Outcome := .next (accept s)

/-! ### Issue (R133) -/

/-- The front of the outgoing queue is issued under a free tag (R133; log 6). The port issues nothing while the unit is
held in reset (R150, R151). -/
def issue (tag : DownTag) (s : State) : State :=
  match s.down.outgoing with
  | [] => s
  | e :: rest =>
      if !held s && tagState s tag == .free then
        { s with down :=
          { outgoing := rest, outstanding := s.down.outstanding.set tag.val (.inUse e.source)
            sent := s.down.sent ++ [(tag, e.request)] } }
      else s

/-- DOWNSTREAM_ISSUE (R133). -/
def execDownstreamIssue (tag : DownTag) (s : State) : Outcome := .next (issue tag s)

/-! ### Completions (R135) -/

/-- A passed request completes (R131, R136). -/
def passedDone (initiator : Fin 8) (tag : Byte) (isRead : Bool) (result : ReadResult) (s : State) : State :=
  match result with
  | .ok data => deliver initiator tag (.okay (if isRead then some data else none)) s
  | .error => countDataError (deliver initiator tag .dataError s)

/-- PASSED_REQUEST_COMPLETION (R136). -/
def execPassedRequestCompletion (tag : DownTag) (result : ReadResult) (s : State) : Outcome :=
  match tagState s tag with
  | .inUse (.passed initiator t isRead _) => .next (finish (passedDone initiator t isRead result (setTag tag .free s)))
  | _ => .next s

/-- The MARK slot of the entry's epoch, whose checkpoint is PENDING, has not been allocated (R30). -/
def awaitsMark (e : CaptureEntry) (s : State) : Bool :=
  s.ctl.checkpoints.any fun c => c.status == .pending && c.number == e.epoch && c.markSlot.isNone

/-- An entry's old-line read completes (R30, R31; log 29). -/
def oldLineDone (id : Nat) (result : ReadResult) (s : State) : State :=
  let s := { s with rollback := { s.rollback with readsLeft := s.rollback.readsLeft.filter fun x => x != id } }
  match entryOf s id with
  | none => s
  | some e =>
      match result with
      | .ok data =>
          let s := updateEntry id (fun x => { x with oldData := some data }) s
          if e.state = .lineRead then
            if awaitsMark e s then updateEntry id (fun x => { x with state := .awaitMark }) s else askCapture id s
          else s
      | .error =>
          if e.state = .lineRead then countDataError (deliver e.initiator e.tag .dataError (freeEntry id s)) else s

/-- OLD_LINE_READ_COMPLETION (R30, R31). -/
def execOldLineReadCompletion (tag : DownTag) (result : ReadResult) (s : State) : Outcome :=
  match tagState s tag with
  | .inUse (.oldLine id) => .next (finish (oldLineDone id result (setTag tag .free s)))
  | _ => .next s

/-- The set of a line (R25). -/
def filterSet (line : LineAddr) : BitVec 8 := line.setWidth 8

/-- A line is inserted in the filter, or dropped and counted when its set is full (R26). The filter never holds a line
twice (R25). -/
def filterInsert (line : LineAddr) (s : State) : State :=
  if s.capture.filter.contains line then s
  else if (s.capture.filter.filter fun x => filterSet x == filterSet line).length < Config.filterWays then
    { s with capture := { s.capture with filter := s.capture.filter ++ [line] } }
  else { s with alerts := { s.alerts with filterFull := satInc s.alerts.filterFull } }

/-- The conditions under which a retiring entry's line is inserted (R36). -/
def insertsLine (e : CaptureEntry) (s : State) : Bool :=
  e.recorded && s.ctl.openEpoch == some e.epoch && capturing s

/-- An entry retires (R36); only an entry in FORWARDING has a forwarded write at memory (R35; log 2). -/
def retire (id : Nat) (error : Bool) (s : State) : State :=
  match entryOf s id with
  | none => s
  | some e =>
      if e.state ≠ .forwarding then s
      else if error then freeEntry id (countDataError (deliver e.initiator e.tag .dataError s))
      else
        let s := deliver e.initiator e.tag (.okay none) s
        freeEntry id (if insertsLine e s then filterInsert e.line s else s)

/-- FORWARDED_WRITE_COMPLETION (R36). -/
def execForwardedWriteCompletion (tag : DownTag) (error : Bool) (s : State) : Outcome :=
  match tagState s tag with
  | .inUse (.forwarded id) => .next (finish (retire id error (setTag tag .free s)))
  | _ => .next s

/-- JOURNAL_WRITE_COMPLETION (R14). -/
def execJournalWriteCompletion (tag : DownTag) (error : Bool) (s : State) : Outcome :=
  match tagState s tag with
  | .inUse (.journal slot half) => .next (finish (journalWriteDone slot half error (setTag tag .free s)))
  | _ => .next s

/-- A walk is in progress (R69). -/
def walking (s : State) : Bool := s.ctl.state == .rolling && s.rollback.phase == .undo

/-- UNDO_READ_COMPLETION (R80). -/
def execUndoReadCompletion (tag : DownTag) (result : ReadResult) (s : State) : Outcome :=
  match tagState s tag with
  | .inUse (.undoRead _ half) =>
      let s := setTag tag .free s
      .next (if walking s then undoReadDone half result s else s)
  | _ => .next s

/-- The undo write of the slot in progress completes (R79, R81, R84). -/
def undoWriteDone (error : Bool) (s : State) : State :=
  if error then stopWalk .writeError s
  else match s.rollback.current with
    | some seq => slotDone seq s
    | none => s

/-- UNDO_WRITE_COMPLETION (R81). -/
def execUndoWriteCompletion (tag : DownTag) (error : Bool) (s : State) : Outcome :=
  match tagState s tag with
  | .inUse (.undoWrite _) =>
      let s := setTag tag .free s
      .next (if walking s then undoWriteDone error s else s)
  | _ => .next s

/-- VOID_WRITE_COMPLETION (R79, R83). -/
def execVoidWriteCompletion (tag : DownTag) (error : Bool) (s : State) : Outcome :=
  match tagState s tag with
  | .inUse (.voidWrite _) =>
      let s := setTag tag .free s
      .next (if walking s then settle error s else s)
  | _ => .next s

/-- SCAN_READ_COMPLETION (R97). -/
def execScanReadCompletion (tag : DownTag) (result : ReadResult) (s : State) : Outcome :=
  match tagState s tag with
  | .inUse (.scanRead run slot half) => .next (finishScan (scanReadDone run slot half result (setTag tag .free s)))
  | _ => .next s

/-- ABANDONED_COMPLETION: discarded, and the tag becomes free (R138). -/
def execAbandonedCompletion (tag : DownTag) (_result : ReadResult) (s : State) : Outcome :=
  match tagState s tag with
  | .abandoned => .next (setTag tag .free s)
  | _ => .next s

/-- STRAY_COMPLETION: a completion whose tag is free matches no request and is discarded (R135, R139). -/
def execStrayCompletion (_tag : DownTag) (_result : ReadResult) (s : State) : Outcome := .next s

/-! ### Requests that waited (R132) -/

/-- The held write at the front of those that wait enters the outgoing queue (R35). -/
def queueForwarded (s : State) : State :=
  match s.capture.forwardWait with
  | [] => s
  | id :: rest =>
      if hasRoom s 1 then
        let s := { s with capture := { s.capture with forwardWait := rest } }
        match entryOf s id with
        | some e => enqueue (heldWrite e) s
        | none => s
      else s

/-- FORWARDED_WRITE_QUEUED (R35). -/
def execForwardedWriteQueued (s : State) : Outcome := .next (queueForwarded s)

/-- The two line writes at the front of those that wait enter the outgoing queue together (R14). -/
def queueJournalPair (s : State) : State :=
  match s.journal.writeWait with
  | [] => s
  | (header, data) :: rest =>
      if hasRoom s 2 then
        enqueue data (enqueue header { s with journal := { s.journal with writeWait := rest } })
      else s

/-- JOURNAL_WRITES_QUEUED (R14). -/
def execJournalWritesQueued (s : State) : Outcome := .next (queueJournalPair s)

/-- The rollback engine's request at the front of those that wait enters the outgoing queue (R79). -/
def queueUndo (s : State) : State :=
  match s.rollback.undoWait with
  | [] => s
  | e :: rest => if hasRoom s 1 then enqueue e { s with rollback := { s.rollback with undoWait := rest } } else s

/-- UNDO_REQUEST_QUEUED (R79). -/
def execUndoRequestQueued (s : State) : Outcome := .next (queueUndo s)

/-- The scanner's request at the front of those that wait enters the outgoing queue (R96). -/
def queueScan (s : State) : State :=
  match s.scan.scanWait with
  | [] => s
  | e :: rest => if hasRoom s 1 then enqueue e { s with scan := { s.scan with scanWait := rest } } else s

/-- SCAN_READ_QUEUED (R96). -/
def execScanReadQueued (s : State) : Outcome := .next (queueScan s)

/-- The allocations that waited for a forgotten slot are judged, once the tail's slot has no line writes outstanding
(R13; log 25). -/
def endAllocationWait (s : State) : State :=
  if s.journal.allocWait.isEmpty || tailBlocked s.journal then s
  else finish (judgeWaiting (4 * Config.captureEntries) s)

/-- ALLOCATION_WAIT_END (R13). -/
def execAllocationWaitEnd (s : State) : Outcome := .next (endAllocationWait s)

end Sys2Proof.Machine
end

