-- ==== Sys2Proof/Machine/Reset.lean ====
section
/-! DEFINITION. The resets: PORST, WRST and the RESET command, and the tables of reset values (R22, R48, R68, R90, R107,
R121, R138, R139, R143, R149 to R153, R164). -/

namespace Sys2Proof.Machine

/-- The retained set survives a warm reset; the commit point and the tail stand on the retained head (R21, Table 1.5). -/
def Journal.warm (j : Journal) : Journal :=
  { Journal.reset with
    configured := j.configured, config := j.config, head := j.head, commit := j.head, tail := j.head
    seq := j.seq, nextCheckpoint := j.nextCheckpoint, adoptable := j.adoptable }

/-- A tag in use is abandoned by a warm reset (R138). -/
def TagState.abandon : TagState → TagState
  | .free => .free
  | .inUse _ => .abandoned
  | .abandoned => .abandoned

/-- What both resets do to every block but the journal manager, the checkpoint controller and the table of outstanding
requests. The FLTREQ and FRZ levels are sampled when the reset ends; credits return then (R124, R149, R150). -/
def resetBlocks (s : State) : State :=
  { s with
    capture := Capture.reset
    rollback := { Rollback.reset with fltreq := s.rollback.fltreq }
    scan := Scanner.reset
    cls := Classifier.reset
    up := { Upstream.reset with credits := s.up.credits, delivered := s.up.delivered }
    down := { s.down with outgoing := [] }
    alerts := { Alerts.reset with frz := s.alerts.frz }
    port := { Port.reset with address := s.port.address }
    lines := { s.lines with rback := false } }

/-- Power-on reset: every block takes its power-on reset value (R139, R150). -/
def powerOn (s : State) : State :=
  let s := resetBlocks s
  { s with
    journal := Journal.reset, ctl := Controller.reset
    down := { s.down with outstanding := Vector.replicate 64 .free } }

/-- Warm reset: the retained set and MEMORY_SUSPECT are kept, and tags in use are abandoned (R21, R67, R138, R151). -/
def warmReset (s : State) : State :=
  let s := resetBlocks s
  { s with
    journal := s.journal.warm, ctl := { Controller.reset with memorySuspect := s.ctl.memorySuspect }
    down := { s.down with outstanding := s.down.outstanding.map TagState.abandon } }

/-- The address that the straps give (R152). -/
def strapAddress (straps : BitVec 2) : BitVec 7 := 0x4C#7 + straps.setWidth 7

/-- The end of a reset: the straps and the FLTREQ and FRZ levels are sampled, every initiator holds four credits, and RBACK
is low (R71, R88, R124, R149 to R152). -/
def endReset (levels : PinLevels) (s : State) : State :=
  { s with
    up := { s.up with credits := Vector.replicate 8 4 }
    rollback := { s.rollback with fltreq := levels.fltreq }
    alerts := { s.alerts with frz := levels.frz }
    port := { s.port with address := strapAddress levels.straps }
    lines := { s.lines with rback := false, straps := levels.straps } }

/-- The levels present on the pins when a RESET is carried out: those of the straps are a free value, since the unit samples
them only when a reset ends; those of FLTREQ and FRZ are as the last edge of each left them (R71, R147, R152; log 16). -/
def presentLevels (s : State) : PinLevels :=
  { straps := Config.strapsAtReset s.free, fltreq := s.rollback.fltreq, frz := s.alerts.frz }

/-- PORST falls (R150). -/
def porstFalls (s : State) : State :=
  if s.lines.porstLow then s
  else
    let s := powerOn s
    { s with lines := { s.lines with porstLow := true } }

/-- PORST rises; the reset ends unless WRST is still low (R150, R151). -/
def porstRises (levels : PinLevels) (s : State) : State :=
  if s.lines.porstLow then
    let s := { s with lines := { s.lines with porstLow := false } }
    if s.lines.wrstLow then s else endReset levels s
  else s

/-- WRST falls; while PORST is low the fall changes nothing but the level (R151). -/
def wrstFalls (s : State) : State :=
  if s.lines.wrstLow then s
  else
    let s := if s.lines.porstLow then s else warmReset s
    { s with lines := { s.lines with wrstLow := true } }

/-- WRST rises; the reset ends unless PORST is still low (R151). -/
def wrstRises (levels : PinLevels) (s : State) : State :=
  if s.lines.wrstLow then
    let s := { s with lines := { s.lines with wrstLow := false } }
    if s.lines.porstLow then s else endReset levels s
  else s

/-- The RESET command: a warm reset and its end in one event, which samples the straps anew (R151, R152, R178). -/
def commandReset (s : State) : State := takeFree (endReset (presentLevels s) (warmReset s))

end Sys2Proof.Machine
end

