-- ==== Sys2Proof/Machine/Status.lean ====
section
/-! DEFINITION. The data of the read commands: the status sections and the checkpoint list (R166, R167, R184, R185,
Tables 11.4 and 11.6 to 11.12). -/

namespace Sys2Proof.Machine

/-- One byte of a small number. -/
def byteOf (n : Nat) : Byte := BitVec.ofNat 8 n

/-- Table 11.6. The configuration fields are as State holds them, whether or not the configured flag is set (log 37). -/
def journalSection (s : State) : List Byte :=
  let j := s.journal
  let c := j.config
  [flagBit j.configured 0 ||| flagBit j.exhausted 1 ||| flagBit j.adoptable 2,
   byteOf c.depth, policyByte c.policy, byteOf c.reserve] ++
  bytesLE 2 c.runStamp ++ natLE 2 c.pacingInterval ++ natLE 2 c.holdTimeout ++ zeros 2 ++
  natLE 4 c.slots ++ natLE 4 c.paceMark ++ natLE 8 c.base.toNat ++
  natLE 4 j.head ++ natLE 4 j.commit ++ natLE 4 j.tail ++ natLE 4 j.occupancy ++ natLE 4 (captureLimit j) ++
  bytesLE 8 j.seq ++ bytesLE 4 j.nextCheckpoint

/-- The reason, source and value bytes of the last refused mark; zero when none (Table 11.7). -/
def refusedBytes (r : Option RefusedMark) : Byte × Byte × BitVec 64 :=
  match r with
  | some m => (markReasonByte m.reason, sourceByte m.source, m.value)
  | none => (0, 0, 0)

/-- The epoch age in whole milliseconds (R146). -/
def ageMs (s : State) : Nat := min 65535 (s.ctl.age.count / 1000)

/-- Table 11.7. -/
def controllerSection (s : State) : List Byte :=
  let c := s.ctl
  let (reason, source, value) := refusedBytes c.lastRefused
  [ctlStateByte c.state, conditionByte c.condition, breakByte c.lastBreak, byteOf c.checkpoints.length,
   flagBit (hasPending s) 0 ||| flagBit c.age.stale 1 ||| flagBit c.memorySuspect 2 |||
     flagBit s.alerts.breakUnrecorded 3,
   reason, source, 0] ++
  bytesLE 4 (checkpointField c.openEpoch) ++ natLE 2 (ageMs s) ++ natLE 2 c.age.limit ++ bytesLE 8 value

/-- The number of capture entries in a state. -/
def entriesIn (s : State) (x : EntryState) : Byte :=
  byteOf (s.capture.entries.countP fun e => e.state == x)

/-- Table 11.8. -/
def captureSection (s : State) : List Byte :=
  let c := s.capture
  [byteOf c.entries.length, entriesIn s .lineRead, entriesIn s .awaitMark, entriesIn s .awaitSpace,
   entriesIn s .recording, entriesIn s .awaitCommit, entriesIn s .forwarding, byteOf c.spaceWait.length,
   flagBit c.hold.running 0 ||| flagBit c.nearFull 1 ||| flagBit (pacingInForce s) 2 ||| flagBit (pacingElapsed s) 3] ++
  zeros 3 ++ natLE 4 c.hold.count

/-- Table 11.9. -/
def rollbackSection (s : State) : List Byte :=
  let r := s.rollback
  [phaseByte r.phase, originByte r.origin, flagBit r.ackMark 0 ||| flagBit r.pendingLine 1, refusalByte r.lastRefusal,
   (match r.failure with
    | some f => walkCauseByte f.cause
    | none => 0)] ++ zeros 3 ++
  bytesLE 4 (checkpointField (r.target.map (·.number))) ++ slotLE (r.target.map (·.slot)) ++ slotLE r.undoLimit ++
  slotLE r.undoPointer ++ natLE 4 r.remaining ++ slotLE (r.failure.map (·.slot)) ++
  natLE 4 ((r.failure.map (·.remaining)).getD 0) ++ bytesLE 4 s.alerts.recordsUndone ++
  bytesLE 8 (seqField (r.target.map (·.seq))) ++ bytesLE 8 (seqField r.lastUndone)

/-- Table 11.10. -/
def adoptionSection (s : State) : List Byte :=
  let a := s.scan
  [scanResultByte a.result, scanCauseByte a.endCause] ++ zeros 2 ++
  slotLE a.start ++ slotLE a.pointer ++ slotLE a.endSlot ++ natLE 4 a.scanned ++ bytesLE 4 a.dropped

/-- The tags in use, abandoned ones among them (R137). -/
def tagsInUse (s : State) : Nat := s.down.outstanding.toList.countP fun t => t != .free

/-- The abandoned tags (R137). -/
def tagsAbandoned (s : State) : Nat := s.down.outstanding.toList.countP fun t => t == .abandoned

/-- Table 11.11. -/
def pathSection (s : State) : List Byte :=
  (List.finRange 8).map (fun n => byteOf s.up.ingress[n.val].length) ++
  (List.finRange 8).map (fun n => holdReasonByte (holdReason s n)) ++
  [byteOf s.up.position.val, boolByte (gateClosed s), byteOf s.down.outgoing.length, byteOf (tagsInUse s),
   byteOf (tagsAbandoned s)] ++ zeros 3

/-- The timers frozen now, as bits (R147). -/
def frozenBits (s : State) : Byte := flagBit (frozen s 0) 0 ||| flagBit (frozen s 1) 1 ||| flagBit (frozen s 2) 2

/-- Table 11.12. -/
def alertsSection (s : State) : List Byte :=
  let a := s.alerts
  bytesLE 2 (a.latches.setWidth 16) ++ bytesLE 2 (a.mask.setWidth 16) ++
  [byteOf s.cls.violations.length,
   flagBit s.cls.violationLost 0 ||| flagBit a.frz 1 ||| flagBit s.rollback.fltreq 2 ||| flagBit s.lines.rback 3,
   a.freezeMask.setWidth 8, frozenBits s, s.port.address.setWidth 8] ++ zeros 3 ++
  bytesLE 4 a.capturesWritten ++ bytesLE 4 a.filterHits ++ bytesLE 4 a.filterFull ++ bytesLE 4 a.dataErrors ++
  bytesLE 4 a.absorbed ++ bytesLE 4 a.recordsUndone

/-- A section by its number; none outside the seven (R166). -/
def statusSection (s : State) (sec : Byte) : Option (List Byte) :=
  if sec = 1 then some (journalSection s)
  else if sec = 2 then some (controllerSection s)
  else if sec = 3 then some (captureSection s)
  else if sec = 4 then some (rollbackSection s)
  else if sec = 5 then some (adoptionSection s)
  else if sec = 6 then some (pathSection s)
  else if sec = 7 then some (alertsSection s)
  else none

/-- The 32 bytes of a checkpoint list entry (Table 11.4). -/
def checkpointBytes (c : Checkpoint) : List Byte :=
  bytesLE 4 c.number ++ [checkpointStatusByte c.status, sourceByte c.source] ++ zeros 2 ++ slotLE c.markSlot ++
  bytesLE 4 c.captures ++ bytesLE 8 (seqField c.markSeq) ++ bytesLE 8 c.value

/-- The data of GET_CHECKPOINTS (R167, Table 11.4). -/
def checkpointsData (s : State) : List Byte :=
  byteOf s.ctl.checkpoints.length :: s.ctl.checkpoints.flatMap checkpointBytes

/-- The 12 bytes of GET_WINDOW (Table 11.4). -/
def windowBytes (index : Byte) (w : Window) : List Byte :=
  [index, boolByte w.enabled, windowKindByte w.kind, 0] ++ natLE 4 w.base ++ natLE 4 w.size

/-- The 3 bytes of GET_INITIATOR (Table 11.4). -/
def initiatorBytes (number : Byte) (e : InitiatorEntry) : List Byte :=
  [number, classByte e.cls, boolByte e.permission]

/-- The 12 bytes of READ_VIOLATION: the removed entry, the entries left and VIOLATION_LOST as it stood (R120). -/
def violationData (s : State) : List Byte :=
  match s.cls.violations with
  | [] => [0, 0, boolByte s.cls.violationLost] ++ zeros 9
  | v :: rest =>
      [1, byteOf rest.length, boolByte s.cls.violationLost, byteOf v.initiator.val, v.tag, violationByte v.cause] ++
      zeros 2 ++ bytesLE 4 (v.line.setWidth 32)

end Sys2Proof.Machine
end

