-- ==== Sys2Proof/Machine/Commands.lean ====
section
/-! DEFINITION. The nineteen management commands and how the port takes them (R2, R66, R72, R85, R86, R92, R106, R109 to
R114, R120, R142, R161, R163, R166 to R178). -/

namespace Sys2Proof.Machine

/-! ### Taking a command (R161, R163) -/

/-- A write transfer ends with a frame: taken and carried out while the slot is IDLE, discarded with an overrun
otherwise; the port acknowledges nothing while the unit is held in reset (R155, R156, R161, R163). -/
def takeFrame (carry : State → State) (s : State) : State :=
  if held s then s
  else
    let s := { s with port := { s.port with reading := none } }
    match s.port.slot with
    | .idle => carry s
    | .executing _ => { s with port := { s.port with overrun := true } }
    | .done _ => { s with port := { s.port with overrun := true } }

/-! ### Reading the unit -/

/-- GET_STATUS (R166). -/
def doGetStatus (sec : Byte) (s : State) : State :=
  match statusSection s sec with
  | some data => respond .ok 0x01 data s
  | none => respond .range 0x01 [] s

/-- GET_STATUS, taken by the port. -/
def execGetStatus (sec : Byte) (s : State) : Outcome := .next (takeFrame (doGetStatus sec) s)

/-- GET_CHECKPOINTS (R167). -/
def doGetCheckpoints (s : State) : State := respond .ok 0x02 (checkpointsData s) s

/-- GET_CHECKPOINTS, taken by the port. -/
def execGetCheckpoints (s : State) : Outcome := .next (takeFrame doGetCheckpoints s)

/-- GET_WINDOW (R108, R168). -/
def doGetWindow (index : Byte) (s : State) : State :=
  match s.cls.windows[index.toNat]? with
  | some w => respond .ok 0x03 (windowBytes index w) s
  | none => respond .range 0x03 [] s

/-- GET_WINDOW, taken by the port. -/
def execGetWindow (index : Byte) (s : State) : Outcome := .next (takeFrame (doGetWindow index) s)

/-- GET_INITIATOR (R114, R168). -/
def doGetInitiator (number : Byte) (s : State) : State :=
  match s.cls.initiators[number.toNat]? with
  | some e => respond .ok 0x04 (initiatorBytes number e) s
  | none => respond .range 0x04 [] s

/-- GET_INITIATOR, taken by the port. -/
def execGetInitiator (number : Byte) (s : State) : Outcome := .next (takeFrame (doGetInitiator number) s)

/-- READ_VIOLATION (R120). -/
def doReadViolation (s : State) : State :=
  respond .ok 0x05 (violationData s)
    { s with cls := { s.cls with violations := s.cls.violations.tail, violationLost := false } }

/-- READ_VIOLATION, taken by the port. -/
def execReadViolation (s : State) : Outcome := .next (takeFrame doReadViolation s)

/-! ### Windows and initiators -/

/-- Two ranges of granules share one. -/
def rangesMeet (base₁ size₁ base₂ size₂ : Nat) : Bool :=
  decide (max base₁ base₂ < min (base₁ + size₁) (base₂ + size₂))

/-- The granules of a journal area: the first, and how many hold a byte of it (R111). -/
def areaGranules (base slots : Nat) : Nat × Nat :=
  (base / 4096, if slots = 0 then 0 else (base + 128 * slots - 1) / 4096 + 1 - base / 4096)

/-- A window edit touches guarded memory (R110). -/
def touchesGuarded (w : Window) : Bool := w.enabled && w.kind == .guarded

/-- The window overlaps another enabled window, or the journal area (R111). -/
def windowOverlaps (index : Nat) (w : Window) (s : State) : Bool :=
  ((List.finRange 16).any fun k =>
    k.val != index && s.cls.windows[k.val].enabled &&
      rangesMeet w.base w.size s.cls.windows[k.val].base s.cls.windows[k.val].size) ||
  (s.journal.configured &&
    let area := areaGranules s.journal.config.base.toNat s.journal.config.slots
    rangesMeet w.base w.size area.1 area.2)

/-- The range step of SET_WINDOW (R109 step 1, R183), and the entry it describes. -/
def windowOfParams (index kind : Byte) (base size : BitVec 32) : Option Window :=
  match kindOfByte kind with
  | none => none
  | some k =>
      if index.toNat < 16 ∧ base.toNat ≤ 16777215 ∧ 1 ≤ size.toNat ∧ base.toNat + size.toNat ≤ 16777216 ∧
          (k = .marker → size.toNat = 1) then
        some { enabled := true, kind := k, base := base.toNat, size := size.toNat }
      else none

/-- The three steps of R109. -/
def setWindowVerdict (index kind : Byte) (base size : BitVec 32) (s : State) : Except Status Window :=
  match windowOfParams index kind base size, s.cls.windows[index.toNat]? with
  | some w, some old =>
      if (touchesGuarded old || touchesGuarded w) && s.ctl.state != .unarmed then .error .armed
      else if windowOverlaps index.toNat w s then .error .overlap
      else .ok w
  | _, _ => .error .range

/-- Writes a window entry. -/
def writeWindow (index : Nat) (w : Window) (s : State) : State :=
  { s with cls := { s.cls with windows := s.cls.windows.setIfInBounds index w } }

/-- SET_WINDOW (R109, R112). -/
def doSetWindow (index kind : Byte) (base size : BitVec 32) (s : State) : State :=
  match setWindowVerdict index kind base size s with
  | .error status => respond status 0x10 [] s
  | .ok w => respond .ok 0x10 [] (writeWindow index.toNat w s)

/-- SET_WINDOW, taken by the port. -/
def execSetWindow (index kind : Byte) (base size : BitVec 32) (s : State) : Outcome :=
  .next (takeFrame (doSetWindow index kind base size) s)

/-- CLEAR_WINDOW (R113). -/
def doClearWindow (index : Byte) (s : State) : State :=
  match s.cls.windows[index.toNat]? with
  | none => respond .range 0x11 [] s
  | some w =>
      if touchesGuarded w && s.ctl.state != .unarmed then respond .armed 0x11 [] s
      else respond .ok 0x11 [] (writeWindow index.toNat { w with enabled := false } s)

/-- CLEAR_WINDOW, taken by the port. -/
def execClearWindow (index : Byte) (s : State) : Outcome := .next (takeFrame (doClearWindow index) s)

/-- A mark permission byte: 00h not granted, 01h granted (Table 11.2). -/
def permissionOfByte (b : Byte) : Option Bool := if b = 0 then some false else if b = 1 then some true else none

/-- SET_INITIATOR (R114, R169). -/
def doSetInitiator (number cls permission : Byte) (s : State) : State :=
  match classOfByte cls, permissionOfByte permission with
  | some c, some p =>
      if number.toNat < 8 then
        respond .ok 0x12 [] { s with cls := { s.cls with
          initiators := s.cls.initiators.setIfInBounds number.toNat { cls := c, permission := p } } }
      else respond .range 0x12 [] s
  | _, _ => respond .range 0x12 [] s

/-- SET_INITIATOR, taken by the port. -/
def execSetInitiator (number cls permission : Byte) (s : State) : Outcome :=
  .next (takeFrame (doSetInitiator number cls permission) s)

/-! ### The journal and timing -/

/-- The range step of SET_JOURNAL (R2 step 2, Table 1.1, R170), and the configuration it describes. -/
def journalOfParams (base : BitVec 64) (slots : BitVec 32) (reserve depth : Byte) (runStamp : BitVec 16) (policy : Byte)
    (paceMark : BitVec 32) (pacingInterval holdTimeout : BitVec 16) : Option JournalConfig :=
  match policyOfByte policy with
  | none => none
  | some p =>
      if base.toNat % 4096 = 0 ∧ base.toNat + 128 * slots.toNat ≤ 2 ^ 36 ∧
          64 ≤ slots.toNat ∧ slots.toNat ≤ 1048576 ∧
          1 ≤ depth.toNat ∧ depth.toNat ≤ 4 ∧ 2 ≤ reserve.toNat ∧ depth.toNat + 1 ≤ reserve.toNat ∧
          reserve.toNat + 32 ≤ slots.toNat ∧ paceMark.toNat + reserve.toNat ≤ slots.toNat ∧
          1 ≤ pacingInterval.toNat ∧ pacingInterval.toNat ≤ 1023 ∧
          1 ≤ holdTimeout.toNat ∧ holdTimeout.toNat ≤ 4095 then
        some { base := base.setWidth 36, slots := slots.toNat, reserve := reserve.toNat, depth := depth.toNat
               runStamp := runStamp, policy := p, paceMark := paceMark.toNat
               pacingInterval := pacingInterval.toNat, holdTimeout := holdTimeout.toNat }
      else none

/-- A journal area overlaps an enabled window (R2 step 3, R111). -/
def areaOverlaps (c : JournalConfig) (s : State) : Bool :=
  let area := areaGranules c.base.toNat c.slots
  s.cls.windows.toList.any fun w => w.enabled && rangesMeet w.base w.size area.1 area.2

/-- The three steps of R2, the range step's outcome given. -/
def setJournalVerdict (described : Option JournalConfig) (s : State) : Except Status JournalConfig :=
  match s.ctl.state with
  | .armed => .error .armed
  | .rolling => .error .state
  | .failed => .error .state
  | .adopting => .error .state
  | .unarmed =>
      match described with
      | none => .error .range
      | some c => if areaOverlaps c s then .error .overlap else .ok c

/-- A taken SET_JOURNAL (R2). -/
def configureJournal (c : JournalConfig) (s : State) : State :=
  { s with journal := { s.journal with
    configured := true, config := c, head := 0, commit := 0, tail := 0, occupancy := 0, adoptable := false
    voidFailed := none } }

/-- SET_JOURNAL (R2). -/
def doSetJournal (base : BitVec 64) (slots : BitVec 32) (reserve depth : Byte) (runStamp : BitVec 16) (policy : Byte)
    (paceMark : BitVec 32) (pacingInterval holdTimeout : BitVec 16) (s : State) : State :=
  match setJournalVerdict
      (journalOfParams base slots reserve depth runStamp policy paceMark pacingInterval holdTimeout) s with
  | .error status => respond status 0x13 [] s
  | .ok c => respond .ok 0x13 [] (configureJournal c s)

/-- SET_JOURNAL, taken by the port. -/
def execSetJournal (base : BitVec 64) (slots : BitVec 32) (reserve depth : Byte) (runStamp : BitVec 16) (policy : Byte)
    (paceMark : BitVec 32) (pacingInterval holdTimeout : BitVec 16) (s : State) : Outcome :=
  .next (takeFrame (doSetJournal base slots reserve depth runStamp policy paceMark pacingInterval holdTimeout) s)

/-- The epoch age timer has reached its limit and has not expired since its last restart (R65). -/
def ageDue (a : AgeTimer) : Bool := a.limit != 0 && !a.stale && decide (a.limit * 1000 ≤ a.count)

/-- The epoch age timer expires (R65). -/
def expireAge (s : State) : State :=
  latch .staleEpoch { s with ctl := { s.ctl with age := { s.ctl.age with stale := true } } }

/-- The values SET_TIMING allows (R171). -/
def timingAllowed (paceMark : BitVec 32) (pacingInterval holdTimeout : BitVec 16) (freezeMask : Byte) (s : State) :
    Bool :=
  decide (1 ≤ pacingInterval.toNat ∧ pacingInterval.toNat ≤ 1023) &&
  decide (1 ≤ holdTimeout.toNat ∧ holdTimeout.toNat ≤ 4095) &&
  decide (paceMark.toNat ≤ captureLimit s.journal) && decide (freezeMask.toNat < 8)

/-- The five values of SET_TIMING are replaced (R171), also before the first SET_JOURNAL, where R185 has the configuration
fields hold their reset values (log 37). -/
def setTimingValues (paceMark : BitVec 32) (pacingInterval holdTimeout ageLimit : BitVec 16) (freezeMask : Byte)
    (s : State) : State :=
  { s with
    journal := { s.journal with config := { s.journal.config with
      paceMark := paceMark.toNat, pacingInterval := pacingInterval.toNat, holdTimeout := holdTimeout.toNat } }
    ctl := { s.ctl with age := { s.ctl.age with limit := ageLimit.toNat } }
    alerts := { s.alerts with freezeMask := freezeMask.setWidth 3 } }

/-- SET_TIMING: the five values, and the expiry of the epoch age timer that the new limit may bring (R64, R171;
log 28). -/
def doSetTiming (paceMark : BitVec 32) (pacingInterval holdTimeout ageLimit : BitVec 16) (freezeMask : Byte)
    (s : State) : State :=
  if timingAllowed paceMark pacingInterval holdTimeout freezeMask s then
    let s := setTimingValues paceMark pacingInterval holdTimeout ageLimit freezeMask s
    respond .ok 0x14 [] (if ageDue s.ctl.age then expireAge s else s)
  else respond .range 0x14 [] s

/-- SET_TIMING, taken by the port. -/
def execSetTiming (paceMark : BitVec 32) (pacingInterval holdTimeout ageLimit : BitVec 16) (freezeMask : Byte)
    (s : State) : Outcome :=
  .next (takeFrame (doSetTiming paceMark pacingInterval holdTimeout ageLimit freezeMask) s)

/-! ### Alerts -/

/-- SET_ALERT_MASK (R142). -/
def doSetAlertMask (mask : BitVec 16) (s : State) : State :=
  if mask.toNat < 4096 then respond .ok 0x15 [] { s with alerts := { s.alerts with mask := mask.setWidth 12 } }
  else respond .range 0x15 [] s

/-- SET_ALERT_MASK, taken by the port. -/
def execSetAlertMask (mask : BitVec 16) (s : State) : Outcome := .next (takeFrame (doSetAlertMask mask) s)

/-- CLEAR_ALERTS (R142): the response carries the latches as they stood. -/
def doClearAlerts (selection : BitVec 16) (s : State) : State :=
  if selection.toNat < 4096 then
    respond .ok 0x16 (bytesLE 2 (s.alerts.latches.setWidth 16))
      { s with alerts := { s.alerts with latches := s.alerts.latches &&& ~~~ selection.setWidth 12 } }
  else respond .range 0x16 [] s

/-- CLEAR_ALERTS, taken by the port. -/
def execClearAlerts (selection : BitVec 16) (s : State) : Outcome := .next (takeFrame (doClearAlerts selection) s)

/-! ### Checkpoint commands -/

/-- MARK (R173). -/
def doMark (value : BitVec 64) (s : State) : State := finish (judgeMarkCommand value s)

/-- MARK, taken by the port. -/
def execMark (value : BitVec 64) (s : State) : Outcome := .next (takeFrame (doMark value) s)

/-- ROLLBACK (R72, R174). -/
def doRollback (depth : Byte) (s : State) : State := finish (judgeRollback depth s)

/-- ROLLBACK, taken by the port. -/
def execRollback (depth : Byte) (s : State) : Outcome := .next (takeFrame (doRollback depth) s)

/-- The walk resumes at the failing slot (R85). -/
def resumeWalk (s : State) : State :=
  let s := { s with ctl := { s.ctl with state := .rolling }, rollback := { s.rollback with phase := .undo } }
  match s.rollback.undoPointer with
  | some p => readSlot p s
  | none => s

/-- RETRY (R85, R175). -/
def doRetry (s : State) : State :=
  match s.ctl.state with
  | .failed => respond .started 0x22 (bytesLE 4 (checkpointField (s.rollback.target.map (·.number)))) (resumeWalk s)
  | .rolling => respond .busy 0x22 [] s
  | .adopting => respond .busy 0x22 [] s
  | .unarmed => respond .state 0x22 [] s
  | .armed => respond .state 0x22 [] s

/-- RETRY, taken by the port. -/
def execRetry (s : State) : Outcome := .next (takeFrame doRetry s)

/-- A stopped rollback is given up (R86). -/
def giveUp (s : State) : State :=
  let s := enterUnarmed (clearFilter (emptyJournal s))
  { s with
    ctl := { s.ctl with memorySuspect := true }
    rollback := { s.rollback with ackMark := false } }

/-- ABANDON (R86, R175). -/
def doAbandon (s : State) : State :=
  match s.ctl.state with
  | .failed => respond .ok 0x23 [] (giveUp s)
  | .rolling => respond .busy 0x23 [] s
  | .adopting => respond .busy 0x23 [] s
  | .unarmed => respond .state 0x23 [] s
  | .armed => respond .state 0x23 [] s

/-- ABANDON, taken by the port. -/
def execAbandon (s : State) : Outcome := .next (takeFrame doAbandon s)

/-- DISCARD (R66, R106, R176). -/
def doDiscard (s : State) : State :=
  match s.ctl.state with
  | .unarmed => respond .ok 0x24 [] s
  | .armed => finish (respond .ok 0x24 [] (dropCheckpoints s))
  | .adopting => finish (respond .ok 0x24 [] (endUnarmed .noCheckpoint .discard s.scan.pointer s))
  | .rolling => respond .busy 0x24 [] s
  | .failed => respond .state 0x24 [] s

/-- DISCARD, taken by the port. -/
def execDiscard (s : State) : Outcome := .next (takeFrame doDiscard s)

/-- ADOPT, taken by the port (R92). -/
def execAdopt (start : BitVec 32) (s : State) : Outcome := .next (takeFrame (judgeAdopt start) s)

/-- RESET, taken by the port (R178): no response. -/
def execReset (s : State) : Outcome := .next (takeFrame commandReset s)

end Sys2Proof.Machine
end

