-- ==== Sys2Proof/Machine/Lines.lean ====
section
/-! DEFINITION. The three timers and the input lines (R38, R43, R65, R71, R88, R146 to R151). -/

namespace Sys2Proof.Machine

/-! ### Timers (R146) -/

/-- The next time-base step brings the hold timer to its expiry value (R43, R146). -/
def holdStepExpires (s : State) : Bool :=
  s.capture.hold.running && !frozen s 0 && decide (s.capture.hold.timeout * 1000 ≤ s.capture.hold.count + 1)

/-- The hold timer expires: a break with cause HOLD_TIMEOUT (R43). -/
def expireHold (s : State) : State :=
  finish (raiseBreak .holdTimeout
    { s with capture := { s.capture with hold := { s.capture.hold with count := s.capture.hold.count + 1 } } })

/-- HOLD_TIMER_EXPIRY (R43). -/
def execHoldTimerExpiry (s : State) : Outcome := .next (if holdStepExpires s then expireHold s else s)

/-- The next time-base step makes the pacing interval count as elapsed (R38, R146). -/
def pacingStepElapses (s : State) : Bool :=
  match s.capture.pacing with
  | some n => !frozen s 1 && n + 1 == s.journal.config.pacingInterval
  | none => false

/-- The pacing measurement takes a step (R146). -/
def stepPacing (s : State) : State :=
  { s with capture := { s.capture with pacing := s.capture.pacing.map fun n => n + 1 } }

/-- PACING_INTERVAL_ELAPSED (R38). -/
def execPacingIntervalElapsed (s : State) : Outcome := .next (if pacingStepElapses s then stepPacing s else s)

/-- The epoch age timer one step on. -/
def stepAge (s : State) : State :=
  { s with ctl := { s.ctl with age := { s.ctl.age with count := s.ctl.age.count + 1 } } }

/-- The next time-base step brings the epoch age timer to its limit (R65, R146). -/
def ageStepExpires (s : State) : Bool :=
  s.ctl.age.running && !frozen s 2 && ageDue (stepAge s).ctl.age

/-- EPOCH_AGE_TIMER_EXPIRY (R65). -/
def execEpochAgeTimerExpiry (s : State) : Outcome := .next (if ageStepExpires s then expireAge (stepAge s) else s)

/-- One time-base step of the hold timer; an expiry is left to its row, which joins the queue (R146; log 3). -/
def tickHold (s : State) : State :=
  if holdStepExpires s then { s with pending := s.pending ++ [.holdTimerExpiry] }
  else if s.capture.hold.running && !frozen s 0 then
    { s with capture := { s.capture with hold := { s.capture.hold with count := s.capture.hold.count + 1 } } }
  else s

/-- One time-base step of the pacing measurement, whose count need not pass the greatest interval, 1,023 µs. -/
def tickPacing (s : State) : State :=
  if pacingStepElapses s then { s with pending := s.pending ++ [.pacingIntervalElapsed] }
  else match s.capture.pacing with
    | some n => if !frozen s 1 && decide (n < 1023) then stepPacing s else s
    | none => s

/-- One time-base step of the epoch age timer, which saturates at 65,535 ms (R146). -/
def tickAge (s : State) : State :=
  if ageStepExpires s then { s with pending := s.pending ++ [.epochAgeTimerExpiry] }
  else if s.ctl.age.running && !frozen s 2 && decide (s.ctl.age.count < 65535000) then stepAge s
  else s

/-- One step of the time base, which no reset timer takes (R146, R150; log 3). -/
def tick (s : State) : State := if held s then s else tickAge (tickPacing (tickHold s))

/-! ### FLTREQ and FRZ -/

/-- A rising edge on FLTREQ, by state and phase (R71). An edge is a change from low to high; none is seen while the unit
is held in reset. -/
def fltreqRises (s : State) : State :=
  if held s || s.rollback.fltreq then s
  else
    let s := { s with rollback := { s.rollback with fltreq := true } }
    finish (if s.rollback.pendingLine && (s.ctl.state == .armed || s.ctl.state == .adopting) then absorbEdge s
      else if s.ctl.state == .armed && rollbackWaits s then setLineRequest true s
      else judgeLine s)

/-- FLTREQ_RISING_EDGE (R71). -/
def execFltreqRisingEdge (s : State) : Outcome := .next (fltreqRises s)

/-- FLTREQ falls, and RBACK falls with it (R71, R88). -/
def fltreqFalls (s : State) : State :=
  if held s then s
  else { s with rollback := { s.rollback with fltreq := false }, lines := { s.lines with rback := false } }

/-- FLTREQ_FALL (R88). -/
def execFltreqFall (s : State) : Outcome := .next (fltreqFalls s)

/-- The FRZ level as the input filter reports it (R147); sampled anew when a reset ends (R149). -/
def setFrz (level : Bool) (s : State) : State :=
  if held s then s else { s with alerts := { s.alerts with frz := level } }

/-- FRZ_RISE (R147). -/
def execFrzRise (s : State) : Outcome := .next (setFrz true s)

/-- FRZ_FALL (R147). -/
def execFrzFall (s : State) : Outcome := .next (setFrz false s)

/-! ### Reset inputs -/

/-- PORST_FALL (R150). -/
def execPorstFall (s : State) : Outcome := .next (porstFalls s)

/-- PORST_RISE (R150). -/
def execPorstRise (levels : PinLevels) (s : State) : Outcome := .next (porstRises levels s)

/-- WRST_FALL (R151). -/
def execWrstFall (s : State) : Outcome := .next (wrstFalls s)

/-- WRST_RISE (R151). -/
def execWrstRise (levels : PinLevels) (s : State) : Outcome := .next (wrstRises levels s)

end Sys2Proof.Machine
end

