-- ==== Sys2Proof/Machine/Transfers.lean ====
section
/-! DEFINITION. The transfers of the management port: frames in, frames out, and the response consumed (R155 to R163). -/

namespace Sys2Proof.Machine

/-- The length test of R158: neither longer than the longest frame nor of another number of bytes than the count gives. -/
def lengthFits (bytes : List Byte) (count : Byte) : Bool :=
  decide (bytes.length ≤ Config.longestFrame) && bytes.length == count.toNat + 3

/-- The first four steps of R158: the refusal with its echo, or the code and the parameters. -/
def frameVerdict (bytes : List Byte) : Except (Status × Byte) (Byte × List Byte) :=
  match bytes with
  | code :: count :: rest =>
      if !lengthFits bytes count then .error (.frameError, code)
      else if rest.getLast? ≠ some (crc8 bytes.dropLast) then .error (.frameError, code)
      else match paramCount code with
        | none => .error (.unknown, code)
        | some n => if count.toNat = n then .ok (code, rest.dropLast) else .error (.range, code)
  | [code] => .error (.frameError, code)
  | [] => .error (.frameError, 0)

/-- The parameter byte at an offset. -/
def param8 (params : List Byte) (offset : Nat) : Byte := params.getD offset 0

/-- The two-byte parameter at an offset. -/
def param16 (params : List Byte) (offset : Nat) : BitVec 16 := word16 (param8 params offset) (param8 params (offset + 1))

/-- The four-byte parameter at an offset. -/
def param32 (params : List Byte) (offset : Nat) : BitVec 32 :=
  word32 (param8 params offset) (param8 params (offset + 1)) (param8 params (offset + 2)) (param8 params (offset + 3))

/-- The eight-byte parameter at an offset. -/
def param64 (params : List Byte) (offset : Nat) : BitVec 64 :=
  word64 (param32 params offset) (param32 params (offset + 4))

/-- Step 5 of R158: the command's own rule, with its parameters at the offsets of Table 11.2. The parameter count has been
tested (R158 step 4). -/
def carryOut (code : Byte) (p : List Byte) (s : State) : State :=
  if code = 0x01 then doGetStatus (param8 p 0) s
  else if code = 0x02 then doGetCheckpoints s
  else if code = 0x03 then doGetWindow (param8 p 0) s
  else if code = 0x04 then doGetInitiator (param8 p 0) s
  else if code = 0x05 then doReadViolation s
  else if code = 0x10 then doSetWindow (param8 p 0) (param8 p 1) (param32 p 2) (param32 p 6) s
  else if code = 0x11 then doClearWindow (param8 p 0) s
  else if code = 0x12 then doSetInitiator (param8 p 0) (param8 p 1) (param8 p 2) s
  else if code = 0x13 then
    doSetJournal (param64 p 0) (param32 p 8) (param8 p 12) (param8 p 13) (param16 p 14) (param8 p 16) (param32 p 17)
      (param16 p 21) (param16 p 23) s
  else if code = 0x14 then doSetTiming (param32 p 0) (param16 p 4) (param16 p 6) (param16 p 8) (param8 p 10) s
  else if code = 0x15 then doSetAlertMask (param16 p 0) s
  else if code = 0x16 then doClearAlerts (param16 p 0) s
  else if code = 0x20 then doMark (param64 p 0) s
  else if code = 0x21 then doRollback (param8 p 0) s
  else if code = 0x22 then doRetry s
  else if code = 0x23 then doAbandon s
  else if code = 0x24 then doDiscard s
  else if code = 0x25 then judgeAdopt (param32 p 0) s
  else if code = 0x3F then commandReset s
  else s

/-- The code and the parameter bytes of a management command's frame (Table 11.2). -/
def commandParams : Instr → Option (Byte × List Byte)
  | .getStatus sec => some (0x01, [sec])
  | .getCheckpoints => some (0x02, [])
  | .getWindow index => some (0x03, [index])
  | .getInitiator number => some (0x04, [number])
  | .readViolation => some (0x05, [])
  | .setWindow index kind base size => some (0x10, [index, kind] ++ bytesLE 4 base ++ bytesLE 4 size)
  | .clearWindow index => some (0x11, [index])
  | .setInitiator number cls permission => some (0x12, [number, cls, permission])
  | .setJournal base slots reserve depth runStamp policy paceMark pacingInterval holdTimeout =>
      some (0x13, bytesLE 8 base ++ bytesLE 4 slots ++ [reserve, depth] ++ bytesLE 2 runStamp ++ [policy] ++
        bytesLE 4 paceMark ++ bytesLE 2 pacingInterval ++ bytesLE 2 holdTimeout)
  | .setTiming paceMark pacingInterval holdTimeout ageLimit freezeMask =>
      some (0x14, bytesLE 4 paceMark ++ bytesLE 2 pacingInterval ++ bytesLE 2 holdTimeout ++ bytesLE 2 ageLimit ++
        [freezeMask])
  | .setAlertMask mask => some (0x15, bytesLE 2 mask)
  | .clearAlerts selection => some (0x16, bytesLE 2 selection)
  | .mark value => some (0x20, bytesLE 8 value)
  | .rollback depth => some (0x21, [depth])
  | .retry => some (0x22, [])
  | .abandon => some (0x23, [])
  | .discard => some (0x24, [])
  | .adopt start => some (0x25, bytesLE 4 start)
  | .reset => some (0x3F, [])
  | _ => none

/-- The frame of a management command: code, count, parameters and frame check (R158). -/
def commandFrame (i : Instr) : Option (List Byte) :=
  (commandParams i).map fun p =>
    let before := p.1 :: BitVec.ofNat 8 p.2.length :: p.2
    before ++ [crc8 before]

/-- A frame taken in IDLE is judged, and carried out or refused (R158). -/
def judgeFrame (bytes : List Byte) (s : State) : State :=
  match frameVerdict bytes with
  | .error (status, echo) => respond status echo [] s
  | .ok (code, params) => carryOut code params s

/-- The transfer names the unit, which is not held in reset (R155). -/
def addressed (address : BitVec 7) (s : State) : Bool := !held s && address == s.port.address

/-- The port acknowledges byte `n` of a write transfer, counted from 0 after the address byte: each of the first 258 of a
transfer that names the unit, and no later one (R155, R156). -/
def acknowledges (address : BitVec 7) (n : Nat) (s : State) : Bool :=
  addressed address s && decide (n < Config.longestFrame)

/-- A write transfer ends; one without a byte changes nothing. The receive buffer fills and empties within the event (R156;
log 31). -/
def writeTransfer (address : BitVec 7) (bytes : List Byte) (s : State) : State :=
  if addressed address s && !bytes.isEmpty then takeFrame (judgeFrame bytes) s else s

/-- WRITE_TRANSFER (R156). -/
def execWriteTransfer (address : BitVec 7) (bytes : List Byte) (s : State) : Outcome :=
  .next (writeTransfer address bytes s)

/-- The code of a command that stands in EXECUTING (R162, Table 11.2). -/
def commandCode : SlotCommand → Byte
  | .mark _ _ => 0x20
  | .rollback _ => 0x21

/-- The frame the slot's state gives at the address byte (R162). -/
def slotFrame (p : Port) : ReadFrame :=
  match p.slot with
  | .idle => { bytes := responseFrame ⟨.noResponse, 0, []⟩ p.overrun, held := false }
  | .executing c => { bytes := responseFrame ⟨.pending, commandCode c, []⟩ p.overrun, held := false }
  | .done r => { bytes := responseFrame r p.overrun, held := true }

/-- A read transfer's address byte is acknowledged: the frame is fixed (R157). -/
def readTransfer (address : BitVec 7) (s : State) : State :=
  if addressed address s then { s with port := { s.port with reading := some (slotFrame s.port) } } else s

/-- READ_TRANSFER (R157). -/
def execReadTransfer (address : BitVec 7) (s : State) : Outcome := .next (readTransfer address s)

/-- The byte the unit sends when byte `n` of a read transfer is clocked, counted from 0: that of the frame fixed at the
address byte, and FFh after its frame check, which for the held response ends the read (R157). -/
def sentByte (p : Port) (n : Nat) : Byte :=
  match p.reading with
  | some f => f.bytes.getD n 0xFF
  | none => 0xFF

/-- The frame check byte of the held response has been sent (R157, R162). -/
def consumeResponse (s : State) : State :=
  match s.port.reading, s.port.slot with
  | some ⟨_, true⟩, .done _ => { s with port := { s.port with slot := .idle, overrun := false, reading := none } }
  | _, _ => s

/-- RESPONSE_CONSUMED (R157). -/
def execResponseConsumed (s : State) : Outcome := .next (consumeResponse s)

end Sys2Proof.Machine
end

