-- ==== Sys2Proof/Machine/Dispatch.lean ====
section
/-! DEFINITION. The meaning of each command: one arm for each constructor of Instr. -/

namespace Sys2Proof.Machine

def exec (i : Instr) (s : State) : Host.Outcome State Fault Refusal :=
  match i with
  | .getStatus sec => Sys2Proof.Machine.execGetStatus sec s
  | .getCheckpoints => Sys2Proof.Machine.execGetCheckpoints s
  | .getWindow index => Sys2Proof.Machine.execGetWindow index s
  | .getInitiator number => Sys2Proof.Machine.execGetInitiator number s
  | .readViolation => Sys2Proof.Machine.execReadViolation s
  | .setWindow index kind base size => Sys2Proof.Machine.execSetWindow index kind base size s
  | .clearWindow index => Sys2Proof.Machine.execClearWindow index s
  | .setInitiator number cls permission => Sys2Proof.Machine.execSetInitiator number cls permission s
  | .setJournal base slots reserve depth runStamp policy paceMark pacingInterval holdTimeout => Sys2Proof.Machine.execSetJournal base slots reserve depth runStamp policy paceMark pacingInterval holdTimeout s
  | .setTiming paceMark pacingInterval holdTimeout ageLimit freezeMask => Sys2Proof.Machine.execSetTiming paceMark pacingInterval holdTimeout ageLimit freezeMask s
  | .setAlertMask mask => Sys2Proof.Machine.execSetAlertMask mask s
  | .clearAlerts selection => Sys2Proof.Machine.execClearAlerts selection s
  | .mark value => Sys2Proof.Machine.execMark value s
  | .rollback depth => Sys2Proof.Machine.execRollback depth s
  | .retry => Sys2Proof.Machine.execRetry s
  | .abandon => Sys2Proof.Machine.execAbandon s
  | .discard => Sys2Proof.Machine.execDiscard s
  | .adopt start => Sys2Proof.Machine.execAdopt start s
  | .reset => Sys2Proof.Machine.execReset s
  | .writeTransfer address bytes => Sys2Proof.Machine.execWriteTransfer address bytes s
  | .readTransfer address => Sys2Proof.Machine.execReadTransfer address s
  | .responseConsumed => Sys2Proof.Machine.execResponseConsumed s
  | .requestArrival request => Sys2Proof.Machine.execRequestArrival request s
  | .acceptance => Sys2Proof.Machine.execAcceptance s
  | .downstreamIssue tag => Sys2Proof.Machine.execDownstreamIssue tag s
  | .passedRequestCompletion tag result => Sys2Proof.Machine.execPassedRequestCompletion tag result s
  | .oldLineReadCompletion tag result => Sys2Proof.Machine.execOldLineReadCompletion tag result s
  | .forwardedWriteCompletion tag error => Sys2Proof.Machine.execForwardedWriteCompletion tag error s
  | .journalWriteCompletion tag error => Sys2Proof.Machine.execJournalWriteCompletion tag error s
  | .undoReadCompletion tag result => Sys2Proof.Machine.execUndoReadCompletion tag result s
  | .undoWriteCompletion tag error => Sys2Proof.Machine.execUndoWriteCompletion tag error s
  | .voidWriteCompletion tag error => Sys2Proof.Machine.execVoidWriteCompletion tag error s
  | .scanReadCompletion tag result => Sys2Proof.Machine.execScanReadCompletion tag result s
  | .abandonedCompletion tag result => Sys2Proof.Machine.execAbandonedCompletion tag result s
  | .strayCompletion tag result => Sys2Proof.Machine.execStrayCompletion tag result s
  | .forwardedWriteQueued => Sys2Proof.Machine.execForwardedWriteQueued s
  | .journalWritesQueued => Sys2Proof.Machine.execJournalWritesQueued s
  | .undoRequestQueued => Sys2Proof.Machine.execUndoRequestQueued s
  | .scanReadQueued => Sys2Proof.Machine.execScanReadQueued s
  | .allocationWaitEnd => Sys2Proof.Machine.execAllocationWaitEnd s
  | .holdTimerExpiry => Sys2Proof.Machine.execHoldTimerExpiry s
  | .pacingIntervalElapsed => Sys2Proof.Machine.execPacingIntervalElapsed s
  | .epochAgeTimerExpiry => Sys2Proof.Machine.execEpochAgeTimerExpiry s
  | .fltreqRisingEdge => Sys2Proof.Machine.execFltreqRisingEdge s
  | .fltreqFall => Sys2Proof.Machine.execFltreqFall s
  | .frzRise => Sys2Proof.Machine.execFrzRise s
  | .frzFall => Sys2Proof.Machine.execFrzFall s
  | .porstFall => Sys2Proof.Machine.execPorstFall s
  | .porstRise levels => Sys2Proof.Machine.execPorstRise levels s
  | .wrstFall => Sys2Proof.Machine.execWrstFall s
  | .wrstRise levels => Sys2Proof.Machine.execWrstRise levels s

end Sys2Proof.Machine
end

