-- ==== Sys2Proof/Machine/Step.lean ====
section
/-! DEFINITION. One step: the command at the front of the queue, or one time-base step when the queue is empty. -/

namespace Sys2Proof.Machine

/-- Takes the command at the front of the queue and carries it out on the rest. On an empty queue the step is one step of
the time base (R146; log 3). -/
def step (s : State) : Host.Outcome State Fault Refusal :=
  match s.pending with
  | [] => .next (tick s)
  | c :: rest => exec c { s with pending := rest }

/-- The command that a word spells, put at the front of the queue; the table gives no row any bits, so no word spells
one. -/
def State.withFetchWord (s : State) (nbits w : Nat) : State :=
  match decodeTableWord nbits w with
  | some c => { s with pending := c :: s.pending }
  | none => s

end Sys2Proof.Machine
end

