-- ==== Sys2Proof/Safety.lean ====
section
/-! DEFINITION. What the statements are stated in: when the port takes a command, when nothing waits for an event's end,
and the invariants of the unit (00_scope.md Table 4, R25, R28, R49, R51, R119, R124, R132). -/

namespace Sys2Proof.Machine

/-! ### The port -/

/-- The port takes a command: the unit is not held in reset and the slot is IDLE (R155, R161). -/
abbrev Ready (s : State) : Prop := held s = false ∧ s.port.slot = .idle

/-- The state after a command that is answered in the event in which it is taken, and changes nothing but the port. That a
frame ends a read in progress is the model's reading (log 20). -/
def answered (status : Status) (code : Byte) (data : List Byte) (s : State) : State :=
  { s with port := { s.port with slot := .done ⟨status, code, data⟩, reading := none } }

/-! ### The end of an event -/

/-- No entry on the space wait list can be granted a slot (R41). -/
def SpaceAtRest (s : State) : Prop :=
  ∀ id, s.capture.spaceWait.head? = some id →
    captureLimit s.journal ≤ s.journal.occupancy ∨ s.journal.allocWait.contains (.capture id) = true

/-- No MARK slot is due to be requested: none is wanted, or an entry of the closing epoch is short of RECORDING (R37,
R60). -/
def ReportAtRest (s : State) : Prop :=
  ∀ c, pendingEntry s = some c → c.markSlot ≠ none ∨ s.journal.allocWait.contains .mark = true ∨
    ∃ epoch, s.capture.closing = some epoch ∧ ∃ e ∈ s.capture.entries, e.epoch = epoch ∧ e.early = true

/-- No waiting request is due to be judged (R55, R73). -/
abbrev WaitersAtRest (s : State) : Prop :=
  hasPending s = true ∨ s.ctl.state = .adopting ∨ (s.rollback.pendingLine = false ∧ waitingCommand s = none)

/-- The phase says whether a rollback request waits (R69). -/
abbrev PhaseAtRest (s : State) : Prop :=
  s.ctl.state = .rolling ∨ s.ctl.state = .failed ∨ s.rollback.phase = if rollbackWaits s then .waiting else .idle

/-- Nothing is due: the unit as it stands between events. -/
def AtRest (s : State) : Prop := SpaceAtRest s ∧ ReportAtRest s ∧ WaitersAtRest s ∧ PhaseAtRest s

/-- A marker write that would request a mark is at the head of an ingress queue (R55, R117, Table 7.2). -/
abbrev MarkerAtHead (s : State) : Prop :=
  ∃ (n : Fin 8) (r : UpRequest) (rest : List UpRequest) (v : BitVec 64), s.up.ingress[n.val] = r :: rest ∧
    treatment s r = .passMark v

/-- The end of an event judges the requests that wait at once: that of a scan's event (R71), and that of any other event
where no marker write could be taken before them (R55, R73). -/
abbrev JudgesAtOnce (ends : State → State) (s : State) : Prop := ends = finishScan ∨ (ends = finish ∧ ¬ MarkerAtHead s)

/-! ### Invariants -/

/-- Every bounded queue, list and table keeps its capacity, and the filter holds no line twice (00_scope.md Table 4, R25,
R28, R119, R124, R132). -/
def Capacities (s : State) : Prop :=
  s.cls.violations.length ≤ Config.violationEntries ∧
  (∀ n : Fin 8, s.up.ingress[n.val].length ≤ Config.ingressPlaces) ∧
  s.capture.entries.length ≤ Config.captureEntries ∧
  s.down.outgoing.length ≤ Config.outgoingPlaces ∧
  s.capture.filter.Nodup ∧
  ∀ set : BitVec 8, (s.capture.filter.filter fun l => filterSet l == set).length ≤ Config.filterWays

/-- No two capture entries have one number, and the next number is above them all; the numbers are the model's own names
for the entries (log 18). -/
abbrev EntriesDistinct (s : State) : Prop :=
  (s.capture.entries.map (·.id)).Nodup ∧ ∀ e ∈ s.capture.entries, e.id < s.capture.nextEntry

/-- In UNARMED and ADOPTING the checkpoint list is empty and no epoch is open (R49, R51). -/
abbrev NoCheckpointsWhenUnarmed (s : State) : Prop :=
  s.ctl.state = .unarmed ∨ s.ctl.state = .adopting → s.ctl.checkpoints = [] ∧ s.ctl.openEpoch = none

/-- The phase follows the controller state, and no mark is pending in ROLLING or FAILED (R69, R70). -/
abbrev PhaseFollowsState (s : State) : Prop :=
  (s.ctl.state = .rolling ↔ s.rollback.phase = .retract ∨ s.rollback.phase = .undo) ∧
  (s.ctl.state = .failed ↔ s.rollback.phase = .stopped) ∧
  (s.ctl.state = .rolling ∨ s.ctl.state = .failed → hasPending s = false)

/-- A configured journal has its sizes in the ranges of Table 1.1, and only UNARMED is without a configured journal
(R1, R2, R54, R92). -/
abbrev JournalInRange (s : State) : Prop :=
  (s.journal.configured = true → 64 ≤ s.journal.config.slots ∧ s.journal.config.slots ≤ 1048576 ∧
    1 ≤ s.journal.config.depth ∧ s.journal.config.depth ≤ 4) ∧
  (s.ctl.state ≠ .unarmed → s.journal.configured = true)

/-- The checkpoint list holds at most depth entries, and an entry that another follows is ESTABLISHED, so that at most one
is PENDING and it is the newest (R52). -/
abbrev ListInOrder (s : State) : Prop :=
  s.ctl.checkpoints.length ≤ s.journal.config.depth ∧
  s.ctl.checkpoints.Pairwise fun older _ => older.status = .established

/-- The space wait list names entries in AWAIT_SPACE, each once (R41). -/
abbrev SpaceWaitMatches (s : State) : Prop :=
  s.capture.spaceWait.Nodup ∧
  ∀ id ∈ s.capture.spaceWait, ∃ e ∈ s.capture.entries, e.id = id ∧ e.state = .awaitSpace

/-- The scanner's working list holds at most depth entries, all ESTABLISHED, and is empty outside ADOPTING (R98, R99;
log 23). -/
abbrev WorkingInOrder (s : State) : Prop :=
  s.scan.working.length ≤ s.journal.config.depth ∧ (∀ c ∈ s.scan.working, c.status = .established) ∧
  (s.ctl.state ≠ .adopting → s.scan.working = [])

/-- Only in ARMED is an entry short of RECORDING (R23, R47, R77). -/
abbrev EarlyOnlyArmed (s : State) : Prop :=
  ∀ e ∈ s.capture.entries, e.early = true → s.ctl.state = .armed

/-- Outside ARMED the condition is INTACT (R50). -/
abbrev IntactOutsideArmed (s : State) : Prop := s.ctl.state ≠ .armed → s.ctl.condition = .intact

/-- RBACK is high only while FLTREQ is high, outside a reset (R88). -/
abbrev RbackWithFltreq (s : State) : Prop := held s = false → s.lines.rback = true → s.rollback.fltreq = true

/-! ### Frames and data -/

/-- `n` bytes of a frame or of data, from an offset. -/
def bytesAt (data : List Byte) (offset n : Nat) : List Byte := (data.drop offset).take n

/-- A response frame as the wire carries it: status with OVERRUN in bit 7, echo, data count, data, check (R160, R183). -/
def sentFrame (code echo : Byte) (overrun : Bool) (data : List Byte) : List Byte :=
  let before := [if overrun then code ||| 0x80#8 else code, echo, BitVec.ofNat 8 data.length] ++ data
  before ++ [crc8 before]

/-! ### Windows and the journal area -/

/-- Two ranges of granules share one (R111). -/
def SharesGranule (base₁ size₁ base₂ size₂ : Nat) : Prop :=
  ∃ g, base₁ ≤ g ∧ g < base₁ + size₁ ∧ base₂ ≤ g ∧ g < base₂ + size₂

/-- A byte of the journal area lies in one of the window's granules (R111). -/
def HoldsAreaByte (base size areaBase slots : Nat) : Prop :=
  ∃ a, areaBase ≤ a ∧ a < areaBase + 128 * slots ∧ base ≤ a / 4096 ∧ a / 4096 < base + size

/-- The range step of SET_WINDOW fails (R109 step 1, Table 6.1). -/
abbrev WindowOutOfRange (index kind : Byte) (base size : BitVec 32) : Prop :=
  15 < index.toNat ∨ (kind ≠ 1 ∧ kind ≠ 2 ∧ kind ≠ 3) ∨ 16777215 < base.toNat ∨ size.toNat < 1 ∨
  16777216 < size.toNat ∨ 16777216 < base.toNat + size.toNat ∨ (kind = 2 ∧ size.toNat ≠ 1)

/-- The edit of an entry touches guarded memory: the entry is an enabled GUARDED one, or the new kind is GUARDED
(R110). -/
def TouchesGuarded (index kind : Byte) (s : State) : Prop :=
  kind = 1 ∨ ∃ w, s.cls.windows[index.toNat]? = some w ∧ w.enabled = true ∧ w.kind = .guarded

/-- The window described overlaps another enabled window or the journal area (R111). -/
def WindowOverlaps (index : Byte) (base size : BitVec 32) (s : State) : Prop :=
  (∃ k : Fin 16, k.val ≠ index.toNat ∧ s.cls.windows[k.val].enabled = true ∧
    SharesGranule base.toNat size.toNat s.cls.windows[k.val].base s.cls.windows[k.val].size) ∨
  (s.journal.configured = true ∧
    HoldsAreaByte base.toNat size.toNat s.journal.config.base.toNat s.journal.config.slots)

/-- The range step of SET_JOURNAL fails (R2 step 2, Table 1.1). -/
abbrev JournalOutOfRange (base : BitVec 64) (slots : BitVec 32) (reserve depth policy : Byte) (paceMark : BitVec 32)
    (pacingInterval holdTimeout : BitVec 16) : Prop :=
  base.toNat % 4096 ≠ 0 ∨ 2 ^ 36 < base.toNat + 128 * slots.toNat ∨ slots.toNat < 64 ∨ 1048576 < slots.toNat ∨
  reserve.toNat < 2 ∨ reserve.toNat < depth.toNat + 1 ∨ depth.toNat < 1 ∨ 4 < depth.toNat ∨
  slots.toNat < reserve.toNat + 32 ∨ (policy ≠ 1 ∧ policy ≠ 2) ∨ slots.toNat < paceMark.toNat + reserve.toNat ∨
  pacingInterval.toNat < 1 ∨ 1023 < pacingInterval.toNat ∨ holdTimeout.toNat < 1 ∨ 4095 < holdTimeout.toNat

/-- The area described by SET_JOURNAL overlaps an enabled window (R2 step 3, R111). -/
def AreaOverlaps (base : BitVec 64) (slots : BitVec 32) (s : State) : Prop :=
  ∃ k : Fin 16, s.cls.windows[k.val].enabled = true ∧
    HoldsAreaByte s.cls.windows[k.val].base s.cls.windows[k.val].size base.toNat slots.toNat

/-- No two enabled windows share a granule, and none holds a byte of the journal area (R111). -/
def NoOverlap (s : State) : Prop :=
  (∀ i k : Fin 16, i ≠ k → s.cls.windows[i.val].enabled = true → s.cls.windows[k.val].enabled = true →
    ¬ SharesGranule s.cls.windows[i.val].base s.cls.windows[i.val].size
      s.cls.windows[k.val].base s.cls.windows[k.val].size) ∧
  ∀ k : Fin 16, s.journal.configured = true → s.cls.windows[k.val].enabled = true →
    ¬ HoldsAreaByte s.cls.windows[k.val].base s.cls.windows[k.val].size s.journal.config.base.toNat
      s.journal.config.slots

/-- What every step keeps of the journal, the lists, the controller and the windows. -/
structure Sound (s : State) : Prop where
  distinct  : EntriesDistinct s
  quiet     : NoCheckpointsWhenUnarmed s
  phase     : PhaseFollowsState s
  range     : JournalInRange s
  /-- R12, R13 -/
  occupancy : s.journal.occupancy ≤ s.journal.config.slots
  list      : ListInOrder s
  space     : SpaceWaitMatches s
  working   : WorkingInOrder s
  early     : EarlyOnlyArmed s
  intact    : IntactOutsideArmed s
  rback     : RbackWithFltreq s
  overlap   : NoOverlap s

/-- The bounds of what a journal's configuration or the capture queue bounds: occupancy (R12, R13), the checkpoint list and
its PENDING entry (R52), the space wait list (R41) and the scanner's working list (R98, R99). -/
def ListsBounded (s : State) : Prop :=
  s.journal.occupancy ≤ s.journal.config.slots ∧ s.ctl.checkpoints.length ≤ s.journal.config.depth ∧
  (∀ older newest, s.ctl.checkpoints = older ++ [newest] → ∀ c ∈ older, c.status = .established) ∧
  s.capture.spaceWait.length ≤ Config.captureEntries ∧ s.scan.working.length ≤ s.journal.config.depth

/-! ### Records, marks and rollbacks -/

/-- The state after the slot at the tail has been given out for a record and its two writes queued, header line first, or set
behind those that wait for two places (R4, R13, R14, R132), which may set the near-full flag (R39). -/
def withRecord (owner : SlotOwner) (checkpoint : CheckpointNo) (body : RecordBody) (s : State) : State :=
  let r : Record :=
    { runStamp := s.journal.config.runStamp, seq := s.journal.seq, checkpoint := checkpoint, body := body }
  let header := wholeWrite (slotLine s.journal s.journal.tail .header) (recordHeader r) (.journal s.journal.tail .header)
  let data := wholeWrite (slotLine s.journal s.journal.tail .data) (recordData r) (.journal s.journal.tail .data)
  let near : Bool := s.journal.config.paceMark != 0 &&
    decide (s.journal.config.paceMark ≤ s.journal.occupancy + 1) && !s.capture.nearFull
  let room := s.journal.writeWait = [] ∧ s.down.outgoing.length + 2 ≤ Config.outgoingPlaces
  { s with
    journal := { s.journal with
      seq := s.journal.seq + 1, tail := nextSlot s.journal s.journal.tail, occupancy := s.journal.occupancy + 1
      slotRecords := s.journal.slotRecords ++
        [{ slot := s.journal.tail, seq := s.journal.seq, owner := owner, header := .outstanding, data := .outstanding
           forgotten := false }]
      writeWait := if room then s.journal.writeWait else s.journal.writeWait ++ [(header, data)] }
    capture := { s.capture with nearFull := s.capture.nearFull || near }
    alerts := { s.alerts with latches := if near then s.alerts.latches ||| 0x001#12 else s.alerts.latches }
    down := { s.down with outgoing := if room then s.down.outgoing ++ [header, data] else s.down.outgoing } }

/-- A slot can be allocated at once: the counter is not spent, no request waits, and the tail's slot has no writes
outstanding (R11, R13). -/
abbrev CanWrite (s : State) : Prop :=
  s.journal.exhausted = false ∧ s.journal.seq ≠ 0xFFFFFFFFFFFFFFFF#64 ∧ s.journal.allocWait = [] ∧
  tailBlocked s.journal = false

/-- An allocation request has to wait: the tail's slot still has line writes of a forgotten slot outstanding, or a request
waits already (R13; log 10). -/
abbrev MustWait (s : State) : Prop := tailBlocked s.journal = true ∨ s.journal.allocWait ≠ []

/-- The CAPTURE slot of an entry is granted and its record written: the entry enters RECORDING with the slot and waits for
space no longer, the capture is counted to its checkpoint, and the hold ends where no entry waits for space (R5, R33, R41,
R42, R52). -/
def withCapture (e : CaptureEntry) (s : State) : State :=
  let space := s.capture.spaceWait.filter fun id => id != e.id
  withRecord (.capture e.id) e.epoch (.capture e.line e.initiator (e.oldData.getD 0)) { s with
    capture := { s.capture with
      entries := s.capture.entries.map fun x =>
        if x.id == e.id then { x with state := .recording, slot := some s.journal.tail } else x
      spaceWait := space
      hold := if space = [] then { running := false, count := 0, timeout := 0 } else s.capture.hold }
    ctl := { s.ctl with
      checkpoints := s.ctl.checkpoints.map fun c =>
        if c.number == e.epoch then { c with captures := satInc c.captures } else c
      condition := if space = [] ∧ s.ctl.condition = .holding then .intact else s.ctl.condition } }

/-- The MARK slot of the PENDING entry `c` is granted and its record written: the entry holds the slot and its sequence
number, and the closing epoch ends (R6, R60). -/
def withMark (c : Checkpoint) (pending : PendingMark) (s : State) : State :=
  withRecord .mark c.number (.mark c.value c.source pending.previous pending.restart) { s with
    ctl := { s.ctl with checkpoints := s.ctl.checkpoints.map fun x =>
      if x.status == .pending then { x with markSlot := some s.journal.tail, markSeq := some s.journal.seq } else x }
    capture := { s.capture with closing := none, closingBroken := false } }

/-- A trailing head has moved up to the commit point, or to the MARK slot of the only checkpoint where that comes first, and
trails no more once it stands there (R18). The near-full test of the occupancy it leaves is the model's reading
(log 13). -/
def trailed (s : State) : State :=
  let stop := s.ctl.checkpoints.head?.bind (·.markSlot)
  let passed := stop.elim (committedSlots s.journal) fun m =>
    min (committedSlots s.journal) (ringDistance s.journal s.journal.head m)
  let head := (s.journal.head + passed) % s.journal.config.slots
  let occupancy := s.journal.occupancy - passed
  let near : Bool := occupancy != s.journal.occupancy && s.journal.config.paceMark != 0 &&
    decide (s.journal.config.paceMark ≤ occupancy) && !s.capture.nearFull
  if s.journal.trailing then { s with
    journal := { s.journal with head := head, occupancy := occupancy, trailing := stop != some head }
    capture := { s.capture with nearFull := s.capture.nearFull || near }
    alerts := { s.alerts with latches := if near then s.alerts.latches ||| 0x001#12 else s.alerts.latches } }
  else s

/-- `n` slots can be allocated in one event: the sequence counter does not run out, no request waits, and no slot is
forgotten (R11, R13). -/
abbrev CanWriteAll (n : Nat) (s : State) : Prop :=
  s.journal.exhausted = false ∧ s.journal.seq.toNat + n < 2 ^ 64 ∧ s.journal.allocWait = [] ∧
  ∀ r ∈ s.journal.slotRecords, r.forgotten = false

/-- The entries of `gone` enter FORWARDING in its order, one that has not reached RECORDING without a record; their held
writes are queued while places are left, and the rest wait (R35, R46, R47, R132). -/
def forwardInOrder (gone : List CaptureEntry) (s : State) : State :=
  let room := if s.capture.forwardWait = [] then Config.outgoingPlaces - s.down.outgoing.length else 0
  { s with
    capture := { s.capture with
      entries := s.capture.entries.map fun e =>
        if e ∈ gone then { e with state := .forwarding, recorded := e.recorded && !e.early } else e
      forwardWait := s.capture.forwardWait ++ (gone.drop room).map (·.id) }
    down := { s.down with outgoing := s.down.outgoing ++
      (gone.take room).map fun e => ⟨⟨e.line, .write e.mask e.data⟩, .forwarded e.id⟩ } }

/-- The entries that `p` selects and that have not reached RECORDING are let go: they forward without records, in the order of
their acceptance (log 19), none of them waits any longer, and the hold ends where no entry waits for space (R42, R44, R46). -/
def released (p : CaptureEntry → Bool) (s : State) : State :=
  let gone := s.capture.entries.filter fun e => e.early && p e
  let space := s.capture.spaceWait.filter fun id => gone.all fun e => e.id != id
  let f := forwardInOrder gone s
  { f with
    capture := { f.capture with
      spaceWait := space, hold := if space = [] then { running := false, count := 0, timeout := 0 } else s.capture.hold }
    journal := { s.journal with allocWait := s.journal.allocWait.filter fun r => match r with
      | .capture id => gone.all fun e => e.id != id
      | .mark => true
      | .brk _ _ => true }
    ctl := { s.ctl with
      condition := if space = [] ∧ s.ctl.condition = .holding then .intact else s.ctl.condition } }

/-- The entries a break of an epoch reaches: its own, and every entry that waits for space (R44, R45). -/
def reachedByBreak (epoch : CheckpointNo) (e : CaptureEntry) : Bool := e.epoch == epoch || e.state == .awaitSpace

/-- The completion under a tag is the last of the two line writes of the slot that `r` keeps, which so settles as `r'`
(R14). -/
def LastWrite (s : State) (tag : DownTag) (error : Bool) (r r' : SlotRecord) : Prop :=
  let w : WriteState := if error then .error else .ok
  (tagState s tag = .inUse (.journal r.slot .header) ∧ r.data ≠ .outstanding ∧ r' = { r with header := w }) ∨
  (tagState s tag = .inUse (.journal r.slot .data) ∧ r.header ≠ .outstanding ∧ r' = { r with data := w })

/-! ### Breaks (R44, R45) -/

/-- A break that stands at a place among the sequence numbers has no BREAK record (R145). That the latest such break is told by
its sequence number is the model's reading (log 24). -/
def withUnrecorded (place : SeqNo) (s : State) : State :=
  { s with alerts := { s.alerts with
    breakUnrecorded := true
    unrecordedAt := if s.alerts.breakUnrecorded = true ∧ place < s.alerts.unrecordedAt then s.alerts.unrecordedAt
      else place } }

/-- A break asks for its BREAK slot (R13, Table 1.4, R44, R45): `s` before it, `t` after it. The record is written; or the
request has to wait, at the back or, for the closing epoch, before a MARK request that waits (log 10); or it is refused, for
a journal that is full or exhausted (R11). -/
def AsksBreak (closing : Bool) (epoch : CheckpointNo) (cause : RecordCause) (s t : State) : Prop :=
  let spent := s.journal.exhausted = true ∨ s.journal.seq = 0xFFFFFFFFFFFFFFFF#64
  let full := s.journal.config.slots ≤ s.journal.occupancy
  let waits := s.journal.allocWait
  (MustWait s → t = { s with journal := { s.journal with
    allocWait := if closing then waits.takeWhile (· != .mark) ++ [.brk epoch cause] ++ waits.dropWhile (· != .mark)
      else waits ++ [.brk epoch cause] } }) ∧
  (¬ MustWait s → spent → t = withUnrecorded (enterExhaustion s).journal.seq (enterExhaustion s)) ∧
  (¬ MustWait s → ¬ spent → full → t = withUnrecorded s.journal.seq s) ∧
  (¬ MustWait s → ¬ spent → ¬ full → t = withRecord .brk epoch (.brk cause) s)

/-- The last break cause that the controller records for the cause of a break (R50). -/
def recordedCause : RecordCause → BreakCause
  | .limit => .limit
  | .holdTimeout => .holdTimeout
  | .journalWrite => .journalWrite

/-- A break of the open epoch (R44, R46, R50): `s` before it, `t` after it and before the event's end. -/
def BreaksOpen (epoch : CheckpointNo) (cause : RecordCause) (s t : State) : Prop :=
  ∃ r, AsksBreak false epoch cause (released (reachedByBreak epoch) { s with
      ctl := { s.ctl with condition := .broken, lastBreak := some (recordedCause cause) } }) r ∧
    t = { r with alerts := { r.alerts with latches := r.alerts.latches ||| 0x004#12 } }

/-- A break of the closing epoch (R18, R45, R46, R50, R59): the pending mark becomes a restart, which drops every older
checkpoint, and the head trails. `s` before it, `t` after it and before the event's end. -/
def BreaksClosing (epoch : CheckpointNo) (cause : RecordCause) (s t : State) : Prop :=
  ∃ r, AsksBreak true epoch cause (released (reachedByBreak epoch) { s with
      ctl := { s.ctl with lastBreak := some (recordedCause cause) }, capture := { s.capture with closingBroken := true } }) r ∧
    t = trailed { r with
      journal := { r.journal with trailing := true }
      ctl := { r.ctl with
        checkpoints := r.ctl.checkpoints.filter fun c => c.status == .pending
        pendingMark := r.ctl.pendingMark.map fun p => { p with restart := true } }
      alerts := { r.alerts with latches := r.alerts.latches ||| 0x004#12 } }

/-- A break of the capture engine is not taken: the unit is not ARMED, or the epoch it falls on, the closing epoch where there
is one and the open epoch otherwise, has broken already (R44, R45). -/
abbrev BreakNotTaken (s : State) : Prop :=
  s.ctl.state ≠ .armed ∨ (s.capture.closing = none ∧ s.ctl.condition = .broken) ∨
  (s.capture.closing ≠ none ∧ s.capture.closingBroken = true)

/-! ### The commit point (R15) -/

/-- An entry enters FORWARDING: its held write is queued, or waits where others wait or no place is left (R35, R132). -/
def withForwarded (e : CaptureEntry) (s : State) : State :=
  let room := s.capture.forwardWait = [] ∧ s.down.outgoing.length < Config.outgoingPlaces
  { s with
    capture := { s.capture with
      entries := s.capture.entries.map fun x =>
        if x.id == e.id then { x with state := .forwarding, recorded := e.recorded } else x
      forwardWait := if room then s.capture.forwardWait else s.capture.forwardWait ++ [e.id] }
    down := { s.down with outgoing := if room
      then s.down.outgoing ++ [⟨⟨e.line, .write e.mask e.data⟩, .forwarded e.id⟩] else s.down.outgoing } }

/-- The pending checkpoint `c` is ESTABLISHED (R61, R64, R67, R145). That the order of a break and the MARK slot is told by
their sequence numbers is the model's reading (log 24). -/
def withEstablished (c : Checkpoint) (s : State) : State :=
  let seq := c.markSeq.getD 0xFFFFFFFFFFFFFFFF#64
  { s with
    ctl := { s.ctl with
      checkpoints := s.ctl.checkpoints.map fun x => if x.status == .pending then { x with status := .established } else x
      pendingMark := none, memorySuspect := false
      age := { s.ctl.age with running := true, count := 0, stale := false } }
    alerts := { s.alerts with
      latches := s.alerts.latches ||| 0x008#12
      breakUnrecorded := if s.alerts.unrecordedAt ≤ seq then false else s.alerts.breakUnrecorded
      unrecordedAt := if s.alerts.unrecordedAt ≤ seq then 0 else s.alerts.unrecordedAt }
    port := match s.port.slot with
      | .executing (.mark _ true) => { s.port with slot := .done ⟨.ok, 0x20, bytesLE 4 c.number ++ bytesLE 8 seq⟩ }
      | _ => s.port }

/-- The commit point has passed the slot of `r` (R15): a capture's entry in AWAIT_COMMIT forwards (R35), a pending mark's
checkpoint is ESTABLISHED where the slot settled complete (R61), the slot whose void write failed sets ADOPTABLE again
(R21), and a trailing head follows (R18). -/
def passedSlot (s : State) (r : SlotRecord) : State :=
  let voided : Bool := s.journal.voidFailed == some r.slot
  let moved := { s with journal := { s.journal with
    commit := nextSlot s.journal s.journal.commit, slotRecords := s.journal.slotRecords.erase r
    adoptable := s.journal.adoptable || voided, voidFailed := if voided then none else s.journal.voidFailed } }
  trailed (match r.owner with
    | .capture id => match entryOf s id with
      | some e => if e.state = .awaitCommit then withForwarded e moved else moved
      | none => moved
    | .mark => match pendingEntry s with
      | some c =>
          if r.header ≠ .error ∧ r.data ≠ .error ∧ c.markSlot = some r.slot then withEstablished c moved else moved
      | none => moved
    | .brk => moved)

/-- The commit point advances (R15): `s` before it, `t` after it. In ROLLING and FAILED it stands still; otherwise it passes the
settled slots that follow it, one after another, up to the first that is not settled. -/
def CommitAdvances (s t : State) : Prop :=
  (s.ctl.state = .rolling ∨ s.ctl.state = .failed → t = s) ∧
  (s.ctl.state ≠ .rolling → s.ctl.state ≠ .failed → ∃ run rest,
    s.journal.slotRecords.filter (fun r => !r.forgotten) = run ++ rest ∧
    (∀ r ∈ run, r.header ≠ .outstanding ∧ r.data ≠ .outstanding) ∧
    (∀ r, rest.head? = some r → r.header = .outstanding ∨ r.data = .outstanding) ∧ t = run.foldl passedSlot s)

/-! ### Emptying -/

/-- The unit has entered UNARMED and the journal is emptied (R20, R49 to R51, R64): `s` before it. That a failed void write is
forgotten is the model's reading (log 27). -/
def emptied (s : State) : State :=
  { s with
    journal := { s.journal with
      head := s.journal.tail, commit := s.journal.tail, occupancy := 0, adoptable := false, trailing := false
      allocWait := [], voidFailed := none
      slotRecords := (s.journal.slotRecords.filter fun r => r.header == .outstanding || r.data == .outstanding).map
        fun r => { r with forgotten := true } }
    capture := { s.capture with nearFull := false, closing := none, closingBroken := false }
    ctl := { s.ctl with
      state := .unarmed, condition := .intact, openEpoch := none, checkpoints := [], pendingMark := none
      age := { s.ctl.age with running := false, count := 0 } }
    rollback := { s.rollback with phase := .idle } }

/-- Likewise from ARMED: the filter is cleared, no entry waits for space, and every entry but those whose slot's writes are
still outstanding forwards: those in AWAIT_COMMIT in the order of their slots (R35), and then the others in the order of their
acceptance (log 19) (R27, R47). -/
def emptiedFromArmed (s : State) : State :=
  let f := forwardInOrder (leavingOrder s) (emptied s)
  { f with capture := { f.capture with
    filter := [], spaceWait := [], hold := { running := false, count := 0, timeout := 0 } } }

/-! ### Mark points, rollbacks and scans -/

/-- What a mark point does (R37, R57 to R59): `s` before it, `t` after it and before the event's end. The near-full test
of the occupancy it leaves is the model's reading (log 13). -/
def TakesMark (source : MarkSource) (value : BitVec 64) (s t : State) : Prop :=
  let restart : Bool := s.ctl.state == .unarmed || s.ctl.condition == .broken
  let atDepth : Bool := decide (s.journal.config.depth ≤ s.ctl.checkpoints.length)
  let older := if restart then [] else if atDepth then s.ctl.checkpoints.tail else s.ctl.checkpoints
  let near : Bool := t.journal.occupancy != s.journal.occupancy && s.journal.config.paceMark != 0 &&
    decide (s.journal.config.paceMark ≤ t.journal.occupancy)
  t = { s with
    ctl := { s.ctl with
      state := .armed
      openEpoch := some s.journal.nextCheckpoint
      condition := if s.capture.spaceWait = [] then .intact else s.ctl.condition
      checkpoints := older ++
        [{ number := s.journal.nextCheckpoint, status := .pending, markSlot := none, markSeq := none, value := value
           source := source, captures := 0 }]
      pendingMark := some { previous := if s.ctl.state = .unarmed then none else s.ctl.openEpoch, restart := restart } }
    journal := { s.journal with
      nextCheckpoint := s.journal.nextCheckpoint + 1, adoptable := s.journal.adoptable || s.ctl.state == .unarmed
      head := t.journal.head, occupancy := t.journal.occupancy, trailing := t.journal.trailing }
    capture := { s.capture with
      filter := [], nearFull := near, closing := if restart then none else s.ctl.openEpoch, closingBroken := false }
    alerts := { s.alerts with latches := if near then s.alerts.latches ||| 0x001#12 else s.alerts.latches } } ∧
  (restart = true ∧ s.ctl.checkpoints = [] ∨ restart = false ∧ atDepth = false →
    t.journal.head = s.journal.head ∧ t.journal.occupancy = s.journal.occupancy ∧
    t.journal.trailing = s.journal.trailing) ∧
  (restart = true ∧ s.ctl.checkpoints ≠ [] ∨ restart = false ∧ atDepth = true ∧ s.ctl.checkpoints.length ≤ 1 →
    t.journal.head = (s.journal.head + committedSlots s.journal) % s.journal.config.slots ∧
    t.journal.occupancy = s.journal.occupancy - committedSlots s.journal ∧ t.journal.trailing = true) ∧
  (restart = false → atDepth = true → ∀ oldest next rest m, s.ctl.checkpoints = oldest :: next :: rest →
    next.markSlot = some m → t.journal.head = m ∧
    t.journal.occupancy = s.journal.occupancy - ringDistance s.journal s.journal.head m ∧
    t.journal.trailing = s.journal.trailing)

/-- The start event of a rollback (R75, R77): `s` before it, `t` after it and before the event's end. -/
def StartsRollback (origin : Origin) (c : Checkpoint) (s t : State) : Prop :=
  let slot := c.markSlot.getD 0
  let cancelled := s.capture.entries.filter fun e => e.state != .forwarding
  t = { s with
    ctl := { s.ctl with state := .rolling, condition := .intact, age := { s.ctl.age with running := false } }
    rollback := { s.rollback with
      phase := .retract, origin := some origin, ackMark := origin == .line
      target := some { number := c.number, slot := slot, seq := seqField c.markSeq }
      undoLimit := some s.journal.commit, undoPointer := none, lastUndone := none, failure := none
      remaining := ringDistance s.journal (nextSlot s.journal slot) s.journal.commit
      pair := { header := none, data := none }, current := none, undoWait := []
      readsLeft := (cancelled.filter fun e => e.state == .lineRead && e.oldData.isNone).map (·.id) }
    alerts := { s.alerts with recordsUndone := 0 }
    capture := { s.capture with
      entries := s.capture.entries.filter fun e => e.state == .forwarding
      spaceWait := [], hold := { running := false, count := 0, timeout := 0 } }
    up := { s.up with delivered := s.up.delivered ++ cancelled.map fun e => ⟨e.initiator, e.tag, .retracted⟩ }
    journal := { s.journal with allocWait := s.journal.allocWait.filter fun r => match r with
      | .capture _ => false
      | .mark => true
      | .brk _ _ => true } }

/-- A rollback has settled (R19, R83, R88): `s` before it, `t` after it. The journal is truncated behind the target's MARK
slot; the near-full test of the occupancy that leaves is the model's reading (log 13). -/
def Settles (target : Target) (voidFailed : Bool) (s t : State) : Prop :=
  let occupancy := ringDistance s.journal s.journal.head target.slot + 1
  let near : Bool := occupancy != s.journal.occupancy && s.journal.config.paceMark != 0 &&
    decide (s.journal.config.paceMark ≤ occupancy) && !s.capture.nearFull
  t = { s with
    journal := { s.journal with
      tail := nextSlot s.journal target.slot, commit := nextSlot s.journal target.slot, occupancy := occupancy
      slotRecords := s.journal.slotRecords.filter fun r => r.forgotten
      adoptable := !voidFailed, voidFailed := if voidFailed then some (nextSlot s.journal target.slot) else none }
    capture := { s.capture with filter := [], nearFull := false }
    ctl := { s.ctl with
      state := .armed, condition := .intact, openEpoch := some target.number
      checkpoints := s.ctl.checkpoints.map fun c => if c.number == target.number then { c with captures := 0 } else c
      age := { s.ctl.age with running := true, count := 0, stale := false } }
    rollback := { s.rollback with
      phase := .idle, ackMark := false, undoPointer := some target.slot, remaining := 0, current := none }
    alerts := { s.alerts with latches := (if near then s.alerts.latches ||| 0x001#12 else s.alerts.latches) ||| 0x020#12 }
    lines := { s.lines with rback := s.lines.rback || (s.rollback.ackMark && s.rollback.fltreq) } }

/-- The walk has stopped at its pointer (R84): `s` before it, `t` after it. -/
def StopsWalk (cause : WalkCause) (slot : Nat) (s t : State) : Prop :=
  t = { s with
    ctl := { s.ctl with state := .failed }
    rollback := { s.rollback with
      phase := .stopped, current := none
      failure := some { slot := slot, cause := cause, remaining := s.rollback.remaining } }
    alerts := { s.alerts with latches := s.alerts.latches ||| alertBit .rollbackFailed } }

/-- A block places new requests: `outgoing` and `waiting` become `out` and `wait`. Those queued stay in their order, a new
one enters the outgoing queue where there is a place and none of the block's waits before it, and the rest wait, in order
(R79, R96, R132). -/
def Places (outgoing waiting new out wait : List DownEntry) : Prop :=
  out ++ wait = outgoing ++ waiting ++ new ∧ outgoing <+: out ∧ (waiting ≠ [] → out = outgoing) ∧
  (waiting = [] → outgoing.length + new.length ≤ Config.outgoingPlaces → wait = []) ∧
  (waiting = [] → wait ≠ [] → Config.outgoingPlaces ≤ out.length)

/-- The completion of a line read, of the `half` line, with `x` makes the pair of reads of a slot complete as `h` and `d`,
whichever of the two comes last (R134). -/
abbrev CompletesPair (pair : PairRead) (half : Half) (x h d : ReadResult) : Prop :=
  (half = .header ∧ x = h ∧ pair.data = some d) ∨ (half = .data ∧ x = d ∧ pair.header = some h)

/-- What an accepted record of slot `p` makes of the scan's working list, segment number, segment break and dropped count
(R98 to R100). -/
def AcceptsRecord (s : State) (p : Nat) (seq : SeqNo) (number : CheckpointNo) (body : RecordBody)
    (working : List Checkpoint) (segment : Option CheckpointNo) (brk : Option RecordCause) (dropped : BitVec 32) : Prop :=
  match body with
  | .capture _ _ _ =>
      working = countNewest s.scan.working ∧ segment = s.scan.segment ∧ brk = s.scan.segBreak ∧ dropped = s.scan.dropped
  | .brk cause =>
      working = s.scan.working ∧ segment = s.scan.segment ∧ brk = some cause ∧ dropped = s.scan.dropped
  | .mark v src _ restart =>
      let kept := (if restart = true ∨ s.scan.segBreak ≠ none then [] else s.scan.working) ++
        [{ number := number, status := .established, markSlot := some p, markSeq := some seq, value := v
           source := src, captures := 0 }]
      working = kept.drop (kept.length - s.journal.config.depth) ∧ segment = some number ∧ brk = none ∧
      dropped = BitVec.ofNat 32 (min 0xFFFFFFFF (s.scan.dropped.toNat + (s.scan.working.length + 1 - working.length)))

/-- The record is a MARK record, as an anchor must be (R95). -/
def IsMark (body : RecordBody) : Prop := ∃ v src previous restart, body = .mark v src previous restart

/-- The epoch test: a MARK record opens a later epoch than the segment's, and any other belongs to it (Table 5.2). -/
def EpochFits (segment number : CheckpointNo) (body : RecordBody) : Prop :=
  (IsMark body → segment < number) ∧ (¬ IsMark body → number = segment)

/-- A scan has ended ADOPTED (R101, R102): `s` before it, `t` after it. `last` and `lastSeq` are of the last record accepted,
`segment` is the segment number, and `head` the MARK slot of the oldest checkpoint. -/
def EndsAdopted (cause : ScanCause) (endSlot last : Nat) (lastSeq : SeqNo) (segment : CheckpointNo) (newest : Checkpoint)
    (head : Nat) (s t : State) : Prop :=
  t.journal.seq.toNat = max s.journal.seq.toNat (min (lastSeq.toNat + 1) 0xFFFFFFFFFFFFFFFF) ∧
  t.journal.nextCheckpoint.toNat = max s.journal.nextCheckpoint.toNat (min (segment.toNat + 1) 0xFFFFFFFF) ∧
  t = { s with
    journal := { s.journal with
      head := head, tail := nextSlot s.journal last, commit := nextSlot s.journal last
      occupancy := ringDistance s.journal head last + 1, adoptable := true, voidFailed := none
      seq := t.journal.seq, nextCheckpoint := t.journal.nextCheckpoint }
    ctl := { s.ctl with
      state := .armed, checkpoints := s.scan.working, openEpoch := some newest.number
      condition := if s.scan.segBreak = none then .intact else .broken
      lastBreak := match s.scan.segBreak with
        | some .limit => some .limit
        | some .holdTimeout => some .holdTimeout
        | some .journalWrite => some .journalWrite
        | none => s.ctl.lastBreak
      age := { s.ctl.age with running := true, count := 0, stale := false } }
    scan := { s.scan with
      result := .adopted, endCause := cause, endSlot := some endSlot, lastSlot := none, lastSeq := none, segment := none
      working := [], segBreak := none, pair := { header := none, data := none }, scanWait := [] }
    alerts := { s.alerts with latches := s.alerts.latches ||| 0x100#12 } }

/-- The two line reads of a slot, header line first (R79). -/
def undoReads (j : Journal) (slot : Nat) : List DownEntry :=
  [readOf (slotLine j slot .header) (.undoRead slot .header), readOf (slotLine j slot .data) (.undoRead slot .data)]

/-- The two line reads of a slot of a scan, header line first (R95, R96). -/
def scanReads (j : Journal) (run slot : Nat) : List DownEntry :=
  [readOf (slotLine j slot .header) (.scanRead run slot .header),
   readOf (slotLine j slot .data) (.scanRead run slot .data)]

/-! ### Resets -/

/-- A warm reset has begun (R21, R48, R68, R90, R107, R121, R138, R143 to R145, R149, R164): `s` before it, `t` after it,
but for the reset lines. The levels, the address and the credits stand until the reset ends (log 16, log 26). -/
def ResetsWarm (s t : State) : Prop :=
  t.journal = { Journal.reset with
    configured := s.journal.configured, config := s.journal.config, head := s.journal.head, commit := s.journal.head
    tail := s.journal.head, seq := s.journal.seq, nextCheckpoint := s.journal.nextCheckpoint
    adoptable := s.journal.adoptable } ∧
  t.capture = Capture.reset ∧ t.ctl = { Controller.reset with memorySuspect := s.ctl.memorySuspect } ∧
  t.rollback = { Rollback.reset with fltreq := s.rollback.fltreq } ∧ t.scan = Scanner.reset ∧ t.cls = Classifier.reset ∧
  t.up = { Upstream.reset with credits := s.up.credits, delivered := s.up.delivered } ∧
  t.down.outgoing = [] ∧ t.down.sent = s.down.sent ∧
  (∀ tag : DownTag, tagState t tag = if tagState s tag = .free then .free else .abandoned) ∧
  t.alerts = { Alerts.reset with frz := s.alerts.frz } ∧ t.port = { Port.reset with address := s.port.address } ∧
  t.free = s.free ∧ t.pending = s.pending

/-- A power-on reset has begun (R22, R48, R68, R90, R107, R121, R139, R143 to R145, R149, R164), likewise. -/
def ResetsPower (s t : State) : Prop :=
  t.journal = Journal.reset ∧ t.capture = Capture.reset ∧ t.ctl = Controller.reset ∧
  t.rollback = { Rollback.reset with fltreq := s.rollback.fltreq } ∧ t.scan = Scanner.reset ∧ t.cls = Classifier.reset ∧
  t.up = { Upstream.reset with credits := s.up.credits, delivered := s.up.delivered } ∧
  t.down.outgoing = [] ∧ t.down.sent = s.down.sent ∧ (∀ tag : DownTag, tagState t tag = .free) ∧
  t.alerts = { Alerts.reset with frz := s.alerts.frz } ∧ t.port = { Port.reset with address := s.port.address } ∧
  t.free = s.free ∧ t.pending = s.pending

/-- The end of a reset (R71, R88, R124, R149, R150, R152): the levels are sampled, every initiator holds four credits and RBACK
is low. -/
def endOfReset (levels : PinLevels) (s : State) : State :=
  { s with
    up := { s.up with credits := Vector.replicate 8 4 }
    rollback := { s.rollback with fltreq := levels.fltreq }
    alerts := { s.alerts with frz := levels.frz }
    port := { s.port with address := 0x4C#7 + levels.straps.setWidth 7 }
    lines := { s.lines with rback := false, straps := levels.straps } }

end Sys2Proof.Machine
end

