-- ==== Sys2Proof/WellFormed.lean ====
section
/-! DEFINITION. Well-formed commands: every operand in the range its table of the spec gives it. A management command
with an operand out of range is still a command; the unit answers it RANGE (R183). This file is a check of its own and
no meaning calls it. -/

namespace Sys2Proof

/-- The ranges of Table 11.2 for SET_WINDOW, and the size and end of the window (R109 step 1). -/
def wfWindow (index kind : Byte) (base size : BitVec 32) : Bool :=
  decide (index.toNat < 16) && decide (1 ≤ kind.toNat ∧ kind.toNat ≤ 3) && decide (base.toNat ≤ 16777215) &&
  decide (1 ≤ size.toNat ∧ base.toNat + size.toNat ≤ 16777216) && (kind != 2#8 || size == 1#32)

/-- The range step of SET_JOURNAL (R2 step 2, Table 1.1). -/
def wfJournal (base : BitVec 64) (slots : BitVec 32) (reserve depth policy : Byte) (paceMark : BitVec 32)
    (pacingInterval holdTimeout : BitVec 16) : Bool :=
  decide (base.toNat % 4096 = 0) && decide (64 ≤ slots.toNat ∧ slots.toNat ≤ 1048576) &&
  decide (base.toNat + 128 * slots.toNat ≤ 2 ^ 36) && decide (2 ≤ reserve.toNat ∧ depth.toNat + 1 ≤ reserve.toNat) &&
  decide (1 ≤ depth.toNat ∧ depth.toNat ≤ 4) && decide (reserve.toNat + 32 ≤ slots.toNat) &&
  decide (policy.toNat = 1 ∨ policy.toNat = 2) && decide (paceMark.toNat + reserve.toNat ≤ slots.toNat) &&
  decide (1 ≤ pacingInterval.toNat ∧ pacingInterval.toNat ≤ 1023) &&
  decide (1 ≤ holdTimeout.toNat ∧ holdTimeout.toNat ≤ 4095)

/-- The length test of R158 step 1. -/
def wfFrame : List Byte → Bool
  | _ :: count :: rest => decide (rest.length = count.toNat + 1)
  | _ => false

/-- Every operand lies in the range its table gives it. -/
def Instr.wellFormed : Instr → Bool
  | .getStatus sec => decide (1 ≤ sec.toNat ∧ sec.toNat ≤ 7)
  | .getCheckpoints => true
  | .getWindow index => decide (index.toNat < 16)
  | .getInitiator number => decide (number.toNat < 8)
  | .readViolation => true
  | .setWindow index kind base size => wfWindow index kind base size
  | .clearWindow index => decide (index.toNat < 16)
  | .setInitiator number cls permission =>
      decide (number.toNat < 8) && decide (1 ≤ cls.toNat ∧ cls.toNat ≤ 3) && decide (permission.toNat ≤ 1)
  | .setJournal base slots reserve depth _ policy pace interval timeout =>
      wfJournal base slots reserve depth policy pace interval timeout
  | .setTiming _ interval timeout _ freeze =>
      decide (1 ≤ interval.toNat ∧ interval.toNat ≤ 1023) && decide (1 ≤ timeout.toNat ∧ timeout.toNat ≤ 4095) &&
      decide (freeze.toNat < 8)
  | .setAlertMask mask => decide (mask.toNat < 4096)
  | .clearAlerts selection => decide (selection.toNat < 4096)
  | .mark _ => true
  | .rollback depth => decide (1 ≤ depth.toNat ∧ depth.toNat ≤ 4)
  | .retry => true
  | .abandon => true
  | .discard => true
  | .adopt start => start == 0xFFFFFFFF#32 || decide (start.toNat ≤ 1048575)
  | .reset => true
  | .writeTransfer _ bytes => bytes == [] || wfFrame bytes
  | .readTransfer _ => true
  | .responseConsumed => true
  | .requestArrival _ => true
  | .acceptance => true
  | .downstreamIssue _ => true
  | .passedRequestCompletion _ _ => true
  | .oldLineReadCompletion _ _ => true
  | .forwardedWriteCompletion _ _ => true
  | .journalWriteCompletion _ _ => true
  | .undoReadCompletion _ _ => true
  | .undoWriteCompletion _ _ => true
  | .voidWriteCompletion _ _ => true
  | .scanReadCompletion _ _ => true
  | .abandonedCompletion _ _ => true
  | .strayCompletion _ _ => true
  | .forwardedWriteQueued => true
  | .journalWritesQueued => true
  | .undoRequestQueued => true
  | .scanReadQueued => true
  | .allocationWaitEnd => true
  | .holdTimerExpiry => true
  | .pacingIntervalElapsed => true
  | .epochAgeTimerExpiry => true
  | .fltreqRisingEdge => true
  | .fltreqFall => true
  | .frzRise => true
  | .frzFall => true
  | .porstFall => true
  | .porstRise _ => true
  | .wrstFall => true
  | .wrstRise _ => true

end Sys2Proof
end

