-- ==== Sys2Proof/Certificates/Slice0/Obligations.lean ====
section
/-! DEFINITION. The statements for the provers. `finish` is the end of an event, and `finishScan` that of an event of a scan:
EventEndsPlainly says what they do and when they change nothing, EventEndFrame what they never change. -/

open Sys2Proof Sys2Proof.Machine

/-! ### The machine -/

/-- A step takes the command at the front of the queue and runs its meaning on the queue's rest. -/
def Obligations.StepRunsFrontCommand : Prop :=
  ∀ (s : State) (c : Instr) (rest : List Instr), s.pending = c :: rest → step s = exec c { s with pending := rest }

/-- On an empty queue a step is one step of the time base (R146; the model's choice, log 3): the running timers that are
not frozen count, and a timer that would expire queues its command instead. Held in reset, nothing moves. -/
def Obligations.EmptyQueueTakesTimeStep : Prop :=
  ∀ s : State, s.pending = [] →
    (held s = true → step s = .next s) ∧
    (held s = false → step s = .next { s with
      capture := { s.capture with
        hold := if s.capture.hold.running = true ∧ frozen s 0 = false ∧ holdStepExpires s = false
          then { s.capture.hold with count := s.capture.hold.count + 1 } else s.capture.hold
        pacing := if frozen s 1 = false ∧ pacingStepElapses s = false
          then s.capture.pacing.map fun n => if n < 1023 then n + 1 else n else s.capture.pacing }
      ctl := { s.ctl with
        age := if s.ctl.age.running = true ∧ frozen s 2 = false ∧ ageStepExpires s = false ∧ s.ctl.age.count < 65535000
          then { s.ctl.age with count := s.ctl.age.count + 1 } else s.ctl.age }
      pending := (if holdStepExpires s then [Instr.holdTimerExpiry] else []) ++
        (if pacingStepElapses s then [Instr.pacingIntervalElapsed] else []) ++
        (if ageStepExpires s then [Instr.epochAgeTimerExpiry] else []) })

/-- The values the spec states for power-on reset (Tables 1.5, 2.2, 3.4, 4.2, 5.3, 6.3, 7.4, 9.3; R143 to R145, R149).
That the straps read 00 and FLTREQ and FRZ low there is the model's choice (log 15). -/
def Obligations.ResetValues : Prop :=
  let s := State.reset
  (s.journal.configured = false ∧ s.journal.config.base = 0 ∧ s.journal.config.slots = 0 ∧
    s.journal.config.reserve = 0 ∧ s.journal.config.depth = 0 ∧ s.journal.config.runStamp = 0 ∧
    s.journal.config.policy = .break_ ∧ s.journal.config.pacingInterval = 64 ∧
    s.journal.config.holdTimeout = 10 ∧ s.journal.config.paceMark = 0 ∧ s.journal.head = 0 ∧ s.journal.commit = 0 ∧
    s.journal.tail = 0 ∧ s.journal.occupancy = 0 ∧ s.journal.seq = 1 ∧ s.journal.nextCheckpoint = 1 ∧
    s.journal.exhausted = false ∧ s.journal.adoptable = false ∧ s.journal.trailing = false ∧
    s.journal.slotRecords = []) ∧
  (s.capture.entries = [] ∧ s.capture.filter = [] ∧ s.capture.spaceWait = [] ∧ s.capture.hold.running = false ∧
    s.capture.pacing = none ∧ s.capture.nearFull = false ∧ s.capture.closing = none) ∧
  (s.ctl.state = .unarmed ∧ s.ctl.condition = .intact ∧ s.ctl.lastBreak = none ∧ s.ctl.openEpoch = none ∧
    s.ctl.checkpoints = [] ∧ s.ctl.lastRefused = none ∧ s.ctl.age.running = false ∧ s.ctl.age.count = 0 ∧
    s.ctl.age.limit = 0 ∧ s.ctl.age.stale = false ∧ s.ctl.memorySuspect = false ∧ s.ctl.pendingMark = none) ∧
  (s.rollback.phase = .idle ∧ s.rollback.origin = none ∧ s.rollback.ackMark = false ∧ s.rollback.pendingLine = false ∧
    s.rollback.target = none ∧ s.rollback.undoLimit = none ∧ s.rollback.undoPointer = none ∧
    s.rollback.lastUndone = none ∧ s.rollback.remaining = 0 ∧ s.rollback.failure = none ∧
    s.rollback.lastRefusal = none ∧ s.lines.rback = false) ∧
  (s.scan.start = none ∧ s.scan.pointer = none ∧ s.scan.endSlot = none ∧ s.scan.scanned = 0 ∧ s.scan.dropped = 0 ∧
    s.scan.lastSlot = none ∧ s.scan.lastSeq = none ∧ s.scan.segment = none ∧
    s.scan.working = [] ∧ s.scan.segBreak = none ∧ s.scan.result = .none ∧ s.scan.endCause = .none) ∧
  ((∀ k : Fin 16, s.cls.windows[k.val] = ⟨false, .guarded, 0, 1⟩) ∧
    (∀ n : Fin 8, s.cls.initiators[n.val] = ⟨.tracked, false⟩) ∧ s.cls.violations = [] ∧ s.cls.violationLost = false) ∧
  ((∀ n : Fin 8, s.up.ingress[n.val] = [] ∧ s.up.credits[n.val] = 4 ∧ holdReason s n = .empty) ∧ s.up.position = 7 ∧
    s.down.outgoing = [] ∧ ∀ tag, tagState s tag = .free) ∧
  (s.alerts.latches = 0 ∧ s.alerts.mask = 0xFF7#12 ∧ alertLow s = false ∧ s.alerts.capturesWritten = 0 ∧
    s.alerts.filterHits = 0 ∧ s.alerts.filterFull = 0 ∧ s.alerts.dataErrors = 0 ∧ s.alerts.absorbed = 0 ∧
    s.alerts.recordsUndone = 0 ∧ s.alerts.breakUnrecorded = false ∧ s.alerts.freezeMask = 7) ∧
  (s.port.slot = .idle ∧ s.port.overrun = false ∧ s.port.receiveBuffer = [] ∧
    s.port.address = 0x4C#7 + s.lines.straps.setWidth 7)

/-- The invariants stated here hold at reset, where the port takes commands and nothing is due. -/
def Obligations.InvariantsAtReset : Prop :=
  Capacities State.reset ∧ EntriesDistinct State.reset ∧ NoCheckpointsWhenUnarmed State.reset ∧
  PhaseFollowsState State.reset ∧ Ready State.reset ∧ AtRest State.reset ∧ Sound State.reset

/-- Over every step: the violation list, the ingress queues, the capture queue, the outgoing queue and the filter keep
their capacities, and the filter holds no line twice (00_scope.md Table 4, R25, R28, R119, R124, R132); the capture
entries keep their distinct numbers (log 18); and, in a sound state, occupancy stays within the slots (R12, R13), the
checkpoint list and the scanner's working list within the depth, only the newest checkpoint PENDING (R52, R98, R99), and the
space wait list within the capture queue (R41). -/
def Obligations.CapacitiesKept : Prop :=
  ∀ s t : State, step s = .next t → (Capacities s → Capacities t) ∧ (EntriesDistinct s → EntriesDistinct t) ∧
    (Sound s → Capacities s → ListsBounded t)

/-- Over every step: in UNARMED and ADOPTING the checkpoint list is empty and no epoch is open (R49, R51), the phase follows
the controller state (R69), and no mark is pending in ROLLING or FAILED (R70). A step also keeps all that makes a state
sound: a configured journal in its ranges (R1, R2), the order of the checkpoint list (R52), the space wait list (R41), no
entry short of RECORDING outside ARMED (R23, R47, R77), the condition INTACT outside ARMED (R50), RBACK high only while
FLTREQ is high (R88), and no overlap of enabled windows or the journal area (R111). -/
def Obligations.ListAndPhaseKept : Prop :=
  ∀ s t : State, step s = .next t →
    (NoCheckpointsWhenUnarmed s → PhaseFollowsState s → NoCheckpointsWhenUnarmed t ∧ PhaseFollowsState t) ∧
    (Sound s → Sound t)

/-- Every command has a next state, leaves the queue of waiting commands as it is, and, but for a fall of PORST, lowers
neither the sequence counter nor the next-checkpoint counter (R10, R101). That no command faults or is refused is the
model's reading (log 33). -/
def Obligations.EveryCommandCompletes : Prop :=
  ∀ (c : Instr) (s : State), ∃ t, exec c s = .next t ∧ t.pending = s.pending ∧
    (NoCheckpointsWhenUnarmed s → c ≠ .porstFall →
      s.journal.seq ≤ t.journal.seq ∧ s.journal.nextCheckpoint ≤ t.journal.nextCheckpoint)

/-- The end of an event changes nothing where nothing is due (R41, R55, R60, R73, R78). Freed space is granted to the
space wait list from its front (R41). The MARK slot of a pending mark is requested once no entry of the closing epoch is
short of RECORDING, and the entries in AWAIT_MARK then ask for their slots, in the order of their acceptance (R32, R37,
R60). When no mark is pending and no scan runs, a line request and a ROLLBACK or a MARK command that waited are judged afresh,
one after the other (R55, R71, R73); of a line request and a command either may be judged first (log 7), and where in ARMED a
marker write that would request a mark is at the head of an ingress queue they may go on waiting for it (R55, R73, R180;
log 35). The order of these within one event is the model's choice (log 9), and so is the order in which cancelled entries
are answered (log 19); that the occupancy a mark or a trailing head leaves is compared with the pace mark is its reading
(log 13). -/
def Obligations.EventEndsPlainly : Prop :=
  (∀ ends : State → State, ends = finish ∨ ends = finishScan →
    (∀ (c : Instr) (s t : State), exec c s = .next (ends t) → AtRest t →
      (t.rollback.phase = .retract → retractionDone t = false) → exec c s = .next t) ∧
    (∀ (s : State) (e : CaptureEntry) (id : Nat) (rest : List Nat), s.capture.spaceWait = id :: rest → id ∉ rest →
      entryOf s id = some e → e.state = .awaitSpace → CanWrite s → s.journal.occupancy < captureLimit s.journal →
      ends s = ends (withCapture e s)) ∧
    (∀ (s : State) (c : Checkpoint) (p : PendingMark), EntriesDistinct s → s.capture.spaceWait = [] →
      pendingEntry s = some c → c.markSlot = none → s.ctl.pendingMark = some p →
      (∀ epoch, s.capture.closing = some epoch → ∀ e ∈ s.capture.entries, e.epoch = epoch → e.early = false) →
      let waiting := s.capture.entries.filter fun e => e.state == .awaitMark
      CanWriteAll (1 + waiting.length) s → s.journal.occupancy + 1 + waiting.length ≤ captureLimit s.journal →
      ends s = ends (waiting.foldl (fun t e => withCapture e t) (trailed (withMark c p s))))) ∧
  ∀ (s : State) (ends : State → State), s.capture.spaceWait = [] → hasPending s = false → s.ctl.state ≠ .adopting →
    let a := { s with rollback := { s.rollback with pendingLine := false } }
    let refusedLine := fun reason : LineRefusal => { a with
      rollback := { a.rollback with lastRefusal := some reason }
      alerts := { s.alerts with latches := s.alerts.latches ||| 0x080#12 } }
    let replied := fun (status : Status) (code : Byte) (data : List Byte) => { s with
      port := { s.port with slot := .done ⟨status, code, data⟩ } }
    let refusedMark := fun (status : Status) (v : BitVec 64) (reason : MarkReason) (r : State) => { r with
      ctl := { r.ctl with lastRefused := some ⟨.management, v, reason⟩ }
      alerts := { r.alerts with latches := r.alerts.latches ||| 0x010#12 }
      port := { s.port with slot := .done ⟨status, 0x20, []⟩ } }
    let marking := fun (v : BitVec 64) (r : State) => { r with port := { s.port with slot := .executing (.mark v true) } }
    let absorbs := fun t : State => { t with
      rollback := { t.rollback with pendingLine := false, ackMark := true }
      alerts := { t.alerts with absorbed := satInc t.alerts.absorbed } }
    let nth := fun d : Byte => if d.toNat ≤ s.ctl.checkpoints.length
      then s.ctl.checkpoints[s.ctl.checkpoints.length - d.toNat]? else none
    let open_ := s.ctl.state = .unarmed ∨ s.ctl.state = .armed
    let spent := s.journal.exhausted = true ∨ s.journal.seq = 0xFFFFFFFFFFFFFFFF#64 ∨
      s.journal.nextCheckpoint = 0xFFFFFFFF#32
    let noneAwait := ∀ e ∈ s.capture.entries, e.state ≠ .awaitMark
    let lineAndRollback := fun taken : Nat => ∀ d newest c, s.rollback.pendingLine = true →
      s.port.slot = .executing (.rollback d) → 1 ≤ d.toNat → d.toNat ≤ 4 → s.ctl.state = .armed →
      s.ctl.condition ≠ .broken → s.ctl.checkpoints.getLast? = some newest → nth d = some c →
      (∃ t, StartsRollback .line newest { a with free := s.free + taken } t ∧
        ends s = ends { t with port := { s.port with slot := .done ⟨.busy, 0x21, []⟩ } }) ∨
      (∃ t, StartsRollback .management c { replied .started 0x21 (bytesLE 4 c.number) with free := s.free + taken } t ∧
        ends s = ends (absorbs t))
    let lineAndMark := fun taken : Nat => ∀ v newest, s.rollback.pendingLine = true →
      s.port.slot = .executing (.mark v false) → noneAwait → s.journal.configured = true → ¬ spent →
      s.ctl.state = .armed → s.ctl.condition ≠ .broken → s.ctl.checkpoints.getLast? = some newest →
      (∃ t, StartsRollback .line newest { a with free := s.free + taken } t ∧
        ends s = ends (refusedMark .busy v .state t)) ∨
      (∃ t, TakesMark .management v { marking v s with free := s.free + taken } t ∧ ends s = ends t)
    (JudgesAtOnce ends s →
      (s.rollback.pendingLine = true → waitingCommand s = none →
        (s.ctl.state = .armed → s.ctl.condition ≠ .broken → ∀ c, s.ctl.checkpoints.getLast? = some c →
          ∃ t, StartsRollback .line c a t ∧ ends s = ends t) ∧
        (s.ctl.state = .armed → s.ctl.condition = .broken → ends s = ends (refusedLine .broken)) ∧
        (s.ctl.state = .unarmed → ends s = ends (refusedLine .noCheckpoint)) ∧
        (s.ctl.state = .failed → ends s = ends (refusedLine .state)) ∧
        (s.ctl.state = .rolling → ends s = ends (absorbs s))) ∧
      (∀ d, s.rollback.pendingLine = false → s.port.slot = .executing (.rollback d) → 1 ≤ d.toNat → d.toNat ≤ 4 →
        (s.ctl.state = .armed → s.ctl.condition ≠ .broken → ∀ c, nth d = some c →
          ∃ t, StartsRollback .management c (replied .started 0x21 (bytesLE 4 c.number)) t ∧ ends s = ends t) ∧
        (s.ctl.state = .armed → s.ctl.condition ≠ .broken → nth d = none → ends s = ends (replied .range 0x21 [])) ∧
        (s.ctl.state = .armed → s.ctl.condition = .broken → ends s = ends (replied .broken 0x21 [])) ∧
        (s.ctl.state = .unarmed → ends s = ends (replied .noCheckpoint 0x21 [])) ∧
        (s.ctl.state = .failed → ends s = ends (replied .state 0x21 [])) ∧
        (s.ctl.state = .rolling → ends s = ends (replied .busy 0x21 []))) ∧
      (∀ v, s.rollback.pendingLine = false → s.port.slot = .executing (.mark v false) → noneAwait →
        (open_ → s.journal.configured = true → ¬ spent → ∃ t, TakesMark .management v (marking v s) t ∧ ends s = ends t) ∧
        (open_ → s.journal.configured = true → spent →
          ends s = ends (refusedMark .exhausted v .exhausted (enterExhaustion s))) ∧
        (open_ → s.journal.configured = false → ends s = ends (refusedMark .noJournal v .noJournal s)) ∧
        (s.ctl.state = .rolling → ends s = ends (refusedMark .busy v .state s)) ∧
        (s.ctl.state = .failed → ends s = ends (refusedMark .state v .state s))) ∧
      lineAndRollback 1 ∧ lineAndMark 1 ∧
      (∀ v reason, s.rollback.pendingLine = true → s.port.slot = .executing (.mark v false) → noneAwait →
        s.journal.configured = true → ¬ spent →
        (s.ctl.state = .armed ∧ s.ctl.condition = .broken ∧ reason = .broken) ∨
          (s.ctl.state = .unarmed ∧ reason = .noCheckpoint) →
        (∃ t, TakesMark .management v { marking v (refusedLine reason) with free := s.free + 1 } t ∧ ends s = ends t) ∨
        (∃ t, TakesMark .management v { marking v s with free := s.free + 1 } t ∧ ends s = ends t))) ∧
    (ends = finish → MarkerAtHead s → s.ctl.state = .armed → s.rollback.phase ≠ .retract → noneAwait →
      let goesOn := ends s = { s with
        free := s.free + 1, rollback := { s.rollback with phase := if rollbackWaits s then .waiting else .idle } }
      (s.rollback.pendingLine = true ∧ waitingCommand s = none ∨ s.rollback.pendingLine = false ∧ waitingCommand s ≠ none →
        goesOn ∨ ends s = finishScan { s with free := s.free + 1 }) ∧
      (s.rollback.pendingLine = true → waitingCommand s ≠ none → goesOn ∨ (lineAndRollback 2 ∧ lineAndMark 2)))

/-- What the end of an event never changes: the tables, the ingress queues, credits and position, the table of outstanding
requests, the masks, the levels, the address, the overrun flag; and responses are only appended. -/
def Obligations.EventEndFrame : Prop :=
  ∀ (s : State) (ends : State → State), ends = finish ∨ ends = finishScan →
    (ends s).cls = s.cls ∧ (ends s).scan = s.scan ∧ (ends s).up.ingress = s.up.ingress ∧
    (ends s).up.credits = s.up.credits ∧ (ends s).up.position = s.up.position ∧
    (ends s).down.outstanding = s.down.outstanding ∧ (ends s).down.sent = s.down.sent ∧
    (ends s).alerts.mask = s.alerts.mask ∧ (ends s).alerts.freezeMask = s.alerts.freezeMask ∧
    (ends s).alerts.frz = s.alerts.frz ∧ (ends s).rollback.fltreq = s.rollback.fltreq ∧
    (ends s).port.address = s.port.address ∧ (ends s).port.overrun = s.port.overrun ∧
    ∃ l, (ends s).up.delivered = s.up.delivered ++ l

/-- The retraction's end (R78): while a forwarded write, a line write of a slot up to the tail, an old-line read of a
cancelled entry or a request to a guarded window is outstanding the phase stays RETRACT; once none is, the event that
completed the last enters UNDO, with the pointer at the slot before the undo limit and that slot's two lines read, or, with
nothing to walk, settles (R79, R83). That the occupancy a truncation leaves is compared with the pace mark is the model's
reading (log 13). -/
def Obligations.RetractionEnds : Prop :=
  ∀ (s : State) (limit : Nat) (target : Target), AtRest s → PhaseFollowsState s → s.ctl.state = .rolling →
    s.rollback.phase = .retract → s.rollback.undoLimit = some limit → s.rollback.target = some target →
    let done := s.capture.entries = [] ∧
      (∀ r ∈ s.journal.slotRecords, r.forgotten = false → r.header ≠ .outstanding ∧ r.data ≠ .outstanding) ∧
      s.rollback.readsLeft = [] ∧
      ∀ n t isRead, (∀ e ∈ s.down.outgoing, e.source ≠ .passed n t isRead true) ∧
        ∀ tag, tagState s tag ≠ .inUse (.passed n t isRead true)
    let u := { s with rollback := { s.rollback with
      phase := .undo, undoPointer := some (prevSlot s.journal limit) } }
    (¬ done → finish s = s) ∧
    (done → s.rollback.remaining ≠ 0 → ∃ out wait,
      Places s.down.outgoing s.rollback.undoWait (undoReads s.journal (prevSlot s.journal limit)) out wait ∧
      finish s = { u with
        rollback := { u.rollback with pair := { header := none, data := none }, current := none, undoWait := wait }
        down := { s.down with outgoing := out } }) ∧
    (done → s.rollback.remaining = 0 → Settles target false u (finish s))

/-! ### The port -/

/-- The end of a write transfer that carries a management command's frame is that command (R156, R158, R161, Table
11.2); where the port takes a command, the transfer completes and the command is carried out. That a management row is
the end of its frame's write transfer is the model's reading (log 1). -/
def Obligations.CommandFrameIsCommand : Prop :=
  ∀ (c : Instr) (frame : List Byte) (s : State), commandFrame c = some frame →
    exec (.writeTransfer s.port.address frame) s = exec c s ∧
    (Ready s → ∃ t, exec (.writeTransfer s.port.address frame) s = .next t ∧ exec c s = .next t)

/-- The bytes of a write transfer that the port acknowledges, the first 258 (R156), and the first four steps of R158: what the
response to a bad frame is. A frame of more than 258 bytes fails the length test (R156). A frame ends a read in progress
(log 20). -/
def Obligations.BadFramesAreRefused : Prop :=
  ∀ (s : State) (code : Byte) (rest : List Byte), Ready s →
    let frame := code :: rest
    let judged := exec (.writeTransfer s.port.address frame) s
    (∀ n, acknowledges s.port.address n s = true ↔ n < 258) ∧
    (258 < frame.length → judged = .next (answered .frameError code [] s)) ∧
    (wfFrame frame = false → judged = .next (answered .frameError code [] s)) ∧
    (wfFrame frame = true → frame.getLast? ≠ some (crc8 frame.dropLast) →
      judged = .next (answered .frameError code [] s)) ∧
    (wfFrame frame = true → frame.getLast? = some (crc8 frame.dropLast) → paramCount code = none →
      judged = .next (answered .unknown code [] s)) ∧
    (wfFrame frame = true → frame.getLast? = some (crc8 frame.dropLast) → ∀ n, paramCount code = some n →
      rest.head?.map BitVec.toNat ≠ some n → judged = .next (answered .range code [] s))

/-- Transfers and frames that are not taken (R155, R156, R163): to another address and while held in reset, where no byte is
acknowledged, without a byte, and while the slot is EXECUTING or DONE, which sets the overrun flag. That a management row is the end of its frame's
write transfer, and that a frame ends a read in progress, are the model's readings (log 1, log 20). -/
def Obligations.FramesNotTaken : Prop :=
  ∀ s : State,
    (∀ a bytes, held s = true ∨ a ≠ s.port.address →
      exec (.writeTransfer a bytes) s = .next s ∧ exec (.readTransfer a) s = .next s ∧
      ∀ n, acknowledges a n s = false) ∧
    (∀ c, commandFrame c ≠ none → held s = true → exec c s = .next s) ∧
    (held s = false → exec (.writeTransfer s.port.address []) s = .next s) ∧
    (held s = false → s.port.slot ≠ .idle → ∀ bytes, bytes ≠ [] → exec (.writeTransfer s.port.address bytes) s =
      .next { s with port := { s.port with overrun := true, reading := none } }) ∧
    (held s = false → s.port.slot ≠ .idle → ∀ c, commandFrame c ≠ none →
      exec c s = .next { s with port := { s.port with overrun := true, reading := none } })

/-- The frame a read transfer sends, by the slot's state (R157, R160, R162, Table 9.1); the frame check byte of the held
response consumes it, and that of any other frame consumes nothing (R157, R162). The bytes clocked are those of the frame
and then FFh (R157), and the status codes are numbered as R183 gives. That RESPONSE_CONSUMED with no read in progress, which
cannot arise, changes nothing is the model's choice (log 2). -/
def Obligations.ResponseIsReadAndConsumed : Prop :=
  ∀ s : State,
    let reads := fun (bytes : List Byte) (h : Bool) =>
      exec (.readTransfer s.port.address) s = .next { s with port := { s.port with reading := some ⟨bytes, h⟩ } }
    (held s = false → s.port.slot = .idle → reads (sentFrame 0x03 0x00 s.port.overrun []) false) ∧
    (∀ v taken, held s = false → s.port.slot = .executing (.mark v taken) → reads (sentFrame 0x02 0x20 s.port.overrun []) false) ∧
    (∀ d, held s = false → s.port.slot = .executing (.rollback d) → reads (sentFrame 0x02 0x21 s.port.overrun []) false) ∧
    (∀ r, held s = false → s.port.slot = .done r → reads (sentFrame (statusCode r.status) r.echo s.port.overrun r.data) true) ∧
    (∀ bytes r, s.port.reading = some ⟨bytes, true⟩ → s.port.slot = .done r → exec .responseConsumed s =
      .next { s with port := { s.port with slot := .idle, overrun := false, reading := none } }) ∧
    ((s.port.reading = none ∨ ∃ bytes, s.port.reading = some ⟨bytes, false⟩) → exec .responseConsumed s = .next s) ∧
    (∀ bytes h n, s.port.reading = some ⟨bytes, h⟩ →
      (∀ b, bytes[n]? = some b → sentByte s.port n = b) ∧ (bytes.length ≤ n → sentByte s.port n = 0xFF)) ∧
    [Status.ok, .started, .pending, .noResponse, .frameError, .unknown, .range, .state, .armed, .overlap, .noJournal,
      .noCheckpoint, .broken, .busy, .exhausted, .journalFull].map statusCode = (List.range 16).map (BitVec.ofNat 8)

/-! ### Reading the unit -/

/-- GET_STATUS returns the section its parameter names, with every field at the offset and in the width of Tables 11.6 to
11.12 and the enumerated values numbered as Table 11.5, and refuses any other section with RANGE; it changes nothing but
the port (R166, R185). That the JOURNAL section shows the configuration fields as SET_TIMING left them also while the
configured flag is clear, where R185 gives their values of Table 1.5, is the model's choice (log 37). A frame ends a read in
progress (log 20). -/
def Obligations.StatusSections : Prop :=
  ∀ s : State,
    (let numbers := fun from_ to_ : Nat => (List.range' from_ (to_ + 1 - from_)).map (BitVec.ofNat 8)
     [CtlState.unarmed, .armed, .rolling, .failed, .adopting].map ctlStateByte = numbers 0 4 ∧
     [Condition.intact, .holding, .broken].map conditionByte = numbers 0 2 ∧
     [none, some BreakCause.limit, some .holdTimeout, some .journalWrite, some .exhausted, some .markWrite].map breakByte =
       numbers 0 5 ∧
     [MarkReason.state, .noJournal, .exhausted, .journalFull, .writeError].map markReasonByte = numbers 1 5 ∧
     [Phase.idle, .waiting, .retract, .undo, .stopped].map phaseByte = numbers 0 4 ∧
     [none, some Origin.line, some .management].map originByte = numbers 0 2 ∧
     [WalkCause.readError, .check, .runStamp, .kind, .order, .writeError].map walkCauseByte = numbers 1 6 ∧
     [none, some LineRefusal.noCheckpoint, some .broken, some .state].map refusalByte = numbers 0 3 ∧
     [ScanResult.none, .adopted, .noAnchor, .noCheckpoint].map scanResultByte = numbers 0 3 ∧
     [ScanCause.none, .check, .runStamp, .kind, .order, .epoch, .foreignLine, .readError, .wrapped, .discard].map
       scanCauseByte = numbers 0 9 ∧
     [HoldReason.empty, .gate, .line, .markPending, .captureFull, .pacing, .downstreamFull, .none].map holdReasonByte =
       numbers 0 7 ∧
     [OverflowPolicy.break_, .hold].map policyByte = numbers 1 2 ∧ sourceByte .management = 0x80 ∧
     (∀ n : Fin 8, sourceByte (.initiator n) = BitVec.ofNat 8 n.val) ∧
     ∀ b k, flagBit b k = if b then 1#8 <<< k else 0) ∧
    (Ready s → exec (.getStatus 1) s = .next (answered .ok 0x01 (journalSection s) s) ∧
      exec (.getStatus 2) s = .next (answered .ok 0x01 (controllerSection s) s) ∧
      exec (.getStatus 3) s = .next (answered .ok 0x01 (captureSection s) s) ∧
      exec (.getStatus 4) s = .next (answered .ok 0x01 (rollbackSection s) s) ∧
      exec (.getStatus 5) s = .next (answered .ok 0x01 (adoptionSection s) s) ∧
      exec (.getStatus 6) s = .next (answered .ok 0x01 (pathSection s) s) ∧
      exec (.getStatus 7) s = .next (answered .ok 0x01 (alertsSection s) s) ∧
      ∀ sec : Byte, sec.toNat < 1 ∨ 7 < sec.toNat → exec (.getStatus sec) s = .next (answered .range 0x01 [] s)) ∧
    (let d := journalSection s
     let j := s.journal
     let c := s.journal.config
     d.length = 60 ∧
     bytesAt d 0 1 = [flagBit j.configured 0 ||| flagBit j.exhausted 1 ||| flagBit j.adoptable 2] ∧
     bytesAt d 1 1 = [BitVec.ofNat 8 c.depth] ∧ bytesAt d 2 1 = [policyByte c.policy] ∧
     bytesAt d 3 1 = [BitVec.ofNat 8 c.reserve] ∧ bytesAt d 4 2 = bytesLE 2 c.runStamp ∧
     bytesAt d 6 2 = natLE 2 c.pacingInterval ∧ bytesAt d 8 2 = natLE 2 c.holdTimeout ∧ bytesAt d 10 2 = [0, 0] ∧
     bytesAt d 12 4 = natLE 4 c.slots ∧ bytesAt d 16 4 = natLE 4 c.paceMark ∧ bytesAt d 20 8 = natLE 8 c.base.toNat ∧
     bytesAt d 28 4 = natLE 4 j.head ∧ bytesAt d 32 4 = natLE 4 j.commit ∧ bytesAt d 36 4 = natLE 4 j.tail ∧
     bytesAt d 40 4 = natLE 4 j.occupancy ∧
     bytesAt d 44 4 = natLE 4 (if j.configured then c.slots - c.reserve else 0) ∧
     bytesAt d 48 8 = bytesLE 8 j.seq ∧ bytesAt d 56 4 = bytesLE 4 j.nextCheckpoint) ∧
    (let d := controllerSection s
     let c := s.ctl
     d.length = 24 ∧ bytesAt d 0 1 = [ctlStateByte c.state] ∧ bytesAt d 1 1 = [conditionByte c.condition] ∧
     bytesAt d 2 1 = [breakByte c.lastBreak] ∧ bytesAt d 3 1 = [BitVec.ofNat 8 c.checkpoints.length] ∧
     bytesAt d 4 1 = [flagBit (hasPending s) 0 ||| flagBit c.age.stale 1 ||| flagBit c.memorySuspect 2 |||
       flagBit s.alerts.breakUnrecorded 3] ∧
     (∀ m, c.lastRefused = some m → bytesAt d 5 1 = [markReasonByte m.reason] ∧ bytesAt d 6 1 = [sourceByte m.source] ∧
       bytesAt d 16 8 = bytesLE 8 m.value) ∧
     (c.lastRefused = none → bytesAt d 5 1 = [0] ∧ bytesAt d 6 1 = [0] ∧ bytesAt d 16 8 = zeros 8) ∧
     bytesAt d 7 1 = [0] ∧ bytesAt d 8 4 = bytesLE 4 (c.openEpoch.getD 0xFFFFFFFF#32) ∧
     bytesAt d 12 2 = natLE 2 (min 65535 (c.age.count / 1000)) ∧ bytesAt d 14 2 = natLE 2 c.age.limit) ∧
    (let d := captureSection s
     let c := s.capture
     let inState := fun x : EntryState => [BitVec.ofNat 8 (c.entries.countP fun e => e.state == x)]
     d.length = 16 ∧ bytesAt d 0 1 = [BitVec.ofNat 8 c.entries.length] ∧ bytesAt d 1 1 = inState .lineRead ∧
     bytesAt d 2 1 = inState .awaitMark ∧ bytesAt d 3 1 = inState .awaitSpace ∧ bytesAt d 4 1 = inState .recording ∧
     bytesAt d 5 1 = inState .awaitCommit ∧ bytesAt d 6 1 = inState .forwarding ∧
     bytesAt d 7 1 = [BitVec.ofNat 8 c.spaceWait.length] ∧
     bytesAt d 8 1 = [flagBit c.hold.running 0 ||| flagBit c.nearFull 1 ||| flagBit (pacingInForce s) 2 |||
       flagBit (pacingElapsed s) 3] ∧
     bytesAt d 9 3 = zeros 3 ∧ bytesAt d 12 4 = natLE 4 c.hold.count) ∧
    (let d := rollbackSection s
     let r := s.rollback
     let slot := fun x : Option Nat => (x.map (natLE 4)).getD [0xFF, 0xFF, 0xFF, 0xFF]
     d.length = 56 ∧ bytesAt d 0 1 = [phaseByte r.phase] ∧ bytesAt d 1 1 = [originByte r.origin] ∧
     bytesAt d 2 1 = [flagBit r.ackMark 0 ||| flagBit r.pendingLine 1] ∧ bytesAt d 3 1 = [refusalByte r.lastRefusal] ∧
     bytesAt d 4 1 = [(r.failure.map fun f => walkCauseByte f.cause).getD 0] ∧ bytesAt d 5 3 = zeros 3 ∧
     bytesAt d 8 4 = bytesLE 4 ((r.target.map (·.number)).getD 0xFFFFFFFF#32) ∧
     bytesAt d 12 4 = slot (r.target.map (·.slot)) ∧ bytesAt d 16 4 = slot r.undoLimit ∧
     bytesAt d 20 4 = slot r.undoPointer ∧ bytesAt d 24 4 = natLE 4 r.remaining ∧
     bytesAt d 28 4 = slot (r.failure.map (·.slot)) ∧
     bytesAt d 32 4 = natLE 4 ((r.failure.map (·.remaining)).getD 0) ∧
     bytesAt d 36 4 = bytesLE 4 s.alerts.recordsUndone ∧
     bytesAt d 40 8 = bytesLE 8 ((r.target.map (·.seq)).getD 0xFFFFFFFFFFFFFFFF#64) ∧
     bytesAt d 48 8 = bytesLE 8 (r.lastUndone.getD 0xFFFFFFFFFFFFFFFF#64)) ∧
    (let d := adoptionSection s
     let a := s.scan
     let slot := fun x : Option Nat => (x.map (natLE 4)).getD [0xFF, 0xFF, 0xFF, 0xFF]
     d.length = 24 ∧ bytesAt d 0 1 = [scanResultByte a.result] ∧ bytesAt d 1 1 = [scanCauseByte a.endCause] ∧
     bytesAt d 2 2 = [0, 0] ∧ bytesAt d 4 4 = slot a.start ∧ bytesAt d 8 4 = slot a.pointer ∧
     bytesAt d 12 4 = slot a.endSlot ∧ bytesAt d 16 4 = natLE 4 a.scanned ∧ bytesAt d 20 4 = bytesLE 4 a.dropped) ∧
    (let d := pathSection s
     d.length = 24 ∧
     (∀ n : Fin 8, bytesAt d n.val 1 = [BitVec.ofNat 8 s.up.ingress[n.val].length] ∧
       bytesAt d (8 + n.val) 1 = [holdReasonByte (holdReason s n)]) ∧
     bytesAt d 16 1 = [BitVec.ofNat 8 s.up.position.val] ∧ bytesAt d 17 1 = [if gateClosed s then 1 else 0] ∧
     bytesAt d 18 1 = [BitVec.ofNat 8 s.down.outgoing.length] ∧
     bytesAt d 19 1 = [BitVec.ofNat 8 (s.down.outstanding.toList.countP fun t => t != .free)] ∧
     bytesAt d 20 1 = [BitVec.ofNat 8 (s.down.outstanding.toList.countP fun t => t == .abandoned)] ∧
     bytesAt d 21 3 = zeros 3) ∧
    (let d := alertsSection s
     let a := s.alerts
     d.length = 36 ∧ bytesAt d 0 2 = bytesLE 2 (a.latches.setWidth 16) ∧ bytesAt d 2 2 = bytesLE 2 (a.mask.setWidth 16) ∧
     bytesAt d 4 1 = [BitVec.ofNat 8 s.cls.violations.length] ∧
     bytesAt d 5 1 = [flagBit s.cls.violationLost 0 ||| flagBit a.frz 1 ||| flagBit s.rollback.fltreq 2 |||
       flagBit s.lines.rback 3] ∧
     bytesAt d 6 1 = [a.freezeMask.setWidth 8] ∧
     bytesAt d 7 1 = [if a.frz then a.freezeMask.setWidth 8 else 0] ∧ bytesAt d 8 1 = [s.port.address.setWidth 8] ∧
     bytesAt d 9 3 = zeros 3 ∧ bytesAt d 12 4 = bytesLE 4 a.capturesWritten ∧ bytesAt d 16 4 = bytesLE 4 a.filterHits ∧
     bytesAt d 20 4 = bytesLE 4 a.filterFull ∧ bytesAt d 24 4 = bytesLE 4 a.dataErrors ∧
     bytesAt d 28 4 = bytesLE 4 a.absorbed ∧ bytesAt d 32 4 = bytesLE 4 a.recordsUndone)

/-- GET_CHECKPOINTS returns the number of entries and then each entry, oldest first, in 32 bytes (R167); GET_WINDOW and
GET_INITIATOR return the entry their number names, or RANGE, and change nothing but the port;
READ_VIOLATION removes the oldest violation, returns it, and clears VIOLATION_LOST (R168, R120). The layouts and the
numbers are those of Table 11.4. A frame ends a read in progress (log 20). -/
def Obligations.TableReads : Prop :=
  [WindowKind.guarded, .marker, .frozen].map windowKindByte = [1, 2, 3] ∧
  [InitiatorClass.tracked, .untracked, .blocked].map classByte = [1, 2, 3] ∧
  [ViolationCause.journalWrite, .frozenWrite, .blockedWrite, .markNotPermitted].map violationByte = [1, 2, 3, 4] ∧
  sourceByte .management = 0x80 ∧ (∀ n : Fin 8, sourceByte (.initiator n) = BitVec.ofNat 8 n.val) ∧
  ∀ s : State, Ready s →
    (∃ d, exec .getCheckpoints s = .next (answered .ok 0x02 d s) ∧
      d.length = 1 + 32 * s.ctl.checkpoints.length ∧ bytesAt d 0 1 = [BitVec.ofNat 8 s.ctl.checkpoints.length] ∧
      ∀ k c, s.ctl.checkpoints[k]? = some c →
        bytesAt d (1 + 32 * k) 4 = bytesLE 4 c.number ∧
        bytesAt d (5 + 32 * k) 1 = [if c.status = .pending then 1 else 2] ∧
        bytesAt d (6 + 32 * k) 1 = [sourceByte c.source] ∧ bytesAt d (7 + 32 * k) 2 = [0, 0] ∧
        bytesAt d (9 + 32 * k) 4 = (c.markSlot.map (natLE 4)).getD [0xFF, 0xFF, 0xFF, 0xFF] ∧
        bytesAt d (13 + 32 * k) 4 = bytesLE 4 c.captures ∧
        bytesAt d (17 + 32 * k) 8 = bytesLE 8 (c.markSeq.getD 0xFFFFFFFFFFFFFFFF#64) ∧
        bytesAt d (25 + 32 * k) 8 = bytesLE 8 c.value) ∧
    (∀ (i : Byte) (h : i.toNat < 16), exec (.getWindow i) s = .next (answered .ok 0x03
      ([i, if s.cls.windows[i.toNat].enabled then 1 else 0, windowKindByte s.cls.windows[i.toNat].kind, 0] ++
        natLE 4 s.cls.windows[i.toNat].base ++ natLE 4 s.cls.windows[i.toNat].size) s)) ∧
    (∀ i : Byte, 16 ≤ i.toNat → exec (.getWindow i) s = .next (answered .range 0x03 [] s)) ∧
    (∀ (n : Byte) (h : n.toNat < 8), exec (.getInitiator n) s = .next (answered .ok 0x04
      [n, classByte s.cls.initiators[n.toNat].cls, if s.cls.initiators[n.toNat].permission then 1 else 0] s)) ∧
    (∀ n : Byte, 8 ≤ n.toNat → exec (.getInitiator n) s = .next (answered .range 0x04 [] s)) ∧
    (s.cls.violations = [] → exec .readViolation s = .next (answered .ok 0x05
      ([0, 0, if s.cls.violationLost then 1 else 0] ++ zeros 9)
      { s with cls := { s.cls with violationLost := false } })) ∧
    (∀ v rest, s.cls.violations = v :: rest → exec .readViolation s = .next (answered .ok 0x05
      ([1, BitVec.ofNat 8 rest.length, if s.cls.violationLost then 1 else 0, BitVec.ofNat 8 v.initiator.val, v.tag,
        violationByte v.cause, 0, 0] ++ bytesLE 4 (v.line.setWidth 32))
      { s with cls := { s.cls with violations := rest, violationLost := false } }))

/-! ### Configuring the unit -/

/-- SET_WINDOW: the three steps in order, and what a taken one writes (R109 to R112, R169). A frame ends a read in progress
(log 20). -/
def Obligations.SetWindowJudged : Prop :=
  ∀ (s : State) (index kind : Byte) (base size : BitVec 32), Ready s →
    let set := exec (.setWindow index kind base size) s
    (WindowOutOfRange index kind base size → set = .next (answered .range 0x10 [] s)) ∧
    (¬ WindowOutOfRange index kind base size → TouchesGuarded index kind s → s.ctl.state ≠ .unarmed →
      set = .next (answered .armed 0x10 [] s)) ∧
    (¬ WindowOutOfRange index kind base size → (TouchesGuarded index kind s → s.ctl.state = .unarmed) →
      WindowOverlaps index base size s → set = .next (answered .overlap 0x10 [] s)) ∧
    (¬ WindowOutOfRange index kind base size → (TouchesGuarded index kind s → s.ctl.state = .unarmed) →
      ¬ WindowOverlaps index base size s → set = .next (answered .ok 0x10 []
        { s with cls := { s.cls with windows := (s.cls.windows.setIfInBounds index.toNat
          { enabled := true
            kind := if kind = 1 then .guarded else if kind = 2 then .marker else .frozen
            base := base.toNat, size := size.toNat }) } }))

/-- CLEAR_WINDOW: RANGE, ARMED, or taken, which sets the entry disabled and leaves its other fields (R113). A frame ends a
read in progress (log 20). -/
def Obligations.ClearWindowJudged : Prop :=
  ∀ (s : State) (index : Byte), Ready s →
    (16 ≤ index.toNat → exec (.clearWindow index) s = .next (answered .range 0x11 [] s)) ∧
    (∀ h : index.toNat < 16, s.cls.windows[index.toNat].enabled = true → s.cls.windows[index.toNat].kind = .guarded →
      s.ctl.state ≠ .unarmed → exec (.clearWindow index) s = .next (answered .armed 0x11 [] s)) ∧
    (∀ h : index.toNat < 16,
      (s.cls.windows[index.toNat].enabled = true → s.cls.windows[index.toNat].kind = .guarded →
        s.ctl.state = .unarmed) →
      exec (.clearWindow index) s = .next (answered .ok 0x11 []
        { s with cls := { s.cls with
          windows := s.cls.windows.set index.toNat { s.cls.windows[index.toNat] with enabled := false } } }))

/-- SET_INITIATOR: RANGE, or taken in every state, which writes both fields (R114, R169). A frame ends a read in progress
(log 20). -/
def Obligations.SetInitiatorJudged : Prop :=
  ∀ (s : State) (number cls permission : Byte), Ready s →
    let bad := 8 ≤ number.toNat ∨ (cls ≠ 1 ∧ cls ≠ 2 ∧ cls ≠ 3) ∨ (permission ≠ 0 ∧ permission ≠ 1)
    (bad → exec (.setInitiator number cls permission) s = .next (answered .range 0x12 [] s)) ∧
    (¬ bad → exec (.setInitiator number cls permission) s = .next (answered .ok 0x12 []
      { s with cls := { s.cls with initiators := (s.cls.initiators.setIfInBounds number.toNat
        { cls := if cls = 1 then .tracked else if cls = 2 then .untracked else .blocked
          permission := decide (permission = 1) }) } }))

/-- SET_JOURNAL: state, range and overlap in that order, and what a taken one does (R2, R170). That it also forgets a failed
void write is the model's reading (log 27), and so is that a frame ends a read in progress (log 20). -/
def Obligations.SetJournalJudged : Prop :=
  ∀ (s : State) (base : BitVec 64) (slots : BitVec 32) (reserve depth : Byte) (runStamp : BitVec 16) (policy : Byte)
    (paceMark : BitVec 32) (interval timeout : BitVec 16), Ready s →
    let set := exec (.setJournal base slots reserve depth runStamp policy paceMark interval timeout) s
    let bad := JournalOutOfRange base slots reserve depth policy paceMark interval timeout
    (s.ctl.state = .armed → set = .next (answered .armed 0x13 [] s)) ∧
    (s.ctl.state = .rolling ∨ s.ctl.state = .failed ∨ s.ctl.state = .adopting →
      set = .next (answered .state 0x13 [] s)) ∧
    (s.ctl.state = .unarmed → bad → set = .next (answered .range 0x13 [] s)) ∧
    (s.ctl.state = .unarmed → ¬ bad → AreaOverlaps base slots s → set = .next (answered .overlap 0x13 [] s)) ∧
    (s.ctl.state = .unarmed → ¬ bad → ¬ AreaOverlaps base slots s → set = .next (answered .ok 0x13 []
      { s with journal := { s.journal with
        configured := true
        config := {
          base := base.setWidth 36, slots := slots.toNat, reserve := reserve.toNat, depth := depth.toNat
          runStamp := runStamp, policy := if policy = 1 then .break_ else .hold, paceMark := paceMark.toNat
          pacingInterval := interval.toNat, holdTimeout := timeout.toNat }
        head := 0, commit := 0, tail := 0, occupancy := 0, adoptable := false, voidFailed := none } }))

/-- SET_TIMING: RANGE, which changes none of the five values, or taken, which replaces all five and may expire the epoch
age timer (R3, R64, R65, R171). That it replaces the pacing interval and the hold timeout before the first SET_JOURNAL too (R3),
although R185 has the configuration fields hold their reset values then, is the model's choice (log 37). That it expires a
timer that is stopped or frozen is the model's reading (log 28), and so is that a frame ends a read in progress (log 20). -/
def Obligations.SetTimingJudged : Prop :=
  ∀ (s : State) (paceMark : BitVec 32) (interval timeout ageLimit : BitVec 16) (freeze : Byte), Ready s →
    let limit := if s.journal.configured then s.journal.config.slots - s.journal.config.reserve else 0
    let bad := interval.toNat < 1 ∨ 1023 < interval.toNat ∨ timeout.toNat < 1 ∨ 4095 < timeout.toNat ∨
      limit < paceMark.toNat ∨ 7 < freeze.toNat
    let expires := ageLimit ≠ 0 ∧ s.ctl.age.stale = false ∧ ageLimit.toNat * 1000 ≤ s.ctl.age.count
    let t := { s with
      journal := { s.journal with config := { s.journal.config with
        paceMark := paceMark.toNat, pacingInterval := interval.toNat, holdTimeout := timeout.toNat } }
      ctl := { s.ctl with age := { s.ctl.age with limit := ageLimit.toNat } }
      alerts := { s.alerts with freezeMask := freeze.setWidth 3 } }
    (bad → exec (.setTiming paceMark interval timeout ageLimit freeze) s = .next (answered .range 0x14 [] s)) ∧
    (¬ bad → ¬ expires →
      exec (.setTiming paceMark interval timeout ageLimit freeze) s = .next (answered .ok 0x14 [] t)) ∧
    (¬ bad → expires → exec (.setTiming paceMark interval timeout ageLimit freeze) s = .next (answered .ok 0x14 []
      { t with
        ctl := { t.ctl with age := { t.ctl.age with stale := true } }
        alerts := { t.alerts with latches := t.alerts.latches ||| 0x800#12 } }))

/-- SET_ALERT_MASK replaces the mask; CLEAR_ALERTS answers with the latches as they stood and clears the selected ones; a
cause outside the twelve is refused with RANGE (R142, R172). ALERT is pulled low exactly while some cause has its latch set and
its enable on (R141); the bits of the causes are those of Table 11.3. A frame ends a read in progress (log 20). -/
def Obligations.AlertCommandsJudged : Prop :=
  [AlertCause.nearFull, .holding, .broken, .marked, .markRefused, .rollbackDone, .rollbackFailed, .rollbackRefused,
    .adoptDone, .violation, .dataError, .staleEpoch].map alertBit = (List.range 12).map (fun k => 1#12 <<< k) ∧
  (∀ s : State, alertLow s = true ↔
    ∃ cause, s.alerts.latches &&& alertBit cause ≠ 0 ∧ s.alerts.mask &&& alertBit cause ≠ 0) ∧
  ∀ (s : State) (m : BitVec 16), Ready s →
    (4096 ≤ m.toNat → exec (.setAlertMask m) s = .next (answered .range 0x15 [] s) ∧
      exec (.clearAlerts m) s = .next (answered .range 0x16 [] s)) ∧
    (m.toNat < 4096 →
      exec (.setAlertMask m) s = .next (answered .ok 0x15 []
        { s with alerts := { s.alerts with mask := m.setWidth 12 } }) ∧
      exec (.clearAlerts m) s = .next (answered .ok 0x16 (bytesLE 2 (s.alerts.latches.setWidth 16))
        { s with alerts := { s.alerts with latches := s.alerts.latches &&& ~~~ m.setWidth 12 } }))

/-! ### Marks -/

/-- A MARK command that is refused or held (R54 to R56, R63, R173); the event then ends. A refusal for exhaustion may itself
enter exhaustion (R11), which ExhaustionBreaks states. A frame ends a read in progress (log 20). -/
def Obligations.MarkNotTaken : Prop :=
  ∀ (s : State) (v : BitVec 64), Ready s →
    let refused := fun (status : Status) (reason : MarkReason) (r : State) =>
      exec (.mark v) s = .next (finish (answered status 0x20 [] { r with
        ctl := { r.ctl with lastRefused := some ⟨.management, v, reason⟩ }
        alerts := { r.alerts with latches := r.alerts.latches ||| 0x010#12 } }))
    let open_ := s.ctl.state = .unarmed ∨ s.ctl.state = .armed
    let spent := s.journal.exhausted = true ∨ s.journal.seq = 0xFFFFFFFFFFFFFFFF#64 ∨
      s.journal.nextCheckpoint = 0xFFFFFFFF#32
    (s.ctl.state = .rolling ∨ s.ctl.state = .adopting → refused .busy .state s) ∧
    (s.ctl.state = .failed → refused .state .state s) ∧
    (open_ → s.journal.configured = false → refused .noJournal .noJournal s) ∧
    (open_ → s.journal.configured = true → spent → refused .exhausted .exhausted (enterExhaustion s)) ∧
    (open_ → s.journal.configured = true → ¬ spent → hasPending s = true → exec (.mark v) s =
      .next (finish { s with port := { s.port with slot := .executing (.mark v false), reading := none } }))

/-- The event that enters exhaustion sets the flag; in ARMED with the condition INTACT or HOLDING the open epoch
breaks with cause EXHAUSTED and its early entries forward without records, no record is written, BREAK_UNRECORDED is
set and BROKEN latched (R11, R46, R145). The order in which several entries forward in one event is the model's choice
(log 19). -/
def Obligations.ExhaustionBreaks : Prop :=
  ∀ s : State, EntriesDistinct s → s.journal.exhausted = false →
    let x := { s with journal := { s.journal with exhausted := true } }
    (s.ctl.state = .armed → s.ctl.condition ≠ .broken →
      let b := released (fun _ => true) { x with
        ctl := { s.ctl with condition := .broken, lastBreak := some .exhausted } }
      ∃ u, enterExhaustion s = { b with alerts := { s.alerts with
        breakUnrecorded := true, unrecordedAt := u, latches := s.alerts.latches ||| 0x004#12 } }) ∧
    (s.ctl.state ≠ .armed ∨ s.ctl.condition = .broken → enterExhaustion s = x)

/-- A MARK command that passes the four steps of R54 is taken: its mark point follows at once, the slot stays
EXECUTING, and the event then ends (R54, R57 to R59, R63, R173). That the occupancy a mark leaves is compared with the
pace mark is the model's reading (log 13), and so is that a frame ends a read in progress (log 20). -/
def Obligations.MarkTaken : Prop :=
  ∀ (s : State) (v : BitVec 64), Ready s → s.ctl.state = .unarmed ∨ s.ctl.state = .armed →
    s.journal.configured = true → s.journal.exhausted = false → s.journal.seq ≠ 0xFFFFFFFFFFFFFFFF#64 →
    s.journal.nextCheckpoint ≠ 0xFFFFFFFF#32 → hasPending s = false →
    ∃ t, exec (.mark v) s = .next (finish t) ∧ TakesMark .management v
      { s with port := { s.port with slot := .executing (.mark v true), reading := none } } t

/-- A MARK from UNARMED, where nothing waits and there is room: the MARK record is allocated and its two writes queued in the
same event, with the restart flag set and no previous checkpoint (R6, R57, R59, R60, R13, R14). A frame ends a read in
progress (log 20). -/
def Obligations.MarkFromUnarmedWritesRecord : Prop :=
  ∀ (s : State) (v : BitVec 64), Ready s → s.ctl.state = .unarmed → s.ctl.checkpoints = [] →
    s.rollback.phase ≠ .retract → s.journal.configured = true → s.journal.nextCheckpoint ≠ 0xFFFFFFFF#32 →
    s.journal.occupancy < s.journal.config.slots → s.journal.trailing = false → CanWrite s →
    s.capture.spaceWait = [] → (∀ e ∈ s.capture.entries, e.state ≠ .awaitMark) →
    let c : Checkpoint := { number := s.journal.nextCheckpoint, status := .pending, markSlot := some s.journal.tail
                            markSeq := some s.journal.seq, value := v, source := .management, captures := 0 }
    exec (.mark v) s = .next (withRecord .mark s.journal.nextCheckpoint (.mark v .management none true) { s with
      journal := { s.journal with nextCheckpoint := s.journal.nextCheckpoint + 1, adoptable := true }
      capture := { s.capture with filter := [], nearFull := false, closing := none, closingBroken := false }
      ctl := { s.ctl with
        state := .armed, condition := .intact, openEpoch := some s.journal.nextCheckpoint, checkpoints := [c]
        pendingMark := some { previous := none, restart := true } }
      rollback := { s.rollback with phase := if s.rollback.pendingLine = true then .waiting else .idle }
      port := { s.port with slot := .executing (.mark v true), reading := none } })

/-! ### Rollbacks -/

/-- A ROLLBACK command that is refused or held (R70, R72, R73, R174); the event then ends. A refusal changes nothing but the
port. A frame ends a read in progress (log 20). -/
def Obligations.RollbackNotTaken : Prop :=
  ∀ (s : State) (d : Byte), Ready s →
    let refused := fun status : Status => exec (.rollback d) s = .next (finish (answered status 0x21 [] s))
    let inRange := 1 ≤ d.toNat ∧ d.toNat ≤ 4
    (s.ctl.state = .rolling ∨ s.ctl.state = .adopting → refused .busy) ∧
    (s.ctl.state = .failed → refused .state) ∧ (s.ctl.state = .unarmed → refused .noCheckpoint) ∧
    (s.ctl.state = .armed → ¬ inRange → refused .range) ∧
    (s.ctl.state = .armed → inRange → hasPending s = true → exec (.rollback d) s =
      .next (finish { s with port := { s.port with slot := .executing (.rollback d), reading := none } })) ∧
    (s.ctl.state = .armed → inRange → hasPending s = false → s.ctl.condition = .broken → refused .broken) ∧
    (s.ctl.state = .armed → inRange → hasPending s = false → s.ctl.condition ≠ .broken →
      s.ctl.checkpoints.length < d.toNat → refused .range)

/-- A ROLLBACK command that is taken starts the rollback to the d-th checkpoint from the newest and is answered
STARTED with its number; the event then ends (R70, R72, R75, R77, R174). The order in which the cancelled entries are
answered is the model's choice (log 19); that a frame ends a read in progress is its reading (log 20). -/
def Obligations.RollbackStarts : Prop :=
  ∀ (s : State) (d : Byte) (c : Checkpoint), Ready s → s.ctl.state = .armed → 1 ≤ d.toNat → d.toNat ≤ 4 →
    hasPending s = false → s.ctl.condition ≠ .broken →
    s.ctl.checkpoints[s.ctl.checkpoints.length - d.toNat]? = some c → d.toNat ≤ s.ctl.checkpoints.length →
    ∃ t, exec (.rollback d) s = .next (finish t) ∧
      StartsRollback .management c (answered .started 0x21 (bytesLE 4 c.number) s) t

/-- RETRY and ABANDON (R175, R85, R86): in FAILED, RETRY resumes the walk at the failing slot, whose two lines are
read again, and is answered STARTED with the target's number; ABANDON empties the list and the journal, sets
MEMORY_SUSPECT and enters UNARMED, and is answered OK; in other states each is refused. That an emptying forgets a
failed void write is the model's reading (log 27), and so is that a frame ends a read in progress (log 20). -/
def Obligations.RetryAndAbandonJudged : Prop :=
  ∀ s : State, Ready s →
    (s.ctl.state = .failed → ∀ target p, s.rollback.target = some target → s.rollback.undoPointer = some p →
      ∃ down wait, exec .retry s = .next (answered .started 0x22 (bytesLE 4 target.number)
          { s with
            ctl := { s.ctl with state := .rolling }
            rollback := { s.rollback with
              phase := .undo, pair := { header := none, data := none }, current := none, undoWait := wait }
            down := { s.down with outgoing := down } }) ∧
        Places s.down.outgoing s.rollback.undoWait (undoReads s.journal p) down wait) ∧
    (s.ctl.state = .failed → exec .abandon s = .next (answered .ok 0x23 []
      { emptied s with
        capture := { (emptied s).capture with filter := [] }
        ctl := { (emptied s).ctl with memorySuspect := true }
        rollback := { s.rollback with phase := .idle, ackMark := false } })) ∧
    (s.ctl.state = .rolling ∨ s.ctl.state = .adopting →
      exec .retry s = .next (answered .busy 0x22 [] s) ∧ exec .abandon s = .next (answered .busy 0x23 [] s)) ∧
    (s.ctl.state = .unarmed ∨ s.ctl.state = .armed →
      exec .retry s = .next (answered .state 0x22 [] s) ∧ exec .abandon s = .next (answered .state 0x23 [] s))

/-- DISCARD by state (R66, R106, R176). In ARMED and ADOPTING the unit enters UNARMED with the journal emptied (R20),
and the event then ends, which judges a pending line request. The held writes of the entries in AWAIT_COMMIT enter the outgoing
queue in the ring order of their slots, which runs up to the tail (R35, R47, R132); that the entries without a slot come after
them, in the order of their acceptance, is the model's choice (log 19), and so is that a BREAK request which still waits for a forgotten slot is dropped without a record
and without BREAK_UNRECORDED (log 8); that the scan's working items go at its end, that a failed void write is forgotten, and that
a frame ends a read in progress, are its readings (log 23, log 27, log 20). -/
def Obligations.DiscardJudged : Prop :=
  (∀ (j : Journal) (l : List CaptureEntry),
    let place := fun e : CaptureEntry => ringDistance j j.tail (e.slot.getD 0)
    (inSlotOrder j l).Perm l ∧ (inSlotOrder j l).Pairwise fun a b => place a ≤ place b) ∧
  (∀ s : State, leavingOrder s = inSlotOrder s.journal (s.capture.entries.filter fun e => e.state == .awaitCommit) ++
    s.capture.entries.filter fun e => e.early) ∧
  ∀ s : State, Ready s →
    (s.ctl.state = .unarmed → exec .discard s = .next (answered .ok 0x24 [] s)) ∧
    (s.ctl.state = .rolling → exec .discard s = .next (answered .busy 0x24 [] s)) ∧
    (s.ctl.state = .failed → exec .discard s = .next (answered .state 0x24 [] s)) ∧
    (s.ctl.state = .armed → EntriesDistinct s →
      exec .discard s = .next (finish (answered .ok 0x24 [] (emptiedFromArmed s)))) ∧
    (s.ctl.state = .adopting → exec .discard s = .next (finish (answered .ok 0x24 [] { emptied s with
      scan := { s.scan with
        result := .noCheckpoint, endCause := .discard, endSlot := s.scan.pointer, lastSlot := none, lastSeq := none
        segment := none, working := [], segBreak := none, pair := { header := none, data := none }, scanWait := [] }
      alerts := { s.alerts with latches := s.alerts.latches ||| 0x100#12 } })))

/-! ### Adoption and resets -/

/-- ADOPT: the range test of R177 and the rows of R92 in order; a taken one starts the scan, whose first two line reads are
placed (R92, R93, R95, R177). The number of the scan is the model's own (log 18); that a frame ends a read in progress is
its reading (log 20). -/
def Obligations.AdoptJudged : Prop :=
  ∀ (s : State) (start : BitVec 32), Ready s →
    let refused := fun status : Status => exec (.adopt start) s = .next (answered status 0x25 [] s)
    let retained := start = 0xFFFFFFFF#32
    let inRange := retained ∨ start.toNat ≤ 1048575
    let guarded := ∃ k : Fin 16, s.cls.windows[k.val].enabled = true ∧ s.cls.windows[k.val].kind = .guarded
    (¬ inRange → refused .range) ∧
    (inRange → s.ctl.state = .rolling ∨ s.ctl.state = .adopting → refused .busy) ∧
    (inRange → s.ctl.state = .failed → refused .state) ∧ (inRange → s.ctl.state = .armed → refused .armed) ∧
    (inRange → s.ctl.state = .unarmed → s.journal.configured = false → refused .noJournal) ∧
    (inRange → s.ctl.state = .unarmed → s.journal.configured = true → ¬ guarded → refused .state) ∧
    (s.ctl.state = .unarmed → s.journal.configured = true → guarded → retained → s.journal.adoptable = false →
      refused .noCheckpoint) ∧
    (inRange → s.ctl.state = .unarmed → s.journal.configured = true → guarded → ¬ retained →
      s.journal.config.slots ≤ start.toNat → refused .range) ∧
    (s.ctl.state = .unarmed → s.journal.configured = true → guarded → ∀ slot,
      (retained ∧ s.journal.adoptable = true ∧ slot = s.journal.head) ∨
        (start.toNat ≤ 1048575 ∧ start.toNat < s.journal.config.slots ∧ slot = start.toNat) →
      ∃ t, exec (.adopt start) s = .next t ∧ t.ctl = { s.ctl with state := .adopting } ∧ t.journal = s.journal ∧
        t.capture = { s.capture with filter := [], nearFull := false } ∧
        t.scan = { Scanner.reset with
          start := some slot, pointer := some slot, run := s.scan.run + 1, scanWait := t.scan.scanWait } ∧
        Places s.down.outgoing [] (scanReads s.journal (s.scan.run + 1) slot) t.down.outgoing t.scan.scanWait ∧
        t.port = { s.port with slot := .done ⟨.started, 0x25, natLE 4 slot⟩, reading := none } ∧ t.cls = s.cls ∧
        t.up = s.up ∧ t.alerts = s.alerts ∧ t.rollback = s.rollback ∧ t.lines = s.lines ∧ t.free = s.free ∧
        t.down = { s.down with outgoing := t.down.outgoing })

/-- RESET is a warm reset and its end in one event, without a response, and samples the straps (R151, R152, R178). What the
straps read is a free value, and FLTREQ and FRZ are at the levels the unit last saw (the model's choice, log 16). -/
def Obligations.ResetCommandIsWarmReset : Prop :=
  ∀ s : State, Ready s → ∃ (straps : BitVec 2) (t : State), exec .reset s = .next { endOfReset
      { straps := straps, fltreq := s.rollback.fltreq, frz := s.alerts.frz } t with free := s.free + 1 } ∧
    ResetsWarm s t ∧ t.lines = { s.lines with rback := false }

/-- PORST: its fall is a power-on reset, and its rise ends it unless WRST is low (R139, R150, R151). WRST: its fall is a warm
reset, which keeps the retained set and MEMORY_SUSPECT and abandons the tags in use, and its rise ends it unless PORST is
low; while PORST is low a fall changes only the level (R138, R151). An edge to the level a line stands at changes
nothing (the model's choice, log 2). -/
def Obligations.ResetLineEdges : Prop :=
  ∀ (s : State) (levels : PinLevels),
    (s.lines.porstLow = true → exec .porstFall s = .next s) ∧
    (s.lines.porstLow = false → ∃ t, exec .porstFall s = .next t ∧ ResetsPower s t ∧
      t.lines = { s.lines with porstLow := true, rback := false }) ∧
    (s.lines.porstLow = false → exec (.porstRise levels) s = .next s) ∧
    (s.lines.porstLow = true → s.lines.wrstLow = true →
      exec (.porstRise levels) s = .next { s with lines := { s.lines with porstLow := false } }) ∧
    (s.lines.porstLow = true → s.lines.wrstLow = false → exec (.porstRise levels) s =
      .next (endOfReset levels { s with lines := { s.lines with porstLow := false } })) ∧
    (s.lines.wrstLow = true → exec .wrstFall s = .next s) ∧
    (s.lines.wrstLow = false → s.lines.porstLow = true →
      exec .wrstFall s = .next { s with lines := { s.lines with wrstLow := true } }) ∧
    (s.lines.wrstLow = false → s.lines.porstLow = false → ∃ t, exec .wrstFall s = .next t ∧ ResetsWarm s t ∧
      t.lines = { s.lines with wrstLow := true, rback := false }) ∧
    (s.lines.wrstLow = false → exec (.wrstRise levels) s = .next s) ∧
    (s.lines.wrstLow = true → s.lines.porstLow = true →
      exec (.wrstRise levels) s = .next { s with lines := { s.lines with wrstLow := false } }) ∧
    (s.lines.wrstLow = true → s.lines.porstLow = false → exec (.wrstRise levels) s =
      .next (endOfReset levels { s with lines := { s.lines with wrstLow := false } }))

/-! ### The memory path -/

/-- An arrival spends a credit and joins the back of its initiator's queue, or is discarded while the unit is held in reset
or the queue holds 4 requests (R124). That the credit count stops at 0 is the model's choice (log 26). -/
def Obligations.ArrivalJudged : Prop :=
  ∀ (s : State) (r : UpRequest),
    let q := s.up.ingress[r.initiator.val]
    let credits := s.up.credits.set r.initiator.val (s.up.credits[r.initiator.val] - 1)
    (held s = true ∨ 4 ≤ q.length →
      exec (.requestArrival r) s = .next { s with up := { s.up with credits := credits } }) ∧
    (held s = false → q.length < 4 → exec (.requestArrival r) s = .next { s with up :=
      { s.up with credits := credits, ingress := s.up.ingress.set r.initiator.val (q ++ [r]) } })

/-- What a request's line belongs to, and the treatment it receives (R23, R24, R115 to R117, Table 6.2). -/
def Obligations.TreatmentTable : Prop :=
  ∀ (s : State) (r : UpRequest) (mask : ByteMask) (data : LineData),
    let first := s.journal.config.base.toNat / 64
    let inArea := s.journal.configured = true ∧ first ≤ r.line.toNat ∧
      r.line.toNat < first + 2 * s.journal.config.slots
    let inWindow := fun w : Window => w.enabled = true ∧ w.base ≤ r.line.toNat / 64 ∧ r.line.toNat / 64 < w.base + w.size
    let class_ := s.cls.initiators[r.initiator.val].cls
    let permitted := s.cls.initiators[r.initiator.val].permission
    (inArea → targetOf s r.line = .journalArea) ∧
    (¬ inArea → ∀ k : Fin 16, inWindow s.cls.windows[k.val] →
      (∀ i : Fin 16, i ≠ k → ¬ inWindow s.cls.windows[i.val]) → targetOf s r.line = .window s.cls.windows[k.val].kind) ∧
    (¬ inArea → (∀ i : Fin 16, ¬ inWindow s.cls.windows[i.val]) → targetOf s r.line = .ordinary) ∧
    (r.access = .read → treatment s r = .pass (targetOf s r.line == .window .guarded)) ∧
    (r.access = .write mask data →
      (targetOf s r.line = .ordinary → treatment s r = .pass false) ∧
      (targetOf s r.line = .journalArea → treatment s r = .denied .journalWrite) ∧
      (targetOf s r.line = .window .frozen → treatment s r = .denied .frozenWrite) ∧
      (targetOf s r.line = .window .marker →
        (mask.extractLsb' 0 8 ≠ 0xFF#8 → treatment s r = .pass false) ∧
        (mask.extractLsb' 0 8 = 0xFF#8 → permitted = true → treatment s r = .passMark (data.extractLsb' 0 64)) ∧
        (mask.extractLsb' 0 8 = 0xFF#8 → permitted = false → treatment s r = .passUnpermitted)) ∧
      (targetOf s r.line = .window .guarded →
        (class_ = .blocked → treatment s r = .denied .blockedWrite) ∧ (class_ = .untracked → treatment s r = .pass true) ∧
        (class_ = .tracked → s.ctl.state ≠ .armed ∨ s.ctl.condition = .broken → treatment s r = .pass true) ∧
        (class_ = .tracked → s.ctl.state = .armed → s.ctl.condition ≠ .broken →
          (r.line ∈ s.capture.filter → treatment s r = .filterHit) ∧
          (r.line ∉ s.capture.filter → treatment s r = .capture mask data))))

/-- The arbiter accepts the first initiator after the position whose head is eligible (R125, R129, R130), and nothing where
none is (the model's choice, log 2). -/
def Obligations.ArbiterChoice : Prop :=
  ∀ s : State,
    let after := fun n : Fin 8 => (n - s.up.position - 1).val
    (∀ n, chosen s = some n ↔ holdReason s n = .none ∧ ∀ m : Fin 8, after m < after n → holdReason s m ≠ .none) ∧
    (chosen s = none ↔ ∀ n : Fin 8, holdReason s n ≠ .none) ∧
    ((∀ n : Fin 8, holdReason s n ≠ .none) → exec .acceptance s = .next s) ∧
    (∀ (n : Fin 8) (r : UpRequest) (rest : List UpRequest), holdReason s n = .none → s.up.ingress[n.val] = r :: rest →
      (∀ m : Fin 8, after m < after n → holdReason s m ≠ .none) →
      ∃ t, exec .acceptance s = .next t ∧ t.up.position = n ∧ t.up.ingress[n.val] = rest ∧
        t.up.credits[n.val] = s.up.credits[n.val] + 1 ∧
        ∀ m : Fin 8, m ≠ n → t.up.ingress[m.val] = s.up.ingress[m.val] ∧ t.up.credits[m.val] = s.up.credits[m.val])

/-- The hold reason of a head request is the first of the conditions of R137 that holds, and none where no condition of
Table 7.2 holds (R126, R137); and a head that one of them holds stays at the head of its queue, whatever else is accepted
(R24, R55, R118, R126 to R128, R38, Table 7.2). -/
def Obligations.IneligibleHeadsStay : Prop :=
  (∀ (s : State) (n : Fin 8), s.up.ingress[n.val] = [] → holdReason s n = .empty) ∧
  (∀ (s : State) (n : Fin 8) (r : UpRequest) (rest : List UpRequest), s.up.ingress[n.val] = r :: rest →
    let gate := (s.ctl.state = .rolling ∨ s.ctl.state = .failed ∨ s.ctl.state = .adopting) ∧
      targetOf s r.line = .window .guarded
    let line := ∃ e ∈ s.capture.entries, e.line = r.line
    let markPending := (∃ v, treatment s r = .passMark v) ∧ hasPending s = true
    let needsEntry := ∃ mask data, treatment s r = .capture mask data
    let captureFull := needsEntry ∧ 16 ≤ s.capture.entries.length
    let pacing := needsEntry ∧ s.journal.config.paceMark ≠ 0 ∧ s.journal.config.paceMark ≤ s.journal.occupancy ∧
      ∃ k, s.capture.pacing = some k ∧ k < s.journal.config.pacingInterval
    let downstreamFull := (∀ c, treatment s r ≠ .denied c) ∧ 32 ≤ s.down.outgoing.length
    (gate → holdReason s n = .gate) ∧ (¬ gate → line → holdReason s n = .line) ∧
    (¬ gate → ¬ line → markPending → holdReason s n = .markPending) ∧
    (¬ gate → ¬ line → captureFull → holdReason s n = .captureFull) ∧
    (¬ gate → ¬ line → ¬ captureFull → pacing → holdReason s n = .pacing) ∧
    (¬ gate → ¬ line → ¬ markPending → ¬ captureFull → ¬ pacing → downstreamFull → holdReason s n = .downstreamFull) ∧
    (¬ gate → ¬ line → ¬ markPending → ¬ captureFull → ¬ pacing → ¬ downstreamFull → holdReason s n = .none)) ∧
  ∀ (s t : State) (n : Fin 8) (r : UpRequest) (rest : List UpRequest), s.up.ingress[n.val] = r :: rest →
    exec .acceptance s = .next t →
    let needsEntry := ∃ mask data, treatment s r = .capture mask data
    (s.ctl.state = .rolling ∨ s.ctl.state = .failed ∨ s.ctl.state = .adopting →
      targetOf s r.line = .window .guarded → t.up.ingress[n.val] = r :: rest) ∧
    ((∃ e ∈ s.capture.entries, e.line = r.line) → t.up.ingress[n.val] = r :: rest) ∧
    ((∃ v, treatment s r = .passMark v) → hasPending s = true → t.up.ingress[n.val] = r :: rest) ∧
    (needsEntry → 16 ≤ s.capture.entries.length → t.up.ingress[n.val] = r :: rest) ∧
    (needsEntry → s.journal.config.paceMark ≠ 0 → s.journal.config.paceMark ≤ s.journal.occupancy →
      (∃ k, s.capture.pacing = some k ∧ k < s.journal.config.pacingInterval) → t.up.ingress[n.val] = r :: rest) ∧
    ((∀ c, treatment s r ≠ .denied c) → 32 ≤ s.down.outgoing.length → t.up.ingress[n.val] = r :: rest)

/-- The first step of an accepted request, by its treatment (R24, R29, R53, R117 to R119, R130, R131). The number of a
capture entry is the model's own (log 18). -/
def Obligations.AcceptanceByTreatment : Prop :=
  ∀ (s : State) (n : Fin 8) (r : UpRequest) (rest : List UpRequest), chosen s = some n →
    s.up.ingress[n.val] = r :: rest →
    let up := { s.up with
      ingress := s.up.ingress.set n.val rest
      credits := s.up.credits.set n.val (s.up.credits[n.val] + 1)
      position := n }
    let sent := fun guarded : Bool => { s.down with outgoing := s.down.outgoing ++
      [⟨⟨r.line, r.access⟩, .passed r.initiator r.tag (r.access == .read) guarded⟩] }
    let violates := fun (cause : ViolationCause) (t : State) =>
      if s.cls.violations.length < 8 then
        { t with
          cls := { s.cls with violations := s.cls.violations ++ [⟨r.initiator, r.tag, r.line, cause⟩] }
          alerts := { s.alerts with latches := s.alerts.latches ||| 0x200#12 } }
      else { t with cls := { s.cls with violationLost := true } }
    (∀ g, treatment s r = .pass g → exec .acceptance s = .next { s with up := up, down := sent g }) ∧
    (treatment s r = .passUnpermitted → exec .acceptance s =
      .next (violates .markNotPermitted { s with up := up, down := sent false })) ∧
    (∀ cause, treatment s r = .denied cause → exec .acceptance s = .next (violates cause { s with up :=
      { up with delivered := s.up.delivered ++ [⟨r.initiator, r.tag, .denied⟩] } })) ∧
    (treatment s r = .filterHit → exec .acceptance s = .next { s with
      up := up, down := sent true, alerts := { s.alerts with filterHits := satInc s.alerts.filterHits } }) ∧
    (∀ mask data, treatment s r = .capture mask data → exec .acceptance s = .next { s with
      up := up
      down := { s.down with outgoing := s.down.outgoing ++ [readOf r.line (.oldLine s.capture.nextEntry)] }
      capture := { s.capture with
        entries := s.capture.entries ++
          [{ id := s.capture.nextEntry, line := r.line, mask := mask, data := data, initiator := r.initiator, tag := r.tag
             epoch := s.ctl.openEpoch.getD 0xFFFFFFFF#32, state := .lineRead, slot := none, oldData := none
             recorded := true }]
        nextEntry := s.capture.nextEntry + 1, pacing := some 0 } })

/-- A marker write's mark request is judged at its acceptance, and the write passes whatever the outcome (R53, R54,
R56, R57); the event then ends. That the occupancy a mark leaves is compared with the pace mark is the model's reading
(log 13). -/
def Obligations.MarkerWriteRequestsMark : Prop :=
  ∀ (s : State) (n : Fin 8) (r : UpRequest) (rest : List UpRequest) (v : BitVec 64), chosen s = some n →
    s.up.ingress[n.val] = r :: rest → treatment s r = .passMark v →
    let a := { s with
      up := { s.up with
        ingress := s.up.ingress.set n.val rest
        credits := s.up.credits.set n.val (s.up.credits[n.val] + 1)
        position := n }
      down := { s.down with outgoing := s.down.outgoing ++
        [⟨⟨r.line, r.access⟩, .passed r.initiator r.tag (r.access == .read) false⟩] } }
    let refused := fun (reason : MarkReason) (b : State) => exec .acceptance s = .next (finish { b with
      ctl := { b.ctl with lastRefused := some ⟨.initiator r.initiator, v, reason⟩ }
      alerts := { b.alerts with latches := b.alerts.latches ||| 0x010#12 } })
    let open_ := s.ctl.state = .unarmed ∨ s.ctl.state = .armed
    let spent := s.journal.exhausted = true ∨ s.journal.seq = 0xFFFFFFFFFFFFFFFF#64 ∨
      s.journal.nextCheckpoint = 0xFFFFFFFF#32
    (¬ open_ → refused .state a) ∧
    (open_ → s.journal.configured = false → refused .noJournal a) ∧
    (open_ → s.journal.configured = true → spent → refused .exhausted (enterExhaustion a)) ∧
    (open_ → s.journal.configured = true → ¬ spent →
      ∃ t, exec .acceptance s = .next (finish t) ∧ TakesMark (.initiator r.initiator) v a t)

/-- The front of the outgoing queue is issued under a free tag, and nothing is where there is no such request, the tag is
not free, or the unit is held in reset (R133, R150, R151). Which free tag is used is the sender's to say (the model's choice,
log 6), and an issue that cannot arise changes nothing (log 2). -/
def Obligations.DownstreamIssue : Prop :=
  ∀ (s : State) (tag : DownTag),
    (∀ e rest, s.down.outgoing = e :: rest → held s = false → tagState s tag = .free →
      exec (.downstreamIssue tag) s = .next { s with down :=
        { outgoing := rest, outstanding := s.down.outstanding.set tag.val (.inUse e.source)
          sent := s.down.sent ++ [(tag, e.request)] } }) ∧
    (s.down.outgoing = [] ∨ held s = true ∨ tagState s tag ≠ .free → exec (.downstreamIssue tag) s = .next s)

/-- A completion of an abandoned request frees its tag and does nothing else; one whose tag matches no request of its row,
because the tag is free, abandoned or in use by another source, is discarded (R135, R138, R139). That an event which
cannot arise changes nothing is the model's choice (log 2). -/
def Obligations.DiscardedCompletions : Prop :=
  ∀ (s : State) (tag : DownTag) (x : ReadResult) (e : Bool),
    let freed := { s with down := { s.down with outstanding := s.down.outstanding.set tag.val .free } }
    (tagState s tag = .abandoned → exec (.abandonedCompletion tag x) s = .next freed) ∧
    (tagState s tag ≠ .abandoned → exec (.abandonedCompletion tag x) s = .next s) ∧
    exec (.strayCompletion tag x) s = .next s ∧
    ((∀ n t isRead guarded, tagState s tag ≠ .inUse (.passed n t isRead guarded)) →
      exec (.passedRequestCompletion tag x) s = .next s) ∧
    ((∀ id, tagState s tag ≠ .inUse (.oldLine id)) → exec (.oldLineReadCompletion tag x) s = .next s) ∧
    ((∀ id, tagState s tag ≠ .inUse (.forwarded id)) → exec (.forwardedWriteCompletion tag e) s = .next s) ∧
    ((∀ slot half, tagState s tag ≠ .inUse (.journal slot half)) → exec (.journalWriteCompletion tag e) s = .next s) ∧
    ((∀ slot half, tagState s tag ≠ .inUse (.undoRead slot half)) → exec (.undoReadCompletion tag x) s = .next s) ∧
    ((∀ slot, tagState s tag ≠ .inUse (.undoWrite slot)) → exec (.undoWriteCompletion tag e) s = .next s) ∧
    ((∀ slot, tagState s tag ≠ .inUse (.voidWrite slot)) → exec (.voidWriteCompletion tag e) s = .next s) ∧
    ((∀ run slot half, tagState s tag ≠ .inUse (.scanRead run slot half)) → exec (.scanReadCompletion tag x) s = .next s)

/-- A passed request is answered when memory completes it: OKAY, with the line for a read, or DATA_ERROR, counted and
latched (R131, R136); the event then ends. The counters rise by one and stop at their largest value (R144). -/
def Obligations.PassedRequestCompletes : Prop :=
  (∀ c : BitVec 32, (satInc c).toNat = min (c.toNat + 1) 0xFFFFFFFF) ∧
  ∀ (s : State) (tag : DownTag) (n : Fin 8) (t : Byte) (isRead guarded : Bool) (line : LineData),
    tagState s tag = .inUse (.passed n t isRead guarded) →
    let answer := fun k : ResponseKind => { s with
      down := { s.down with outstanding := s.down.outstanding.set tag.val .free }
      up := { s.up with delivered := s.up.delivered ++ [⟨n, t, k⟩] } }
    exec (.passedRequestCompletion tag (.ok line)) s =
      .next (finish (answer (.okay (if isRead then some line else none)))) ∧
    exec (.passedRequestCompletion tag .error) s = .next (finish { answer .dataError with
      alerts := { s.alerts with
        dataErrors := satInc s.alerts.dataErrors, latches := s.alerts.latches ||| 0x400#12 } })

/-- An old-line read completes (R30, R31): an entry still in LINE_READ stores the line and waits in AWAIT_MARK, where
its epoch's MARK slot is still to come, or is answered DATA_ERROR and freed; for an entry released or retracted the
read has no further effect. That a late read still stores the line is the model's reading (log 29). -/
def Obligations.OldLineReadCompletes : Prop :=
  ∀ (s : State) (tag : DownTag) (id : Nat) (line : LineData), tagState s tag = .inUse (.oldLine id) →
    let a := { s with
      down := { s.down with outstanding := s.down.outstanding.set tag.val .free }
      rollback := { s.rollback with readsLeft := s.rollback.readsLeft.filter fun x => x != id } }
    (∀ x, entryOf s id = none → exec (.oldLineReadCompletion tag x) s = .next (finish a)) ∧
    (∀ e, entryOf s id = some e → e.state ≠ .lineRead →
      exec (.oldLineReadCompletion tag .error) s = .next (finish a) ∧
      exec (.oldLineReadCompletion tag (.ok line)) s =
        .next (finish (updateEntry id (fun x => { x with oldData := some line }) a))) ∧
    (∀ e, entryOf s id = some e → e.state = .lineRead →
      exec (.oldLineReadCompletion tag .error) s = .next (finish { a with
        capture := { s.capture with entries := s.capture.entries.filter fun x => x.id != id }
        up := { s.up with delivered := s.up.delivered ++ [⟨e.initiator, e.tag, .dataError⟩] }
        alerts := { s.alerts with
          dataErrors := satInc s.alerts.dataErrors, latches := s.alerts.latches ||| 0x400#12 } }) ∧
      ((∃ c ∈ s.ctl.checkpoints, c.status = .pending ∧ c.number = e.epoch ∧ c.markSlot = none) →
        exec (.oldLineReadCompletion tag (.ok line)) s = .next (finish
          (updateEntry id (fun x => { x with oldData := some line, state := .awaitMark }) a))))

/-- An entry whose old line has been read, and which need not wait for a mark, asks for a CAPTURE slot. Below the capture
limit the slot is granted: the record is written, the entry is in RECORDING with the slot, and the capture is counted to
its checkpoint (R5, R13, R14, R33, R52). -/
def Obligations.CaptureSlotGranted : Prop :=
  ∀ (s : State) (tag : DownTag) (id : Nat) (line : LineData) (e : CaptureEntry), tagState s tag = .inUse (.oldLine id) →
    entryOf s id = some e → e.state = .lineRead →
    (∀ c ∈ s.ctl.checkpoints, c.status = .pending → c.number = e.epoch → c.markSlot ≠ none) →
    s.capture.spaceWait = [] → CanWrite s → s.journal.occupancy < captureLimit s.journal →
    exec (.oldLineReadCompletion tag (.ok line)) s = .next (finish (withRecord (.capture id) e.epoch
      (.capture e.line e.initiator line) { s with
        down := { s.down with outstanding := s.down.outstanding.set tag.val .free }
        rollback := { s.rollback with readsLeft := s.rollback.readsLeft.filter fun x => x != id }
        capture := { s.capture with
          entries := s.capture.entries.map fun x => if x.id == id then
            { x with oldData := some line, state := .recording, slot := some s.journal.tail } else x
          hold := { running := false, count := 0, timeout := 0 } }
        ctl := { s.ctl with
          checkpoints := s.ctl.checkpoints.map fun c =>
            if c.number == e.epoch then { c with captures := satInc c.captures } else c
          condition := if s.ctl.condition = .holding then .intact else s.ctl.condition } }))

/-- An entry whose old line has been read, and which need not wait for a mark, where no slot is granted (R33). While others
wait for space it joins them at the back (R33, R41). Its request waits where a forgotten slot's writes are outstanding at the
tail, or behind a request that waits (R13; log 10). It is refused where the sequence counter stands at its largest value,
which exhausts the journal (R11), as ExhaustionBreaks states. At the capture limit, under the HOLD policy, it waits in AWAIT_SPACE; the
first to wait makes the condition HOLDING, latches HOLDING and starts the hold timer (R41). Under the BREAK policy the epoch
breaks with cause LIMIT: its early entries forward without records and a BREAK record is asked for (R40, R44, R46, R50); where
the epoch is the closing one, the pending mark becomes a restart, which drops the older checkpoints, and the head trails
(R18, R45, R59). The order in which several entries forward in one event is the model's choice (log 19); the near-full test
of the occupancy a trailing head leaves, and the place of a break without a record, are its readings (log 13, log 24). -/
def Obligations.CaptureLimitReached : Prop :=
  ∀ (s : State) (tag : DownTag) (id : Nat) (line : LineData) (e : CaptureEntry), tagState s tag = .inUse (.oldLine id) →
    EntriesDistinct s → entryOf s id = some e → e.state = .lineRead →
    (∀ c ∈ s.ctl.checkpoints, c.status = .pending → c.number = e.epoch → c.markSlot ≠ none) →
    let a := { s with
      down := { s.down with outstanding := s.down.outstanding.set tag.val .free }
      rollback := { s.rollback with readsLeft := s.rollback.readsLeft.filter fun x => x != id } }
    let stored := fun state : EntryState => { s.capture with entries := s.capture.entries.map fun x =>
      if x.id == id then { x with oldData := some line, state := state } else x }
    let reaches := fun t : State => exec (.oldLineReadCompletion tag (.ok line)) s = .next (finish t)
    (s.capture.spaceWait ≠ [] → id ∉ s.capture.spaceWait →
      reaches { a with capture := { stored .awaitSpace with spaceWait := s.capture.spaceWait ++ [id] } }) ∧
    (s.capture.spaceWait = [] → MustWait s → reaches { a with
      capture := stored .lineRead, journal := { s.journal with allocWait := s.journal.allocWait ++ [.capture id] } }) ∧
    (s.capture.spaceWait = [] → ¬ MustWait s → s.journal.exhausted = false → s.journal.seq = 0xFFFFFFFFFFFFFFFF#64 →
      s.ctl.state = .armed → s.ctl.condition ≠ .broken → reaches (enterExhaustion { a with capture := stored .lineRead })) ∧
    (s.capture.spaceWait = [] → CanWrite s → captureLimit s.journal ≤ s.journal.occupancy →
      (s.journal.config.policy = .hold → reaches { a with
        capture := { stored .awaitSpace with
          spaceWait := [id], hold := { running := true, count := 0, timeout := s.journal.config.holdTimeout } }
        ctl := { s.ctl with condition := .holding }
        alerts := { s.alerts with latches := s.alerts.latches ||| 0x002#12 } }) ∧
      (s.journal.config.policy = .break_ → s.ctl.state = .armed →
        (s.capture.closing = none → s.ctl.condition ≠ .broken → s.ctl.openEpoch = some e.epoch →
          ∃ t, BreaksOpen e.epoch .limit { a with capture := stored .lineRead } t ∧ reaches t) ∧
        (s.capture.closing = some e.epoch → s.capture.closingBroken = false →
          ∃ t, BreaksClosing e.epoch .limit { a with capture := stored .lineRead } t ∧ reaches t)))

/-- A forwarded write completes and its entry retires: OKAY, with the line inserted in the filter where the four conditions
of R36 hold and its set has a way, or DATA_ERROR (R25, R26, R36); the event then ends. For an entry that is not in
FORWARDING, which has no forwarded write at memory, nothing happens to it (the model's choice, log 2). -/
def Obligations.ForwardedWriteRetires : Prop :=
  ∀ (s : State) (tag : DownTag) (id : Nat) (e : CaptureEntry), tagState s tag = .inUse (.forwarded id) →
    entryOf s id = some e →
    let retired := fun k : ResponseKind => { s with
      down := { s.down with outstanding := s.down.outstanding.set tag.val .free }
      up := { s.up with delivered := s.up.delivered ++ [⟨e.initiator, e.tag, k⟩] }
      capture := { s.capture with entries := s.capture.entries.filter fun x => x.id != id } }
    let inserts := e.recorded = true ∧ s.ctl.openEpoch = some e.epoch ∧ s.ctl.state = .armed ∧
      s.ctl.condition ≠ .broken ∧ e.line ∉ s.capture.filter
    let ways := (s.capture.filter.filter fun x => x.toNat % 256 == e.line.toNat % 256).length
    (e.state ≠ .forwarding → ∀ x, exec (.forwardedWriteCompletion tag x) s = .next (finish
      { s with down := { s.down with outstanding := s.down.outstanding.set tag.val .free } })) ∧
    (e.state = .forwarding →
    (exec (.forwardedWriteCompletion tag true) s = .next (finish { retired .dataError with
      alerts := { s.alerts with
        dataErrors := satInc s.alerts.dataErrors, latches := s.alerts.latches ||| 0x400#12 } })) ∧
    (¬ inserts → exec (.forwardedWriteCompletion tag false) s = .next (finish (retired (.okay none)))) ∧
    (inserts → ways < 16 → exec (.forwardedWriteCompletion tag false) s = .next (finish { retired (.okay none) with
      capture := { s.capture with
        entries := s.capture.entries.filter fun x => x.id != id, filter := s.capture.filter ++ [e.line] } })) ∧
    (inserts → 16 ≤ ways → exec (.forwardedWriteCompletion tag false) s = .next (finish { retired (.okay none) with
      alerts := { s.alerts with filterFull := satInc s.alerts.filterFull } })))

/-- The commit point passes the slot of a pending mark that settles complete: the checkpoint is ESTABLISHED, MEMORY_SUSPECT is
cleared, the epoch age timer restarts, MARKED is latched, BREAK_UNRECORDED is cleared where the slot was allocated after
the break that set it, and a waiting MARK is answered OK (R15, R61, R64, R67, R145); a trailing head follows (R18), and
the event then ends. That the order of the break and the slot is told by their sequence numbers is the model's reading
(log 24), and so is the near-full test of the occupancy a trailing head leaves (log 13). -/
def Obligations.MarkEstablished : Prop :=
  ∀ (s : State) (tag : DownTag) (r r' : SlotRecord) (rest : List SlotRecord) (c : Checkpoint)
    (older : List Checkpoint), LastWrite s tag false r r' → r'.header = .ok → r'.data = .ok →
    s.journal.slotRecords = r :: rest → r ∉ rest →
    (∀ x, rest.find? (fun x => !x.forgotten) = some x → x.header = .outstanding ∨ x.data = .outstanding) →
    r.forgotten = false → r.owner = .mark → s.ctl.state = .armed → s.ctl.checkpoints = older ++ [c] →
    (∀ x ∈ older, x.status = .established) → c.status = .pending → c.markSlot = some r.slot →
    s.journal.voidFailed = none →
    let seq := c.markSeq.getD 0xFFFFFFFFFFFFFFFF#64
    exec (.journalWriteCompletion tag false) s = .next (finish (trailed { s with
      down := { s.down with outstanding := s.down.outstanding.set tag.val .free }
      journal := { s.journal with commit := nextSlot s.journal s.journal.commit, slotRecords := rest }
      ctl := { s.ctl with
        checkpoints := older ++ [{ c with status := .established }], pendingMark := none, memorySuspect := false
        age := { s.ctl.age with running := true, count := 0, stale := false } }
      alerts := { s.alerts with
        latches := s.alerts.latches ||| 0x008#12
        breakUnrecorded := if s.alerts.unrecordedAt ≤ seq then false else s.alerts.breakUnrecorded
        unrecordedAt := if s.alerts.unrecordedAt ≤ seq then 0 else s.alerts.unrecordedAt }
      port := match s.port.slot with
        | .executing (.mark _ true) => { s.port with slot := .done ⟨.ok, 0x20, bytesLE 4 c.number ++ bytesLE 8 seq⟩ }
        | _ => s.port }))

/-- A journal line write completes. While the other of its slot is outstanding the slot does not settle (R14). A capture's
slot that settles complete puts its entry in AWAIT_COMMIT, and the captures-written counter rises (R34, R35, R144); one whose
entry a rollback has cancelled is not counted (log 11). One that settles failed is a break with cause JOURNAL_WRITE, of the
closing epoch where there is one and else of the open epoch, unless it has broken already (R16, R34, R44, R45). A BREAK slot
that settles failed sets BREAK_UNRECORDED (R16, R145). The commit point then passes every settled slot up to the first that is
not, one after another, each told to its owner, and none in ROLLING or FAILED (R15, R18, R35, R61). A forgotten slot is not
counted as written (log 11); it goes when its last write completes, and an entry in RECORDING that holds it forwards (R20,
R47). The event then ends. That the latest break is told by its sequence number is the model's reading (log 24), and so is
the near-full test of the occupancy a trailing head leaves (log 13); a slot found by its number alone, the place of a BREAK
request that waits, and the order in which several entries forward are its choices (log 34, log 10, log 19). -/
def Obligations.JournalWriteCompletes : Prop :=
  ∀ (s : State) (tag : DownTag) (error : Bool) (r : SlotRecord),
    s.journal.slotRecords.find? (fun x => x.slot == r.slot) = some r →
    let freed := s.down.outstanding.set tag.val .free
    let becomes := fun r' : SlotRecord => { s with
      down := { s.down with outstanding := freed }
      journal := { s.journal with slotRecords := s.journal.slotRecords.map fun x => if x = r then r' else x } }
    (tagState s tag = .inUse (.journal r.slot .header) → r.data = .outstanding →
      exec (.journalWriteCompletion tag error) s =
        .next (finish (becomes { r with header := if error then .error else .ok }))) ∧
    (tagState s tag = .inUse (.journal r.slot .data) → r.header = .outstanding →
      exec (.journalWriteCompletion tag error) s =
        .next (finish (becomes { r with data := if error then .error else .ok }))) ∧
    ∀ r', LastWrite s tag error r r' →
      let failed := r'.header = .error ∨ r'.data = .error
      let a := becomes r'
      let settles := fun u : State => ∃ t, CommitAdvances u t ∧ exec (.journalWriteCompletion tag error) s = .next (finish t)
      (r.forgotten = false →
        (∀ id, r.owner = .capture id →
          let w := { a with capture := { s.capture with entries := s.capture.entries.map fun x =>
            if x.id == id then { x with state := if x.state = .recording then .awaitCommit else x.state } else x } }
          (¬ failed → entryOf s id = none → settles a) ∧
          (¬ failed → entryOf s id ≠ none →
            settles { w with alerts := { s.alerts with capturesWritten := satInc s.alerts.capturesWritten } }) ∧
          (failed → BreakNotTaken s → settles w) ∧
          (failed → EntriesDistinct s → s.ctl.state = .armed → s.capture.closing = none → s.ctl.condition ≠ .broken →
            ∀ epoch, s.ctl.openEpoch = some epoch → ∃ b, BreaksOpen epoch .journalWrite w b ∧ settles b) ∧
          (failed → EntriesDistinct s → s.ctl.state = .armed → s.capture.closingBroken = false →
            ∀ epoch, s.capture.closing = some epoch → ∃ b, BreaksClosing epoch .journalWrite w b ∧ settles b)) ∧
        (r.owner = .mark → ¬ failed ∨ (∀ c, pendingEntry s = some c → c.markSlot ≠ some r.slot) → settles a) ∧
        (r.owner = .brk → (¬ failed → settles a) ∧ (failed → settles (withUnrecorded r.seq a)))) ∧
      (r.forgotten = true →
        let gone := { a with journal := { a.journal with slotRecords := a.journal.slotRecords.erase r' } }
        let reaches := fun t : State => exec (.journalWriteCompletion tag error) s = .next (finish t)
        ((∀ id e, r.owner = .capture id → entryOf s id = some e → e.state ≠ .recording) → reaches gone) ∧
        (∀ id e, r.owner = .capture id → entryOf s id = some e → e.state = .recording → reaches (withForwarded e gone)))

/-- A MARK slot that settles failed: the mark fails with WRITE_ERROR, and a waiting MARK is answered BROKEN. With no older
checkpoint in the list the journal is emptied and the unit enters UNARMED; with older ones the condition becomes BROKEN
with cause MARK_WRITE, the entries short of RECORDING forward without records, and the commit point advances (R15, R16, R20,
R46, R62); the event then ends. That BROKEN is latched then is the model's reading (log 12). With no older
checkpoint, the entries in AWAIT_COMMIT go in the order of their slots (R35, R47), as DiscardJudged says. The order in which the
entries without a slot forward, and that they go after those, is the model's choice (log 19), and so is that a BREAK request which still waits for a forgotten slot is
dropped as the journal is emptied, without a record and without BREAK_UNRECORDED (log 8), and that a slot is found by its
number (log 34); that a failed void write is forgotten, and the near-full test of the occupancy a trailing head leaves, are
the model's readings (log 27, log 13). -/
def Obligations.FirstMarkFails : Prop :=
  ∀ (s : State) (tag : DownTag) (error : Bool) (r r' : SlotRecord) (c : Checkpoint), EntriesDistinct s →
    LastWrite s tag error r r' → s.journal.slotRecords.find? (fun x => x.slot == r.slot) = some r → r.forgotten = false →
    r.owner = .mark → r'.header = .error ∨ r'.data = .error → s.ctl.state = .armed → c.status = .pending →
    c.markSlot = some r.slot →
    let a := { s with
      down := { s.down with outstanding := s.down.outstanding.set tag.val .free }
      journal := { s.journal with slotRecords := s.journal.slotRecords.map fun x => if x = r then r' else x } }
    let port := match s.port.slot with
      | .executing (.mark _ true) => { s.port with slot := .done ⟨.broken, 0x20, []⟩ }
      | _ => s.port
    let reaches := fun t : State => exec (.journalWriteCompletion tag error) s = .next (finish t)
    (s.ctl.checkpoints = [c] →
      let u := emptiedFromArmed a
      reaches { u with
        ctl := { u.ctl with lastRefused := some ⟨c.source, c.value, .writeError⟩ }
        alerts := { s.alerts with latches := s.alerts.latches ||| 0x010#12 }
        port := port }) ∧
    (∀ older, s.ctl.checkpoints = older ++ [c] → older ≠ [] → (∀ x ∈ older, x.status = .established) →
      ∃ t, reaches t ∧ CommitAdvances (released (fun _ => true) { a with
        capture := { s.capture with closing := none, closingBroken := false }
        ctl := { s.ctl with
          checkpoints := older, pendingMark := none, lastRefused := some ⟨c.source, c.value, .writeError⟩
          condition := .broken, lastBreak := if s.ctl.condition = .broken then s.ctl.lastBreak else some .markWrite }
        alerts := { s.alerts with latches := s.alerts.latches ||| 0x014#12 }
        port := port }) t)

/-- The check code of a record the unit writes passes the check test, and every field reads back as it was written (R4 to
R9, R182). The number that stands for NONE is no checkpoint's (R10). The header line holds each field at its offset of Table
11.1, zero elsewhere, and in its last four bytes the check code, computed over header bytes 0 to 59 and then the data line as
R8 gives: from FFFFFFFFh, most significant bit first, with the polynomial 04C11DB7h, and complemented. -/
def Obligations.RecordReadsBack : Prop :=
  (∀ bytes : List Byte, crc32 bytes = ~~~ ((bytes.flatMap fun b => [7, 6, 5, 4, 3, 2, 1, 0].map b.getLsbD).foldl
    (fun (remainder : BitVec 32) bit => if remainder.getLsbD 31 ≠ bit then (remainder <<< 1) ^^^ 0x04C11DB7#32 else remainder <<< 1)
    0xFFFFFFFF#32)) ∧
  ∀ r : Record,
    (let h := bytesLE 64 (recordHeader r)
     bytesAt h 1 1 = [0] ∧ bytesAt h 2 2 = bytesLE 2 r.runStamp ∧ bytesAt h 4 4 = zeros 4 ∧
     bytesAt h 8 8 = bytesLE 8 r.seq ∧ bytesAt h 16 4 = bytesLE 4 r.checkpoint ∧
     bytesAt h 60 4 = bytesLE 4 (crc32 (bytesAt h 0 60 ++ bytesLE 64 (recordData r))) ∧
     (∀ line n old, r.body = .capture line n old → bytesAt h 0 1 = [1] ∧ bytesAt h 20 4 = bytesLE 4 (line.setWidth 32) ∧
       bytesAt h 24 1 = [BitVec.ofNat 8 n.val] ∧ bytesAt h 25 35 = zeros 35 ∧ recordData r = old) ∧
     (∀ v src previous restart, r.body = .mark v src previous restart → bytesAt h 0 1 = [2] ∧
       bytesAt h 20 8 = bytesLE 8 v ∧
       (src = .management → bytesAt h 28 1 = [0x80]) ∧
       (∀ n, src = .initiator n → bytesAt h 28 1 = [BitVec.ofNat 8 n.val]) ∧
       bytesAt h 29 1 = [if restart then 1 else 0] ∧ bytesAt h 30 2 = zeros 2 ∧
       bytesAt h 32 4 = bytesLE 4 (previous.getD 0xFFFFFFFF#32) ∧ bytesAt h 36 24 = zeros 24 ∧ recordData r = 0) ∧
     (∀ cause, r.body = .brk cause → bytesAt h 0 1 = [3] ∧
       bytesAt h 20 1 = [match cause with
         | .limit => 1
         | .holdTimeout => 2
         | .journalWrite => 3] ∧
       bytesAt h 21 39 = zeros 39 ∧ recordData r = 0)) ∧
    ((∀ v src restart, r.body ≠ .mark v src (some 0xFFFFFFFF#32) restart) →
      checkPasses (recordHeader r) (recordData r) = true ∧ headerRunStamp (recordHeader r) = r.runStamp ∧
      headerSeq (recordHeader r) = r.seq ∧ headerCheckpoint (recordHeader r) = r.checkpoint ∧
      decodeBody (recordHeader r) (recordData r) = some r.body)

/-! ### The walk and the scan -/

/-- A walk's line read completes (R79 to R82, R84): the first of the two is kept, and nothing else happens (that a failed
read waits for the other is the model's reading, log 21); when both have completed, in either order (R134), the record is
tested in the order of R80 and acted on by its kind, or the walk stops with the cause of the first test that fails. -/
def Obligations.UndoReadCompletes : Prop :=
  ∀ (s : State) (tag : DownTag) (k p : Nat) (target : Target) (half : Half) (x h d : ReadResult)
    (header data : LineData), tagState s tag = .inUse (.undoRead k half) → s.ctl.state = .rolling →
    s.rollback.phase = .undo → s.rollback.target = some target → s.rollback.undoPointer = some p →
    let kept := fun pair : PairRead => { s with
      down := { s.down with outstanding := s.down.outstanding.set tag.val .free }
      rollback := { s.rollback with pair := pair } }
    let a := kept { header := some h, data := some d }
    let seq := headerSeq header
    let number := headerCheckpoint header
    let sound := checkPasses header data = true ∧ headerRunStamp header = s.journal.config.runStamp
    let ordered := target.seq < seq ∧ seq < s.rollback.lastUndone.getD s.journal.seq
    let completes := fun t : State => exec (.undoReadCompletion tag x) s = .next t
    let stops := fun cause : WalkCause => ∃ t, completes t ∧ StopsWalk cause p a t
    (half = .header → s.rollback.pair.data = none → completes (kept { s.rollback.pair with header := some x })) ∧
    (half = .data → s.rollback.pair.header = none → completes (kept { s.rollback.pair with data := some x })) ∧
    (CompletesPair s.rollback.pair half x h d → h = .error ∨ d = .error → stops .readError) ∧
    (CompletesPair s.rollback.pair half x h d → h = .ok header → d = .ok data →
      (checkPasses header data = false → stops .check) ∧
      (checkPasses header data = true → headerRunStamp header ≠ s.journal.config.runStamp → stops .runStamp) ∧
      (sound → decodeBody header data = none → stops .kind) ∧
      (∀ body, sound → decodeBody header data = some body → ¬ ordered → stops .order) ∧
      (∀ cause, sound → decodeBody header data = some (.brk cause) → ordered → stops .kind) ∧
      (∀ line n old, sound → decodeBody header data = some (.capture line n old) → ordered →
        (lineGuarded s line = false → stops .kind) ∧
        (lineGuarded s line = true → ∃ out wait,
          Places s.down.outgoing s.rollback.undoWait [wholeWrite line old (.undoWrite p)] out wait ∧
          completes { a with
            down := { a.down with outgoing := out }
            rollback := { a.rollback with current := some seq, undoWait := wait } })) ∧
      (∀ v src prev restart, sound → decodeBody header data = some (.mark v src prev restart) → ordered →
        (s.ctl.checkpoints.any (matchesMark number p seq) = false → stops .kind) ∧
        (s.ctl.checkpoints.any (matchesMark number p seq) = true →
          let done := fun (pair : PairRead) (out wait : List DownEntry) => { a with
            ctl := { s.ctl with checkpoints := s.ctl.checkpoints.filter fun c => !matchesMark number p seq c }
            alerts := { s.alerts with recordsUndone := satInc s.alerts.recordsUndone }
            rollback := { s.rollback with
              undoPointer := some (prevSlot s.journal p), remaining := s.rollback.remaining - 1, lastUndone := some seq
              current := none, pair := pair, undoWait := wait }
            down := { a.down with outgoing := out } }
          let next := nextSlot s.journal target.slot
          (1 < s.rollback.remaining → ∃ out wait,
            Places s.down.outgoing s.rollback.undoWait (undoReads s.journal (prevSlot s.journal p)) out wait ∧
            completes (done { header := none, data := none } out wait)) ∧
          (s.rollback.remaining = 1 → ∃ out wait,
            Places s.down.outgoing s.rollback.undoWait
              [wholeWrite (slotLine s.journal next .header) 0 (.voidWrite next)] out wait ∧
            completes (done { header := some h, data := some d } out wait)))))

/-- An undo write completes (R79, R81, R84): the slot is done, and the slot before it is read, or the slot after the target's
MARK slot is voided when none is left; an error stops the walk. -/
def Obligations.UndoWriteCompletes : Prop :=
  ∀ (s : State) (tag : DownTag) (k p : Nat) (target : Target) (seq : SeqNo), tagState s tag = .inUse (.undoWrite k) →
    s.ctl.state = .rolling → s.rollback.phase = .undo → s.rollback.target = some target →
    s.rollback.undoPointer = some p → s.rollback.current = some seq →
    let freed := s.down.outstanding.set tag.val .free
    let counted := fun (pair : PairRead) (out wait : List DownEntry) => { s with
      alerts := { s.alerts with recordsUndone := satInc s.alerts.recordsUndone }
      rollback := { s.rollback with
        undoPointer := some (prevSlot s.journal p), remaining := s.rollback.remaining - 1, lastUndone := some seq
        current := none, pair := pair, undoWait := wait }
      down := { s.down with outstanding := freed, outgoing := out } }
    let next := nextSlot s.journal target.slot
    (∃ t, exec (.undoWriteCompletion tag true) s = .next t ∧
      StopsWalk .writeError p { s with down := { s.down with outstanding := freed } } t) ∧
    (1 < s.rollback.remaining → ∃ out wait,
      Places s.down.outgoing s.rollback.undoWait (undoReads s.journal (prevSlot s.journal p)) out wait ∧
      exec (.undoWriteCompletion tag false) s = .next (counted { header := none, data := none } out wait)) ∧
    (s.rollback.remaining = 1 → ∃ out wait,
      Places s.down.outgoing s.rollback.undoWait
        [wholeWrite (slotLine s.journal next .header) 0 (.voidWrite next)] out wait ∧
      exec (.undoWriteCompletion tag false) s = .next (counted s.rollback.pair out wait))

/-- The void write completes and the rollback settles (R19, R79, R83, R88): the journal is truncated, the target's
epoch is open and INTACT, the state ARMED, ADOPTABLE set unless the void write failed, ROLLBACK_DONE latched, and
RBACK raised where the acknowledge mark is set and FLTREQ is high. That the occupancy a truncation leaves is compared
with the pace mark is the model's reading (log 13). -/
def Obligations.RollbackSettles : Prop :=
  ∀ (s : State) (tag : DownTag) (k : Nat) (target : Target) (error : Bool), tagState s tag = .inUse (.voidWrite k) →
    s.ctl.state = .rolling → s.rollback.phase = .undo → s.rollback.target = some target →
    ∃ t, exec (.voidWriteCompletion tag error) s = .next t ∧
      Settles target error { s with down := { s.down with outstanding := s.down.outstanding.set tag.val .free } } t

/-- A scan's line read completes: the first of the two is kept (log 21); when both have completed, in either order (R134),
the anchor or the next record is accepted, which applies it to the working list by kind and reads the next slot (R95 to
R100), or the scan ends: NO_ANCHOR at a slot that is no anchor, and NO_CHECKPOINT for a read error or a foreign line (R95,
R101 to R104). A read of an earlier scan has no effect (R106). That the working items go at the scan's end, and a failed
void write is forgotten, is the model's reading (log 23, log 27); the number of a scan is its own (log 18). -/
def Obligations.ScanReadCompletes : Prop :=
  countNewest [] = [] ∧
  (∀ older c, countNewest (older ++ [c]) = older ++ [{ c with captures := satInc c.captures }]) ∧
  ∀ (s : State) (tag : DownTag) (run p : Nat) (half : Half) (x h d : ReadResult),
    tagState s tag = .inUse (.scanRead run p half) →
    let next := nextSlot s.journal p
    let freed := s.down.outstanding.set tag.val .free
    let completes := fun t : State => exec (.scanReadCompletion tag x) s = .next (finishScan t)
    let kept := fun pair : PairRead => completes { s with
      down := { s.down with outstanding := freed }, scan := { s.scan with pair := pair } }
    let ends := fun (result : ScanResult) (cause : ScanCause) => completes { emptied s with
      scan := { s.scan with
        result := result, endCause := cause, endSlot := some p, lastSlot := none, lastSeq := none, segment := none
        working := [], segBreak := none, pair := { header := none, data := none }, scanWait := [] }
      down := { s.down with outstanding := freed }
      alerts := { s.alerts with latches := s.alerts.latches ||| 0x100#12 } }
    let accepts := fun (seq : SeqNo) (number : CheckpointNo) (body : RecordBody) =>
      ∃ working segment brk dropped out wait, AcceptsRecord s p seq number body working segment brk dropped ∧
        Places s.down.outgoing s.scan.scanWait (scanReads s.journal s.scan.run next) out wait ∧
        completes { s with
          scan := { s.scan with
            lastSlot := some p, lastSeq := some seq, scanned := s.scan.scanned + 1, pointer := some next
            working := working, segment := segment, segBreak := brk, dropped := dropped
            pair := { header := none, data := none }, scanWait := wait }
          down := { s.down with outstanding := freed, outgoing := out } }
    (s.ctl.state ≠ .adopting ∨ run ≠ s.scan.run → kept s.scan.pair) ∧
    (s.ctl.state = .adopting → run = s.scan.run →
      (half = .header → s.scan.pair.data = none → kept { s.scan.pair with header := some x }) ∧
      (half = .data → s.scan.pair.header = none → kept { s.scan.pair with data := some x }) ∧
      (CompletesPair s.scan.pair half x h d → h = .error ∨ d = .error →
        (s.scan.scanned = 0 → ends .noAnchor .readError) ∧ (s.scan.scanned ≠ 0 → ends .noCheckpoint .readError)) ∧
      (∀ header data, CompletesPair s.scan.pair half x h d → h = .ok header → d = .ok data →
        let seq := headerSeq header
        let number := headerCheckpoint header
        let sound := checkPasses header data = true ∧ headerRunStamp header = s.journal.config.runStamp
        (s.scan.scanned = 0 →
          (checkPasses header data = false → ends .noAnchor .check) ∧
          (checkPasses header data = true → headerRunStamp header ≠ s.journal.config.runStamp →
            ends .noAnchor .runStamp) ∧
          (sound → decodeBody header data = none → ends .noAnchor .kind) ∧
          (∀ body, sound → decodeBody header data = some body → ¬ IsMark body → ends .noAnchor .kind) ∧
          (∀ body, sound → decodeBody header data = some body → IsMark body → s.scan.start ≠ some next →
            accepts seq number body)) ∧
        (∀ last segment body, s.scan.scanned ≠ 0 → s.scan.lastSeq = some last → s.scan.segment = some segment → sound →
          decodeBody header data = some body → last < seq → EpochFits segment number body →
          (∀ line n old, body = .capture line n old → lineGuarded s line = false → ends .noCheckpoint .foreignLine) ∧
          ((∀ line n old, body = .capture line n old → lineGuarded s line = true) → s.scan.start ≠ some next →
            accepts seq number body))))

/-- A scan that stops beyond the last good record ends ADOPTED, whether the stop's cause is CHECK, RUN_STAMP, KIND, ORDER,
EPOCH or, where the pointer returns to the start slot, WRAPPED: the journal, the counters, the list and the condition are
set from what was accepted (R96, R97, R101, R102); a counter stops at its largest value (00_scope.md, Conventions). That the working items
go at the scan's end, and a failed void write is forgotten, is the model's reading (log 23, log 27), and so is the
pointer of a scan that has wrapped (log 14). -/
def Obligations.ScanEndsAdopted : Prop :=
  ∀ (s : State) (tag : DownTag) (p : Nat) (half : Half) (x : ReadResult) (header data : LineData) (last : SeqNo)
    (segment : CheckpointNo), tagState s tag = .inUse (.scanRead s.scan.run p half) → s.ctl.state = .adopting →
    s.scan.scanned ≠ 0 → s.scan.lastSeq = some last → s.scan.segment = some segment →
    CompletesPair s.scan.pair half x (.ok header) (.ok data) →
    let a := { s with down := { s.down with outstanding := s.down.outstanding.set tag.val .free } }
    let seq := headerSeq header
    let number := headerCheckpoint header
    let next := nextSlot s.journal p
    let sound := checkPasses header data = true ∧ headerRunStamp header = s.journal.config.runStamp
    let adopts := fun (cause : ScanCause) (endSlot : Nat) (u : State) => ∀ lastSlot lastSeq number oldest newest head,
      u.scan.lastSlot = some lastSlot → u.scan.lastSeq = some lastSeq → u.scan.segment = some number →
      u.scan.working.head? = some oldest → u.scan.working.getLast? = some newest → oldest.markSlot = some head →
      ∃ t, exec (.scanReadCompletion tag x) s = .next (finishScan t) ∧
        EndsAdopted cause endSlot lastSlot lastSeq number newest head u t
    (checkPasses header data = false → adopts .check p a) ∧
    (checkPasses header data = true → headerRunStamp header ≠ s.journal.config.runStamp → adopts .runStamp p a) ∧
    (sound → decodeBody header data = none → adopts .kind p a) ∧
    (∀ body, sound → decodeBody header data = some body → ¬ last < seq → adopts .order p a) ∧
    (∀ body, sound → decodeBody header data = some body → last < seq → ¬ EpochFits segment number body →
      adopts .epoch p a) ∧
    (∀ body, sound → decodeBody header data = some body → last < seq → EpochFits segment number body →
      (∀ line n old, body = .capture line n old → lineGuarded s line = true) → s.scan.start = some next →
      ∃ working seg brk dropped, AcceptsRecord s p seq number body working seg brk dropped ∧
        adopts .wrapped next { a with scan := { s.scan with
          lastSlot := some p, lastSeq := some seq, scanned := s.scan.scanned + 1, pointer := some next
          working := working, segment := seg, segBreak := brk, dropped := dropped } })

/-! ### Requests that waited -/

/-- A request that waited for room enters the outgoing queue when there is room for it, in its source's order; a journal pair
needs two places; where there is no room nothing changes (R14, R35, R79, R96, R132). -/
def Obligations.WaitingRequestsEnter : Prop :=
  ∀ s : State,
    let out := fun (l : List DownEntry) => { s.down with outgoing := s.down.outgoing ++ l }
    let places := s.down.outgoing.length
    (∀ id rest e, s.capture.forwardWait = id :: rest → entryOf s id = some e → places < 32 →
      exec .forwardedWriteQueued s = .next { s with
        capture := { s.capture with forwardWait := rest }
        down := out [⟨⟨e.line, .write e.mask e.data⟩, .forwarded e.id⟩] }) ∧
    (∀ header data rest, s.journal.writeWait = (header, data) :: rest → places + 2 ≤ 32 →
      exec .journalWritesQueued s = .next { s with
        journal := { s.journal with writeWait := rest }, down := out [header, data] }) ∧
    (∀ e rest, s.rollback.undoWait = e :: rest → places < 32 → exec .undoRequestQueued s = .next { s with
      rollback := { s.rollback with undoWait := rest }, down := out [e] }) ∧
    (∀ e rest, s.scan.scanWait = e :: rest → places < 32 → exec .scanReadQueued s = .next { s with
      scan := { s.scan with scanWait := rest }, down := out [e] }) ∧
    (32 ≤ places → exec .forwardedWriteQueued s = .next s ∧ exec .undoRequestQueued s = .next s ∧
      exec .scanReadQueued s = .next s) ∧
    (31 ≤ places → exec .journalWritesQueued s = .next s)

/-- An allocation request waits where a forgotten slot's writes are outstanding at the tail, or behind a request that waits
(R13; log 10): here the MARK request of a pending mark, and the CAPTURE request of the entry at the front of the space wait
list (R41, R60); CaptureLimitReached says it of an entry that asks, and AsksBreak of a BREAK request. Allocations that waited
are judged once the tail's slot has no line writes outstanding (R13); here a CAPTURE, a MARK or a BREAK record that waited
alone is written. While the slot is blocked nothing changes, and nothing where no request waits (the model's choice, log 2);
that a forgotten slot blocks by its number is the model's choice (log 34). The near-full test of the occupancy a trailing head
leaves is its reading (log 13). -/
def Obligations.WaitingAllocationJudged : Prop :=
  ∀ s : State,
    (∀ c, s.capture.spaceWait = [] → pendingEntry s = some c → c.markSlot = none → AllocRequest.mark ∉ s.journal.allocWait →
      (∀ epoch, s.capture.closing = some epoch → ∀ e ∈ s.capture.entries, e.epoch = epoch → e.early = false) →
      MustWait s → finish s = finish { s with journal := { s.journal with allocWait := s.journal.allocWait ++ [.mark] } }) ∧
    (∀ id rest, s.capture.spaceWait = id :: rest → AllocRequest.capture id ∉ s.journal.allocWait →
      s.journal.occupancy < captureLimit s.journal → MustWait s →
      finish s = finish { s with journal := { s.journal with allocWait := s.journal.allocWait ++ [.capture id] } }) ∧
    (tailBlocked s.journal = true → exec .allocationWaitEnd s = .next s) ∧
    (s.journal.allocWait = [] → exec .allocationWaitEnd s = .next s) ∧
    (∀ epoch cause, s.journal.allocWait = [.brk epoch cause] →
      let a := { s with journal := { s.journal with allocWait := [] } }
      CanWrite a → s.journal.occupancy < s.journal.config.slots →
      exec .allocationWaitEnd s = .next (finish (withRecord .brk epoch (.brk cause) a))) ∧
    (∀ id e, s.journal.allocWait = [.capture id] → entryOf s id = some e → e.early = true →
      let a := { s with journal := { s.journal with allocWait := [] } }
      CanWrite a → s.journal.occupancy < captureLimit s.journal →
      exec .allocationWaitEnd s = .next (finish (withCapture e a))) ∧
    (∀ c p, s.journal.allocWait = [.mark] → pendingEntry s = some c → s.ctl.pendingMark = some p →
      (∀ e ∈ s.capture.entries, e.state ≠ .awaitMark) →
      let a := { s with journal := { s.journal with allocWait := [] } }
      CanWrite a → s.journal.occupancy < s.journal.config.slots →
      exec .allocationWaitEnd s = .next (finish (trailed (withMark c p a))))

/-! ### Timers and lines -/

/-- The hold timer's expiry is a break with cause HOLD_TIMEOUT: of the closing epoch where there is one, whose pending mark then
becomes a restart, and else of the open epoch; against an epoch that has broken already it is not taken (R18, R43 to R46,
R59). The pacing measurement's step makes the interval count as elapsed; the epoch age timer's expiry sets the stale flag and
latches STALE_EPOCH (R38, R65, R146). A row whose timer does not stand one step before its value changes nothing (log 2). The
order in which several entries forward in one event, and the place of a BREAK request that waits, are the model's choices
(log 19, log 10); the place of a break without a record, and the near-full test of the occupancy a trailing head leaves, are
its readings (log 24, log 13). -/
def Obligations.TimerRows : Prop :=
  ∀ s : State,
    let due := s.capture.hold.running = true ∧ frozen s 0 = false ∧
      s.capture.hold.timeout * 1000 ≤ s.capture.hold.count + 1
    let ageDue := s.ctl.age.running = true ∧ frozen s 2 = false ∧ s.ctl.age.limit ≠ 0 ∧ s.ctl.age.stale = false ∧
      s.ctl.age.limit * 1000 ≤ s.ctl.age.count + 1
    let expired := { s with capture := { s.capture with hold := { s.capture.hold with count := s.capture.hold.count + 1 } } }
    let reaches := fun t : State => exec .holdTimerExpiry s = .next (finish t)
    (due → EntriesDistinct s → s.ctl.state = .armed → s.capture.closing = none → s.ctl.condition ≠ .broken →
      ∀ epoch, s.ctl.openEpoch = some epoch → ∃ t, BreaksOpen epoch .holdTimeout expired t ∧ reaches t) ∧
    (due → EntriesDistinct s → s.ctl.state = .armed → s.capture.closingBroken = false →
      ∀ epoch, s.capture.closing = some epoch → ∃ t, BreaksClosing epoch .holdTimeout expired t ∧ reaches t) ∧
    (due → BreakNotTaken s → reaches expired) ∧
    (¬ due → exec .holdTimerExpiry s = .next s) ∧
    (∀ n, s.capture.pacing = some n → frozen s 1 = false → n + 1 = s.journal.config.pacingInterval →
      ∃ t, exec .pacingIntervalElapsed s = .next t ∧ pacingElapsed t = true ∧
        t = { s with capture := { s.capture with pacing := some (n + 1) } }) ∧
    (s.capture.pacing = none ∨ frozen s 1 = true ∨ (∃ n, s.capture.pacing = some n ∧ n + 1 ≠ s.journal.config.pacingInterval) →
      exec .pacingIntervalElapsed s = .next s) ∧
    (ageDue → exec .epochAgeTimerExpiry s = .next { s with
      ctl := { s.ctl with age := { s.ctl.age with count := s.ctl.age.count + 1, stale := true } }
      alerts := { s.alerts with latches := s.alerts.latches ||| 0x800#12 } }) ∧
    (¬ ageDue → exec .epochAgeTimerExpiry s = .next s)

/-- A rising edge on FLTREQ by state and phase (R71, R73, R74, R75); the event then ends. An edge in ARMED becomes the pending
line request while a mark is pending or a ROLLBACK command waits (R71). No edge is seen while the unit is held in reset or the
level is high already (that the row then changes nothing is the model's choice, log 2). The order in which the cancelled
entries are answered is the model's choice (log 19). -/
def Obligations.FltreqEdgeJudged : Prop :=
  ∀ s : State,
    let a := { s with rollback := { s.rollback with fltreq := true } }
    let rises := fun t : State => exec .fltreqRisingEdge s = .next (finish t)
    let refused := fun reason : LineRefusal => rises { s with
      rollback := { s.rollback with fltreq := true, pendingLine := false, lastRefusal := some reason }
      alerts := { s.alerts with latches := s.alerts.latches ||| 0x080#12 } }
    let absorbed := { s.alerts with absorbed := satInc s.alerts.absorbed }
    let waits := { s with rollback := { s.rollback with fltreq := true, pendingLine := true } }
    (held s = true ∨ s.rollback.fltreq = true → exec .fltreqRisingEdge s = .next s) ∧
    (held s = false → s.rollback.fltreq = false →
      (s.ctl.state = .unarmed → refused .noCheckpoint) ∧ (s.ctl.state = .failed → refused .state) ∧
      (s.ctl.state = .rolling → rises { s with
        rollback := { s.rollback with fltreq := true, pendingLine := false, ackMark := true }, alerts := absorbed }) ∧
      (s.ctl.state = .armed ∨ s.ctl.state = .adopting → s.rollback.pendingLine = true →
        rises { a with alerts := absorbed }) ∧
      (s.ctl.state = .adopting → s.rollback.pendingLine = false → rises waits) ∧
      (s.ctl.state = .armed → s.rollback.pendingLine = false →
        (hasPending s = true ∨ (∃ d, s.port.slot = .executing (.rollback d)) → rises waits) ∧
        (hasPending s = false → (∀ d, s.port.slot ≠ .executing (.rollback d)) → s.ctl.condition = .broken →
          refused .broken) ∧
        (∀ c, hasPending s = false → (∀ d, s.port.slot ≠ .executing (.rollback d)) → s.ctl.condition ≠ .broken →
          s.ctl.checkpoints.getLast? = some c → ∃ t, rises t ∧ StartsRollback .line c a t)))

/-- FLTREQ's fall lowers RBACK and withdraws nothing; FRZ's changes are seen; neither while the unit is held in reset (R71,
R88, R147, R149). -/
def Obligations.LevelChanges : Prop :=
  ∀ s : State,
    (held s = true → exec .fltreqFall s = .next s ∧ exec .frzRise s = .next s ∧ exec .frzFall s = .next s) ∧
    (held s = false →
      exec .fltreqFall s = .next { s with
        rollback := { s.rollback with fltreq := false }, lines := { s.lines with rback := false } } ∧
      exec .frzRise s = .next { s with alerts := { s.alerts with frz := true } } ∧
      exec .frzFall s = .next { s with alerts := { s.alerts with frz := false } })
end

