-- ==== Sys2Proof/Laws/State.lean ====
section
/-! SUPPORT. What each update of State does to each block: one lemma for each block, true by definition, so that no later
proof unfolds a record update. -/

namespace Sys2Proof.Machine

section latchLaws

variable (c : AlertCause) (s : State)

@[simp] theorem latch_journal : (latch c s).journal = s.journal := rfl
@[simp] theorem latch_capture : (latch c s).capture = s.capture := rfl
@[simp] theorem latch_ctl : (latch c s).ctl = s.ctl := rfl
@[simp] theorem latch_rollback : (latch c s).rollback = s.rollback := rfl
@[simp] theorem latch_scan : (latch c s).scan = s.scan := rfl
@[simp] theorem latch_cls : (latch c s).cls = s.cls := rfl
@[simp] theorem latch_up : (latch c s).up = s.up := rfl
@[simp] theorem latch_down : (latch c s).down = s.down := rfl
@[simp] theorem latch_alerts : (latch c s).alerts = { s.alerts with latches := s.alerts.latches ||| alertBit c } := rfl
@[simp] theorem latch_port : (latch c s).port = s.port := rfl
@[simp] theorem latch_lines : (latch c s).lines = s.lines := rfl
@[simp] theorem latch_pending : (latch c s).pending = s.pending := rfl
@[simp] theorem latch_free : (latch c s).free = s.free := rfl

end latchLaws

section countDataErrorLaws

variable (s : State)

@[simp] theorem countDataError_journal : (countDataError s).journal = s.journal := rfl
@[simp] theorem countDataError_capture : (countDataError s).capture = s.capture := rfl
@[simp] theorem countDataError_ctl : (countDataError s).ctl = s.ctl := rfl
@[simp] theorem countDataError_rollback : (countDataError s).rollback = s.rollback := rfl
@[simp] theorem countDataError_scan : (countDataError s).scan = s.scan := rfl
@[simp] theorem countDataError_cls : (countDataError s).cls = s.cls := rfl
@[simp] theorem countDataError_up : (countDataError s).up = s.up := rfl
@[simp] theorem countDataError_down : (countDataError s).down = s.down := rfl
@[simp] theorem countDataError_alerts :
    (countDataError s).alerts =
      { s.alerts with dataErrors := satInc s.alerts.dataErrors, latches := s.alerts.latches ||| alertBit .dataError } := rfl
@[simp] theorem countDataError_port : (countDataError s).port = s.port := rfl
@[simp] theorem countDataError_lines : (countDataError s).lines = s.lines := rfl
@[simp] theorem countDataError_pending : (countDataError s).pending = s.pending := rfl
@[simp] theorem countDataError_free : (countDataError s).free = s.free := rfl

end countDataErrorLaws

section countAbsorbedLaws

variable (s : State)

@[simp] theorem countAbsorbed_journal : (countAbsorbed s).journal = s.journal := rfl
@[simp] theorem countAbsorbed_capture : (countAbsorbed s).capture = s.capture := rfl
@[simp] theorem countAbsorbed_ctl : (countAbsorbed s).ctl = s.ctl := rfl
@[simp] theorem countAbsorbed_rollback : (countAbsorbed s).rollback = s.rollback := rfl
@[simp] theorem countAbsorbed_scan : (countAbsorbed s).scan = s.scan := rfl
@[simp] theorem countAbsorbed_cls : (countAbsorbed s).cls = s.cls := rfl
@[simp] theorem countAbsorbed_up : (countAbsorbed s).up = s.up := rfl
@[simp] theorem countAbsorbed_down : (countAbsorbed s).down = s.down := rfl
@[simp] theorem countAbsorbed_alerts :
    (countAbsorbed s).alerts =
      { s.alerts with absorbed := satInc s.alerts.absorbed } := rfl
@[simp] theorem countAbsorbed_port : (countAbsorbed s).port = s.port := rfl
@[simp] theorem countAbsorbed_lines : (countAbsorbed s).lines = s.lines := rfl
@[simp] theorem countAbsorbed_pending : (countAbsorbed s).pending = s.pending := rfl
@[simp] theorem countAbsorbed_free : (countAbsorbed s).free = s.free := rfl

end countAbsorbedLaws

section countCaptureWrittenLaws

variable (s : State)

@[simp] theorem countCaptureWritten_journal : (countCaptureWritten s).journal = s.journal := rfl
@[simp] theorem countCaptureWritten_capture : (countCaptureWritten s).capture = s.capture := rfl
@[simp] theorem countCaptureWritten_ctl : (countCaptureWritten s).ctl = s.ctl := rfl
@[simp] theorem countCaptureWritten_rollback : (countCaptureWritten s).rollback = s.rollback := rfl
@[simp] theorem countCaptureWritten_scan : (countCaptureWritten s).scan = s.scan := rfl
@[simp] theorem countCaptureWritten_cls : (countCaptureWritten s).cls = s.cls := rfl
@[simp] theorem countCaptureWritten_up : (countCaptureWritten s).up = s.up := rfl
@[simp] theorem countCaptureWritten_down : (countCaptureWritten s).down = s.down := rfl
@[simp] theorem countCaptureWritten_alerts :
    (countCaptureWritten s).alerts =
      { s.alerts with capturesWritten := satInc s.alerts.capturesWritten } := rfl
@[simp] theorem countCaptureWritten_port : (countCaptureWritten s).port = s.port := rfl
@[simp] theorem countCaptureWritten_lines : (countCaptureWritten s).lines = s.lines := rfl
@[simp] theorem countCaptureWritten_pending : (countCaptureWritten s).pending = s.pending := rfl
@[simp] theorem countCaptureWritten_free : (countCaptureWritten s).free = s.free := rfl

end countCaptureWrittenLaws

section setUnrecordedLaws

variable (a : SeqNo) (s : State)

@[simp] theorem setUnrecorded_journal : (setUnrecorded a s).journal = s.journal := rfl
@[simp] theorem setUnrecorded_capture : (setUnrecorded a s).capture = s.capture := rfl
@[simp] theorem setUnrecorded_ctl : (setUnrecorded a s).ctl = s.ctl := rfl
@[simp] theorem setUnrecorded_rollback : (setUnrecorded a s).rollback = s.rollback := rfl
@[simp] theorem setUnrecorded_scan : (setUnrecorded a s).scan = s.scan := rfl
@[simp] theorem setUnrecorded_cls : (setUnrecorded a s).cls = s.cls := rfl
@[simp] theorem setUnrecorded_up : (setUnrecorded a s).up = s.up := rfl
@[simp] theorem setUnrecorded_down : (setUnrecorded a s).down = s.down := rfl
@[simp] theorem setUnrecorded_port : (setUnrecorded a s).port = s.port := rfl
@[simp] theorem setUnrecorded_lines : (setUnrecorded a s).lines = s.lines := rfl
@[simp] theorem setUnrecorded_pending : (setUnrecorded a s).pending = s.pending := rfl
@[simp] theorem setUnrecorded_free : (setUnrecorded a s).free = s.free := rfl

end setUnrecordedLaws

section enqueueLaws

variable (e : DownEntry) (s : State)

@[simp] theorem enqueue_journal : (enqueue e s).journal = s.journal := rfl
@[simp] theorem enqueue_capture : (enqueue e s).capture = s.capture := rfl
@[simp] theorem enqueue_ctl : (enqueue e s).ctl = s.ctl := rfl
@[simp] theorem enqueue_rollback : (enqueue e s).rollback = s.rollback := rfl
@[simp] theorem enqueue_scan : (enqueue e s).scan = s.scan := rfl
@[simp] theorem enqueue_cls : (enqueue e s).cls = s.cls := rfl
@[simp] theorem enqueue_up : (enqueue e s).up = s.up := rfl
@[simp] theorem enqueue_down : (enqueue e s).down = { s.down with outgoing := s.down.outgoing ++ [e] } := rfl
@[simp] theorem enqueue_alerts : (enqueue e s).alerts = s.alerts := rfl
@[simp] theorem enqueue_port : (enqueue e s).port = s.port := rfl
@[simp] theorem enqueue_lines : (enqueue e s).lines = s.lines := rfl
@[simp] theorem enqueue_pending : (enqueue e s).pending = s.pending := rfl
@[simp] theorem enqueue_free : (enqueue e s).free = s.free := rfl

end enqueueLaws

section setTagLaws

variable (tag : DownTag) (x : TagState) (s : State)

@[simp] theorem setTag_journal : (setTag tag x s).journal = s.journal := rfl
@[simp] theorem setTag_capture : (setTag tag x s).capture = s.capture := rfl
@[simp] theorem setTag_ctl : (setTag tag x s).ctl = s.ctl := rfl
@[simp] theorem setTag_rollback : (setTag tag x s).rollback = s.rollback := rfl
@[simp] theorem setTag_scan : (setTag tag x s).scan = s.scan := rfl
@[simp] theorem setTag_cls : (setTag tag x s).cls = s.cls := rfl
@[simp] theorem setTag_up : (setTag tag x s).up = s.up := rfl
@[simp] theorem setTag_down :
    (setTag tag x s).down =
      { s.down with outstanding := s.down.outstanding.set tag.val x } := rfl
@[simp] theorem setTag_alerts : (setTag tag x s).alerts = s.alerts := rfl
@[simp] theorem setTag_port : (setTag tag x s).port = s.port := rfl
@[simp] theorem setTag_lines : (setTag tag x s).lines = s.lines := rfl
@[simp] theorem setTag_pending : (setTag tag x s).pending = s.pending := rfl
@[simp] theorem setTag_free : (setTag tag x s).free = s.free := rfl

end setTagLaws

section deliverLaws

variable (n : Fin 8) (tag : Byte) (k : ResponseKind) (s : State)

@[simp] theorem deliver_journal : (deliver n tag k s).journal = s.journal := rfl
@[simp] theorem deliver_capture : (deliver n tag k s).capture = s.capture := rfl
@[simp] theorem deliver_ctl : (deliver n tag k s).ctl = s.ctl := rfl
@[simp] theorem deliver_rollback : (deliver n tag k s).rollback = s.rollback := rfl
@[simp] theorem deliver_scan : (deliver n tag k s).scan = s.scan := rfl
@[simp] theorem deliver_cls : (deliver n tag k s).cls = s.cls := rfl
@[simp] theorem deliver_up : (deliver n tag k s).up = { s.up with delivered := s.up.delivered ++ [⟨n, tag, k⟩] } := rfl
@[simp] theorem deliver_down : (deliver n tag k s).down = s.down := rfl
@[simp] theorem deliver_alerts : (deliver n tag k s).alerts = s.alerts := rfl
@[simp] theorem deliver_port : (deliver n tag k s).port = s.port := rfl
@[simp] theorem deliver_lines : (deliver n tag k s).lines = s.lines := rfl
@[simp] theorem deliver_pending : (deliver n tag k s).pending = s.pending := rfl
@[simp] theorem deliver_free : (deliver n tag k s).free = s.free := rfl

end deliverLaws

section respondLaws

variable (st : Status) (echo : Byte) (data : List Byte) (s : State)

@[simp] theorem respond_journal : (respond st echo data s).journal = s.journal := rfl
@[simp] theorem respond_capture : (respond st echo data s).capture = s.capture := rfl
@[simp] theorem respond_ctl : (respond st echo data s).ctl = s.ctl := rfl
@[simp] theorem respond_rollback : (respond st echo data s).rollback = s.rollback := rfl
@[simp] theorem respond_scan : (respond st echo data s).scan = s.scan := rfl
@[simp] theorem respond_cls : (respond st echo data s).cls = s.cls := rfl
@[simp] theorem respond_up : (respond st echo data s).up = s.up := rfl
@[simp] theorem respond_down : (respond st echo data s).down = s.down := rfl
@[simp] theorem respond_alerts : (respond st echo data s).alerts = s.alerts := rfl
@[simp] theorem respond_port : (respond st echo data s).port = { s.port with slot := .done ⟨st, echo, data⟩ } := rfl
@[simp] theorem respond_lines : (respond st echo data s).lines = s.lines := rfl
@[simp] theorem respond_pending : (respond st echo data s).pending = s.pending := rfl
@[simp] theorem respond_free : (respond st echo data s).free = s.free := rfl

end respondLaws

section keepExecutingLaws

variable (c : SlotCommand) (s : State)

@[simp] theorem keepExecuting_journal : (keepExecuting c s).journal = s.journal := rfl
@[simp] theorem keepExecuting_capture : (keepExecuting c s).capture = s.capture := rfl
@[simp] theorem keepExecuting_ctl : (keepExecuting c s).ctl = s.ctl := rfl
@[simp] theorem keepExecuting_rollback : (keepExecuting c s).rollback = s.rollback := rfl
@[simp] theorem keepExecuting_scan : (keepExecuting c s).scan = s.scan := rfl
@[simp] theorem keepExecuting_cls : (keepExecuting c s).cls = s.cls := rfl
@[simp] theorem keepExecuting_up : (keepExecuting c s).up = s.up := rfl
@[simp] theorem keepExecuting_down : (keepExecuting c s).down = s.down := rfl
@[simp] theorem keepExecuting_alerts : (keepExecuting c s).alerts = s.alerts := rfl
@[simp] theorem keepExecuting_port : (keepExecuting c s).port = { s.port with slot := .executing c } := rfl
@[simp] theorem keepExecuting_lines : (keepExecuting c s).lines = s.lines := rfl
@[simp] theorem keepExecuting_pending : (keepExecuting c s).pending = s.pending := rfl
@[simp] theorem keepExecuting_free : (keepExecuting c s).free = s.free := rfl

end keepExecutingLaws

section updateEntryLaws

variable (id : Nat) (f : CaptureEntry → CaptureEntry) (s : State)

@[simp] theorem updateEntry_journal : (updateEntry id f s).journal = s.journal := rfl
@[simp] theorem updateEntry_capture :
    (updateEntry id f s).capture =
      { s.capture with entries := s.capture.entries.map fun e => if e.id == id then f e else e } := rfl
@[simp] theorem updateEntry_ctl : (updateEntry id f s).ctl = s.ctl := rfl
@[simp] theorem updateEntry_rollback : (updateEntry id f s).rollback = s.rollback := rfl
@[simp] theorem updateEntry_scan : (updateEntry id f s).scan = s.scan := rfl
@[simp] theorem updateEntry_cls : (updateEntry id f s).cls = s.cls := rfl
@[simp] theorem updateEntry_up : (updateEntry id f s).up = s.up := rfl
@[simp] theorem updateEntry_down : (updateEntry id f s).down = s.down := rfl
@[simp] theorem updateEntry_alerts : (updateEntry id f s).alerts = s.alerts := rfl
@[simp] theorem updateEntry_port : (updateEntry id f s).port = s.port := rfl
@[simp] theorem updateEntry_lines : (updateEntry id f s).lines = s.lines := rfl
@[simp] theorem updateEntry_pending : (updateEntry id f s).pending = s.pending := rfl
@[simp] theorem updateEntry_free : (updateEntry id f s).free = s.free := rfl

end updateEntryLaws

section freeEntryLaws

variable (id : Nat) (s : State)

@[simp] theorem freeEntry_journal : (freeEntry id s).journal = s.journal := rfl
@[simp] theorem freeEntry_capture :
    (freeEntry id s).capture =
      { s.capture with entries := s.capture.entries.filter fun e => e.id != id } := rfl
@[simp] theorem freeEntry_ctl : (freeEntry id s).ctl = s.ctl := rfl
@[simp] theorem freeEntry_rollback : (freeEntry id s).rollback = s.rollback := rfl
@[simp] theorem freeEntry_scan : (freeEntry id s).scan = s.scan := rfl
@[simp] theorem freeEntry_cls : (freeEntry id s).cls = s.cls := rfl
@[simp] theorem freeEntry_up : (freeEntry id s).up = s.up := rfl
@[simp] theorem freeEntry_down : (freeEntry id s).down = s.down := rfl
@[simp] theorem freeEntry_alerts : (freeEntry id s).alerts = s.alerts := rfl
@[simp] theorem freeEntry_port : (freeEntry id s).port = s.port := rfl
@[simp] theorem freeEntry_lines : (freeEntry id s).lines = s.lines := rfl
@[simp] theorem freeEntry_pending : (freeEntry id s).pending = s.pending := rfl
@[simp] theorem freeEntry_free : (freeEntry id s).free = s.free := rfl

end freeEntryLaws

section stopWaitingLaws

variable (ids : List Nat) (s : State)

@[simp] theorem stopWaiting_capture :
    (stopWaiting ids s).capture =
      { s.capture with spaceWait := s.capture.spaceWait.filter fun id => !ids.contains id } := rfl
@[simp] theorem stopWaiting_ctl : (stopWaiting ids s).ctl = s.ctl := rfl
@[simp] theorem stopWaiting_rollback : (stopWaiting ids s).rollback = s.rollback := rfl
@[simp] theorem stopWaiting_scan : (stopWaiting ids s).scan = s.scan := rfl
@[simp] theorem stopWaiting_cls : (stopWaiting ids s).cls = s.cls := rfl
@[simp] theorem stopWaiting_up : (stopWaiting ids s).up = s.up := rfl
@[simp] theorem stopWaiting_down : (stopWaiting ids s).down = s.down := rfl
@[simp] theorem stopWaiting_alerts : (stopWaiting ids s).alerts = s.alerts := rfl
@[simp] theorem stopWaiting_port : (stopWaiting ids s).port = s.port := rfl
@[simp] theorem stopWaiting_lines : (stopWaiting ids s).lines = s.lines := rfl
@[simp] theorem stopWaiting_pending : (stopWaiting ids s).pending = s.pending := rfl
@[simp] theorem stopWaiting_free : (stopWaiting ids s).free = s.free := rfl

end stopWaitingLaws

section clearFilterLaws

variable (s : State)

@[simp] theorem clearFilter_journal : (clearFilter s).journal = s.journal := rfl
@[simp] theorem clearFilter_capture : (clearFilter s).capture = { s.capture with filter := [] } := rfl
@[simp] theorem clearFilter_ctl : (clearFilter s).ctl = s.ctl := rfl
@[simp] theorem clearFilter_rollback : (clearFilter s).rollback = s.rollback := rfl
@[simp] theorem clearFilter_scan : (clearFilter s).scan = s.scan := rfl
@[simp] theorem clearFilter_cls : (clearFilter s).cls = s.cls := rfl
@[simp] theorem clearFilter_up : (clearFilter s).up = s.up := rfl
@[simp] theorem clearFilter_down : (clearFilter s).down = s.down := rfl
@[simp] theorem clearFilter_alerts : (clearFilter s).alerts = s.alerts := rfl
@[simp] theorem clearFilter_port : (clearFilter s).port = s.port := rfl
@[simp] theorem clearFilter_lines : (clearFilter s).lines = s.lines := rfl
@[simp] theorem clearFilter_pending : (clearFilter s).pending = s.pending := rfl
@[simp] theorem clearFilter_free : (clearFilter s).free = s.free := rfl

end clearFilterLaws

section enterUnarmedLaws

variable (s : State)

@[simp] theorem enterUnarmed_journal : (enterUnarmed s).journal = s.journal := rfl
@[simp] theorem enterUnarmed_capture :
    (enterUnarmed s).capture =
      { s.capture with nearFull := false, closing := none, closingBroken := false } := rfl
@[simp] theorem enterUnarmed_ctl :
    (enterUnarmed s).ctl = { s.ctl with
      state := .unarmed, condition := .intact, openEpoch := none, checkpoints := [], pendingMark := none
      age := { s.ctl.age with running := false, count := 0 } } := rfl
@[simp] theorem enterUnarmed_rollback : (enterUnarmed s).rollback = { s.rollback with phase := .idle } := rfl
@[simp] theorem enterUnarmed_scan : (enterUnarmed s).scan = s.scan := rfl
@[simp] theorem enterUnarmed_cls : (enterUnarmed s).cls = s.cls := rfl
@[simp] theorem enterUnarmed_up : (enterUnarmed s).up = s.up := rfl
@[simp] theorem enterUnarmed_down : (enterUnarmed s).down = s.down := rfl
@[simp] theorem enterUnarmed_alerts : (enterUnarmed s).alerts = s.alerts := rfl
@[simp] theorem enterUnarmed_port : (enterUnarmed s).port = s.port := rfl
@[simp] theorem enterUnarmed_lines : (enterUnarmed s).lines = s.lines := rfl
@[simp] theorem enterUnarmed_pending : (enterUnarmed s).pending = s.pending := rfl
@[simp] theorem enterUnarmed_free : (enterUnarmed s).free = s.free := rfl

end enterUnarmedLaws

section restartAgeLaws

variable (s : State)

@[simp] theorem restartAge_journal : (restartAge s).journal = s.journal := rfl
@[simp] theorem restartAge_capture : (restartAge s).capture = s.capture := rfl
@[simp] theorem restartAge_ctl :
    (restartAge s).ctl =
      { s.ctl with age := { s.ctl.age with running := true, count := 0, stale := false } } := rfl
@[simp] theorem restartAge_rollback : (restartAge s).rollback = s.rollback := rfl
@[simp] theorem restartAge_scan : (restartAge s).scan = s.scan := rfl
@[simp] theorem restartAge_cls : (restartAge s).cls = s.cls := rfl
@[simp] theorem restartAge_up : (restartAge s).up = s.up := rfl
@[simp] theorem restartAge_down : (restartAge s).down = s.down := rfl
@[simp] theorem restartAge_alerts : (restartAge s).alerts = s.alerts := rfl
@[simp] theorem restartAge_port : (restartAge s).port = s.port := rfl
@[simp] theorem restartAge_lines : (restartAge s).lines = s.lines := rfl
@[simp] theorem restartAge_pending : (restartAge s).pending = s.pending := rfl
@[simp] theorem restartAge_free : (restartAge s).free = s.free := rfl

end restartAgeLaws

section countCaptureLaws

variable (n : CheckpointNo) (s : State)

@[simp] theorem countCapture_journal : (countCapture n s).journal = s.journal := rfl
@[simp] theorem countCapture_capture : (countCapture n s).capture = s.capture := rfl
@[simp] theorem countCapture_ctl :
    (countCapture n s).ctl = { s.ctl with checkpoints := s.ctl.checkpoints.map fun c =>
      if c.number == n then { c with captures := satInc c.captures } else c } := rfl
@[simp] theorem countCapture_rollback : (countCapture n s).rollback = s.rollback := rfl
@[simp] theorem countCapture_scan : (countCapture n s).scan = s.scan := rfl
@[simp] theorem countCapture_cls : (countCapture n s).cls = s.cls := rfl
@[simp] theorem countCapture_up : (countCapture n s).up = s.up := rfl
@[simp] theorem countCapture_down : (countCapture n s).down = s.down := rfl
@[simp] theorem countCapture_alerts : (countCapture n s).alerts = s.alerts := rfl
@[simp] theorem countCapture_port : (countCapture n s).port = s.port := rfl
@[simp] theorem countCapture_lines : (countCapture n s).lines = s.lines := rfl
@[simp] theorem countCapture_pending : (countCapture n s).pending = s.pending := rfl
@[simp] theorem countCapture_free : (countCapture n s).free = s.free := rfl

end countCaptureLaws

section refuseLineLaws

variable (r : LineRefusal) (s : State)

@[simp] theorem refuseLine_journal : (refuseLine r s).journal = s.journal := rfl
@[simp] theorem refuseLine_capture : (refuseLine r s).capture = s.capture := rfl
@[simp] theorem refuseLine_ctl : (refuseLine r s).ctl = s.ctl := rfl
@[simp] theorem refuseLine_rollback : (refuseLine r s).rollback = { s.rollback with lastRefusal := some r } := rfl
@[simp] theorem refuseLine_scan : (refuseLine r s).scan = s.scan := rfl
@[simp] theorem refuseLine_cls : (refuseLine r s).cls = s.cls := rfl
@[simp] theorem refuseLine_up : (refuseLine r s).up = s.up := rfl
@[simp] theorem refuseLine_down : (refuseLine r s).down = s.down := rfl
@[simp] theorem refuseLine_alerts :
    (refuseLine r s).alerts =
      { s.alerts with latches := s.alerts.latches ||| alertBit .rollbackRefused } := rfl
@[simp] theorem refuseLine_port : (refuseLine r s).port = s.port := rfl
@[simp] theorem refuseLine_lines : (refuseLine r s).lines = s.lines := rfl
@[simp] theorem refuseLine_pending : (refuseLine r s).pending = s.pending := rfl
@[simp] theorem refuseLine_free : (refuseLine r s).free = s.free := rfl

end refuseLineLaws

section spendCreditLaws

variable (n : Fin 8) (s : State)

@[simp] theorem spendCredit_journal : (spendCredit n s).journal = s.journal := rfl
@[simp] theorem spendCredit_capture : (spendCredit n s).capture = s.capture := rfl
@[simp] theorem spendCredit_ctl : (spendCredit n s).ctl = s.ctl := rfl
@[simp] theorem spendCredit_rollback : (spendCredit n s).rollback = s.rollback := rfl
@[simp] theorem spendCredit_scan : (spendCredit n s).scan = s.scan := rfl
@[simp] theorem spendCredit_cls : (spendCredit n s).cls = s.cls := rfl
@[simp] theorem spendCredit_up :
    (spendCredit n s).up =
      { s.up with credits := s.up.credits.set n.val (s.up.credits[n.val] - 1) } := rfl
@[simp] theorem spendCredit_down : (spendCredit n s).down = s.down := rfl
@[simp] theorem spendCredit_alerts : (spendCredit n s).alerts = s.alerts := rfl
@[simp] theorem spendCredit_port : (spendCredit n s).port = s.port := rfl
@[simp] theorem spendCredit_lines : (spendCredit n s).lines = s.lines := rfl
@[simp] theorem spendCredit_pending : (spendCredit n s).pending = s.pending := rfl
@[simp] theorem spendCredit_free : (spendCredit n s).free = s.free := rfl

end spendCreditLaws

section popIngressLaws

variable (n : Fin 8) (rest : List UpRequest) (s : State)

@[simp] theorem popIngress_journal : (popIngress n rest s).journal = s.journal := rfl
@[simp] theorem popIngress_capture : (popIngress n rest s).capture = s.capture := rfl
@[simp] theorem popIngress_ctl : (popIngress n rest s).ctl = s.ctl := rfl
@[simp] theorem popIngress_rollback : (popIngress n rest s).rollback = s.rollback := rfl
@[simp] theorem popIngress_scan : (popIngress n rest s).scan = s.scan := rfl
@[simp] theorem popIngress_cls : (popIngress n rest s).cls = s.cls := rfl
@[simp] theorem popIngress_up :
    (popIngress n rest s).up = { s.up with
      ingress := s.up.ingress.set n.val rest
      credits := s.up.credits.set n.val (s.up.credits[n.val] + 1)
      position := n } := rfl
@[simp] theorem popIngress_down : (popIngress n rest s).down = s.down := rfl
@[simp] theorem popIngress_alerts : (popIngress n rest s).alerts = s.alerts := rfl
@[simp] theorem popIngress_port : (popIngress n rest s).port = s.port := rfl
@[simp] theorem popIngress_lines : (popIngress n rest s).lines = s.lines := rfl
@[simp] theorem popIngress_pending : (popIngress n rest s).pending = s.pending := rfl
@[simp] theorem popIngress_free : (popIngress n rest s).free = s.free := rfl

end popIngressLaws

section passRequestLaws

variable (r : UpRequest) (g : Bool) (s : State)

@[simp] theorem passRequest_journal : (passRequest r g s).journal = s.journal := rfl
@[simp] theorem passRequest_capture : (passRequest r g s).capture = s.capture := rfl
@[simp] theorem passRequest_ctl : (passRequest r g s).ctl = s.ctl := rfl
@[simp] theorem passRequest_rollback : (passRequest r g s).rollback = s.rollback := rfl
@[simp] theorem passRequest_scan : (passRequest r g s).scan = s.scan := rfl
@[simp] theorem passRequest_cls : (passRequest r g s).cls = s.cls := rfl
@[simp] theorem passRequest_up : (passRequest r g s).up = s.up := rfl
@[simp] theorem passRequest_down :
    (passRequest r g s).down = { s.down with
      outgoing := s.down.outgoing ++ [⟨⟨r.line, r.access⟩, .passed r.initiator r.tag (r.access == .read) g⟩] } := rfl
@[simp] theorem passRequest_alerts : (passRequest r g s).alerts = s.alerts := rfl
@[simp] theorem passRequest_port : (passRequest r g s).port = s.port := rfl
@[simp] theorem passRequest_lines : (passRequest r g s).lines = s.lines := rfl
@[simp] theorem passRequest_pending : (passRequest r g s).pending = s.pending := rfl
@[simp] theorem passRequest_free : (passRequest r g s).free = s.free := rfl

end passRequestLaws

section filterHitWriteLaws

variable (r : UpRequest) (s : State)

@[simp] theorem filterHitWrite_journal : (filterHitWrite r s).journal = s.journal := rfl
@[simp] theorem filterHitWrite_capture : (filterHitWrite r s).capture = s.capture := rfl
@[simp] theorem filterHitWrite_ctl : (filterHitWrite r s).ctl = s.ctl := rfl
@[simp] theorem filterHitWrite_rollback : (filterHitWrite r s).rollback = s.rollback := rfl
@[simp] theorem filterHitWrite_scan : (filterHitWrite r s).scan = s.scan := rfl
@[simp] theorem filterHitWrite_cls : (filterHitWrite r s).cls = s.cls := rfl
@[simp] theorem filterHitWrite_up : (filterHitWrite r s).up = s.up := rfl
@[simp] theorem filterHitWrite_alerts :
    (filterHitWrite r s).alerts =
      { s.alerts with filterHits := satInc s.alerts.filterHits } := rfl
@[simp] theorem filterHitWrite_port : (filterHitWrite r s).port = s.port := rfl
@[simp] theorem filterHitWrite_lines : (filterHitWrite r s).lines = s.lines := rfl
@[simp] theorem filterHitWrite_pending : (filterHitWrite r s).pending = s.pending := rfl
@[simp] theorem filterHitWrite_free : (filterHitWrite r s).free = s.free := rfl

end filterHitWriteLaws

section createEntryLaws

variable (r : UpRequest) (m : ByteMask) (d : LineData) (s : State)

@[simp] theorem createEntry_journal : (createEntry r m d s).journal = s.journal := rfl
@[simp] theorem createEntry_ctl : (createEntry r m d s).ctl = s.ctl := rfl
@[simp] theorem createEntry_rollback : (createEntry r m d s).rollback = s.rollback := rfl
@[simp] theorem createEntry_scan : (createEntry r m d s).scan = s.scan := rfl
@[simp] theorem createEntry_cls : (createEntry r m d s).cls = s.cls := rfl
@[simp] theorem createEntry_up : (createEntry r m d s).up = s.up := rfl
@[simp] theorem createEntry_down :
    (createEntry r m d s).down =
      { s.down with outgoing := s.down.outgoing ++ [readOf r.line (.oldLine s.capture.nextEntry)] } := rfl
@[simp] theorem createEntry_alerts : (createEntry r m d s).alerts = s.alerts := rfl
@[simp] theorem createEntry_port : (createEntry r m d s).port = s.port := rfl
@[simp] theorem createEntry_lines : (createEntry r m d s).lines = s.lines := rfl
@[simp] theorem createEntry_pending : (createEntry r m d s).pending = s.pending := rfl
@[simp] theorem createEntry_free : (createEntry r m d s).free = s.free := rfl

end createEntryLaws

section writeWindowLaws

variable (i : Nat) (w : Window) (s : State)

@[simp] theorem writeWindow_journal : (writeWindow i w s).journal = s.journal := rfl
@[simp] theorem writeWindow_capture : (writeWindow i w s).capture = s.capture := rfl
@[simp] theorem writeWindow_ctl : (writeWindow i w s).ctl = s.ctl := rfl
@[simp] theorem writeWindow_rollback : (writeWindow i w s).rollback = s.rollback := rfl
@[simp] theorem writeWindow_scan : (writeWindow i w s).scan = s.scan := rfl
@[simp] theorem writeWindow_cls :
    (writeWindow i w s).cls =
      { s.cls with windows := s.cls.windows.setIfInBounds i w } := rfl
@[simp] theorem writeWindow_up : (writeWindow i w s).up = s.up := rfl
@[simp] theorem writeWindow_down : (writeWindow i w s).down = s.down := rfl
@[simp] theorem writeWindow_alerts : (writeWindow i w s).alerts = s.alerts := rfl
@[simp] theorem writeWindow_port : (writeWindow i w s).port = s.port := rfl
@[simp] theorem writeWindow_lines : (writeWindow i w s).lines = s.lines := rfl
@[simp] theorem writeWindow_pending : (writeWindow i w s).pending = s.pending := rfl
@[simp] theorem writeWindow_free : (writeWindow i w s).free = s.free := rfl

end writeWindowLaws

section configureJournalLaws

variable (c : JournalConfig) (s : State)

@[simp] theorem configureJournal_journal :
    (configureJournal c s).journal = { s.journal with
      configured := true, config := c, head := 0, commit := 0, tail := 0, occupancy := 0, adoptable := false
      voidFailed := none } := rfl
@[simp] theorem configureJournal_capture : (configureJournal c s).capture = s.capture := rfl
@[simp] theorem configureJournal_ctl : (configureJournal c s).ctl = s.ctl := rfl
@[simp] theorem configureJournal_rollback : (configureJournal c s).rollback = s.rollback := rfl
@[simp] theorem configureJournal_scan : (configureJournal c s).scan = s.scan := rfl
@[simp] theorem configureJournal_cls : (configureJournal c s).cls = s.cls := rfl
@[simp] theorem configureJournal_up : (configureJournal c s).up = s.up := rfl
@[simp] theorem configureJournal_down : (configureJournal c s).down = s.down := rfl
@[simp] theorem configureJournal_alerts : (configureJournal c s).alerts = s.alerts := rfl
@[simp] theorem configureJournal_port : (configureJournal c s).port = s.port := rfl
@[simp] theorem configureJournal_lines : (configureJournal c s).lines = s.lines := rfl
@[simp] theorem configureJournal_pending : (configureJournal c s).pending = s.pending := rfl
@[simp] theorem configureJournal_free : (configureJournal c s).free = s.free := rfl

end configureJournalLaws

section stepPacingLaws

variable (s : State)

@[simp] theorem stepPacing_journal : (stepPacing s).journal = s.journal := rfl
@[simp] theorem stepPacing_capture :
    (stepPacing s).capture =
      { s.capture with pacing := s.capture.pacing.map fun n => n + 1 } := rfl
@[simp] theorem stepPacing_ctl : (stepPacing s).ctl = s.ctl := rfl
@[simp] theorem stepPacing_rollback : (stepPacing s).rollback = s.rollback := rfl
@[simp] theorem stepPacing_scan : (stepPacing s).scan = s.scan := rfl
@[simp] theorem stepPacing_cls : (stepPacing s).cls = s.cls := rfl
@[simp] theorem stepPacing_up : (stepPacing s).up = s.up := rfl
@[simp] theorem stepPacing_down : (stepPacing s).down = s.down := rfl
@[simp] theorem stepPacing_alerts : (stepPacing s).alerts = s.alerts := rfl
@[simp] theorem stepPacing_port : (stepPacing s).port = s.port := rfl
@[simp] theorem stepPacing_lines : (stepPacing s).lines = s.lines := rfl
@[simp] theorem stepPacing_pending : (stepPacing s).pending = s.pending := rfl
@[simp] theorem stepPacing_free : (stepPacing s).free = s.free := rfl

end stepPacingLaws

section stepAgeLaws

variable (s : State)

@[simp] theorem stepAge_journal : (stepAge s).journal = s.journal := rfl
@[simp] theorem stepAge_capture : (stepAge s).capture = s.capture := rfl
@[simp] theorem stepAge_ctl :
    (stepAge s).ctl =
      { s.ctl with age := { s.ctl.age with count := s.ctl.age.count + 1 } } := rfl
@[simp] theorem stepAge_rollback : (stepAge s).rollback = s.rollback := rfl
@[simp] theorem stepAge_scan : (stepAge s).scan = s.scan := rfl
@[simp] theorem stepAge_cls : (stepAge s).cls = s.cls := rfl
@[simp] theorem stepAge_up : (stepAge s).up = s.up := rfl
@[simp] theorem stepAge_down : (stepAge s).down = s.down := rfl
@[simp] theorem stepAge_alerts : (stepAge s).alerts = s.alerts := rfl
@[simp] theorem stepAge_port : (stepAge s).port = s.port := rfl
@[simp] theorem stepAge_lines : (stepAge s).lines = s.lines := rfl
@[simp] theorem stepAge_pending : (stepAge s).pending = s.pending := rfl
@[simp] theorem stepAge_free : (stepAge s).free = s.free := rfl

end stepAgeLaws

section expireAgeLaws

variable (s : State)

@[simp] theorem expireAge_journal : (expireAge s).journal = s.journal := rfl
@[simp] theorem expireAge_capture : (expireAge s).capture = s.capture := rfl
@[simp] theorem expireAge_ctl : (expireAge s).ctl = { s.ctl with age := { s.ctl.age with stale := true } } := rfl
@[simp] theorem expireAge_rollback : (expireAge s).rollback = s.rollback := rfl
@[simp] theorem expireAge_scan : (expireAge s).scan = s.scan := rfl
@[simp] theorem expireAge_cls : (expireAge s).cls = s.cls := rfl
@[simp] theorem expireAge_up : (expireAge s).up = s.up := rfl
@[simp] theorem expireAge_down : (expireAge s).down = s.down := rfl
@[simp] theorem expireAge_alerts :
    (expireAge s).alerts =
      { s.alerts with latches := s.alerts.latches ||| alertBit .staleEpoch } := rfl
@[simp] theorem expireAge_port : (expireAge s).port = s.port := rfl
@[simp] theorem expireAge_lines : (expireAge s).lines = s.lines := rfl
@[simp] theorem expireAge_pending : (expireAge s).pending = s.pending := rfl
@[simp] theorem expireAge_free : (expireAge s).free = s.free := rfl

end expireAgeLaws

section resetBlocksLaws

variable (s : State)

@[simp] theorem resetBlocks_journal : (resetBlocks s).journal = s.journal := rfl
@[simp] theorem resetBlocks_ctl : (resetBlocks s).ctl = s.ctl := rfl
@[simp] theorem resetBlocks_pending : (resetBlocks s).pending = s.pending := rfl
@[simp] theorem resetBlocks_free : (resetBlocks s).free = s.free := rfl

end resetBlocksLaws

section powerOnLaws

variable (s : State)

@[simp] theorem powerOn_journal : (powerOn s).journal = Journal.reset := rfl
@[simp] theorem powerOn_ctl : (powerOn s).ctl = Controller.reset := rfl
@[simp] theorem powerOn_cls : (powerOn s).cls = Classifier.reset := rfl
@[simp] theorem powerOn_pending : (powerOn s).pending = s.pending := rfl
@[simp] theorem powerOn_free : (powerOn s).free = s.free := rfl

end powerOnLaws

section warmResetLaws

variable (s : State)

@[simp] theorem warmReset_journal : (warmReset s).journal = s.journal.warm := rfl
@[simp] theorem warmReset_ctl :
    (warmReset s).ctl =
      { Controller.reset with memorySuspect := s.ctl.memorySuspect } := rfl
@[simp] theorem warmReset_cls : (warmReset s).cls = Classifier.reset := rfl
@[simp] theorem warmReset_pending : (warmReset s).pending = s.pending := rfl
@[simp] theorem warmReset_free : (warmReset s).free = s.free := rfl

end warmResetLaws

section endResetLaws

variable (l : PinLevels) (s : State)

@[simp] theorem endReset_journal : (endReset l s).journal = s.journal := rfl
@[simp] theorem endReset_capture : (endReset l s).capture = s.capture := rfl
@[simp] theorem endReset_ctl : (endReset l s).ctl = s.ctl := rfl
@[simp] theorem endReset_rollback : (endReset l s).rollback = { s.rollback with fltreq := l.fltreq } := rfl
@[simp] theorem endReset_scan : (endReset l s).scan = s.scan := rfl
@[simp] theorem endReset_cls : (endReset l s).cls = s.cls := rfl
@[simp] theorem endReset_up : (endReset l s).up = { s.up with credits := Vector.replicate 8 4 } := rfl
@[simp] theorem endReset_down : (endReset l s).down = s.down := rfl
@[simp] theorem endReset_alerts : (endReset l s).alerts = { s.alerts with frz := l.frz } := rfl
@[simp] theorem endReset_port : (endReset l s).port = { s.port with address := strapAddress l.straps } := rfl
@[simp] theorem endReset_lines : (endReset l s).lines = { s.lines with rback := false, straps := l.straps } := rfl
@[simp] theorem endReset_pending : (endReset l s).pending = s.pending := rfl
@[simp] theorem endReset_free : (endReset l s).free = s.free := rfl

end endResetLaws

end Sys2Proof.Machine
end

