-- ==== Sys2Proof/Laws/Release.lean ====
section
/-! SUPPORT. What the operations that send entries to forwarding, allocate a slot or empty the journal leave, as states
written out: one equation for each, in the terms of Safety.lean. -/

namespace Sys2Proof.Machine

/-! ### Entries that go to forwarding -/

/-- The places left for held writes: none while others wait. -/
def heldRoom (s : State) : Nat :=
  if s.capture.forwardWait = [] then Config.outgoingPlaces - s.down.outgoing.length else 0

/-- One entry that goes to forwarding. -/
def sendOne (recorded : CaptureEntry → Bool) (x e : CaptureEntry) : CaptureEntry :=
  if x.id == e.id then { x with state := .forwarding, recorded := recorded e } else x

/-- Entries sent to forwarding one after another. -/
theorem foldl_forwardEntry (recorded : CaptureEntry → Bool) : ∀ (l : List CaptureEntry) (s : State),
    l.foldl (fun s e => forwardEntry e (recorded e) s) s = { s with
      capture := { s.capture with
        entries := s.capture.entries.map fun x => l.foldl (sendOne recorded) x
        forwardWait := s.capture.forwardWait ++ (l.drop (heldRoom s)).map (·.id) }
      down := { s.down with outgoing := s.down.outgoing ++ (l.take (heldRoom s)).map heldWrite } }
  | [], s => by simp
  | e :: rest, s => by
    rw [List.foldl_cons, foldl_forwardEntry recorded rest]
    by_cases h : s.capture.forwardWait = [] ∧ s.down.outgoing.length + 1 ≤ Config.outgoingPlaces
    · have hq : forwardEntry e (recorded e) s = { s with
          capture := { s.capture with entries := s.capture.entries.map fun x => sendOne recorded x e }
          down := { s.down with outgoing := s.down.outgoing ++ [heldWrite e] } } := by
        simp [forwardEntry, queueHeld, updateEntry, hasRoom, enqueue, h.1, h.2, sendOne]
      have hr : heldRoom s = heldRoom (forwardEntry e (recorded e) s) + 1 := by
        have h2 : s.down.outgoing.length + 1 ≤ 32 := h.2
        rw [hq]; simp only [heldRoom, h.1, List.length_append, List.length_singleton]
        simp only [reduceIte]
        show 32 - s.down.outgoing.length = 32 - (s.down.outgoing.length + 1) + 1
        omega
      rw [hr, hq]
      simp [List.map_map, Function.comp_def]
    · have hq : forwardEntry e (recorded e) s = { s with
          capture := { s.capture with
            entries := s.capture.entries.map fun x => sendOne recorded x e
            forwardWait := s.capture.forwardWait ++ [e.id] } } := by
        have : (s.capture.forwardWait.isEmpty && hasRoom s 1) = false := by
          rw [Bool.eq_false_iff]
          intro k
          simp only [Bool.and_eq_true, List.isEmpty_iff, hasRoom, decide_eq_true_eq] at k
          exact h k
        simp only [forwardEntry, queueHeld]
        rw [if_neg (by simpa [updateEntry, hasRoom] using this)]
        simp [updateEntry, sendOne]
      have hr : heldRoom s = 0 := by
        unfold heldRoom
        split
        · rename_i k
          have : ¬ s.down.outgoing.length + 1 ≤ 32 := fun x => h ⟨k, x⟩
          show 32 - s.down.outgoing.length = 0
          omega
        · rfl
      have hr' : heldRoom (forwardEntry e (recorded e) s) = 0 := by
        rw [hq]; simp [heldRoom]
      rw [hr', hr, hq]
      simp [List.map_map, Function.comp_def]

/-- Where no two entries have one number, the entries sent are those in the list. -/
theorem foldl_sendOne (recorded : CaptureEntry → Bool) (x : CaptureEntry) :
    ∀ (l : List CaptureEntry), (∀ e ∈ l, e.id = x.id → e = x) →
      l.foldl (sendOne recorded) { x with state := .forwarding, recorded := recorded x } =
        { x with state := .forwarding, recorded := recorded x } ∧
      (x ∈ l → l.foldl (sendOne recorded) x = { x with state := .forwarding, recorded := recorded x }) ∧
      (x ∉ l → l.foldl (sendOne recorded) x = x)
  | [], _ => ⟨rfl, (fun h => nomatch h), fun _ => rfl⟩
  | e :: rest, h => by
    have ih := foldl_sendOne recorded x rest fun y hy => h y (List.mem_cons_of_mem _ hy)
    by_cases he : e.id = x.id
    · have hx : e = x := h e List.mem_cons_self he
      subst hx
      refine ⟨?_, fun _ => ?_, fun k => absurd List.mem_cons_self k⟩
      · rw [List.foldl_cons]; simpa [sendOne] using ih.1
      · rw [List.foldl_cons]; simpa [sendOne] using ih.1
    · have hne : (x.id == e.id) = false := by simpa using fun k => he k.symm
      refine ⟨?_, fun k => ?_, fun k => ?_⟩
      · rw [List.foldl_cons]
        have : sendOne recorded { x with state := .forwarding, recorded := recorded x } e =
            { x with state := .forwarding, recorded := recorded x } := by simp [sendOne, hne]
        rw [this]; exact ih.1
      · have hm : x ∈ rest := by
          rcases List.mem_cons.1 k with k | k
          · exact absurd (by rw [k]) he
          · exact k
        rw [List.foldl_cons]
        have : sendOne recorded x e = x := by simp [sendOne, hne]
        rw [this]; exact ih.2.1 hm
      · have hm : x ∉ rest := fun k' => k (List.mem_cons_of_mem _ k')
        rw [List.foldl_cons]
        have : sendOne recorded x e = x := by simp [sendOne, hne]
        rw [this]; exact ih.2.2 hm

/-- Two entries of one number are one entry. -/
theorem eq_of_id {l : List CaptureEntry} (h : (l.map (·.id)).Nodup) {a b : CaptureEntry} (ha : a ∈ l) (hb : b ∈ l)
    (k : a.id = b.id) : a = b := by
  induction l with
  | nil => cases ha
  | cons x rest ih =>
    rw [List.map_cons, List.nodup_cons] at h
    rcases List.mem_cons.1 ha with ha | ha <;> rcases List.mem_cons.1 hb with hb | hb
    · rw [ha, hb]
    · exact absurd (List.mem_map.2 ⟨b, hb, by rw [← k, ha]⟩) h.1
    · exact absurd (List.mem_map.2 ⟨a, ha, by rw [k, hb]⟩) h.1
    · exact ih h.2 ha hb

/-- Entries of the capture queue sent to forwarding in an order; an entry that has not reached RECORDING keeps no record. -/
theorem foldl_forward_eq (recorded : CaptureEntry → Bool) (gone : List CaptureEntry) (s : State)
    (h : (s.capture.entries.map (·.id)).Nodup) (sub : ∀ e ∈ gone, e ∈ s.capture.entries)
    (k : ∀ e ∈ gone, recorded e = (e.recorded && !e.early)) :
    gone.foldl (fun s e => forwardEntry e (recorded e) s) s = forwardInOrder gone s := by
  rw [foldl_forwardEntry]
  unfold forwardInOrder
  have hmap : (s.capture.entries.map fun x => gone.foldl (sendOne recorded) x) = s.capture.entries.map fun e =>
      if e ∈ gone then { e with state := .forwarding, recorded := e.recorded && !e.early } else e := by
    refine List.map_congr_left fun x hx => ?_
    have one := foldl_sendOne recorded x gone fun e he hi => eq_of_id h (sub e he) hx hi
    by_cases hs : x ∈ gone
    · rw [if_pos hs, one.2.1 hs, k x hs]
    · rw [if_neg hs, one.2.2 hs]
  rw [hmap]
  rfl

/-- Those that stop waiting, by any test that says the same. -/
theorem stopWaiting_eq (ids : List Nat) (s : State) (stays : Nat → Bool) (h : ∀ id, (!ids.contains id) = stays id) :
    stopWaiting ids s = { s with
      capture := { s.capture with spaceWait := s.capture.spaceWait.filter stays }
      journal := { s.journal with allocWait := s.journal.allocWait.filter fun r => match r with
        | .capture id => stays id
        | .mark => true
        | .brk _ _ => true } } := by
  have e : stays = fun id => !ids.contains id := funext fun id => (h id).symm
  subst e
  rfl

/-- `letGo` is `released`. -/
theorem letGo_eq (p : CaptureEntry → Bool) (s : State) (h : (s.capture.entries.map (·.id)).Nodup) :
    letGo p s = released p s := by
  unfold letGo
  dsimp only
  have e1 := foldl_forward_eq (fun _ => false) (s.capture.entries.filter fun e => e.early && p e)
    (stopWaiting ((s.capture.entries.filter fun e => e.early && p e).map (·.id)) s) h
    (fun e he => (List.mem_filter.1 he).1) (fun e he => by
      have := (List.mem_filter.1 he).2
      simp only [Bool.and_eq_true] at this
      simp [this.1])
  rw [e1]
  have hc : ∀ id, (!((s.capture.entries.filter fun e => e.early && p e).map (·.id)).contains id) =
      (s.capture.entries.filter fun e => e.early && p e).all fun e => e.id != id := by
    intro id
    rw [Bool.eq_iff_iff]
    simp only [Bool.not_eq_true', List.all_eq_true, bne_iff_ne, ne_eq]
    rw [← Bool.not_eq_true, List.contains_iff_mem]
    exact ⟨fun k e he hi => k (List.mem_map.2 ⟨e, he, hi⟩), fun k hm => by
      obtain ⟨e, he, hi⟩ := List.mem_map.1 hm
      exact k e he hi⟩
  rw [stopWaiting_eq _ s _ hc]
  unfold released forwardInOrder
  dsimp only
  generalize (s.capture.spaceWait.filter fun id =>
    (s.capture.entries.filter fun e => e.early && p e).all fun e => e.id != id) = space
  cases space with
  | nil => simp [endHold] <;> rfl
  | cons x rest => simp [endHold] <;> rfl

/-! ### Slots -/

/-- A change of occupancy, and the near-full flag it may set. -/
theorem setOccupancy_eq (n : Nat) (s : State) (near : Bool)
    (h : near = (n != s.journal.occupancy && s.journal.config.paceMark != 0 &&
      decide (s.journal.config.paceMark ≤ n) && !s.capture.nearFull)) :
    setOccupancy n s = { s with
      journal := { s.journal with occupancy := n }
      capture := { s.capture with nearFull := s.capture.nearFull || near }
      alerts := { s.alerts with latches := if near then s.alerts.latches ||| 0x001#12 else s.alerts.latches } } := by
  have h' : reachesPaceMark s.journal.occupancy (putOccupancy n s) = near := h.symm
  unfold setOccupancy
  rw [h']
  cases near with
  | true => simp [noteNearFull, latch, putOccupancy, alertBit]
  | false => simp [putOccupancy]

/-- `allocateSlot` is `withRecord`. -/
theorem allocateSlot_eq (owner : SlotOwner) (checkpoint : CheckpointNo) (body : RecordBody) (s : State) :
    allocateSlot owner checkpoint body s = withRecord owner checkpoint body s := by
  unfold allocateSlot withRecord
  dsimp only
  rw [setOccupancy_eq (s.journal.occupancy + 1) (takeSlot owner s) (s.journal.config.paceMark != 0 &&
    decide (s.journal.config.paceMark ≤ s.journal.occupancy + 1) && !s.capture.nearFull) (by
      have h : (s.journal.occupancy + 1 != s.journal.occupancy) = true := by simp
      simp only [takeSlot, h, Bool.true_and]
      rfl)]
  generalize (s.journal.config.paceMark != 0 &&
    decide (s.journal.config.paceMark ≤ s.journal.occupancy + 1) && !s.capture.nearFull) = near
  by_cases room : s.journal.writeWait = [] ∧ s.down.outgoing.length + 2 ≤ Config.outgoingPlaces
  · simp [queuePair, hasRoom, room.1, room.2, enqueue, takeSlot, headerWrite, dataWrite, nextRecord]
  · have shut : (s.journal.writeWait.isEmpty && decide (s.down.outgoing.length + 2 ≤ Config.outgoingPlaces)) = false := by
      rw [Bool.eq_false_iff]
      intro h
      rw [Bool.and_eq_true, List.isEmpty_iff, decide_eq_true_iff] at h
      exact room h
    simp only [if_neg room]
    unfold queuePair hasRoom
    rw [if_neg (by
      show ¬ (s.journal.writeWait.isEmpty && decide (s.down.outgoing.length + 2 ≤ Config.outgoingPlaces)) = true
      rw [shut]
      decide)]
    simp [takeSlot, headerWrite, dataWrite, nextRecord]

/-! ### Emptying -/

/-- Slot order neither drops nor adds an entry, and slots come in ring order (R35). -/
theorem inSlotOrder_spec (j : Journal) (l : List CaptureEntry) :
    (inSlotOrder j l).Perm l ∧ (inSlotOrder j l).Pairwise fun a b => slotNoLater j a b = true := by
  have order : ∀ a b, slotNoLater j a b = true ↔
      ringDistance j j.tail (a.slot.getD 0) ≤ ringDistance j j.tail (b.slot.getD 0) := fun a b => decide_eq_true_iff
  have total : Std.Total fun a b => slotNoLater j a b = true :=
    ⟨fun a b => by rw [order, order]; exact Nat.le_total _ _⟩
  have trans : IsTrans CaptureEntry fun a b => slotNoLater j a b = true :=
    ⟨fun a b c => by rw [order, order, order]; exact Nat.le_trans⟩
  exact ⟨List.perm_insertionSort _ l, List.pairwise_insertionSort _ l⟩

/-- The entries that an emptying sends to forwarding: those without a slot, and those that wait for the commit point. -/
theorem mem_leavingOrder (s : State) (e : CaptureEntry) :
    e ∈ leavingOrder s ↔ e ∈ s.capture.entries ∧ (e.state = .awaitCommit ∨ e.early = true) := by
  unfold leavingOrder
  rw [List.mem_append, (inSlotOrder_spec _ _).1.mem_iff, List.mem_filter, List.mem_filter, beq_iff_eq]
  exact and_or_left.symm

/-- `releaseAfterEmptying` sends every entry without a slot, and those that wait for the commit point, to forwarding. -/
theorem releaseAfterEmptying_eq (s : State) (h : (s.capture.entries.map (·.id)).Nodup) :
    releaseAfterEmptying s = endHold (forwardInOrder (leavingOrder s) (clearSpace s)) := by
  unfold releaseAfterEmptying
  rw [← foldl_forward_eq (fun e => e.recorded && !e.early) (leavingOrder s) (clearSpace s) h
    (fun e he => ((mem_leavingOrder s e).1 he).1) fun _ _ => rfl]
  have goes : ∀ e ∈ leavingOrder s, e.state = .awaitCommit ∨ e.early = true := fun e he => ((mem_leavingOrder s e).1 he).2
  congr 1
  generalize clearSpace s = t
  generalize leavingOrder s = l at goes
  induction l generalizing t with
  | nil => rfl
  | cons e rest ih =>
    rw [List.foldl_cons, List.foldl_cons, ih _ fun x hx => goes x (List.mem_cons_of_mem _ hx)]
    congr 1
    unfold releaseEntry
    by_cases he : e.early = true
    · simp [he]
    · simp [he, (goes e List.mem_cons_self).resolve_right he]

/-- A slot that has not settled has a write outstanding. -/
theorem not_settled (r : SlotRecord) : (!r.settled) = (r.header == .outstanding || r.data == .outstanding) := by
  cases r with
  | mk slot seq owner header data forgotten => cases header <;> cases data <;> rfl

/-- The journal emptied. -/
theorem emptyJournal_eq (s : State) : emptyJournal s = { s with journal := (emptied s).journal } := by
  unfold emptyJournal
  rw [setOccupancy_eq 0 (forgetSlots s) false (by
    show false = (0 != s.journal.occupancy && s.journal.config.paceMark != 0 &&
      decide (s.journal.config.paceMark ≤ 0) && !s.capture.nearFull)
    cases s.journal.config.paceMark <;> simp)]
  simp [forgetSlots, emptied, not_settled]

/-- The journal emptied, in UNARMED. -/
theorem enterUnarmed_emptyJournal_eq (s : State) : enterUnarmed (emptyJournal s) = emptied s := by
  rw [emptyJournal_eq]; rfl

/-- `dropCheckpoints` is `emptiedFromArmed`. -/
theorem dropCheckpoints_eq (s : State) (h : (s.capture.entries.map (·.id)).Nodup) :
    dropCheckpoints s = emptiedFromArmed s := by
  unfold dropCheckpoints
  rw [emptyJournal_eq, releaseAfterEmptying_eq (clearFilter { s with journal := (emptied s).journal }) h]
  have same : leavingOrder (clearFilter { s with journal := (emptied s).journal }) = leavingOrder s := rfl
  rw [same]
  generalize order : leavingOrder s = l
  simp [emptiedFromArmed, emptied, order, forwardInOrder, enterUnarmed, endHold, clearSpace, clearFilter]
  rfl

/-! ### Requests that may wait for room -/

/-- Requests enter the outgoing queue while there is room. -/
theorem placeWhileRoom_eq : ∀ (new : List DownEntry) (s : State), ∃ out wait, Places s.down.outgoing [] new out wait ∧
    placeWhileRoom new s = (wait, { s with down := { s.down with outgoing := out } })
  | [], s => ⟨s.down.outgoing, [], by simp [Places], rfl⟩
  | e :: rest, s => by
    unfold placeWhileRoom
    split
    · obtain ⟨out, wait, ⟨h1, h2, _, h4, h5⟩, k⟩ := placeWhileRoom_eq rest (enqueue e s)
      refine ⟨out, wait, ⟨?_, ?_, fun h => absurd rfl h, fun _ h => h4 rfl ?_, h5⟩, k⟩
      · rw [h1]; simp [enqueue]
      · exact List.IsPrefix.trans (List.prefix_append _ _) h2
      · simp only [enqueue, List.length_append, List.length_cons, List.length_nil] at h ⊢; omega
    · rename_i h
      have h : ¬ s.down.outgoing.length + 1 ≤ 32 := by simpa [hasRoom] using h
      refine ⟨s.down.outgoing, e :: rest, ⟨by simp, List.prefix_refl _, fun k => absurd rfl k, fun _ k => ?_, fun _ _ => ?_⟩,
        rfl⟩
      · have k : s.down.outgoing.length + (rest.length + 1) ≤ 32 := k
        omega
      · show 32 ≤ s.down.outgoing.length
        omega

/-- A block's requests go behind those it placed before. -/
theorem submit_eq (waiting new : List DownEntry) (s : State) : ∃ out wait,
    Places s.down.outgoing waiting new out wait ∧
    submit waiting new s = (wait, { s with down := { s.down with outgoing := out } }) := by
  cases waiting with
  | nil => exact placeWhileRoom_eq new s
  | cons e rest => exact ⟨s.down.outgoing, e :: rest ++ new, by simp [Places], rfl⟩

/-- What the rollback engine places goes behind what it placed before. -/
theorem undoSubmit_eq (new : List DownEntry) (s : State) : ∃ out wait,
    Places s.down.outgoing s.rollback.undoWait new out wait ∧
    undoSubmit new s = { s with
      down := { s.down with outgoing := out }, rollback := { s.rollback with undoWait := wait } } := by
  obtain ⟨out, wait, h, k⟩ := submit_eq s.rollback.undoWait new s
  refine ⟨out, wait, h, ?_⟩
  unfold undoSubmit
  rw [k]

/-- What the scanner places goes behind what it placed before. -/
theorem scanSubmit_eq (new : List DownEntry) (s : State) : ∃ out wait,
    Places s.down.outgoing s.scan.scanWait new out wait ∧
    scanSubmit new s = { s with
      down := { s.down with outgoing := out }, scan := { s.scan with scanWait := wait } } := by
  obtain ⟨out, wait, h, k⟩ := submit_eq s.scan.scanWait new s
  refine ⟨out, wait, h, ?_⟩
  unfold scanSubmit
  rw [k]

/-! ### A trailing head, and slots granted -/

/-- `trailStep` is `trailed`. -/
theorem trailStep_eq (s : State) : trailStep s = trailed s := by
  have hs : trailStop s = s.ctl.checkpoints.head?.bind (·.markSlot) := by
    unfold trailStop
    cases s.ctl.checkpoints <;> rfl
  have hc : trailCount s = (s.ctl.checkpoints.head?.bind (·.markSlot)).elim (committedSlots s.journal) fun m =>
      min (committedSlots s.journal) (ringDistance s.journal s.journal.head m) := by
    unfold trailCount
    rw [hs]
    cases s.ctl.checkpoints.head?.bind (·.markSlot) <;> rfl
  unfold trailStep trailed
  dsimp only
  rw [← hc, hs]
  split
  · rw [setOccupancy_eq _ _ _ rfl]
    rfl
  · rfl

/-- What a trailing head's move leaves as it was (R18). -/
theorem trailed_keeps (s : State) :
    (trailed s).capture.spaceWait = s.capture.spaceWait ∧ (trailed s).capture.entries = s.capture.entries ∧
    (trailed s).ctl = s.ctl ∧ (trailed s).journal.exhausted = s.journal.exhausted ∧
    (trailed s).journal.seq = s.journal.seq ∧ (trailed s).journal.allocWait = s.journal.allocWait ∧
    (trailed s).journal.slotRecords = s.journal.slotRecords ∧ (trailed s).journal.writeWait = s.journal.writeWait ∧
    (trailed s).down = s.down ∧ (trailed s).journal.occupancy ≤ s.journal.occupancy ∧
    captureLimit (trailed s).journal = captureLimit s.journal := by
  unfold trailed
  dsimp only
  split
  · exact ⟨rfl, rfl, rfl, rfl, rfl, rfl, rfl, rfl, rfl, Nat.sub_le _ _, rfl⟩
  · exact ⟨rfl, rfl, rfl, rfl, rfl, rfl, rfl, rfl, rfl, Nat.le_refl _, rfl⟩

/-- `grantCapture` is `withCapture`. -/
theorem grantCapture_eq (e : CaptureEntry) (s : State) : grantCapture e s = withCapture e s := by
  unfold grantCapture
  rw [allocateSlot_eq]
  unfold withCapture withRecord endHold countCapture updateEntry leaveSpace
  dsimp only
  generalize (s.capture.spaceWait.filter fun x => x != e.id) = space
  cases space with
  | nil => simp
  | cons _ _ => simp

/-- `grantMark` is `withMark`; a trailing head follows, and the entries that wait for the slot ask. -/
theorem grantMark_eq (c : Checkpoint) (p : PendingMark) (s : State) (hp : s.ctl.pendingMark = some p) :
    grantMark c s = askWaiting (trailed (withMark c p s)) := by
  unfold grantMark
  rw [allocateSlot_eq]
  have : placeMark s.journal.tail s.journal.seq (withRecord .mark c.number (markBody c s) s) = withMark c p s := by
    unfold withMark withRecord placeMark markBody
    simp [hp]
  rw [this, trailStep_eq]

/-! ### The mark point -/

/-- Room for a mark has been made: the checkpoints left, and the head, the occupancy and the trailing flag that the released
ones leave; the near-full flag starts afresh (R37, R39, R58). -/
def madeRoom (restart : Bool) (list : List Checkpoint) (head occupancy : Nat) (trailing : Bool) (s : State) : State :=
  let near : Bool := occupancy != s.journal.occupancy && s.journal.config.paceMark != 0 &&
    decide (s.journal.config.paceMark ≤ occupancy)
  { s with
    ctl := { s.ctl with checkpoints := list }
    journal := { s.journal with head := head, occupancy := occupancy, trailing := trailing }
    capture := { s.capture with
      filter := [], nearFull := near, closing := if restart then none else s.ctl.openEpoch, closingBroken := false }
    alerts := { s.alerts with latches := if near then s.alerts.latches ||| 0x001#12 else s.alerts.latches } }

/-- Trailing that begins with no checkpoint left takes the head to the commit point. -/
theorem startTrailing_of_nil (s : State) (h : s.ctl.checkpoints = []) (near : Bool)
    (hn : near = (s.journal.occupancy - committedSlots s.journal != s.journal.occupancy &&
      s.journal.config.paceMark != 0 &&
      decide (s.journal.config.paceMark ≤ s.journal.occupancy - committedSlots s.journal) && !s.capture.nearFull)) :
    startTrailing s = { s with
      journal := { s.journal with
        trailing := true, head := (s.journal.head + committedSlots s.journal) % s.journal.config.slots
        occupancy := s.journal.occupancy - committedSlots s.journal }
      capture := { s.capture with nearFull := s.capture.nearFull || near }
      alerts := { s.alerts with latches := if near then s.alerts.latches ||| 0x001#12 else s.alerts.latches } } := by
  unfold startTrailing trailStep
  have ht : trailStop (moveHead s.journal.head true s) = none := by
    unfold trailStop
    simp [moveHead, h]
  have hc : trailCount (moveHead s.journal.head true s) = committedSlots s.journal := by
    unfold trailCount
    rw [ht]
    rfl
  rw [if_pos (show (moveHead s.journal.head true s).journal.trailing = true from rfl), hc, ht]
  dsimp only
  rw [setOccupancy_eq _ _ near (by rw [hn]; rfl)]
  rfl

/-- Every checkpoint is released: the head begins to trail. -/
theorem startTrailing_madeRoom (restart : Bool) (s : State) :
    startTrailing (setList [] (closeEpoch restart s)) =
      madeRoom restart [] ((s.journal.head + committedSlots s.journal) % s.journal.config.slots)
        (s.journal.occupancy - committedSlots s.journal) true s := by
  rw [startTrailing_of_nil (setList [] (closeEpoch restart s)) rfl
    (s.journal.occupancy - committedSlots s.journal != s.journal.occupancy && s.journal.config.paceMark != 0 &&
      decide (s.journal.config.paceMark ≤ s.journal.occupancy - committedSlots s.journal)) (Bool.and_true _).symm]
  rfl

/-- The mark point, once the room it makes is known. -/
theorem markPoint_of_room (source : MarkSource) (v : BitVec 64) (s : State) (restart : Bool) (list : List Checkpoint)
    (head occupancy : Nat) (trailing : Bool)
    (hr : (s.ctl.state == .unarmed || s.ctl.condition == .broken) = restart)
    (hm : makeRoom restart (closeEpoch restart s) = madeRoom restart list head occupancy trailing s)
    (hl : list = if restart = true then [] else if decide (s.journal.config.depth ≤ s.ctl.checkpoints.length) = true
      then s.ctl.checkpoints.tail else s.ctl.checkpoints)
    (stays : restart = true ∧ s.ctl.checkpoints = [] ∨
        restart = false ∧ decide (s.journal.config.depth ≤ s.ctl.checkpoints.length) = false →
      head = s.journal.head ∧ occupancy = s.journal.occupancy ∧ trailing = s.journal.trailing)
    (trails : restart = true ∧ s.ctl.checkpoints ≠ [] ∨
        restart = false ∧ decide (s.journal.config.depth ≤ s.ctl.checkpoints.length) = true ∧
          s.ctl.checkpoints.length ≤ 1 →
      head = (s.journal.head + committedSlots s.journal) % s.journal.config.slots ∧
      occupancy = s.journal.occupancy - committedSlots s.journal ∧ trailing = true)
    (moves : restart = false → decide (s.journal.config.depth ≤ s.ctl.checkpoints.length) = true →
      ∀ oldest next rest m, s.ctl.checkpoints = oldest :: next :: rest → next.markSlot = some m →
        head = m ∧ occupancy = s.journal.occupancy - ringDistance s.journal s.journal.head m ∧
        trailing = s.journal.trailing) :
    TakesMark source v s (markPoint source v s) := by
  have whole : markPoint source v s =
      appendPending source v
        { previous := if (s.ctl.state == .unarmed) = true then none else s.ctl.openEpoch, restart := restart }
        (s.ctl.state == .unarmed) (madeRoom restart list head occupancy trailing s) := by
    rw [← hm]
    subst hr
    rfl
  rw [whole]
  unfold TakesMark
  dsimp only
  rw [hr]
  refine ⟨?_, stays, trails, moves⟩
  rw [← hl]
  simp [appendPending, madeRoom]

/-- Where nothing has to be released, the head stays. -/
theorem closeEpoch_madeRoom (restart : Bool) (list : List Checkpoint) (s : State) :
    setList list (closeEpoch restart s) =
      madeRoom restart list s.journal.head s.journal.occupancy s.journal.trailing s := by
  simp [setList, closeEpoch, madeRoom]

/-- What the mark point leaves. -/
theorem markPoint_eq (source : MarkSource) (v : BitVec 64) (s : State) : TakesMark source v s (markPoint source v s) := by
  generalize hr : (s.ctl.state == .unarmed || s.ctl.condition == .broken) = restart
  cases restart with
  | true =>
    by_cases hl : s.ctl.checkpoints = []
    · have hm : makeRoom true (closeEpoch true s) = setList s.ctl.checkpoints (closeEpoch true s) := by
        unfold makeRoom
        rw [if_pos rfl, if_pos (by show s.ctl.checkpoints.isEmpty = true; rw [hl]; rfl)]
        rfl
      refine markPoint_of_room source v s true _ _ _ _ hr (hm.trans (closeEpoch_madeRoom _ _ _)) ?_ ?_ ?_ ?_ <;> simp [hl]
    · have hm : makeRoom true (closeEpoch true s) = startTrailing (setList [] (closeEpoch true s)) := by
        unfold makeRoom
        have : s.ctl.checkpoints.isEmpty = false := by simpa using hl
        simp [closeEpoch, this]
      refine markPoint_of_room source v s true _ _ _ _ hr (hm.trans (startTrailing_madeRoom _ _)) ?_ ?_ ?_ ?_ <;> simp [hl]
  | false =>
    by_cases hd : s.journal.config.depth ≤ s.ctl.checkpoints.length
    · have hm : makeRoom false (closeEpoch false s) = releaseOldest (closeEpoch false s) := by
        unfold makeRoom
        simp [closeEpoch, hd]
      match hl : s.ctl.checkpoints with
      | [] | [_] =>
        have one : releaseOldest (closeEpoch false s) = startTrailing (setList [] (closeEpoch false s)) := by
          unfold releaseOldest
          simp [closeEpoch, hl]
        simp only [hl, List.length_nil, List.length_cons] at hd
        refine markPoint_of_room source v s false _ _ _ _ hr (hm.trans (one.trans (startTrailing_madeRoom _ _)))
          ?_ ?_ ?_ ?_ <;> simp [hl] <;> omega
      | oldest :: next :: rest =>
        rw [hl] at hd
        cases hk : next.markSlot with
        | none =>
          have two : releaseOldest (closeEpoch false s) = setList (next :: rest) (closeEpoch false s) := by
            unfold releaseOldest
            simp [closeEpoch, hl, hk]
          refine markPoint_of_room source v s false _ _ _ _ hr (hm.trans (two.trans (closeEpoch_madeRoom _ _ _)))
            ?_ ?_ ?_ ?_
          · simp only [hl, decide_eq_true hd, if_true]
            rfl
          · simp
          · simp [hl]
          · intro _ _ o n r m ho hn
            rw [hl] at ho
            cases ho
            rw [hk] at hn
            cases hn
        | some m =>
          have two : releaseOldest (closeEpoch false s) =
              setOccupancy (s.journal.occupancy - ringDistance s.journal s.journal.head m)
                (moveHead m s.journal.trailing (setList (next :: rest) (closeEpoch false s))) := by
            unfold releaseOldest
            simp [closeEpoch, hl, hk]
          have made : setOccupancy (s.journal.occupancy - ringDistance s.journal s.journal.head m)
                (moveHead m s.journal.trailing (setList (next :: rest) (closeEpoch false s))) =
              madeRoom false (next :: rest) m (s.journal.occupancy - ringDistance s.journal s.journal.head m)
                s.journal.trailing s := by
            rw [setOccupancy_eq _ _ _ rfl]
            simp [closeEpoch, setList, moveHead, madeRoom]
          refine markPoint_of_room source v s false _ _ _ _ hr (hm.trans (two.trans made)) ?_ ?_ ?_ ?_
          · simp only [hl, decide_eq_true hd, if_true]
            rfl
          · simp only [hl, decide_eq_true hd]
            simp
          · simp [hl]
          · intro _ _ o n r m' ho hn
            rw [hl] at ho
            cases ho
            rw [hk] at hn
            cases hn
            exact ⟨rfl, rfl, rfl⟩
    · have hm : makeRoom false (closeEpoch false s) = setList s.ctl.checkpoints (closeEpoch false s) := by
        unfold makeRoom
        rw [if_neg (by decide), if_neg (by simpa [closeEpoch] using hd)]
        rfl
      refine markPoint_of_room source v s false _ _ _ _ hr (hm.trans (closeEpoch_madeRoom _ _ _)) ?_ ?_ ?_ ?_ <;> simp [hd]

/-! ### A rollback's start -/

/-- What the start event leaves. -/
theorem startRollback_eq (origin : Origin) (c : Checkpoint) (s : State) :
    StartsRollback origin c s (startRollback origin c s) := by
  unfold StartsRollback startRollback retractEntries
  have fold : ∀ (l : List CaptureEntry) (s : State), l.foldl (fun s e => deliver e.initiator e.tag .retracted s) s =
      { s with up := { s.up with delivered := s.up.delivered ++ l.map fun e => ⟨e.initiator, e.tag, .retracted⟩ } } := by
    intro l
    induction l with
    | nil => intro s; simp
    | cons x rest ih => intro s; rw [List.foldl_cons, ih]; simp [deliver]
  rw [fold]
  simp only [dropCancelled, fixTarget, CaptureEntry.cancellable, bne, Bool.not_not, List.filter_filter]
  congr 1
  congr 3
  funext e
  cases (e.state == .forwarding) <;> simp

/-- What the settle event leaves. -/
theorem settle_eq (target : Target) (voidFailed : Bool) (s : State) (h : s.rollback.target = some target) :
    Settles target voidFailed s (settle voidFailed s) := by
  unfold Settles settle
  simp only [h]
  unfold truncate setOccupancy reachesPaceMark putOccupancy moveTailBack reopenTarget restartAge noteNearFull latch
  dsimp only
  split <;> simp_all [alertBit, ringDistance, nextSlot]

end Sys2Proof.Machine
end

