-- ==== Sys2Proof/Laws/Breaks.lean ====
section
/-! SUPPORT. The breaks that the capture engine raises, and the allocation requests that have to wait (R13, R44, R45, R60). -/

namespace Sys2Proof.Machine

set_option Elab.async false

theorem mustWait_iff (s : State) : MustWait s ↔ (tailBlocked s.journal || !s.journal.allocWait.isEmpty) = true := by
  unfold MustWait
  cases s.journal.allocWait <;> simp

theorem allocationSpent_iff (j : Journal) :
    allocationSpent j = true ↔ j.exhausted = true ∨ j.seq = 0xFFFFFFFFFFFFFFFF#64 := by
  unfold allocationSpent
  rw [Bool.or_eq_true, beq_iff_eq]

theorem setUnrecorded_eq (place : SeqNo) (s : State) : setUnrecorded place s = withUnrecorded place s := by
  unfold setUnrecorded withUnrecorded
  simp

/-- What becomes of a request for a BREAK slot (Table 1.4). -/
theorem requestBreak_eq (closing : Bool) (epoch : CheckpointNo) (cause : RecordCause) (s : State) :
    AsksBreak closing epoch cause s (requestBreak closing epoch cause s) := by
  have waits : MustWait s → requestBreak closing epoch cause s =
      setWaiting (insertBreak closing (.brk epoch cause) s.journal.allocWait) s := fun h => by
    unfold requestBreak
    rw [if_pos ((mustWait_iff s).1 h)]
  have judged : ¬ MustWait s → requestBreak closing epoch cause s = judgeBreak epoch cause s := fun h => by
    unfold requestBreak
    rw [if_neg (fun k => h ((mustWait_iff s).2 k))]
  refine ⟨fun h => ?_, fun h spent => ?_, fun h spent full => ?_, fun h spent full => ?_⟩
  · rw [waits h]
    rfl
  · rw [judged h]
    unfold judgeBreak refuseBreak
    rw [if_pos ((allocationSpent_iff _).2 spent), setUnrecorded_eq]
  · rw [judged h]
    unfold judgeBreak refuseBreak
    rw [if_neg (fun k => spent ((allocationSpent_iff _).1 k)), if_neg (Nat.not_lt.2 full), setUnrecorded_eq]
  · rw [judged h]
    unfold judgeBreak
    rw [if_neg (fun k => spent ((allocationSpent_iff _).1 k)), if_pos (Nat.lt_of_not_le full), allocateSlot_eq]

/-- A break of the open epoch (R44). -/
theorem raiseBreak_open (cause : RecordCause) (epoch : CheckpointNo) (s : State)
    (hd : (s.capture.entries.map (·.id)).Nodup) (h1 : s.ctl.state = .armed) (h2 : s.capture.closing = none)
    (h3 : s.ctl.condition ≠ .broken) (h4 : s.ctl.openEpoch = some epoch) :
    BreaksOpen epoch cause s (raiseBreak cause s) := by
  unfold raiseBreak
  rw [if_pos h1, h2]
  dsimp only
  rw [if_neg h3]
  unfold breakOpen
  rw [h4]
  dsimp only [checkpointField, Option.getD_some]
  rw [letGo_eq _ _ (by exact hd)]
  refine ⟨_, requestBreak_eq false epoch cause _, ?_⟩
  cases cause <;> rfl

/-- A break of the closing epoch (R45). -/
theorem raiseBreak_closing (cause : RecordCause) (epoch : CheckpointNo) (s : State)
    (hd : (s.capture.entries.map (·.id)).Nodup) (h1 : s.ctl.state = .armed) (h2 : s.capture.closing = some epoch)
    (h3 : s.capture.closingBroken = false) : BreaksClosing epoch cause s (raiseBreak cause s) := by
  unfold raiseBreak
  rw [if_pos h1, h2]
  dsimp only
  rw [if_neg (by rw [h3]; decide)]
  unfold breakClosing
  rw [letGo_eq _ _ (by exact hd)]
  refine ⟨_, requestBreak_eq true epoch cause _, ?_⟩
  unfold startTrailing
  rw [trailStep_eq]
  cases cause <;> rfl

/-- A break that is not taken (R44, R45). -/
theorem raiseBreak_notTaken (cause : RecordCause) (s : State) (h : BreakNotTaken s) : raiseBreak cause s = s := by
  unfold raiseBreak
  by_cases hs : s.ctl.state = .armed
  · rw [if_pos hs]
    rcases h with h | ⟨h, k⟩ | ⟨h, k⟩
    · exact absurd hs h
    · rw [h]
      exact if_pos k
    · cases hc : s.capture.closing with
      | none => exact absurd hc h
      | some epoch => exact if_pos k
  · rw [if_neg hs]

end Sys2Proof.Machine
end

