-- ==== Sys2Proof/Laws/Bytes.lean ====
section
/-! SUPPORT. The bytes of values laid out one after another, and of a record's header line (R8, R182, Table 11.1). -/

namespace Sys2Proof.Machine

set_option Elab.async false

/-- The bytes of two fields laid out one after the other. -/
theorem bytesLE_append {a b : Nat} (m n : Nat) (hi : BitVec a) (lo : BitVec b) (h : b = 8 * n) :
    bytesLE (n + m) (hi ++ lo) = bytesLE n lo ++ bytesLE m hi := by
  subst h
  unfold bytesLE
  rw [List.range_add, List.map_append, List.map_map]
  congr 1
  · apply List.map_congr_left
    intro k hk
    rw [List.mem_range] at hk
    ext i hi
    have : 8 * k + i < 8 * n := by omega
    simp [BitVec.getLsbD_append, this]
  · apply List.map_congr_left
    intro k _
    ext i hi
    have h1 : ¬ 8 * (n + k) + i < 8 * n := by omega
    have h2 : 8 * (n + k) + i - 8 * n = 8 * k + i := by omega
    simp [BitVec.getLsbD_append, h1, h2]

theorem bytesLE_zero (n w : Nat) : bytesLE n (0 : BitVec w) = zeros n := by
  unfold zeros bytesLE
  apply List.ext_getElem <;> simp

theorem bytesLE_one (b : Byte) : bytesLE 1 b = [b] := by simp [bytesLE]

/-- The header line of a record, field by field (Table 11.1). -/
theorem recordHeader_bytes (r : Record) : bytesLE 64 (recordHeader r) =
    [kindByte r.body] ++ (zeros 1 ++ (bytesLE 2 r.runStamp ++ (zeros 4 ++ (bytesLE 8 r.seq ++ (bytesLE 4 r.checkpoint ++
      (bytesLE 40 (bodyField r.body) ++ bytesLE 4 (checkCode (headerFields r) (recordData r)))))))) := by
  refine (bytesLE_append 4 60 (checkCode (headerFields r) (recordData r)) (headerFields r) rfl).trans ?_
  have fields : bytesLE 60 (headerFields r) = [kindByte r.body] ++ (zeros 1 ++ (bytesLE 2 r.runStamp ++
      (zeros 4 ++ (bytesLE 8 r.seq ++ (bytesLE 4 r.checkpoint ++ bytesLE 40 (bodyField r.body)))))) := by
    unfold headerFields
    refine (bytesLE_append 59 1 _ (kindByte r.body) rfl).trans ?_
    rw [bytesLE_one]
    congr 1
    refine (bytesLE_append 58 1 _ (0#8) rfl).trans ?_
    rw [show (0#8) = 0 from rfl, bytesLE_zero]
    congr 1
    refine (bytesLE_append 56 2 _ r.runStamp rfl).trans ?_
    congr 1
    refine (bytesLE_append 52 4 _ (0#32) rfl).trans ?_
    rw [show (0#32) = 0 from rfl, bytesLE_zero]
    congr 1
    refine (bytesLE_append 44 8 _ r.seq rfl).trans ?_
    congr 1
    exact bytesLE_append 40 4 _ r.checkpoint rfl
  rw [fields]
  simp only [List.append_assoc]

end Sys2Proof.Machine
end

