-- ==== Sys2Proof/Laws/Commit.lean ====
section
/-! SUPPORT. The completion of a slot's last line write, and the commit point's advance (R14 to R18, R35, R61, R62). -/

namespace Sys2Proof.Machine

set_option Elab.async false

/-- The last line write of a slot completes: the slot settles, and keeps what it was given out for. -/
theorem journalWrite_last {s : State} {tag : DownTag} {error : Bool} {r r' : SlotRecord}
    (h : LastWrite s tag error r r') (hr : s.journal.slotRecords.find? (fun x => x.slot == r.slot) = some r) :
    execJournalWriteCompletion tag error s = .next (finish
      (if r.forgotten then dropForgotten r' (replaceSlot r r' (setTag tag .free s))
       else advanceCommit (reportSettled r' (replaceSlot r r' (setTag tag .free s))))) ∧
    r'.settled = true ∧ r'.owner = r.owner ∧ r'.slot = r.slot ∧ r'.seq = r.seq ∧ r'.forgotten = r.forgotten := by
  have key : ∀ half, tagState s tag = .inUse (.journal r.slot half) → r' = r.complete half error → r'.settled = true →
      execJournalWriteCompletion tag error s = .next (finish
        (if r.forgotten then dropForgotten r' (replaceSlot r r' (setTag tag .free s))
         else advanceCommit (reportSettled r' (replaceSlot r r' (setTag tag .free s))))) ∧ r'.forgotten = r.forgotten := by
    intro half ht hr' hs
    have hf : r'.forgotten = r.forgotten := by rw [hr']; cases half <;> rfl
    refine ⟨?_, hf⟩
    unfold execJournalWriteCompletion
    rw [ht]
    dsimp only
    unfold journalWriteDone
    rw [show (setTag tag .free s).journal = s.journal from rfl, hr]
    dsimp only
    rw [← hr', hs, hf]
    rfl
  rcases h with ⟨h1, h2, h3⟩ | ⟨h1, h2, h3⟩
  · have hs : r'.settled = true := by subst h3; unfold SlotRecord.settled; cases error <;> simp [h2]
    obtain ⟨a, b⟩ := key .header h1 h3 hs
    exact ⟨a, hs, by rw [h3], by rw [h3], by rw [h3], b⟩
  · have hs : r'.settled = true := by subst h3; unfold SlotRecord.settled; cases error <;> simp [h2]
    obtain ⟨a, b⟩ := key .data h1 h3 hs
    exact ⟨a, hs, by rw [h3], by rw [h3], by rw [h3], b⟩

/-- The list of slots after the first of them has settled. -/
theorem slots_after_first (r r' : SlotRecord) (rest : List SlotRecord) (h : r ∉ rest) :
    ((r :: rest).map fun x => if x = r then r' else x) = r' :: rest := by
  rw [List.map_cons, if_pos rfl, List.map_congr_left (g := id), List.map_id]
  intro a ha
  rw [if_neg (by rintro rfl; exact h ha)]
  rfl

theorem settled_iff (r : SlotRecord) : r.settled = true ↔ r.header ≠ .outstanding ∧ r.data ≠ .outstanding := by
  unfold SlotRecord.settled
  simp

theorem failed_iff (r : SlotRecord) : r.failed = true ↔ r.header = .error ∨ r.data = .error := by
  unfold SlotRecord.failed
  simp

/-- The commit point stops at a slot that has not settled (R15). -/
theorem passSettled_stop (n : Nat) (s : State)
    (h : ∀ r, s.journal.slotRecords.find? (fun x => !x.forgotten) = some r → r.settled = false) : passSettled n s = s := by
  cases n with
  | zero => rfl
  | succ n =>
    unfold passSettled liveRecords
    rw [← List.head?_filter] at h
    cases hl : s.journal.slotRecords.filter fun x => !x.forgotten with
    | nil => rfl
    | cons r rest =>
      have := h r (by rw [hl]; rfl)
      dsimp only
      rw [if_neg (by rw [this]; decide)]

/-- The commit point passes the first slot where it has settled (R15). -/
theorem passSettled_step (n : Nat) (r : SlotRecord) (rest : List SlotRecord) (s : State)
    (h : s.journal.slotRecords = r :: rest) (hf : r.forgotten = false) (hs : r.settled = true) :
    passSettled (n + 1) s = passSettled n (passSlot r s) := by
  rw [passSettled]
  unfold liveRecords
  rw [h, List.filter_cons_of_pos (by rw [hf]; rfl)]
  dsimp only
  rw [if_pos hs]

/-- Passing the first slot moves the commit point by one (R15). -/
theorem moveCommit_first (r : SlotRecord) (rest : List SlotRecord) (s : State) (h : s.journal.slotRecords = r :: rest)
    (hv : s.journal.voidFailed = none) :
    moveCommit r s = { s with
      journal := { s.journal with commit := nextSlot s.journal s.journal.commit, slotRecords := rest } } := by
  unfold moveCommit
  dsimp only
  rw [h, hv, List.erase_cons_head]
  simp only [show ((none : Option Nat) == some r.slot) = false from rfl, Bool.or_false]
  simp

/-- A head that does not trail stays (R18). -/
theorem trailStep_of_not_trailing {s : State} (h : s.journal.trailing = false) : trailStep s = s := by
  unfold trailStep
  rw [if_neg (by rw [h]; decide)]

/-- An entry forwards at once where none waits and there is room (R35, R132). -/
theorem forwardEntry_eq (e : CaptureEntry) (recorded : Bool) (s : State) (h : s.capture.forwardWait = [])
    (k : s.down.outgoing.length < Config.outgoingPlaces) :
    forwardEntry e recorded s = { s with
      capture := { s.capture with entries := s.capture.entries.map fun x =>
        if x.id == e.id then { x with state := .forwarding, recorded := recorded } else x }
      down := { s.down with outgoing := s.down.outgoing ++ [⟨⟨e.line, .write e.mask e.data⟩, .forwarded e.id⟩] } } := by
  unfold forwardEntry queueHeld
  rw [if_pos (by unfold updateEntry hasRoom; simp only [h]; simpa using k)]
  rfl

/-- The answer to a waiting MARK (R61, R62). -/
theorem answerMark_eq (status : Status) (data : List Byte) (s : State) : answerMark status data s = { s with
    port := match s.port.slot with
      | .executing (.mark _ true) => { s.port with slot := .done ⟨status, 0x20, data⟩ }
      | _ => s.port } := by
  rcases s with ⟨_, _, _, _, _, _, _, _, _, ⟨_, _, slot, _, _⟩, _, _, _⟩
  rcases slot with _ | (⟨_, _ | _⟩ | _) | _ <;> rfl

/-- What establishing a pending mark does (R61, R64, R67, R145). -/
theorem establish_eq (c : Checkpoint) (s : State) : establish c s = { s with
    ctl := { s.ctl with
      checkpoints := s.ctl.checkpoints.map fun x =>
        if x.status == .pending then { x with status := .established } else x
      pendingMark := none, memorySuspect := false
      age := { s.ctl.age with running := true, count := 0, stale := false } }
    alerts := { s.alerts with
      latches := s.alerts.latches ||| 0x008#12
      breakUnrecorded := if s.alerts.unrecordedAt ≤ seqField c.markSeq then false else s.alerts.breakUnrecorded
      unrecordedAt := if s.alerts.unrecordedAt ≤ seqField c.markSeq then 0 else s.alerts.unrecordedAt }
    port := match s.port.slot with
      | .executing (.mark _ true) =>
          { s.port with slot := .done ⟨.ok, 0x20, bytesLE 4 c.number ++ bytesLE 8 (seqField c.markSeq)⟩ }
      | _ => s.port } := by
  unfold establish clearUnrecorded
  by_cases hq : s.alerts.unrecordedAt ≤ seqField c.markSeq
  · rw [if_pos (by exact hq)]
    simp only [hq, if_true]
    rw [answerMark_eq]
    simp only [latch, restartAge, setEstablished, alertBit]
  · rw [if_neg (by exact hq)]
    simp only [hq, if_false]
    rw [answerMark_eq]
    simp only [latch, restartAge, setEstablished, alertBit]

theorem breakCondition_capture (reason : MarkReason) (s : State) :
    (breakCondition reason s).capture = s.capture := by
  unfold breakCondition
  split <;> rfl

theorem breakCondition_checkpoints (reason : MarkReason) (s : State) :
    (breakCondition reason s).ctl.checkpoints = s.ctl.checkpoints := by
  unfold breakCondition
  split <;> rfl

/-! ### The commit point's advance, whatever it passes (R15) -/

/-- `forwardEntry` of an entry with its own mark for a record is `withForwarded`. -/
theorem forwardEntry_eq_withForwarded (e : CaptureEntry) (s : State) :
    forwardEntry e e.recorded s = withForwarded e s := by
  unfold forwardEntry queueHeld withForwarded
  by_cases room : s.capture.forwardWait = [] ∧ s.down.outgoing.length < Config.outgoingPlaces
  · rw [if_pos (by
      show (s.capture.forwardWait.isEmpty && decide (s.down.outgoing.length + 1 ≤ Config.outgoingPlaces)) = true
      rw [room.1]
      simpa using room.2)]
    simp only [if_pos room]
    rfl
  · rw [if_neg (by
      show ¬ (s.capture.forwardWait.isEmpty && decide (s.down.outgoing.length + 1 ≤ Config.outgoingPlaces)) = true
      rw [Bool.and_eq_true, List.isEmpty_iff, decide_eq_true_iff]
      exact room)]
    simp only [if_neg room]
    rfl

/-- `passSlot` is `passedSlot`. -/
theorem passSlot_eq (r : SlotRecord) (s : State) : passSlot r s = passedSlot s r := by
  have told : ∀ moved : State, moved.capture = s.capture → moved.ctl = s.ctl → tellOwner r moved = match r.owner with
      | .capture id => match entryOf s id with
        | some e => if e.state = .awaitCommit then withForwarded e moved else moved
        | none => moved
      | .mark => match pendingEntry s with
        | some c =>
            if r.header ≠ .error ∧ r.data ≠ .error ∧ c.markSlot = some r.slot then withEstablished c moved else moved
        | none => moved
      | .brk => moved := by
    intro moved hc hl
    have entry : ∀ id, entryOf moved id = entryOf s id := fun id => by unfold entryOf; rw [hc]
    have pending : pendingEntry moved = pendingEntry s := by unfold pendingEntry; rw [hl]
    unfold tellOwner
    rw [pending]
    cases r.owner with
    | capture id =>
      dsimp only
      rw [entry]
      cases entryOf s id with
      | none => rfl
      | some e =>
        dsimp only
        rw [forwardEntry_eq_withForwarded]
    | mark =>
      dsimp only
      cases pendingEntry s with
      | none => rfl
      | some c =>
        dsimp only
        have same : (r.failed = false ∧ c.markSlot = some r.slot) ↔
            (r.header ≠ .error ∧ r.data ≠ .error ∧ c.markSlot = some r.slot) := by
          rw [← Bool.not_eq_true, failed_iff]
          tauto
        by_cases k : r.failed = false ∧ c.markSlot = some r.slot
        · rw [if_pos k, if_pos (same.1 k), establish_eq]
          rfl
        · rw [if_neg k, if_neg fun q => k (same.2 q)]
    | brk => rfl
  unfold passSlot
  rw [trailStep_eq, told (moveCommit r s) rfl rfl]
  rfl

theorem passedSlot_slotRecords (s : State) (r : SlotRecord) :
    (passedSlot s r).journal.slotRecords = s.journal.slotRecords.erase r := by
  unfold passedSlot
  rw [(trailed_keeps _).2.2.2.2.2.2.1]
  split
  · split
    · split <;> rfl
    · rfl
  · split
    · split <;> rfl
    · rfl
  · rfl

/-- The commit point passes a run of settled slots (R15). -/
theorem passSettled_run : ∀ (run rest : List SlotRecord) (n : Nat) (s : State), run.length ≤ n →
    s.journal.slotRecords.filter (fun r => !r.forgotten) = run ++ rest →
    (∀ r ∈ run, r.settled = true) → (∀ r, rest.head? = some r → r.settled = false) →
    passSettled n s = run.foldl passedSlot s
  | [], rest, n, s, _, hl, _, hr => by
    refine passSettled_stop n s fun r hf => hr r ?_
    rw [← List.head?_filter, hl] at hf
    exact hf
  | r :: run, rest, 0, s, hn, _, _, _ => absurd hn (by simp)
  | r :: run, rest, n + 1, s, hn, hl, hs, hr => by
    unfold passSettled liveRecords
    rw [hl]
    dsimp only [List.cons_append]
    rw [if_pos (hs r List.mem_cons_self), passSlot_eq, List.foldl_cons]
    refine passSettled_run run rest n _ (by simpa using hn) ?_ (fun x hx => hs x (List.mem_cons_of_mem _ hx)) hr
    have live : r ∈ s.journal.slotRecords.filter fun r => !r.forgotten := by rw [hl]; simp
    rw [passedSlot_slotRecords, ← List.erase_filter, hl, List.cons_append, List.erase_cons_head]

/-- What `advanceCommit` does (R15). -/
theorem advanceCommit_eq (s : State) : CommitAdvances s (advanceCommit s) := by
  refine ⟨fun h => ?_, fun h1 h2 => ?_⟩
  · unfold advanceCommit
    rcases h with h | h <;> rw [h]
  · have step : advanceCommit s = passSettled s.journal.slotRecords.length s := by
      unfold advanceCommit
      cases hs : s.ctl.state with
      | rolling => exact absurd hs h1
      | failed => exact absurd hs h2
      | _ => rfl
    refine ⟨(liveRecords s.journal).takeWhile SlotRecord.settled, (liveRecords s.journal).dropWhile SlotRecord.settled,
      List.takeWhile_append_dropWhile.symm, fun r hr => (settled_iff r).1 (List.mem_takeWhile_imp hr), fun r hr => ?_, ?_⟩
    · have := List.head?_dropWhile_not SlotRecord.settled (liveRecords s.journal)
      rw [hr] at this
      have : r.settled = false := by simpa using this
      rw [← Bool.not_eq_true, settled_iff] at this
      tauto
    · rw [step]
      refine passSettled_run _ ((liveRecords s.journal).dropWhile SlotRecord.settled) _ s ?_
        List.takeWhile_append_dropWhile.symm (fun r hr => List.mem_takeWhile_imp hr) fun r hr => ?_
      · exact Nat.le_trans (List.takeWhile_sublist _).length_le (List.length_filter_le _ _)
      · have := List.head?_dropWhile_not SlotRecord.settled (liveRecords s.journal)
        rw [hr] at this
        simpa using this

/-- With every slot forgotten the commit point stays (R20). -/
theorem advanceCommit_of_allForgotten {s : State} (h : ∀ r ∈ s.journal.slotRecords, r.forgotten = true) :
    advanceCommit s = s := by
  have stays : ∀ n, passSettled n s = s := fun n => passSettled_stop n s fun r hr => by
    have := List.find?_some hr
    rw [h r (List.mem_of_find?_eq_some hr)] at this
    exact nomatch this
  unfold advanceCommit
  cases s.ctl.state with
  | rolling => rfl
  | failed => rfl
  | unarmed => exact stays _
  | armed => exact stays _
  | adopting => exact stays _

end Sys2Proof.Machine
end

