-- ==== Sys2Proof/Laws/Keeps.lean ====
section
/-! SUPPORT. What every shared operation leaves as it was, and the bounds it keeps: one relation, and one lemma for each
operation of Ops.lean, Marks.lean and Rollback.lean. -/

namespace Sys2Proof.Machine

set_option Elab.async false

/-- `t` comes from `s` by operations that leave the classifier, the scanner, the queue of commands, the ingress queues, the
table of outstanding requests, the reset inputs, the address, the overrun flag, the read in progress and the alert and
freeze masks as they are, deliver responses in order, add and renumber no capture entry, leave the journal's configuration, fill no more than the outgoing
queue's places, insert nothing in the filter, lower neither counter, leave no checkpoint in UNARMED or ADOPTING, and keep
the phase in step with the controller state. -/
structure Keeps (s t : State) : Prop where
  cls : t.cls = s.cls := by rfl
  scan : t.scan = s.scan := by rfl
  pending : t.pending = s.pending := by rfl
  ingress : t.up.ingress = s.up.ingress := by rfl
  credits : t.up.credits = s.up.credits := by rfl
  position : t.up.position = s.up.position := by rfl
  outstanding : t.down.outstanding = s.down.outstanding := by rfl
  sent : t.down.sent = s.down.sent := by rfl
  porstLow : t.lines.porstLow = s.lines.porstLow := by rfl
  wrstLow : t.lines.wrstLow = s.lines.wrstLow := by rfl
  straps : t.lines.straps = s.lines.straps := by rfl
  address : t.port.address = s.port.address := by rfl
  overrun : t.port.overrun = s.port.overrun := by rfl
  reading : t.port.reading = s.port.reading := by rfl
  mask : t.alerts.mask = s.alerts.mask := by rfl
  freezeMask : t.alerts.freezeMask = s.alerts.freezeMask := by rfl
  frz : t.alerts.frz = s.alerts.frz := by rfl
  fltreq : t.rollback.fltreq = s.rollback.fltreq := by rfl
  delivered : ∃ l, t.up.delivered = s.up.delivered ++ l := by exact ⟨[], (List.append_nil _).symm⟩
  entries : (t.capture.entries.map (·.id)).Sublist (s.capture.entries.map (·.id)) := by exact List.Sublist.refl _
  nextEntry : t.capture.nextEntry = s.capture.nextEntry := by rfl
  room : s.down.outgoing.length ≤ Config.outgoingPlaces → t.down.outgoing.length ≤ Config.outgoingPlaces := by exact fun h => h
  filter : t.capture.filter = s.capture.filter ∨ t.capture.filter = [] := by exact .inl rfl
  configured : t.journal.configured = s.journal.configured := by rfl
  config : t.journal.config = s.journal.config := by rfl
  seq : s.journal.seq ≤ t.journal.seq := by exact BitVec.le_refl _
  nextCheckpoint : s.journal.nextCheckpoint ≤ t.journal.nextCheckpoint := by exact BitVec.le_refl _
  quiet : NoCheckpointsWhenUnarmed s → NoCheckpointsWhenUnarmed t := by exact fun h => h
  phase : PhaseFollowsState s → PhaseFollowsState t := by exact fun h => h

namespace Keeps

theorem refl (s : State) : Keeps s s := {}

theorem trans {s t u : State} (h : Keeps s t) (k : Keeps t u) : Keeps s u where
  cls := k.cls.trans h.cls
  scan := k.scan.trans h.scan
  pending := k.pending.trans h.pending
  ingress := k.ingress.trans h.ingress
  credits := k.credits.trans h.credits
  position := k.position.trans h.position
  outstanding := k.outstanding.trans h.outstanding
  sent := k.sent.trans h.sent
  porstLow := k.porstLow.trans h.porstLow
  wrstLow := k.wrstLow.trans h.wrstLow
  straps := k.straps.trans h.straps
  address := k.address.trans h.address
  overrun := k.overrun.trans h.overrun
  reading := k.reading.trans h.reading
  mask := k.mask.trans h.mask
  freezeMask := k.freezeMask.trans h.freezeMask
  frz := k.frz.trans h.frz
  fltreq := k.fltreq.trans h.fltreq
  delivered := by
    obtain ⟨l, hl⟩ := h.delivered
    obtain ⟨m, hm⟩ := k.delivered
    exact ⟨l ++ m, by rw [hm, hl, List.append_assoc]⟩
  entries := k.entries.trans h.entries
  nextEntry := k.nextEntry.trans h.nextEntry
  room := fun hs => k.room (h.room hs)
  filter := by
    rcases k.filter with hk | hk
    · rw [hk]; exact h.filter
    · exact .inr hk
  configured := k.configured.trans h.configured
  config := k.config.trans h.config
  seq := BitVec.le_trans h.seq k.seq
  nextCheckpoint := BitVec.le_trans h.nextCheckpoint k.nextCheckpoint
  quiet := fun hs => k.quiet (h.quiet hs)
  phase := fun hs => k.phase (h.phase hs)

/-- A fold of operations that keep. -/
theorem foldl {α : Type} (f : State → α → State) (h : ∀ s a, Keeps s (f s a)) :
    ∀ (l : List α) (s : State), Keeps s (l.foldl f s)
  | [], s => refl s
  | a :: rest, s => (h s a).trans (foldl f h rest (f s a))

end Keeps

/-! ### Flags.lean -/

theorem latch_keeps (c : AlertCause) (s : State) : Keeps s (latch c s) := {}

theorem countDataError_keeps (s : State) : Keeps s (countDataError s) := {}

theorem countAbsorbed_keeps (s : State) : Keeps s (countAbsorbed s) := {}

theorem countCaptureWritten_keeps (s : State) : Keeps s (countCaptureWritten s) := {}

theorem setUnrecorded_keeps (a : SeqNo) (s : State) : Keeps s (setUnrecorded a s) := {}

theorem clearUnrecorded_keeps (a : SeqNo) (s : State) : Keeps s (clearUnrecorded a s) := by
  unfold clearUnrecorded; split
  · exact {}
  · exact .refl s

/-! ### Ops.lean -/

theorem hasRoom_iff (s : State) (k : Nat) : hasRoom s k = true ↔ s.down.outgoing.length + k ≤ Config.outgoingPlaces := by
  simp [hasRoom]

theorem enqueue_keeps (e : DownEntry) (s : State) (h : hasRoom s 1 = true) : Keeps s (enqueue e s) where
  room := fun _ => by
    have := (hasRoom_iff s 1).1 h
    simpa using this

theorem deliver_keeps (n : Fin 8) (tag : Byte) (k : ResponseKind) (s : State) : Keeps s (deliver n tag k s) where
  delivered := ⟨[⟨n, tag, k⟩], rfl⟩

theorem respond_keeps (st : Status) (echo : Byte) (data : List Byte) (s : State) : Keeps s (respond st echo data s) := {}

theorem keepExecuting_keeps (c : SlotCommand) (s : State) : Keeps s (keepExecuting c s) := {}

theorem answerMark_keeps (st : Status) (data : List Byte) (s : State) : Keeps s (answerMark st data s) := by
  unfold answerMark; split
  · exact respond_keeps _ _ _ s
  · exact .refl s

/-- Changing one entry changes no entry's number. -/
theorem updateEntry_ids (id : Nat) (f : CaptureEntry → CaptureEntry) (h : ∀ e, (f e).id = e.id) (l : List CaptureEntry) :
    (l.map fun e => if e.id == id then f e else e).map (·.id) = l.map (·.id) := by
  rw [List.map_map]
  refine List.map_congr_left fun e _ => ?_
  show (if e.id == id then f e else e).id = e.id
  split
  · exact h e
  · rfl

theorem updateEntry_keeps (id : Nat) (f : CaptureEntry → CaptureEntry) (s : State)
    (h : ∀ e, (f e).id = e.id := by intro e; first | rfl | (dsimp only; split <;> rfl)) :
    Keeps s (updateEntry id f s) where
  entries := by
    show ((s.capture.entries.map fun e => if e.id == id then f e else e).map (·.id)).Sublist _
    rw [updateEntry_ids id f h]

theorem freeEntry_keeps (id : Nat) (s : State) : Keeps s (freeEntry id s) where
  entries := List.filter_sublist.map _

theorem queueHeld_keeps (e : CaptureEntry) (s : State) : Keeps s (queueHeld e s) := by
  unfold queueHeld; split
  · rename_i h
    exact enqueue_keeps _ _ (by simp only [Bool.and_eq_true] at h; exact h.2)
  · exact {}

theorem forwardEntry_keeps (e : CaptureEntry) (b : Bool) (s : State) : Keeps s (forwardEntry e b s) :=
  (updateEntry_keeps _ _ s).trans (queueHeld_keeps e _)

theorem endHold_keeps (s : State) : Keeps s (endHold s) := by
  unfold endHold; split
  · exact {}
  · exact .refl s

theorem stopWaiting_keeps (ids : List Nat) (s : State) : Keeps s (stopWaiting ids s) := {}

theorem letGo_keeps (p : CaptureEntry → Bool) (s : State) : Keeps s (letGo p s) :=
  (stopWaiting_keeps _ s).trans ((Keeps.foldl _ (fun s e => forwardEntry_keeps e false s) _ _).trans (endHold_keeps _))

theorem putOccupancy_keeps (n : Nat) (s : State) : Keeps s (putOccupancy n s) := {}

theorem noteNearFull_keeps (s : State) : Keeps s (noteNearFull s) := {}

theorem setOccupancy_keeps (n : Nat) (s : State) : Keeps s (setOccupancy n s) := by
  unfold setOccupancy; split
  · exact (putOccupancy_keeps n s).trans (noteNearFull_keeps _)
  · exact putOccupancy_keeps n s

theorem queuePair_keeps (h d : DownEntry) (s : State) : Keeps s (queuePair h d s) := by
  unfold queuePair; split
  · rename_i hr
    simp only [Bool.and_eq_true] at hr
    have := (hasRoom_iff s 2).1 hr.2
    exact { room := fun _ => by simp; omega }
  · exact {}

/-- Adding one to a counter that does not stand at its largest value does not lower it. -/
theorem le_add_one {w : Nat} (x : BitVec w) (h : x ≠ BitVec.allOnes w) : x ≤ x + 1 := by
  have hx : x.toNat ≠ 2 ^ w - 1 := fun e => h (BitVec.eq_of_toNat_eq (by simpa using e))
  have := x.isLt
  rcases Nat.eq_zero_or_pos w with rfl | hw
  · exact absurd (BitVec.eq_of_toNat_eq (by simp at this ⊢; omega)) h
  · have h1 : (1 : BitVec w).toNat = 1 := by
      simp [Nat.mod_eq_of_lt (Nat.one_lt_two_pow (by omega : w ≠ 0))]
    rw [BitVec.le_def, BitVec.toNat_add, h1, Nat.mod_eq_of_lt (by omega)]
    omega

theorem takeSlot_keeps (o : SlotOwner) (s : State) (h : s.journal.seq ≠ 0xFFFFFFFFFFFFFFFF#64) :
    Keeps s (takeSlot o s) where
  seq := le_add_one _ h

theorem allocateSlot_keeps (o : SlotOwner) (n : CheckpointNo) (b : RecordBody) (s : State)
    (h : s.journal.seq ≠ 0xFFFFFFFFFFFFFFFF#64) : Keeps s (allocateSlot o n b s) :=
  (takeSlot_keeps o s h).trans ((setOccupancy_keeps _ _).trans (queuePair_keeps _ _ _))

theorem noteExhaustedBreak_keeps (s : State) (h : s.ctl.state = .armed) : Keeps s (noteExhaustedBreak s) where
  quiet := fun _ hu => by
    have hs : (noteExhaustedBreak s).ctl.state = s.ctl.state := rfl
    rw [hs, h] at hu
    rcases hu with hu | hu <;> cases hu

theorem exhaustBreak_keeps (s : State) : Keeps s (exhaustBreak s) := by
  unfold exhaustBreak; split
  · rename_i h
    exact (noteExhaustedBreak_keeps s h.1).trans (letGo_keeps _ _)
  · exact .refl s

theorem setExhausted_keeps (s : State) : Keeps s (setExhausted s) := {}

theorem enterExhaustion_keeps (s : State) : Keeps s (enterExhaustion s) := by
  unfold enterExhaustion; split
  · exact .refl s
  · exact (setExhausted_keeps s).trans (exhaustBreak_keeps _)

theorem moveHead_keeps (h : Nat) (b : Bool) (s : State) : Keeps s (moveHead h b s) := {}

theorem trailStep_keeps (s : State) : Keeps s (trailStep s) := by
  unfold trailStep; split
  · exact (moveHead_keeps _ _ s).trans (setOccupancy_keeps _ _)
  · exact .refl s

theorem startTrailing_keeps (s : State) : Keeps s (startTrailing s) :=
  (moveHead_keeps _ _ s).trans (trailStep_keeps _)

/-- Removing or changing checkpoints keeps an empty list empty. -/
theorem quiet_of_checkpoints {s t : State} (hs : t.ctl.state = s.ctl.state) (ho : t.ctl.openEpoch = s.ctl.openEpoch)
    (hc : s.ctl.checkpoints = [] → t.ctl.checkpoints = []) :
    NoCheckpointsWhenUnarmed s → NoCheckpointsWhenUnarmed t := by
  intro h hu
  rw [hs] at hu
  exact ⟨hc (h hu).1, by rw [ho]; exact (h hu).2⟩

/-- Changing checkpoints without making one pending keeps the phase in step. -/
theorem phase_of_checkpoints {s t : State} (hs : t.ctl.state = s.ctl.state) (hp : t.rollback.phase = s.rollback.phase)
    (hc : hasPending s = false → hasPending t = false) : PhaseFollowsState s → PhaseFollowsState t := by
  intro ⟨h1, h2, h3⟩
  refine ⟨?_, ?_, ?_⟩
  · rw [hs, hp]; exact h1
  · rw [hs, hp]; exact h2
  · rw [hs]; exact fun hu => hc (h3 hu)

/-- A list of which every entry comes from another list holds nothing pending if that list does not. -/
theorem noPending_of_subset {l m : List Checkpoint} (h : ∀ c ∈ l, c ∈ m)
    (hm : (m.any fun c => c.status == .pending) = false) : (l.any fun c => c.status == .pending) = false := by
  rw [List.any_eq_false] at hm ⊢
  exact fun c hc => hm c (h c hc)

/-- A change that keeps the status of every entry makes none pending. -/
theorem noPending_map {l : List Checkpoint} (f : Checkpoint → Checkpoint) (h : ∀ c, (f c).status = c.status)
    (hl : (l.any fun c => c.status == .pending) = false) : ((l.map f).any fun c => c.status == .pending) = false := by
  rw [List.any_map]
  simpa [Function.comp_def, h] using hl

theorem setList_keeps (l : List Checkpoint) (s : State) (h : ∀ c ∈ l, c ∈ s.ctl.checkpoints) :
    Keeps s (setList l s) where
  quiet := quiet_of_checkpoints rfl rfl (fun e => List.eq_nil_iff_forall_not_mem.2 fun c hc => by
    have := h c hc; rw [e] at this; cases this)
  phase := phase_of_checkpoints rfl rfl (noPending_of_subset h)

theorem releaseOldest_keeps (s : State) : Keeps s (releaseOldest s) := by
  unfold releaseOldest
  split
  · rename_i c next rest hl
    have h1 : Keeps s (setList (next :: rest) s) := setList_keeps _ s (fun c hc => by rw [hl]; exact List.mem_cons_of_mem _ hc)
    split
    · exact h1.trans ((moveHead_keeps _ _ _).trans (setOccupancy_keeps _ _))
    · exact h1
  · exact (setList_keeps [] s (fun _ h => by cases h)).trans (startTrailing_keeps _)

theorem forgetSlots_keeps (s : State) : Keeps s (forgetSlots s) := {}

theorem emptyJournal_keeps (s : State) : Keeps s (emptyJournal s) :=
  (forgetSlots_keeps s).trans (setOccupancy_keeps _ _)

theorem releaseEntry_keeps (s : State) (e : CaptureEntry) : Keeps s (releaseEntry s e) := by
  unfold releaseEntry; split
  · exact forwardEntry_keeps _ _ _
  · split
    · exact forwardEntry_keeps _ _ _
    · exact .refl s

theorem clearSpace_keeps (s : State) : Keeps s (clearSpace s) := {}

theorem releaseAfterEmptying_keeps (s : State) : Keeps s (releaseAfterEmptying s) :=
  (clearSpace_keeps s).trans ((Keeps.foldl _ releaseEntry_keeps _ _).trans (endHold_keeps _))

/-- The phase where the state is neither ROLLING nor FAILED. -/
theorem phase_of_calm {s : State} (h : PhaseFollowsState s) (hr : s.ctl.state ≠ .rolling) (hf : s.ctl.state ≠ .failed) :
    (s.rollback.phase ≠ .retract ∧ s.rollback.phase ≠ .undo) ∧ s.rollback.phase ≠ .stopped :=
  ⟨⟨fun e => hr (h.1.2 (.inl e)), fun e => hr (h.1.2 (.inr e))⟩, fun e => hf (h.2.1.2 e)⟩

/-- A change of state between two of UNARMED, ARMED and ADOPTING keeps the phase in step. -/
theorem phase_of_calm_change {s t : State} (hr : s.ctl.state ≠ .rolling) (hf : s.ctl.state ≠ .failed)
    (kr : t.ctl.state ≠ .rolling) (kf : t.ctl.state ≠ .failed) (hp : t.rollback.phase = s.rollback.phase) :
    PhaseFollowsState s → PhaseFollowsState t := by
  intro h
  have ⟨⟨h1, h2⟩, h3⟩ := phase_of_calm h hr hf
  refine ⟨⟨fun e => absurd e kr, ?_⟩, ⟨fun e => absurd e kf, ?_⟩, ?_⟩
  · rw [hp]; rintro (e | e)
    · exact absurd e h1
    · exact absurd e h2
  · rw [hp]; exact fun e => absurd e h3
  · rintro (e | e)
    · exact absurd e kr
    · exact absurd e kf

theorem enterUnarmed_keeps (s : State) : Keeps s (enterUnarmed s) where
  quiet := fun _ _ => ⟨rfl, rfl⟩
  phase := fun _ => by simp [PhaseFollowsState]

theorem clearFilter_keeps (s : State) : Keeps s (clearFilter s) where
  filter := .inr rfl

theorem restartAge_keeps (s : State) : Keeps s (restartAge s) := {}

theorem placeWhileRoom_keeps : ∀ (l : List DownEntry) (s : State), Keeps s (placeWhileRoom l s).2
  | [], s => .refl s
  | e :: rest, s => by
      unfold placeWhileRoom
      split
      · rename_i h
        exact (enqueue_keeps e s h).trans (placeWhileRoom_keeps rest _)
      · exact .refl s

theorem submit_keeps (w n : List DownEntry) (s : State) : Keeps s (submit w n s).2 := by
  unfold submit; split
  · exact placeWhileRoom_keeps _ _
  · exact .refl s

/-! ### Marks.lean -/

theorem setWaiting_keeps (l : List AllocRequest) (s : State) : Keeps s (setWaiting l s) := {}

theorem refuseBreak_keeps (s : State) : Keeps s (refuseBreak s) := setUnrecorded_keeps _ s

theorem allocationSpent_false {j : Journal} (h : ¬ allocationSpent j = true) : j.seq ≠ 0xFFFFFFFFFFFFFFFF#64 := by
  intro e; apply h; simp [allocationSpent, e]

theorem judgeBreak_keeps (n : CheckpointNo) (c : RecordCause) (s : State) : Keeps s (judgeBreak n c s) := by
  unfold judgeBreak
  split
  · exact (enterExhaustion_keeps s).trans (refuseBreak_keeps _)
  · rename_i h
    split
    · exact allocateSlot_keeps _ _ _ _ (allocationSpent_false h)
    · exact refuseBreak_keeps s

theorem requestBreak_keeps (b : Bool) (n : CheckpointNo) (c : RecordCause) (s : State) :
    Keeps s (requestBreak b n c s) := by
  unfold requestBreak; split
  · exact setWaiting_keeps _ s
  · exact judgeBreak_keeps _ _ _

theorem noteOpenBreak_keeps (c : RecordCause) (s : State) : Keeps s (noteOpenBreak c s) := {}

theorem breakOpen_keeps (c : RecordCause) (s : State) : Keeps s (breakOpen c s) :=
  (noteOpenBreak_keeps c s).trans ((letGo_keeps _ _).trans ((requestBreak_keeps _ _ c _).trans (latch_keeps .broken _)))

theorem noteClosingBreak_keeps (c : RecordCause) (s : State) : Keeps s (noteClosingBreak c s) := {}

theorem pendingRestarts_keeps (s : State) : Keeps s (pendingRestarts s) where
  quiet := quiet_of_checkpoints rfl rfl (fun h => by simp [pendingRestarts, h])
  phase := phase_of_checkpoints rfl rfl (noPending_of_subset fun _ h => (List.mem_filter.1 h).1)

theorem breakClosing_keeps (n : CheckpointNo) (c : RecordCause) (s : State) : Keeps s (breakClosing n c s) :=
  (noteClosingBreak_keeps c s).trans ((letGo_keeps _ _).trans ((requestBreak_keeps _ n c _).trans
    ((latch_keeps .broken _).trans ((pendingRestarts_keeps _).trans (startTrailing_keeps _)))))

theorem raiseBreak_keeps (c : RecordCause) (s : State) : Keeps s (raiseBreak c s) := by
  unfold raiseBreak
  split
  · split
    · split
      · exact .refl s
      · exact breakOpen_keeps _ _
    · split
      · exact .refl s
      · exact breakClosing_keeps _ _ _
  · exact .refl s

theorem countCapture_keeps (n : CheckpointNo) (s : State) : Keeps s (countCapture n s) where
  quiet := quiet_of_checkpoints rfl rfl (fun h => by simp [h])
  phase := phase_of_checkpoints rfl rfl (noPending_map _ fun c => by split <;> rfl)

theorem leaveSpace_keeps (id : Nat) (s : State) : Keeps s (leaveSpace id s) := {}

theorem grantCapture_keeps (e : CaptureEntry) (s : State) (h : s.journal.seq ≠ 0xFFFFFFFFFFFFFFFF#64) :
    Keeps s (grantCapture e s) :=
  (allocateSlot_keeps _ _ _ s h).trans ((leaveSpace_keeps _ _).trans ((updateEntry_keeps _ _ _).trans
    ((countCapture_keeps _ _).trans (endHold_keeps _))))

theorem enterSpace_keeps (id : Nat) (s : State) : Keeps s (enterSpace id s) :=
  (updateEntry_keeps id (fun x => { x with state := .awaitSpace }) s).trans {}

theorem beginHold_keeps (s : State) : Keeps s (beginHold s) := {}

theorem joinSpace_keeps (id : Nat) (s : State) : Keeps s (joinSpace id s) := by
  unfold joinSpace
  split
  · exact .refl s
  · split
    · exact (enterSpace_keeps id s).trans (beginHold_keeps _)
    · exact enterSpace_keeps id s

theorem judgeCapture_keeps (id : Nat) (s : State) : Keeps s (judgeCapture id s) := by
  unfold judgeCapture
  split
  · exact .refl s
  · split
    · exact .refl s
    · split
      · exact (enterExhaustion_keeps s).trans ((exhaustBreak_keeps _).trans (letGo_keeps _ _))
      · rename_i h
        split
        · exact grantCapture_keeps _ _ (allocationSpent_false h)
        · split
          · exact (raiseBreak_keeps _ _).trans (letGo_keeps _ _)
          · exact joinSpace_keeps _ _

theorem requestCapture_keeps (id : Nat) (s : State) : Keeps s (requestCapture id s) := by
  unfold requestCapture; split
  · exact setWaiting_keeps _ s
  · exact judgeCapture_keeps _ _

theorem askCapture_keeps (id : Nat) (s : State) : Keeps s (askCapture id s) := by
  unfold askCapture
  split
  · exact .refl s
  · split
    · exact .refl s
    · split
      · exact requestCapture_keeps _ _
      · exact joinSpace_keeps _ _

theorem grantSpace_keeps : ∀ (n : Nat) (s : State), Keeps s (grantSpace n s)
  | 0, s => .refl s
  | n + 1, s => by
      unfold grantSpace
      split
      · exact .refl s
      · split
        · exact (requestCapture_keeps _ _).trans (grantSpace_keeps n _)
        · exact .refl s

theorem setEstablished_keeps (s : State) : Keeps s (setEstablished s) where
  quiet := quiet_of_checkpoints rfl rfl (fun h => by simp [setEstablished, h])
  phase := phase_of_checkpoints rfl rfl (fun _ => by
    simp only [hasPending, setEstablished, List.any_map, List.any_eq_false]
    intro c _
    by_cases e : c.status = .pending
    · simp [e]
    · simp [e])

theorem establish_keeps (c : Checkpoint) (s : State) : Keeps s (establish c s) :=
  (setEstablished_keeps s).trans ((clearUnrecorded_keeps _ _).trans ((restartAge_keeps _).trans
    ((latch_keeps .marked _).trans (answerMark_keeps _ _ _))))

theorem breakCondition_keeps (r : MarkReason) (s : State) : Keeps s (breakCondition r s) := by
  unfold breakCondition; split
  · exact .refl s
  · exact {}

theorem breakByMark_keeps (r : MarkReason) (s : State) : Keeps s (breakByMark r s) :=
  (breakCondition_keeps r s).trans ((latch_keeps .broken _).trans (letGo_keeps _ _))

theorem removePending_keeps (c : Checkpoint) (r : MarkReason) (s : State) : Keeps s (removePending c r s) where
  quiet := quiet_of_checkpoints rfl rfl (fun h => by simp [removePending, h])
  phase := phase_of_checkpoints rfl rfl (noPending_of_subset fun _ h => (List.mem_filter.1 h).1)

theorem dropCheckpoints_keeps (s : State) : Keeps s (dropCheckpoints s) :=
  (emptyJournal_keeps s).trans ((clearFilter_keeps _).trans ((releaseAfterEmptying_keeps _).trans
    (enterUnarmed_keeps _)))

theorem failMark_keeps (r : MarkReason) (s : State) : Keeps s (failMark r s) := by
  unfold failMark
  split
  · exact .refl s
  · rename_i c hc
    have h2 := (removePending_keeps c r s).trans ((latch_keeps .markRefused _).trans
      (answerMark_keeps (failStatus r) [] _))
    dsimp only
    split
    · exact h2.trans (dropCheckpoints_keeps _)
    · exact h2.trans (breakByMark_keeps _ _)

theorem placeMark_keeps (slot : Nat) (seq : SeqNo) (s : State) : Keeps s (placeMark slot seq s) where
  quiet := quiet_of_checkpoints rfl rfl (fun h => by simp [placeMark, h])
  phase := phase_of_checkpoints rfl rfl (noPending_map _ fun c => by split <;> rfl)

theorem askWaiting_keeps (s : State) : Keeps s (askWaiting s) :=
  Keeps.foldl _ (fun s id => askCapture_keeps id s) _ _

theorem grantMark_keeps (c : Checkpoint) (s : State) (h : s.journal.seq ≠ 0xFFFFFFFFFFFFFFFF#64) :
    Keeps s (grantMark c s) :=
  (allocateSlot_keeps _ _ _ s h).trans ((placeMark_keeps _ _ _).trans ((trailStep_keeps _).trans
    (askWaiting_keeps _)))

theorem judgeMark_keeps (s : State) : Keeps s (judgeMark s) := by
  unfold judgeMark
  split
  · exact .refl s
  · split
    · exact (enterExhaustion_keeps s).trans (failMark_keeps _ _)
    · rename_i h
      split
      · exact grantMark_keeps _ _ (allocationSpent_false h)
      · exact failMark_keeps _ _

theorem requestMark_keeps (s : State) : Keeps s (requestMark s) := by
  unfold requestMark; split
  · exact setWaiting_keeps _ s
  · exact judgeMark_keeps s

theorem reportClosing_keeps (s : State) : Keeps s (reportClosing s) := by
  unfold reportClosing
  split
  · exact .refl s
  · split
    · exact requestMark_keeps s
    · exact .refl s

theorem afterSpace_keeps (s : State) : Keeps s (afterSpace s) :=
  (grantSpace_keeps _ s).trans (reportClosing_keeps _)

theorem judgeRequest_keeps (r : AllocRequest) (s : State) : Keeps s (judgeRequest r s) := by
  unfold judgeRequest; split
  · exact judgeCapture_keeps _ _
  · exact judgeMark_keeps _
  · exact judgeBreak_keeps _ _ _

theorem judgeWaiting_keeps : ∀ (n : Nat) (s : State), Keeps s (judgeWaiting n s)
  | 0, s => .refl s
  | n + 1, s => by
      unfold judgeWaiting
      split
      · exact .refl s
      · split
        · exact .refl s
        · exact (setWaiting_keeps _ s).trans ((judgeRequest_keeps _ _).trans (judgeWaiting_keeps n _))

theorem noteRefused_keeps (src : MarkSource) (v : BitVec 64) (r : MarkReason) (s : State) :
    Keeps s (noteRefused src v r s) := {}

theorem refuseMark_keeps (src : MarkSource) (v : BitVec 64) (r : MarkReason) (s : State) :
    Keeps s (refuseMark src v r s) := by
  unfold refuseMark
  split
  · exact (enterExhaustion_keeps s).trans (noteRefused_keeps _ _ _ _)
  · exact noteRefused_keeps _ _ _ s

theorem makeRoom_keeps (b : Bool) (s : State) : Keeps s (makeRoom b s) := by
  unfold makeRoom
  split
  · split
    · exact .refl s
    · exact (setList_keeps [] s (fun _ h => by cases h)).trans (startTrailing_keeps _)
  · split
    · exact releaseOldest_keeps s
    · exact .refl s

@[simp] theorem setOccupancy_nextCheckpoint (n : Nat) (s : State) :
    (setOccupancy n s).journal.nextCheckpoint = s.journal.nextCheckpoint := by
  unfold setOccupancy; split <;> rfl

@[simp] theorem trailStep_nextCheckpoint (s : State) :
    (trailStep s).journal.nextCheckpoint = s.journal.nextCheckpoint := by
  unfold trailStep; split
  · exact setOccupancy_nextCheckpoint _ _
  · rfl

@[simp] theorem releaseOldest_nextCheckpoint (s : State) :
    (releaseOldest s).journal.nextCheckpoint = s.journal.nextCheckpoint := by
  unfold releaseOldest
  split
  · split
    · exact setOccupancy_nextCheckpoint _ _
    · rfl
  · exact trailStep_nextCheckpoint _

@[simp] theorem makeRoom_nextCheckpoint (b : Bool) (s : State) :
    (makeRoom b s).journal.nextCheckpoint = s.journal.nextCheckpoint := by
  unfold makeRoom
  split
  · split
    · rfl
    · exact trailStep_nextCheckpoint _
  · split
    · exact releaseOldest_nextCheckpoint s
    · rfl

theorem setOccupancy_ctl (n : Nat) (s : State) : (setOccupancy n s).ctl = s.ctl := by
  unfold setOccupancy; split <;> rfl

theorem trailStep_ctl (s : State) : (trailStep s).ctl = s.ctl := by
  unfold trailStep; split
  · exact setOccupancy_ctl _ _
  · rfl

theorem makeRoom_ctl_state (b : Bool) (s : State) : (makeRoom b s).ctl.state = s.ctl.state := by
  unfold makeRoom
  split
  · split
    · rfl
    · unfold startTrailing; rw [trailStep_ctl]; rfl
  · split
    · unfold releaseOldest
      split
      · split
        · rw [setOccupancy_ctl]; rfl
        · rfl
      · unfold startTrailing; rw [trailStep_ctl]; rfl
    · rfl

theorem gateClosed_of_state {s t : State} (h : t.ctl.state = s.ctl.state) : gateClosed t = gateClosed s := by
  unfold gateClosed; rw [h]

theorem closeEpoch_keeps (b : Bool) (s : State) : Keeps s (closeEpoch b s) where
  filter := .inr rfl

theorem appendPending_keeps (src : MarkSource) (v : BitVec 64) (p : PendingMark) (b : Bool) (s : State)
    (h : s.journal.nextCheckpoint ≠ 0xFFFFFFFF#32) (hg : gateClosed s = false) :
    Keeps s (appendPending src v p b s) where
  phase := phase_of_calm_change (fun e => by simp [gateClosed, e] at hg) (fun e => by simp [gateClosed, e] at hg)
    (by simp [appendPending]) (by simp [appendPending]) rfl
  nextCheckpoint := le_add_one _ h
  quiet := fun _ hu => by rcases hu with hu | hu <;> cases hu

theorem markPoint_keeps (src : MarkSource) (v : BitVec 64) (s : State)
    (h : s.journal.nextCheckpoint ≠ 0xFFFFFFFF#32) (hg : gateClosed s = false) : Keeps s (markPoint src v s) :=
  (closeEpoch_keeps _ s).trans ((makeRoom_keeps _ _).trans
    (appendPending_keeps src v _ _ _ (by rw [makeRoom_nextCheckpoint]; exact h)
      (by rw [gateClosed_of_state (makeRoom_ctl_state _ _)]; exact hg)))

theorem markVerdict_taken {s : State} (h : markVerdict s = .taken) :
    gateClosed s = false ∧ s.journal.configured = true ∧ countersSpent s.journal = false ∧ hasPending s = false := by
  unfold markVerdict at h
  split at h <;> try contradiction
  split at h <;> try contradiction
  split at h <;> try contradiction
  split at h <;> try contradiction
  simp_all

theorem nextCheckpoint_of_taken {s : State} (h : markVerdict s = .taken) :
    s.journal.nextCheckpoint ≠ 0xFFFFFFFF#32 := by
  have := (markVerdict_taken h).2.2.1
  intro e
  simp [countersSpent, e] at this

theorem requestMarkFrom_keeps (src : MarkSource) (v : BitVec 64) (s : State) : Keeps s (requestMarkFrom src v s) := by
  unfold requestMarkFrom
  split
  · exact refuseMark_keeps _ _ _ _
  · exact .refl s
  · rename_i h
    exact markPoint_keeps _ _ _ (nextCheckpoint_of_taken h) (markVerdict_taken h).1

theorem judgeMarkCommand_keeps (v : BitVec 64) (s : State) : Keeps s (judgeMarkCommand v s) := by
  unfold judgeMarkCommand
  split
  · exact (refuseMark_keeps _ _ _ _).trans (respond_keeps _ _ _ _)
  · exact keepExecuting_keeps _ _
  · rename_i h
    exact (keepExecuting_keeps _ s).trans (markPoint_keeps _ _ _ (nextCheckpoint_of_taken h) (markVerdict_taken h).1)

theorem tellOwner_keeps (r : SlotRecord) (s : State) : Keeps s (tellOwner r s) := by
  unfold tellOwner
  split
  · split
    · split
      · exact forwardEntry_keeps _ _ _
      · exact .refl s
    · exact .refl s
  · split
    · split
      · exact establish_keeps _ _
      · exact .refl s
    · exact .refl s
  · exact .refl s

theorem moveCommit_keeps (r : SlotRecord) (s : State) : Keeps s (moveCommit r s) := {}

theorem passSlot_keeps (r : SlotRecord) (s : State) : Keeps s (passSlot r s) :=
  (moveCommit_keeps r s).trans ((tellOwner_keeps r _).trans (trailStep_keeps _))

theorem passSettled_keeps : ∀ (n : Nat) (s : State), Keeps s (passSettled n s)
  | 0, s => .refl s
  | n + 1, s => by
      unfold passSettled
      split
      · exact .refl s
      · split
        · exact (passSlot_keeps _ _).trans (passSettled_keeps n _)
        · exact .refl s

theorem advanceCommit_keeps (s : State) : Keeps s (advanceCommit s) := by
  unfold advanceCommit
  split
  · exact .refl s
  · exact .refl s
  all_goals exact passSettled_keeps _ _

theorem reportSettled_keeps (r : SlotRecord) (s : State) : Keeps s (reportSettled r s) := by
  unfold reportSettled
  split
  · dsimp only
    split
    · exact (updateEntry_keeps _ _ _ (fun e => by split <;> rfl)).trans (raiseBreak_keeps _ _)
    · split
      · exact (updateEntry_keeps _ _ _ (fun e => by split <;> rfl)).trans (countCaptureWritten_keeps _)
      · exact updateEntry_keeps _ _ _ (fun e => by split <;> rfl)
  · split
    · split
      · exact failMark_keeps _ _
      · exact .refl s
    · exact .refl s
  · split
    · exact setUnrecorded_keeps _ _
    · exact .refl s

theorem eraseSlot_keeps (r : SlotRecord) (s : State) : Keeps s (eraseSlot r s) := {}

theorem dropForgotten_keeps (r : SlotRecord) (s : State) : Keeps s (dropForgotten r s) := by
  unfold dropForgotten
  split
  · split
    · split
      · exact (eraseSlot_keeps r s).trans (forwardEntry_keeps _ _ _)
      · exact eraseSlot_keeps r s
    · exact eraseSlot_keeps r s
  · exact eraseSlot_keeps r s
  · exact eraseSlot_keeps r s

theorem replaceSlot_keeps (r r' : SlotRecord) (s : State) : Keeps s (replaceSlot r r' s) := {}

theorem journalWriteDone_keeps (slot : Nat) (half : Half) (error : Bool) (s : State) :
    Keeps s (journalWriteDone slot half error s) := by
  unfold journalWriteDone
  split
  · exact .refl s
  · dsimp only
    split
    · split
      · exact (replaceSlot_keeps _ _ s).trans (dropForgotten_keeps _ _)
      · exact (replaceSlot_keeps _ _ s).trans ((reportSettled_keeps _ _).trans (advanceCommit_keeps _))
    · exact replaceSlot_keeps _ _ s

/-! ### Rollback.lean -/

theorem dropCancelled_keeps (s : State) : Keeps s (dropCancelled s) where
  entries := List.filter_sublist.map _

theorem retractEntries_keeps (s : State) : Keeps s (retractEntries s) :=
  (Keeps.foldl _ (fun s (e : CaptureEntry) => deliver_keeps e.initiator e.tag .retracted s) _ _).trans (dropCancelled_keeps _)

theorem fixTarget_keeps (o : Origin) (c : Checkpoint) (s : State) (h : hasPending s = false) :
    Keeps s (fixTarget o c s) where
  phase := fun _ => ⟨by simp [fixTarget], by simp [fixTarget], fun _ => h⟩
  quiet := fun _ hu => by rcases hu with hu | hu <;> cases hu

theorem startRollback_keeps (o : Origin) (c : Checkpoint) (s : State) (h : hasPending s = false) :
    Keeps s (startRollback o c s) :=
  (fixTarget_keeps o c s h).trans (retractEntries_keeps _)

theorem moveTailBack_keeps (slot : Nat) (s : State) : Keeps s (moveTailBack slot s) := {}

theorem truncate_keeps (slot : Nat) (s : State) : Keeps s (truncate slot s) :=
  (moveTailBack_keeps slot s).trans (setOccupancy_keeps _ _)

theorem reopenTarget_keeps (t : Target) (b : Bool) (s : State) : Keeps s (reopenTarget t b s) where
  filter := .inr rfl
  quiet := fun _ hu => by rcases hu with hu | hu <;> cases hu
  phase := fun _ => by simp [PhaseFollowsState, reopenTarget]

theorem settle_keeps (b : Bool) (s : State) : Keeps s (settle b s) := by
  unfold settle
  split
  · exact .refl s
  · exact (truncate_keeps _ s).trans ((reopenTarget_keeps _ b _).trans ((restartAge_keeps _).trans
      (latch_keeps .rollbackDone _)))

theorem undoSubmit_keeps (l : List DownEntry) (s : State) : Keeps s (undoSubmit l s) := by
  have h := submit_keeps s.rollback.undoWait l s
  exact h.trans (u := undoSubmit l s) {}

theorem clearPair_keeps (s : State) : Keeps s (clearPair s) := {}

theorem readSlot_keeps (slot : Nat) (s : State) : Keeps s (readSlot slot s) :=
  (clearPair_keeps s).trans (undoSubmit_keeps _ _)

theorem placeVoidWrite_keeps (n : Nat) (s : State) : Keeps s (placeVoidWrite n s) := undoSubmit_keeps _ _

theorem enterUndo_keeps (p : Nat) (s : State) (h : s.rollback.phase = .retract) : Keeps s (enterUndo p s) where
  phase := fun hs => by
    have hr : s.ctl.state = .rolling := hs.1.2 (.inl h)
    exact ⟨by simp [enterUndo, hr], by simp [enterUndo, hr], fun _ => hs.2.2 (.inl hr)⟩

theorem beginUndo_keeps (s : State) (h : s.rollback.phase = .retract) : Keeps s (beginUndo s) := by
  unfold beginUndo
  split
  · exact .refl s
  · dsimp only
    split
    · exact (enterUndo_keeps _ s h).trans (settle_keeps _ _)
    · exact (enterUndo_keeps _ s h).trans (readSlot_keeps _ _)

theorem checkRetraction_keeps (s : State) : Keeps s (checkRetraction s) := by
  unfold checkRetraction; split
  · rename_i h
    exact beginUndo_keeps s h.1
  · exact .refl s

theorem countSlot_keeps (seq : SeqNo) (p : Nat) (s : State) : Keeps s (countSlot seq p s) := {}

theorem slotDone_keeps (seq : SeqNo) (s : State) : Keeps s (slotDone seq s) := by
  unfold slotDone
  split
  · dsimp only
    split
    · exact (countSlot_keeps seq _ s).trans (placeVoidWrite_keeps _ _)
    · exact (countSlot_keeps seq _ s).trans (readSlot_keeps _ _)
  · exact .refl s

theorem noteFailure_keeps (p : Nat) (c : WalkCause) (s : State) (h : s.ctl.state = .rolling) :
    Keeps s (noteFailure p c s) where
  phase := fun hs => ⟨by simp [noteFailure], by simp [noteFailure], fun _ => hs.2.2 (.inl h)⟩
  quiet := fun _ hu => by rcases hu with hu | hu <;> cases hu

theorem stopWalk_keeps (c : WalkCause) (s : State) (hr : s.ctl.state = .rolling) : Keeps s (stopWalk c s) := by
  unfold stopWalk
  split
  · exact .refl s
  · exact (noteFailure_keeps _ c s hr).trans (latch_keeps .rollbackFailed _)

theorem placeUndoWrite_keeps (slot : Nat) (seq : SeqNo) (line : LineAddr) (old : LineData) (s : State) :
    Keeps s (placeUndoWrite slot seq line old s) :=
  Keeps.trans (t := { s with rollback := { s.rollback with current := some seq } }) {} (undoSubmit_keeps _ _)

theorem removeMatched_keeps (n : CheckpointNo) (slot : Nat) (seq : SeqNo) (s : State) :
    Keeps s (removeMatched n slot seq s) :=
  setList_keeps _ s (fun _ h => (List.mem_filter.1 h).1)

theorem undoRecord_keeps (slot : Nat) (seq : SeqNo) (n : CheckpointNo) (b : RecordBody) (s : State) (hr : s.ctl.state = .rolling) :
    Keeps s (undoRecord slot seq n b s) := by
  unfold undoRecord
  split
  · split
    · exact placeUndoWrite_keeps _ _ _ _ _
    · exact stopWalk_keeps _ _ hr
  · split
    · exact (removeMatched_keeps _ _ _ s).trans (slotDone_keeps _ _)
    · exact stopWalk_keeps _ _ hr
  · exact stopWalk_keeps _ _ hr

theorem undoSlot_keeps (h d : LineData) (s : State) (hr : s.ctl.state = .rolling) : Keeps s (undoSlot h d s) := by
  unfold undoSlot
  split
  · split
    · exact stopWalk_keeps _ _ hr
    · split
      · exact stopWalk_keeps _ _ hr
      · split
        · exact stopWalk_keeps _ _ hr
        · split
          · exact undoRecord_keeps _ _ _ _ _ hr
          · exact stopWalk_keeps _ _ hr
  · exact .refl s

theorem storePair_keeps (half : Half) (r : ReadResult) (s : State) : Keeps s (storePair half r s) := {}

theorem judgePair_keeps (s : State) (hr : s.ctl.state = .rolling) : Keeps s (judgePair s) := by
  unfold judgePair
  split
  · exact undoSlot_keeps _ _ _ hr
  · exact stopWalk_keeps _ _ hr
  · exact .refl s

theorem undoReadDone_keeps (half : Half) (r : ReadResult) (s : State) (hr : s.ctl.state = .rolling) : Keeps s (undoReadDone half r s) :=
  (storePair_keeps half r s).trans (judgePair_keeps _ hr)

theorem refuseLine_keeps (r : LineRefusal) (s : State) : Keeps s (refuseLine r s) := {}

theorem setLineRequest_keeps (b : Bool) (s : State) : Keeps s (setLineRequest b s) := {}

theorem absorbInRolling_keeps (s : State) : Keeps s (absorbInRolling s) := {}

theorem judgeArmedLine_keeps (s : State) : Keeps s (judgeArmedLine s) := by
  unfold judgeArmedLine
  split
  · exact setLineRequest_keeps _ s
  · rename_i hp
    rw [Bool.not_eq_true] at hp
    split
    · exact refuseLine_keeps _ s
    · split
      · exact startRollback_keeps _ _ s hp
      · exact refuseLine_keeps _ s

theorem judgeLine_keeps (s : State) : Keeps s (judgeLine s) := by
  unfold judgeLine
  split
  · exact (setLineRequest_keeps false s).trans (refuseLine_keeps _ _)
  · exact (setLineRequest_keeps false s).trans (judgeArmedLine_keeps _)
  · exact (setLineRequest_keeps false s).trans (absorbInRolling_keeps _)
  · exact (setLineRequest_keeps false s).trans (refuseLine_keeps _ _)
  · exact setLineRequest_keeps true s

theorem judgeRollback_keeps (d : Byte) (s : State) : Keeps s (judgeRollback d s) := by
  unfold judgeRollback
  split
  · exact respond_keeps _ _ _ _
  · exact respond_keeps _ _ _ _
  · exact respond_keeps _ _ _ _
  · exact respond_keeps _ _ _ _
  · split
    · exact respond_keeps _ _ _ _
    · split
      · exact keepExecuting_keeps _ _
      · rename_i hp
        rw [Bool.not_eq_true] at hp
        split
        · exact respond_keeps _ _ _ _
        · split
          · exact respond_keeps _ _ _ _
          · exact (respond_keeps _ _ _ s).trans (startRollback_keeps _ _ _ hp)

theorem judgeCommand_keeps (c : SlotCommand) (s : State) : Keeps s (judgeCommand c s) := by
  unfold judgeCommand
  split
  · exact judgeMarkCommand_keeps _ _
  · exact judgeRollback_keeps _ _

theorem takeFree_keeps (s : State) : Keeps s (takeFree s) := {}

theorem judgeWaiter_keeps (s : State) : Keeps s (judgeWaiter s) := by
  unfold judgeWaiter
  split
  · exact .refl s
  · split
    · exact .refl s
    · exact judgeLine_keeps s
    · exact judgeCommand_keeps _ s
    · split
      · exact (takeFree_keeps s).trans (judgeLine_keeps _)
      · exact (takeFree_keeps s).trans (judgeCommand_keeps _ _)

theorem setPhase_keeps (s : State) : Keeps s (setPhase s) := by
  unfold setPhase; split
  · exact .refl s
  · rename_i h
    rw [not_or] at h
    refine { phase := fun hs => ⟨⟨fun e => absurd e h.1, ?_⟩, ⟨fun e => absurd e h.2, ?_⟩, hs.2.2⟩ }
    · dsimp only; split <;> simp
    · dsimp only; split <;> simp

theorem inTurn_keeps (judge : State → State) (h : ∀ s, Keeps s (judge s)) (s : State) : Keeps s (inTurn judge s) := by
  unfold inTurn
  split
  · split
    · exact takeFree_keeps s
    · exact (takeFree_keeps s).trans (h _)
  · exact h s

theorem judgeNext_keeps (s : State) : Keeps s (judgeNext s) := (judgeWaiter_keeps s).trans (afterSpace_keeps _)

theorem closeEvent_keeps (s : State) : Keeps s (closeEvent s) := (checkRetraction_keeps s).trans (setPhase_keeps _)

theorem finish_keeps (s : State) : Keeps s (finish s) :=
  (afterSpace_keeps _).trans ((inTurn_keeps _ (fun s => (judgeNext_keeps s).trans (inTurn_keeps _ judgeNext_keeps _)) _).trans
    (closeEvent_keeps _))

theorem finishScan_keeps (s : State) : Keeps s (finishScan s) :=
  (afterSpace_keeps _).trans ((judgeNext_keeps _).trans ((judgeNext_keeps _).trans (closeEvent_keeps _)))

end Sys2Proof.Machine
end

