-- ==== Sys2Proof/Laws/Rest.lean ====
section
/-! SUPPORT. When nothing is due, the end of an event changes nothing: one lemma for each of its parts. -/

namespace Sys2Proof.Machine

theorem grantSpace_of_atRest (n : Nat) (s : State) (h : SpaceAtRest s) : grantSpace n s = s := by
  cases n with
  | zero => rfl
  | succ n =>
    unfold grantSpace
    split
    · rfl
    · rename_i first rest hw
      rcases h first (by rw [hw]; rfl) with h | h
      · rw [if_neg (fun k => absurd k.1 (Nat.not_lt.2 h))]
      · rw [if_neg (fun k => by rw [h] at k; cases k.2)]

theorem reportClosing_of_atRest (s : State) (h : ReportAtRest s) : reportClosing s = s := by
  unfold reportClosing
  split
  · rfl
  · rename_i c hc
    rw [if_neg]
    rintro ⟨h1, h2, h3⟩
    rcases h c hc with h | h | ⟨epoch, hx, e, he, hp, hq⟩
    · exact h h1
    · rw [h] at h2; cases h2
    · unfold closingClear at h3
      rw [hx] at h3
      have := List.all_eq_true.1 h3 e he
      simp [hp, hq] at this

theorem afterSpace_of_atRest (s : State) (h : SpaceAtRest s) (k : ReportAtRest s) : afterSpace s = s := by
  unfold afterSpace
  rw [grantSpace_of_atRest _ s h, reportClosing_of_atRest s k]

theorem judgeWaiter_of_atRest (s : State) (h : WaitersAtRest s) : judgeWaiter s = s := by
  unfold judgeWaiter
  rcases h with h | h | ⟨h, k⟩
  · rw [if_pos (.inl h)]
  · rw [if_pos (.inr h)]
  · split
    · rfl
    · rw [h, k]

theorem setPhase_of_atRest (s : State) (h : PhaseAtRest s) : setPhase s = s := by
  unfold setPhase
  rcases h with h | h | h
  · rw [if_pos (.inl h)]
  · rw [if_pos (.inr h)]
  · split
    · rfl
    · rw [← h]

theorem checkRetraction_of_not (s : State) (h : s.rollback.phase = .retract → retractionDone s = false) :
    checkRetraction s = s := by
  unfold checkRetraction
  rw [if_neg]
  rintro ⟨h1, h2⟩
  rw [h h1] at h2
  cases h2

/-- Where no request is due no marker write can lead (R55). -/
theorem markerMayLead_of_atRest (s : State) (h : WaitersAtRest s) : markerMayLead s = false := by
  unfold markerMayLead
  rcases h with h | h | ⟨h, k⟩
  · rw [h]; simp
  · rw [h]; rfl
  · rw [h, k]; simp

/-- Where no marker write can lead, the waiting requests are judged. -/
theorem inTurn_of_not {s : State} (judge : State → State) (h : markerMayLead s = false) : inTurn judge s = judge s := by
  unfold inTurn
  rw [h]
  rfl

theorem judgeNext_of_atRest (s : State) (h : SpaceAtRest s) (k : ReportAtRest s) (w : WaitersAtRest s) :
    judgeNext s = s := by
  unfold judgeNext
  rw [judgeWaiter_of_atRest s w, afterSpace_of_atRest s h k]

/-- At rest, and with no retraction to end, the end of an event changes nothing. -/
theorem finish_of_atRest (s : State) (h : AtRest s) (k : s.rollback.phase = .retract → retractionDone s = false) :
    finish s = s ∧ finishScan s = s := by
  have next := judgeNext_of_atRest s h.1 h.2.1 h.2.2.1
  have lead := markerMayLead_of_atRest s h.2.2.1
  have close : closeEvent s = s := by
    unfold closeEvent
    rw [checkRetraction_of_not s k, setPhase_of_atRest s h.2.2.2]
  unfold finish finishScan
  rw [afterSpace_of_atRest s h.1 h.2.1, inTurn_of_not _ lead]
  rw [next, inTurn_of_not _ lead, next]
  exact ⟨close, close⟩

end Sys2Proof.Machine
end

