-- ==== Sys2Proof/Laws/Ends.lean ====
section
/-! SUPPORT. What the end of an event does where something is due: states in which no request waits, and the slots of
several captures granted in one event (R32, R41, R55, R60, R73). -/

namespace Sys2Proof.Machine

set_option Elab.async false

/-! ### States in which no request waits -/

/-- No entry waits for space, no command waits to be judged, and a line request does or does not. -/
structure Waits (line : Bool) (s : State) : Prop where
  space   : s.capture.spaceWait = []
  line    : s.rollback.pendingLine = line
  command : waitingCommand s = none

/-- No request waits to be judged, and no entry for space. -/
abbrev NoneWait (s : State) : Prop := Waits false s

namespace Waits

variable {line : Bool}

/-- An operation that leaves the lists of the waiting keeps it. -/
theorem same {s t : State} (h : Waits line s) (a : t.capture.spaceWait = s.capture.spaceWait)
    (b : t.rollback.pendingLine = s.rollback.pendingLine) (c : t.port = s.port) : Waits line t where
  space := by rw [a, h.space]
  line := by rw [b, h.line]
  command := by
    have := h.command
    unfold waitingCommand at *
    rw [c]
    exact this

theorem forwardEntry {s : State} (e : CaptureEntry) (recorded : Bool) (h : Waits line s) :
    Waits line (forwardEntry e recorded s) := by
  unfold Machine.forwardEntry queueHeld
  dsimp only
  split <;> exact h.same rfl rfl rfl

theorem foldl_forwardEntry (recorded : CaptureEntry → Bool) : ∀ (l : List CaptureEntry) (s : State), Waits line s →
    Waits line (l.foldl (fun s e => Machine.forwardEntry e (recorded e) s) s)
  | [], _, h => h
  | e :: l, _, h => foldl_forwardEntry recorded l _ (h.forwardEntry e (recorded e))

theorem endHold {s : State} (h : Waits line s) : Waits line (endHold s) := by
  unfold Machine.endHold
  split <;> exact h.same rfl rfl rfl

theorem letGo {s : State} (p : CaptureEntry → Bool) (h : Waits line s) : Waits line (letGo p s) := by
  unfold Machine.letGo
  refine (foldl_forwardEntry (fun _ => false) _ _ ?_).endHold
  exact ⟨by show s.capture.spaceWait.filter _ = []; rw [h.space]; rfl, h.line, h.command⟩

theorem enterExhaustion {s : State} (h : Waits line s) : Waits line (enterExhaustion s) := by
  unfold Machine.enterExhaustion exhaustBreak
  split
  · exact h
  · split
    · refine letGo _ ?_
      exact h.same rfl rfl rfl
    · exact h.same rfl rfl rfl

theorem answerMark {s : State} (status : Status) (data : List Byte) (h : Waits line s) :
    Waits line (answerMark status data s) := by
  unfold Machine.answerMark
  split
  · exact ⟨h.space, h.line, rfl⟩
  · exact h

theorem setOccupancy {s : State} (n : Nat) (h : Waits line s) : Waits line (setOccupancy n s) := by
  unfold Machine.setOccupancy
  split <;> exact h.same rfl rfl rfl

theorem releaseAfterEmptying {s : State} (h : Waits line s) : Waits line (releaseAfterEmptying s) := by
  unfold Machine.releaseAfterEmptying
  refine endHold ?_
  have : Waits line (clearSpace s) := ⟨rfl, h.line, h.command⟩
  generalize leavingOrder s = l
  revert this
  generalize clearSpace s = t
  intro ht
  induction l generalizing t with
  | nil => exact ht
  | cons e l ih =>
    apply ih
    unfold releaseEntry
    split
    · exact ht.forwardEntry _ _
    · split
      · exact ht.forwardEntry _ _
      · exact ht

theorem dropCheckpoints {s : State} (h : Waits line s) : Waits line (dropCheckpoints s) := by
  unfold Machine.dropCheckpoints
  refine (releaseAfterEmptying ?_).same rfl rfl rfl
  have : Waits line (emptyJournal s) := by
    unfold emptyJournal
    refine setOccupancy _ ?_
    exact h.same rfl rfl rfl
  exact this.same rfl rfl rfl

theorem failMark {s : State} (reason : MarkReason) (h : Waits line s) : Waits line (failMark reason s) := by
  unfold Machine.failMark
  split
  · exact h
  · rename_i c _
    have : Waits line (Machine.answerMark (failStatus reason) [] (latch .markRefused (removePending c reason s))) :=
      answerMark _ _ (h.same rfl rfl rfl)
    dsimp only
    split
    · exact this.dropCheckpoints
    · unfold breakByMark breakCondition
      refine letGo _ ?_
      split <;> exact this.same rfl rfl rfl

theorem trailStep {s : State} (h : Waits line s) : Waits line (trailStep s) := by
  unfold Machine.trailStep
  split
  · dsimp only
    refine setOccupancy _ ?_
    exact h.same rfl rfl rfl
  · exact h

theorem allocateSlot {s : State} (owner : SlotOwner) (number : CheckpointNo) (body : RecordBody) (h : Waits line s) :
    Waits line (allocateSlot owner number body s) := by
  unfold Machine.allocateSlot queuePair
  have : Waits line (Machine.setOccupancy (s.journal.occupancy + 1) (takeSlot owner s)) :=
    setOccupancy _ (h.same rfl rfl rfl)
  dsimp only
  split <;> exact this.same rfl rfl rfl

end Waits

/-- No waiting request is judged. -/
theorem NoneWait.judgeWaiter {s : State} (h : NoneWait s) : judgeWaiter s = s :=
  judgeWaiter_of_atRest s (.inr (.inr ⟨h.line, h.command⟩))

/-! ### Space and the closing report -/

theorem pendingEntry_of_hasPending {s : State} (h : hasPending s = false) : pendingEntry s = none := by
  unfold pendingEntry
  rw [List.find?_eq_none]
  intro c hc
  exact List.any_eq_false.1 h c hc

/-- With no entry waiting for space and no mark pending, nothing is granted. -/
theorem afterSpace_of_noneDue (s : State) (h : s.capture.spaceWait = []) (k : hasPending s = false) : afterSpace s = s :=
  afterSpace_of_atRest s (fun id hi => by rw [h] at hi; exact (nomatch hi))
    fun c hc => by rw [pendingEntry_of_hasPending k] at hc; exact (nomatch hc)

/-- After a mark has failed none is pending (R62). -/
theorem failMark_pendingEntry (reason : MarkReason) (s : State) : pendingEntry (failMark reason s) = none := by
  have go : ∀ (p : CaptureEntry → Bool) (s : State), (letGo p s).ctl.checkpoints = s.ctl.checkpoints := by
    intro p s
    have fold : ∀ (l : List CaptureEntry) (s : State),
        (l.foldl (fun s e => forwardEntry e false s) s).ctl = s.ctl := by
      intro l
      induction l with
      | nil => intro s; rfl
      | cons e l ih =>
        intro s
        rw [List.foldl_cons, ih]
        unfold forwardEntry queueHeld
        dsimp only
        split <;> rfl
    unfold letGo endHold
    dsimp only
    split
    · dsimp only; rw [fold]; rfl
    · rw [fold]; rfl
  unfold failMark
  split
  · assumption
  · rename_i c _
    dsimp only
    split
    · show List.find? _ [] = none
      rfl
    · unfold breakByMark pendingEntry
      rw [go]
      have : (latch AlertCause.broken (breakCondition reason (answerMark (failStatus reason) []
          (latch .markRefused (removePending c reason s))))).ctl.checkpoints =
            s.ctl.checkpoints.filter fun x => x.status != .pending := by
        show (breakCondition _ _).ctl.checkpoints = _
        rw [breakCondition_checkpoints, answerMark_eq]
        rfl
      rw [this, List.find?_eq_none]
      intro x hx
      have hs := (List.mem_filter.1 hx).2
      intro k
      rw [bne, k] at hs
      exact nomatch hs

theorem setOccupancy_entries (n : Nat) (s : State) : (setOccupancy n s).capture.entries = s.capture.entries := by
  unfold setOccupancy
  split <;> rfl

theorem trailStep_entries (s : State) : (trailStep s).capture.entries = s.capture.entries := by
  unfold trailStep
  split
  · exact setOccupancy_entries _ _
  · rfl

theorem allocateSlot_entries (owner : SlotOwner) (number : CheckpointNo) (body : RecordBody) (s : State) :
    (allocateSlot owner number body s).capture.entries = s.capture.entries := by
  unfold allocateSlot queuePair
  dsimp only
  split <;> exact setOccupancy_entries _ _

theorem askWaiting_of_none (s : State) (h : ∀ e ∈ s.capture.entries, e.state ≠ .awaitMark) : askWaiting s = s := by
  unfold askWaiting
  have : (s.capture.entries.filter fun e => e.state == .awaitMark) = [] := by
    rw [List.filter_eq_nil_iff]
    intro e he
    simpa using h e he
  rw [this]
  rfl

/-- Once the MARK slot has been asked for, nothing more is due. -/
theorem Waits.afterSpace {line : Bool} {s : State} (h : Waits line s) (k : ∀ e ∈ s.capture.entries, e.state ≠ .awaitMark) :
    Waits line (afterSpace s) ∧ afterSpace (afterSpace s) = Machine.afterSpace s := by
  have start : Machine.afterSpace s = reportClosing s := by
    unfold Machine.afterSpace
    rw [h.space]
    rfl
  have done : ∀ u, Waits line u →
      (∀ c, pendingEntry u = some c → c.markSlot ≠ none ∨ u.journal.allocWait.contains .mark = true) →
      Waits line u ∧ Machine.afterSpace u = u := fun u hu hp =>
    ⟨hu, afterSpace_of_atRest u (fun id hi => by rw [hu.space] at hi; exact (nomatch hi))
      fun c hc => (hp c hc).imp id Or.inl⟩
  have failed : ∀ (u : State) (reason : MarkReason), Waits line u →
      Waits line (Machine.failMark reason u) ∧ Machine.afterSpace (Machine.failMark reason u) = Machine.failMark reason u :=
    fun u reason hu => done _ (hu.failMark reason) fun c hc => by rw [failMark_pendingEntry] at hc; exact (nomatch hc)
  rw [start]
  cases hc : pendingEntry s with
  | none =>
    have same : reportClosing s = s := by
      unfold reportClosing
      rw [hc]
    rw [same]
    exact done s h fun c hk => by rw [hc] at hk; exact (nomatch hk)
  | some c =>
    by_cases due : c.markSlot = none ∧ s.journal.allocWait.contains .mark = false ∧ closingClear s = true
    · have asks : reportClosing s = requestMark s := by
        unfold reportClosing
        rw [hc]
        exact if_pos due
      rw [asks]
      unfold requestMark
      split
      · refine done _ (h.same rfl rfl rfl) fun c _ => .inr ?_
        unfold setWaiting
        simp
      · unfold judgeMark
        rw [hc]
        dsimp only
        split
        · exact failed _ _ h.enterExhaustion
        · split
          · unfold grantMark
            rw [askWaiting_of_none]
            · refine done _ (Waits.trailStep ?_) fun x hx => .inl ?_
              · exact (h.allocateSlot _ _ _).same rfl rfl rfl
              · unfold pendingEntry at hx
                rw [trailStep_ctl] at hx
                have hm := List.mem_of_find?_eq_some hx
                have hs := List.find?_some hx
                simp only [placeMark] at hm
                obtain ⟨y, _, rfl⟩ := List.mem_map.1 hm
                split
                · exact fun q => nomatch q
                · rename_i hh
                  rw [if_neg hh] at hs
                  exact absurd hs hh
            · rw [trailStep_entries]
              show ∀ e ∈ (Machine.allocateSlot _ _ _ s).capture.entries, _
              rw [allocateSlot_entries]
              exact k
          · exact failed _ _ h
    · have same : reportClosing s = s := by
        unfold reportClosing
        rw [hc]
        exact if_neg due
      rw [same]
      exact ⟨h, by rw [start, same]⟩

/-- No marker write leads where none waits at the arbiter. -/
theorem markerMayLead_of_none {s : State} (h : markerWaits s = false) : markerMayLead s = false := by
  unfold markerMayLead
  rw [h]
  simp

theorem requestsMark_iff (x : Treatment) : x.requestsMark = true ↔ ∃ v, x = .passMark v := by
  cases x <;> simp [Treatment.requestsMark]

/-- Whether a marker write that would request a mark is at the head of a queue does not change as an event ends (R55). -/
theorem Keeps.markerWaits {s t : State} (h : Keeps s t) : markerWaits t = markerWaits s := by
  have target : ∀ line, targetOf t line = targetOf s line := by
    intro line
    unfold targetOf inJournal journalFirstLine windowOf
    rw [h.configured, h.config, h.cls]
  have marks : ∀ r v, treatment t r = .passMark v ↔ treatment s r = .passMark v := by
    intro r v
    unfold treatment
    split
    · simp
    · rw [target]
      split
      · rfl
      · rfl
      · rfl
      · unfold markerWrite initiatorOf
        rw [h.cls]
      · unfold guardedWrite initiatorOf
        rw [h.cls]
        split
        · rfl
        · rfl
        · constructor <;> intro k <;> split at k <;> first | (exfalso; cases k) | (split at k <;> cases k)
  unfold Machine.markerWaits
  rw [h.ingress]
  congr 1
  funext queue
  cases queue with
  | nil => rfl
  | cons r _ =>
    show (treatment t r).requestsMark = (treatment s r).requestsMark
    rw [Bool.eq_iff_iff, requestsMark_iff, requestsMark_iff]
    exact exists_congr fun v => marks r v

/-- The test of one queue. -/
theorem requestsMark_head (s : State) (queue : List UpRequest) :
    (match queue with
      | [] => false
      | r :: _ => (treatment s r).requestsMark) = true ↔ ∃ r rest v, queue = r :: rest ∧ treatment s r = .passMark v := by
  cases queue with
  | nil => simp
  | cons r rest => simp [requestsMark_iff]

/-- The statements' name for it. -/
theorem markerWaits_iff (s : State) : markerWaits s = true ↔ MarkerAtHead s := by
  unfold markerWaits MarkerAtHead
  rw [List.any_eq_true]
  constructor
  · rintro ⟨queue, hq, h⟩
    obtain ⟨n, hn, rfl⟩ := List.getElem_of_mem hq
    obtain ⟨r, rest, v, a, b⟩ := (requestsMark_head s _).1 h
    exact ⟨⟨n, by simpa using hn⟩, r, rest, v, by simpa using a, b⟩
  · rintro ⟨n, r, rest, v, a, b⟩
    exact ⟨s.up.ingress[n.val], by simp, (requestsMark_head s _).2 ⟨r, rest, v, a, b⟩⟩

/-- Where no marker write waits at the arbiter, an event ends as an event of a scan does (R55, R71, R73). -/
theorem finish_eq_finishScan {s : State} (h : markerWaits s = false) : finish s = finishScan s := by
  have first : markerWaits (afterSpace s) = false := by rw [(afterSpace_keeps s).markerWaits, h]
  have second : markerWaits (judgeNext (afterSpace s)) = false := by rw [(judgeNext_keeps _).markerWaits, first]
  unfold finish finishScan
  rw [inTurn_of_not _ (markerMayLead_of_none first), inTurn_of_not _ (markerMayLead_of_none second)]

/-- Where one request waits alone, it is judged at the end of the event or goes on waiting (R55, R73). -/
theorem finish_of_marker {s : State} (h : s.capture.spaceWait = []) (k : markerMayLead s = true) :
    finish s = closeEvent (takeFree s) ∨
    finish s = closeEvent (inTurn judgeNext (judgeNext (takeFree s))) := by
  have pending : hasPending s = false := by
    unfold markerMayLead at k
    simp only [Bool.and_eq_true, Bool.not_eq_true'] at k
    exact k.1.1.2
  unfold finish
  rw [afterSpace_of_noneDue s h pending]
  unfold inTurn
  rw [k]
  cases Config.markerFirst s.free
  · exact .inr rfl
  · exact .inl rfl

/-- The last waiting request is judged, and what follows is due afresh. -/
theorem finishScan_of_judged (s t : State) (h1 : s.capture.spaceWait = []) (h2 : hasPending s = false)
    (h3 : judgeWaiter s = t) (h : NoneWait t) (k : ∀ e ∈ t.capture.entries, e.state ≠ .awaitMark) :
    finishScan s = finishScan t := by
  obtain ⟨a, b⟩ := h.afterSpace k
  unfold finishScan judgeNext
  rw [afterSpace_of_noneDue s h1 h2, h3, NoneWait.judgeWaiter a, b, NoneWait.judgeWaiter a, b]

/-- Likewise where the judged request leaves no mark pending. -/
theorem finishScan_of_judged_plain (s t : State) (h1 : s.capture.spaceWait = []) (h2 : hasPending s = false)
    (h3 : judgeWaiter s = t) (h : NoneWait t) (k : hasPending t = false) : finishScan s = finishScan t := by
  have same := afterSpace_of_noneDue t h.space k
  unfold finishScan judgeNext
  rw [afterSpace_of_noneDue s h1 h2, h3, same, NoneWait.judgeWaiter h, same, NoneWait.judgeWaiter h, same]

/-! ### Several slots granted in one event -/

/-- `n` slots can be granted in one event below the capture limit, and no entry waits for space (R11, R13, R33). -/
structure Grants (n : Nat) (s : State) : Prop where
  space     : s.capture.spaceWait = []
  exhausted : s.journal.exhausted = false
  seq       : s.journal.seq.toNat + n < 2 ^ 64
  alloc     : s.journal.allocWait = []
  forgotten : ∀ r ∈ s.journal.slotRecords, r.forgotten = false
  limit     : s.journal.occupancy + n ≤ captureLimit s.journal

theorem tailBlocked_of_noneForgotten {j : Journal} (h : ∀ r ∈ j.slotRecords, r.forgotten = false) :
    tailBlocked j = false := by
  unfold tailBlocked
  rw [List.any_eq_false]
  intro r hr
  rw [h r hr]
  simp

theorem allocationSpent_of_grants {n : Nat} {s : State} (h : Grants (n + 1) s) : allocationSpent s.journal = false := by
  have hs : s.journal.seq ≠ 0xFFFFFFFFFFFFFFFF#64 := by
    intro k
    have := h.seq
    rw [k] at this
    have big : (0xFFFFFFFFFFFFFFFF#64).toNat = 2 ^ 64 - 1 := rfl
    rw [big] at this
    omega
  unfold allocationSpent
  rw [h.exhausted]
  simpa using hs

/-- A granted capture leaves one slot fewer to grant. -/
theorem Grants.capture {n : Nat} {s : State} (e : CaptureEntry) (h : Grants (n + 1) s) : Grants n (withCapture e s) where
  space := by
    show s.capture.spaceWait.filter _ = []
    rw [h.space]
    rfl
  exhausted := h.exhausted
  seq := by
    show (s.journal.seq + 1).toNat + n < _
    have := h.seq
    rw [BitVec.toNat_add]
    have one : (1 : BitVec 64).toNat = 1 := rfl
    rw [one, Nat.mod_eq_of_lt (by omega)]
    omega
  alloc := h.alloc
  forgotten := by
    intro r hr
    have hr : r ∈ s.journal.slotRecords ++ [_] := hr
    rcases List.mem_append.1 hr with a | a
    · exact h.forgotten r a
    · rw [List.mem_singleton] at a
      rw [a]
  limit := by
    show s.journal.occupancy + 1 + n ≤ captureLimit s.journal
    have := h.limit
    omega

/-- An entry that asks below the limit is granted its slot (R33). -/
theorem askCapture_of_grants {n : Nat} {s : State} (e : CaptureEntry) (h : Grants (n + 1) s)
    (k : entryOf s e.id = some e) (q : e.early = true) : askCapture e.id s = withCapture e s := by
  unfold askCapture
  rw [k]
  dsimp only
  rw [if_neg (by rw [q]; decide), if_pos (by rw [h.space]; rfl)]
  unfold requestCapture
  rw [if_neg (by rw [tailBlocked_of_noneForgotten h.forgotten, h.alloc]; decide)]
  unfold judgeCapture
  rw [k]
  dsimp only
  have hl := h.limit
  rw [if_neg (by rw [q]; decide), if_neg (by rw [allocationSpent_of_grants h]; decide), if_pos (by omega)]
  exact grantCapture_eq e s

/-- Entries that ask one after another, below the limit, are granted their slots in that order (R32, R33). -/
theorem askCaptures_of_grants : ∀ (l : List CaptureEntry) (s : State), Grants l.length s → (l.map (·.id)).Nodup →
    (∀ e ∈ l, entryOf s e.id = some e ∧ e.early = true) →
    (l.map (·.id)).foldl (fun s id => askCapture id s) s = l.foldl (fun t e => withCapture e t) s ∧
      Grants 0 (l.foldl (fun t e => withCapture e t) s)
  | [], s, h, _, _ => ⟨rfl, h⟩
  | e :: l, s, h, nd, k => by
    rw [List.map_cons, List.foldl_cons, List.foldl_cons]
    have h : Grants (l.length + 1) s := h
    rw [askCapture_of_grants e h (k e List.mem_cons_self).1 (k e List.mem_cons_self).2]
    rw [List.map_cons, List.nodup_cons] at nd
    refine askCaptures_of_grants l _ (h.capture e) nd.2 fun x hx => ?_
    obtain ⟨a, b⟩ := k x (List.mem_cons_of_mem _ hx)
    refine ⟨?_, b⟩
    have other : x.id ≠ e.id := fun he => nd.1 (List.mem_map.2 ⟨x, hx, he⟩)
    unfold entryOf at a ⊢
    show List.find? _ (s.capture.entries.map _) = _
    rw [List.find?_map]
    have same : ((fun y : CaptureEntry => y.id == x.id) ∘ fun y =>
        if y.id == e.id then { y with state := .recording, slot := some s.journal.tail } else y) =
          fun y => y.id == x.id := by
      funext y
      simp only [Function.comp]
      split <;> rfl
    rw [same, a]
    simp [other]

end Sys2Proof.Machine
end

