-- ==== Sys2Proof/Laws/Scan.lean ====
section
/-! SUPPORT. What the scanner's operations leave as it was: the relation of Keeps.lean, the scanner itself apart. -/

namespace Sys2Proof.Machine

set_option Elab.async false

/-- `t` comes from `s` by operations that keep, the scanner apart. -/
def ScanKeeps (s t : State) : Prop := Keeps { s with scan := t.scan } t

/-- An operation that does not look at the scanner keeps whatever the scanner is. -/
theorem Keeps.withScan {s t : State} (h : Keeps s t) (x : Scanner) : Keeps { s with scan := x } { t with scan := x } :=
  { h with scan := rfl }

theorem Keeps.scanKeeps {s t : State} (h : Keeps s t) : ScanKeeps s t := h.withScan t.scan

theorem ScanKeeps.refl (s : State) : ScanKeeps s s := Keeps.refl s

/-- Only the scanner changes. -/
theorem ScanKeeps.ofScan (s : State) (x : Scanner) : ScanKeeps s { s with scan := x } := Keeps.refl _

theorem ScanKeeps.trans {s t u : State} (h : ScanKeeps s t) (k : ScanKeeps t u) : ScanKeeps s u :=
  Keeps.trans (Keeps.withScan h u.scan) k

theorem scanSubmit_keeps (l : List DownEntry) (s : State) : ScanKeeps s (scanSubmit l s) :=
  ScanKeeps.trans (t := (submit s.scan.scanWait l s).2) (submit_keeps s.scan.scanWait l s).scanKeeps (Keeps.refl _)

theorem readScanSlot_keeps (slot : Nat) (s : State) : ScanKeeps s (readScanSlot slot s) :=
  ScanKeeps.trans (t := { s with scan := { s.scan with pair := { header := none, data := none } } }) (Keeps.refl _)
    (scanSubmit_keeps _ _)

theorem startScan_keeps (start : Nat) (s : State) (h : s.ctl.checkpoints = [] ∧ s.ctl.openEpoch = none)
    (hs : s.ctl.state = .unarmed) : ScanKeeps s (startScan start s) := by
  refine ScanKeeps.trans ?_ (readScanSlot_keeps _ _)
  exact { filter := .inr rfl, quiet := fun _ _ => h,
          phase := phase_of_calm_change (by simp [hs]) (by simp [hs]) (by simp) (by simp) rfl }

theorem acceptMark_keeps (slot : Nat) (seq : SeqNo) (number : CheckpointNo) (value : BitVec 64) (source : MarkSource)
    (restart : Bool) (s : State) : ScanKeeps s (acceptMark slot seq number value source restart s) := Keeps.refl _

theorem acceptBody_ctl (slot : Nat) (seq : SeqNo) (number : CheckpointNo) (body : RecordBody) (s : State) :
    (acceptBody slot seq number body s).ctl = s.ctl := by
  unfold acceptBody
  split <;> rfl

theorem acceptBody_keeps (slot : Nat) (seq : SeqNo) (number : CheckpointNo) (body : RecordBody) (s : State) :
    ScanKeeps s (acceptBody slot seq number body s) := by
  unfold acceptBody
  split
  · exact Keeps.refl _
  · exact acceptMark_keeps _ _ _ _ _ _ _
  · exact Keeps.refl _

theorem recordEnd_keeps (result : ScanResult) (cause : ScanCause) (endSlot : Option Nat) (s : State) :
    ScanKeeps s (recordEnd result cause endSlot s) := (latch_keeps .adoptDone _).withScan _

/-- The larger of two values is not below the first. -/
theorem le_larger {w : Nat} (x y : BitVec w) : x ≤ if x ≤ y then y else x := by
  split
  · assumption
  · exact BitVec.le_refl _

/-- Adoption does not lower a counter (R101). -/
theorem le_adoptedCounter {w : Nat} (retained last : BitVec w) : retained ≤ adoptedCounter retained last := le_larger _ _

theorem endAdopted_keeps (cause : ScanCause) (endSlot : Nat) (s : State) (h : s.ctl.state = .adopting) :
    ScanKeeps s (endAdopted cause endSlot s) := by
  unfold endAdopted
  split
  · refine ScanKeeps.trans ?_ (recordEnd_keeps _ _ _ _)
    refine ScanKeeps.trans ?_ (restartAge_keeps _).scanKeeps
    exact {
      seq := le_adoptedCounter _ _
      nextCheckpoint := le_adoptedCounter _ _
      quiet := fun _ hu => by rcases hu with hu | hu <;> cases hu
      phase := phase_of_calm_change (by simp [h]) (by simp [h]) (by simp) (by simp) rfl }
  · exact Keeps.refl _

theorem endUnarmed_keeps (result : ScanResult) (cause : ScanCause) (endSlot : Option Nat) (s : State) :
    ScanKeeps s (endUnarmed result cause endSlot s) :=
  ScanKeeps.trans ((emptyJournal_keeps s).trans (enterUnarmed_keeps _)).scanKeeps (recordEnd_keeps _ _ _ _)

theorem stopScan_keeps (cause : ScanCause) (endSlot : Nat) (s : State) (h : s.ctl.state = .adopting) :
    ScanKeeps s (stopScan cause endSlot s) := by
  unfold stopScan
  split
  · exact endUnarmed_keeps _ _ _ _
  · split
    · exact endUnarmed_keeps _ _ _ _
    · exact endAdopted_keeps _ _ _ h

theorem acceptRecord_keeps (slot : Nat) (seq : SeqNo) (number : CheckpointNo) (body : RecordBody) (s : State)
    (h : s.ctl.state = .adopting) : ScanKeeps s (acceptRecord slot seq number body s) := by
  unfold acceptRecord
  refine ScanKeeps.trans (acceptBody_keeps slot seq number body s) ?_
  dsimp only
  split
  · exact ScanKeeps.trans (ScanKeeps.ofScan _ _) (stopScan_keeps _ _ _ (by rw [acceptBody_ctl]; exact h))
  · exact ScanKeeps.trans (ScanKeeps.ofScan _ _) (readScanSlot_keeps _ _)

theorem scanSlot_keeps (slot : Nat) (header data : ReadResult) (s : State) (h : s.ctl.state = .adopting) :
    ScanKeeps s (scanSlot slot header data s) := by
  unfold scanSlot
  split
  · exact acceptRecord_keeps _ _ _ _ _ h
  · exact stopScan_keeps _ _ _ h

theorem scanReadDone_keeps (run slot : Nat) (half : Half) (result : ReadResult) (s : State) :
    ScanKeeps s (scanReadDone run slot half result s) := by
  unfold scanReadDone
  split
  · rename_i h
    dsimp only
    split
    · exact ScanKeeps.trans (ScanKeeps.ofScan _ _) (scanSlot_keeps _ _ _ _ h.1)
    · exact Keeps.refl _
  · exact ScanKeeps.refl s

end Sys2Proof.Machine
end

