-- ==== Sys2Proof/Laws/Guards.lean ====
section
/-! SUPPORT. What no command undoes: the capacities, the distinct numbers of the entries, the empty list of UNARMED and
ADOPTING, the phase in step with the controller state, the counters' order and the queue of commands, with one lemma for
each operation of Path.lean, Lines.lean and Reset.lean that touches them. -/

namespace Sys2Proof.Machine

set_option Elab.async false

/-- `t` has the capacities if `s` has, numbers its entries apart if `s` does, holds no checkpoint where it should not if `s`
does not, has its phase in step if `s` has, lowers no counter and leaves the queue of commands as it is. -/
structure Guards (s t : State) : Prop where
  capacities : Capacities s → Capacities t := by exact fun h => h
  distinct : EntriesDistinct s → EntriesDistinct t := by exact fun h => h
  quiet : NoCheckpointsWhenUnarmed s → NoCheckpointsWhenUnarmed t := by exact fun h => h
  phase : PhaseFollowsState s → PhaseFollowsState t := by exact fun h => h
  seq : s.journal.seq ≤ t.journal.seq := by exact BitVec.le_refl _
  nextCheckpoint : s.journal.nextCheckpoint ≤ t.journal.nextCheckpoint := by exact BitVec.le_refl _
  pending : t.pending = s.pending := by rfl

namespace Guards

theorem refl (s : State) : Guards s s := {}

theorem trans {s t u : State} (h : Guards s t) (k : Guards t u) : Guards s u where
  capacities := fun hs => k.capacities (h.capacities hs)
  distinct := fun hs => k.distinct (h.distinct hs)
  quiet := fun hs => k.quiet (h.quiet hs)
  phase := fun hs => k.phase (h.phase hs)
  seq := BitVec.le_trans h.seq k.seq
  nextCheckpoint := BitVec.le_trans h.nextCheckpoint k.nextCheckpoint
  pending := k.pending.trans h.pending

end Guards

/-- An operation that keeps, keeps the capacities. -/
theorem Keeps.guards {s t : State} (h : Keeps s t) : Guards s t where
  capacities := fun ⟨hv, hi, he, ho, hd, hw⟩ => by
    refine ⟨by rw [h.cls]; exact hv, by rw [h.ingress]; exact hi, Nat.le_trans (by simpa using h.entries.length_le) he, h.room ho, ?_, ?_⟩
    · rcases h.filter with hf | hf <;> rw [hf]
      · exact hd
      · exact List.nodup_nil
    · rcases h.filter with hf | hf <;> rw [hf]
      · exact hw
      · exact fun _ => Nat.zero_le _
  distinct := fun ⟨hn, hb⟩ => ⟨hn.sublist h.entries, fun e he => by
    obtain ⟨x, hx, hi⟩ := List.mem_map.1 (h.entries.subset (List.mem_map.2 ⟨e, he, rfl⟩))
    rw [h.nextEntry, ← hi]; exact hb x hx⟩
  quiet := h.quiet
  phase := h.phase
  seq := h.seq
  nextCheckpoint := h.nextCheckpoint
  pending := h.pending

theorem ScanKeeps.guards {s t : State} (h : ScanKeeps s t) : Guards s t :=
  Guards.trans (t := { s with scan := t.scan }) {} (Keeps.guards h)

/-! ### The memory path -/

/-- Setting one queue of the eight keeps the bound on every queue. -/
theorem ingress_set {q : Vector (List UpRequest) 8} (h : ∀ n : Fin 8, q[n.val].length ≤ Config.ingressPlaces)
    (k : Fin 8) (l : List UpRequest) (hl : l.length ≤ Config.ingressPlaces) (n : Fin 8) :
    (q.set k.val l)[n.val].length ≤ Config.ingressPlaces := by
  by_cases e : k.val = n.val
  · simpa [Vector.getElem_set, e] using hl
  · simpa [Vector.getElem_set, e] using h n

theorem arrive_guards (r : UpRequest) (s : State) : Guards s (arrive r s) := by
  unfold arrive
  dsimp only
  split
  · exact {}
  · split
    · exact {}
    · rename_i h
      exact { capacities := fun ⟨hv, hi, hrest⟩ =>
        ⟨hv, ingress_set hi _ _ (by simp only [List.length_append, List.length_singleton] at h ⊢; omega), hrest⟩ }

theorem popIngress_guards (n : Fin 8) (r : UpRequest) (rest : List UpRequest) (s : State)
    (h : s.up.ingress[n.val] = r :: rest) : Guards s (popIngress n rest s) where
  capacities := fun ⟨hv, hi, hrest⟩ =>
    ⟨hv, ingress_set hi _ _ (by have := hi n; rw [h] at this; simp only [List.length_cons] at this; omega), hrest⟩

theorem recordViolation_guards (r : UpRequest) (cause : ViolationCause) (s : State) :
    Guards s (recordViolation r cause s) := by
  unfold recordViolation
  split
  · rename_i h
    exact { capacities := fun ⟨_, hrest⟩ => ⟨by simp; omega, hrest⟩ }
  · exact {}

theorem passRequest_keeps (r : UpRequest) (guarded : Bool) (s : State) (h : hasRoom s 1 = true) :
    Keeps s (passRequest r guarded s) := enqueue_keeps _ _ h

theorem filterHitWrite_keeps (r : UpRequest) (s : State) (h : hasRoom s 1 = true) : Keeps s (filterHitWrite r s) :=
  Keeps.trans (t := { s with alerts := { s.alerts with filterHits := satInc s.alerts.filterHits } }) {}
    (passRequest_keeps _ _ _ h)

theorem createEntry_guards (r : UpRequest) (mask : ByteMask) (data : LineData) (s : State) (h : hasRoom s 1 = true)
    (k : s.capture.entries.length < Config.captureEntries) : Guards s (createEntry r mask data s) where
  distinct := fun ⟨hn, hb⟩ => by
    refine ⟨?_, ?_⟩
    · simp only [createEntry, enqueue, List.map_append, List.map_cons, List.map_nil]
      refine List.nodup_append.2 ⟨hn, List.nodup_singleton _, ?_⟩
      rintro a ha b hb' rfl
      obtain ⟨x, hx, hi⟩ := List.mem_map.1 ha
      have := hb x hx
      simp only [List.mem_singleton] at hb'
      omega
    · intro e he
      simp only [createEntry, enqueue, List.mem_append, List.mem_singleton] at he ⊢
      rcases he with he | he
      · exact Nat.lt_succ_of_lt (hb e he)
      · rw [he]; exact Nat.lt_succ_self _
  capacities := fun ⟨hv, hi, _, _, hrest⟩ => by
    have hr := (hasRoom_iff s 1).1 h
    refine ⟨hv, hi, ?_, ?_, hrest⟩
    · simp [createEntry]; omega
    · simp [createEntry]; exact hr

/-- A line is inserted only where it is absent and its set has an empty way. -/
theorem filterInsert_guards (line : LineAddr) (s : State) : Guards s (filterInsert line s) := by
  unfold filterInsert
  split
  · exact {}
  · split
    · rename_i hc hw
      refine { capacities := fun ⟨hv, hi, he, ho, hd, hs⟩ => ⟨hv, hi, he, ho, ?_, ?_⟩ }
      · refine List.nodup_append.2 ⟨hd, List.nodup_singleton _, ?_⟩
        rintro a ha b hb rfl
        rw [List.mem_singleton] at hb
        exact hc (by rw [← hb]; exact List.contains_iff_mem.2 ha)
      · intro set
        rw [List.filter_append, List.length_append]
        by_cases e : filterSet line = set
        · subst e
          simp
          have : (s.capture.filter.filter fun x => filterSet x == filterSet line).length < Config.filterWays := hw
          omega
        · have := hs set
          simp [e]
          exact this
    · exact {}

theorem retire_guards (id : Nat) (error : Bool) (s : State) : Guards s (retire id error s) := by
  unfold retire
  split
  · exact {}
  · rename_i e _
    split
    · exact {}
    · split
      · exact ((deliver_keeps e.initiator e.tag .dataError s).trans
          ((countDataError_keeps _).trans (freeEntry_keeps _ _))).guards
      · dsimp only
        refine (deliver_keeps e.initiator e.tag (.okay none) s).guards.trans (Guards.trans ?_ (freeEntry_keeps _ _).guards)
        split
        · exact filterInsert_guards _ _
        · exact {}

theorem setTag_guards (tag : DownTag) (x : TagState) (s : State) : Guards s (setTag tag x s) := {}

theorem issue_guards (tag : DownTag) (s : State) : Guards s (issue tag s) := by
  unfold issue
  split
  · exact {}
  · rename_i e rest h
    split
    · exact { capacities := fun ⟨hv, hi, he, ho, hrest⟩ =>
        ⟨hv, hi, he, by rw [h] at ho; simp only [List.length_cons] at ho; dsimp only; omega, hrest⟩ }
    · exact {}

theorem queueForwarded_keeps (s : State) : Keeps s (queueForwarded s) := by
  unfold queueForwarded
  split
  · exact .refl s
  · rename_i id rest _
    split
    · rename_i h
      dsimp only
      split
      · exact Keeps.trans (t := { s with capture := { s.capture with forwardWait := rest } }) {} (enqueue_keeps _ _ h)
      · exact {}
    · exact .refl s

theorem queueJournalPair_keeps (s : State) : Keeps s (queueJournalPair s) := by
  unfold queueJournalPair
  split
  · exact .refl s
  · split
    · rename_i h
      have := (hasRoom_iff s 2).1 h
      exact { room := fun _ => by simp; omega }
    · exact .refl s

theorem queueUndo_keeps (s : State) : Keeps s (queueUndo s) := by
  unfold queueUndo
  split
  · exact .refl s
  · rename_i e rest _
    split
    · rename_i h
      exact Keeps.trans (t := { s with rollback := { s.rollback with undoWait := rest } }) {} (enqueue_keeps _ _ h)
    · exact .refl s

theorem queueScan_guards (s : State) : Guards s (queueScan s) := by
  unfold queueScan
  split
  · exact {}
  · rename_i e rest _
    split
    · rename_i h
      exact Guards.trans (t := { s with scan := { s.scan with scanWait := rest } }) {} (Keeps.guards (enqueue_keeps _ _ h))
    · exact {}

theorem oldLineDone_keeps (id : Nat) (result : ReadResult) (s : State) : Keeps s (oldLineDone id result s) := by
  unfold oldLineDone
  dsimp only
  split
  · exact {}
  · rename_i e _
    refine Keeps.trans (t := { s with rollback := { s.rollback with
      readsLeft := s.rollback.readsLeft.filter fun x => x != id } }) {} ?_
    split
    · rename_i data
      refine (updateEntry_keeps id (fun x => { x with oldData := some data }) _).trans ?_
      split
      · split
        · exact updateEntry_keeps _ _ _
        · exact askCapture_keeps _ _
      · exact .refl _
    · split
      · exact (freeEntry_keeps id _).trans ((deliver_keeps e.initiator e.tag .dataError _).trans (countDataError_keeps _))
      · exact .refl _

/-! ### The scan's start -/

theorem startScan_capacities (start : Nat) (s : State) (h : Capacities s) : Capacities (startScan start s) :=
  (readScanSlot_keeps _ _).guards.capacities
    ⟨h.1, h.2.1, h.2.2.1, h.2.2.2.1, List.nodup_nil, fun _ => Nat.zero_le _⟩

theorem startScan_seq (start : Nat) (s : State) : s.journal.seq ≤ (startScan start s).journal.seq :=
  (readScanSlot_keeps _ { s with
    ctl := { s.ctl with state := .adopting }
    capture := { s.capture with filter := [], nearFull := false }
    scan := { Scanner.reset with start := some start, pointer := some start, run := s.scan.run + 1 } }).guards.seq

theorem startScan_nextCheckpoint (start : Nat) (s : State) :
    s.journal.nextCheckpoint ≤ (startScan start s).journal.nextCheckpoint :=
  (readScanSlot_keeps _ { s with
    ctl := { s.ctl with state := .adopting }
    capture := { s.capture with filter := [], nearFull := false }
    scan := { Scanner.reset with start := some start, pointer := some start, run := s.scan.run + 1 } }).guards.nextCheckpoint

/-! ### The lines -/

theorem endReset_guards (levels : PinLevels) (s : State) : Guards s (endReset levels s) := {}

/-- What both resets do to the blocks, whatever they then do to the journal and the controller. -/
theorem resetBlocks_capacities (s : State) : Capacities (resetBlocks s) := by
  refine ⟨Nat.zero_le _, fun n => ?_, Nat.zero_le _, Nat.zero_le _, List.nodup_nil, fun _ => Nat.zero_le _⟩
  show (Vector.replicate 8 ([] : List UpRequest))[n.val].length ≤ _
  simp

theorem powerOn_capacities (s : State) : Capacities (powerOn s) := resetBlocks_capacities s

theorem powerOn_quiet (s : State) : NoCheckpointsWhenUnarmed (powerOn s) := fun _ => ⟨rfl, rfl⟩

theorem powerOn_phase (s : State) : PhaseFollowsState (powerOn s) := by
  simp [PhaseFollowsState, powerOn, resetBlocks, Controller.reset, Rollback.reset]

theorem warmReset_guards (s : State) : Guards s (warmReset s) where
  phase := fun _ => by simp [PhaseFollowsState, warmReset, resetBlocks, Controller.reset, Rollback.reset]
  capacities := fun _ => resetBlocks_capacities s
  distinct := fun _ => ⟨List.nodup_nil, fun _ h => by cases h⟩
  quiet := fun _ _ => ⟨rfl, rfl⟩

theorem commandReset_guards (s : State) : Guards s (commandReset s) :=
  (warmReset_guards s).trans ((endReset_guards _ _).trans (takeFree_keeps _).guards)

end Sys2Proof.Machine
end

