-- ==== Sys2Proof/Laws/PerInstr.lean ====
section
/-! SUPPORT. The frames of the management commands, one lemma for each constructor: a management command has a frame that
passes the first four steps of R158 with the command's code and parameters, and no other command has one. -/

namespace Sys2Proof.Laws

open Sys2Proof.Machine

/-- The frame of `i`, where `i` is a management command, is judged to hold the code and the parameters of `i` (R158, Table
11.2); the other commands have no frame. -/
def Frame.Statement (i : Instr) : Prop :=
  match commandParams i with
  | some p => ∀ frame, commandFrame i = some frame → frameVerdict frame = .ok p
  | none => commandFrame i = none

@[simp] theorem bytesLE_length {w : Nat} (count : Nat) (v : BitVec w) : (bytesLE count v).length = count := by
  simp [bytesLE]

/-- A frame laid out with the count its code's table gives passes the first four steps of R158. -/
theorem frameVerdict_of_count (code : Byte) (params : List Byte) (h : paramCount code = some params.length)
    (hl : params.length < 256) :
    frameVerdict (code :: BitVec.ofNat 8 params.length :: params ++
      [crc8 (code :: BitVec.ofNat 8 params.length :: params)]) = .ok (code, params) := by
  have hc : (BitVec.ofNat 8 params.length).toNat = params.length := by
    rw [BitVec.toNat_ofNat]; exact Nat.mod_eq_of_lt hl
  have hd : (code :: BitVec.ofNat 8 params.length :: (params ++
      [crc8 (code :: BitVec.ofNat 8 params.length :: params)])).dropLast =
      code :: BitVec.ofNat 8 params.length :: params := by
    rw [← List.cons_append, ← List.cons_append, List.dropLast_concat]
  have fits : lengthFits (code :: BitVec.ofNat 8 params.length :: params ++
      [crc8 (code :: BitVec.ofNat 8 params.length :: params)]) (BitVec.ofNat 8 params.length) = true := by
    unfold lengthFits Config.longestFrame
    rw [hc]
    simp
    omega
  simp only [List.cons_append] at fits
  simp only [frameVerdict, List.cons_append, fits, hd, hc, h, List.getLast?_concat, List.dropLast_concat, Bool.not_true,
    Bool.false_eq_true, ne_eq, not_true_eq_false, if_false, if_true]

theorem Frame.statement_of_count {i : Instr} {code : Byte} {params : List Byte} (hp : commandParams i = some (code, params))
    (h : paramCount code = some params.length ∧ params.length < 256) : Frame.Statement i := by
  unfold Frame.Statement
  rw [hp]
  intro frame hf
  simp only [commandFrame, hp, Option.map_some, Option.some.injEq] at hf
  rw [← hf]
  exact frameVerdict_of_count code params h.1 h.2

theorem Frame.statement_of_none {i : Instr} (hp : commandParams i = none) : Frame.Statement i := by
  unfold Frame.Statement
  rw [hp]
  show commandFrame i = none
  simp only [commandFrame, hp, Option.map_none]

theorem Frame.getStatus (sec : Byte) : Frame.Statement (.getStatus sec) :=
    Frame.statement_of_count rfl (by simp [paramCount])

theorem Frame.getCheckpoints : Frame.Statement .getCheckpoints :=
    Frame.statement_of_count rfl (by simp [paramCount])

theorem Frame.getWindow (index : Byte) : Frame.Statement (.getWindow index) :=
    Frame.statement_of_count rfl (by simp [paramCount])

theorem Frame.getInitiator (number : Byte) : Frame.Statement (.getInitiator number) :=
    Frame.statement_of_count rfl (by simp [paramCount])

theorem Frame.readViolation : Frame.Statement .readViolation := Frame.statement_of_count rfl (by simp [paramCount])

theorem Frame.setWindow (index kind : Byte) (base size : BitVec 32) : Frame.Statement (.setWindow index kind base size) :=
    Frame.statement_of_count rfl (by simp [paramCount])

theorem Frame.clearWindow (index : Byte) : Frame.Statement (.clearWindow index) :=
    Frame.statement_of_count rfl (by simp [paramCount])

theorem Frame.setInitiator (number cls permission : Byte) : Frame.Statement (.setInitiator number cls permission) :=
    Frame.statement_of_count rfl (by simp [paramCount])

theorem Frame.setJournal (base : BitVec 64) (slots : BitVec 32) (reserve depth : Byte) (runStamp : BitVec 16) (policy : Byte) (paceMark : BitVec 32) (pacingInterval holdTimeout : BitVec 16) : Frame.Statement (.setJournal base slots reserve depth runStamp policy paceMark pacingInterval holdTimeout) :=
    Frame.statement_of_count rfl (by simp [paramCount])

theorem Frame.setTiming (paceMark : BitVec 32) (pacingInterval holdTimeout ageLimit : BitVec 16) (freezeMask : Byte) : Frame.Statement (.setTiming paceMark pacingInterval holdTimeout ageLimit freezeMask) :=
    Frame.statement_of_count rfl (by simp [paramCount])

theorem Frame.setAlertMask (mask : BitVec 16) : Frame.Statement (.setAlertMask mask) :=
    Frame.statement_of_count rfl (by simp [paramCount])

theorem Frame.clearAlerts (selection : BitVec 16) : Frame.Statement (.clearAlerts selection) :=
    Frame.statement_of_count rfl (by simp [paramCount])

theorem Frame.mark (value : BitVec 64) : Frame.Statement (.mark value) :=
    Frame.statement_of_count rfl (by simp [paramCount])

theorem Frame.rollback (depth : Byte) : Frame.Statement (.rollback depth) :=
    Frame.statement_of_count rfl (by simp [paramCount])

theorem Frame.retry : Frame.Statement .retry := Frame.statement_of_count rfl (by simp [paramCount])

theorem Frame.abandon : Frame.Statement .abandon := Frame.statement_of_count rfl (by simp [paramCount])

theorem Frame.discard : Frame.Statement .discard := Frame.statement_of_count rfl (by simp [paramCount])

theorem Frame.adopt (start : BitVec 32) : Frame.Statement (.adopt start) :=
    Frame.statement_of_count rfl (by simp [paramCount])

theorem Frame.reset : Frame.Statement .reset := Frame.statement_of_count rfl (by simp [paramCount])

theorem Frame.writeTransfer (address : BitVec 7) (bytes : List Byte) : Frame.Statement (.writeTransfer address bytes) :=
    Frame.statement_of_none rfl

theorem Frame.readTransfer (address : BitVec 7) : Frame.Statement (.readTransfer address) := Frame.statement_of_none rfl

theorem Frame.responseConsumed : Frame.Statement .responseConsumed := Frame.statement_of_none rfl

theorem Frame.requestArrival (request : UpRequest) : Frame.Statement (.requestArrival request) :=
    Frame.statement_of_none rfl

theorem Frame.acceptance : Frame.Statement .acceptance := Frame.statement_of_none rfl

theorem Frame.downstreamIssue (tag : DownTag) : Frame.Statement (.downstreamIssue tag) := Frame.statement_of_none rfl

theorem Frame.passedRequestCompletion (tag : DownTag) (result : ReadResult) : Frame.Statement (.passedRequestCompletion tag result) :=
    Frame.statement_of_none rfl

theorem Frame.oldLineReadCompletion (tag : DownTag) (result : ReadResult) : Frame.Statement (.oldLineReadCompletion tag result) :=
    Frame.statement_of_none rfl

theorem Frame.forwardedWriteCompletion (tag : DownTag) (error : Bool) : Frame.Statement (.forwardedWriteCompletion tag error) :=
    Frame.statement_of_none rfl

theorem Frame.journalWriteCompletion (tag : DownTag) (error : Bool) : Frame.Statement (.journalWriteCompletion tag error) :=
    Frame.statement_of_none rfl

theorem Frame.undoReadCompletion (tag : DownTag) (result : ReadResult) : Frame.Statement (.undoReadCompletion tag result) :=
    Frame.statement_of_none rfl

theorem Frame.undoWriteCompletion (tag : DownTag) (error : Bool) : Frame.Statement (.undoWriteCompletion tag error) :=
    Frame.statement_of_none rfl

theorem Frame.voidWriteCompletion (tag : DownTag) (error : Bool) : Frame.Statement (.voidWriteCompletion tag error) :=
    Frame.statement_of_none rfl

theorem Frame.scanReadCompletion (tag : DownTag) (result : ReadResult) : Frame.Statement (.scanReadCompletion tag result) :=
    Frame.statement_of_none rfl

theorem Frame.abandonedCompletion (tag : DownTag) (result : ReadResult) : Frame.Statement (.abandonedCompletion tag result) :=
    Frame.statement_of_none rfl

theorem Frame.strayCompletion (tag : DownTag) (result : ReadResult) : Frame.Statement (.strayCompletion tag result) :=
    Frame.statement_of_none rfl

theorem Frame.forwardedWriteQueued : Frame.Statement .forwardedWriteQueued := Frame.statement_of_none rfl

theorem Frame.journalWritesQueued : Frame.Statement .journalWritesQueued := Frame.statement_of_none rfl

theorem Frame.undoRequestQueued : Frame.Statement .undoRequestQueued := Frame.statement_of_none rfl

theorem Frame.scanReadQueued : Frame.Statement .scanReadQueued := Frame.statement_of_none rfl

theorem Frame.allocationWaitEnd : Frame.Statement .allocationWaitEnd := Frame.statement_of_none rfl

theorem Frame.holdTimerExpiry : Frame.Statement .holdTimerExpiry := Frame.statement_of_none rfl

theorem Frame.pacingIntervalElapsed : Frame.Statement .pacingIntervalElapsed := Frame.statement_of_none rfl

theorem Frame.epochAgeTimerExpiry : Frame.Statement .epochAgeTimerExpiry := Frame.statement_of_none rfl

theorem Frame.fltreqRisingEdge : Frame.Statement .fltreqRisingEdge := Frame.statement_of_none rfl

theorem Frame.fltreqFall : Frame.Statement .fltreqFall := Frame.statement_of_none rfl

theorem Frame.frzRise : Frame.Statement .frzRise := Frame.statement_of_none rfl

theorem Frame.frzFall : Frame.Statement .frzFall := Frame.statement_of_none rfl

theorem Frame.porstFall : Frame.Statement .porstFall := Frame.statement_of_none rfl

theorem Frame.porstRise (levels : PinLevels) : Frame.Statement (.porstRise levels) := Frame.statement_of_none rfl

theorem Frame.wrstFall : Frame.Statement .wrstFall := Frame.statement_of_none rfl

theorem Frame.wrstRise (levels : PinLevels) : Frame.Statement (.wrstRise levels) := Frame.statement_of_none rfl

end Sys2Proof.Laws
end

