-- ==== Sys2Proof/Laws/ScanTests.lean ====
section
/-! SUPPORT. What the scan does with the two lines of a slot: the tests in their order, an accepted record, and the end that
adopts (R95 to R102). -/

namespace Sys2Proof.Machine

set_option Elab.async false

/-- The last of the two line reads of a slot completes: the slot is judged. -/
theorem scanReadDone_both {s : State} {half : Half} {x h d : ReadResult} (p : Nat) (hs : s.ctl.state = .adopting)
    (hc : CompletesPair s.scan.pair half x h d) :
    scanReadDone s.scan.run p half x s =
      scanSlot p h d { s with scan := { s.scan with pair := { header := some h, data := some d } } } := by
  unfold scanReadDone
  rw [if_pos ⟨hs, rfl⟩]
  unfold PairRead.store
  rcases hc with ⟨rfl, rfl, k⟩ | ⟨rfl, rfl, k⟩ <;> simp only [k]

/-- The anchor's tests, or those of Table 5.2, say what follows (R95, R97). -/
theorem scanSlot_anchor {s : State} (p : Nat) (h d : ReadResult) (hn : s.scan.scanned = 0) :
    scanSlot p h d s = match anchorTests h d s with
      | .accepted seq number body => acceptRecord p seq number body s
      | .ends cause => stopScan cause p s := by
  unfold scanSlot
  rw [if_pos hn] <;> cases anchorTests h d s <;> rfl

theorem scanSlot_walk {s : State} (p : Nat) (h d : ReadResult) (hn : s.scan.scanned ≠ 0) :
    scanSlot p h d s = match walkTests h d s with
      | .accepted seq number body => acceptRecord p seq number body s
      | .ends cause => stopScan cause p s := by
  unfold scanSlot
  rw [if_neg hn] <;> cases walkTests h d s <;> rfl

/-! ### The tests in their order (Table 5.2) -/

theorem recordTests_error (h d : ReadResult) (s : State) (k : h = .error ∨ d = .error) :
    recordTests h d s = .ends .readError := by
  unfold recordTests
  rcases k with rfl | rfl
  · rfl
  · cases h <;> rfl

theorem recordTests_check {h d : LineData} (s : State) (k : checkPasses h d = false) :
    recordTests (.ok h) (.ok d) s = .ends .check := by
  unfold recordTests
  simp [k]

theorem recordTests_runStamp {h d : LineData} (s : State) (k : checkPasses h d = true)
    (q : headerRunStamp h ≠ s.journal.config.runStamp) : recordTests (.ok h) (.ok d) s = .ends .runStamp := by
  unfold recordTests
  simp [k, q]

theorem recordTests_kind {h d : LineData} (s : State) (k : checkPasses h d = true)
    (q : headerRunStamp h = s.journal.config.runStamp) (b : decodeBody h d = none) :
    recordTests (.ok h) (.ok d) s = .ends .kind := by
  unfold recordTests
  simp [k, q, b]

theorem recordTests_ok {h d : LineData} {body : RecordBody} (s : State) (k : checkPasses h d = true)
    (q : headerRunStamp h = s.journal.config.runStamp) (b : decodeBody h d = some body) :
    recordTests (.ok h) (.ok d) s = .accepted (headerSeq h) (headerCheckpoint h) body := by
  unfold recordTests
  simp [k, q, b]

theorem anchorTests_ends {h d : ReadResult} {s : State} {cause : ScanCause} (k : recordTests h d s = .ends cause) :
    anchorTests h d s = .ends cause := by
  unfold anchorTests
  rw [k]

theorem anchorTests_mark {h d : ReadResult} {s : State} {seq : SeqNo} {number : CheckpointNo} {body : RecordBody}
    (k : recordTests h d s = .accepted seq number body) (m : IsMark body) :
    anchorTests h d s = .accepted seq number body := by
  unfold anchorTests
  rw [k]
  obtain ⟨_, _, _, _, rfl⟩ := m
  rfl

theorem anchorTests_not_mark {h d : ReadResult} {s : State} {seq : SeqNo} {number : CheckpointNo} {body : RecordBody}
    (k : recordTests h d s = .accepted seq number body) (m : ¬ IsMark body) : anchorTests h d s = .ends .kind := by
  unfold anchorTests
  rw [k]
  cases body with
  | mark v a p r => exact absurd ⟨_, _, _, _, rfl⟩ m
  | capture _ _ _ => rfl
  | brk _ => rfl

theorem epochTest_iff (segment number : CheckpointNo) (body : RecordBody) :
    epochTest segment number body = true ↔ EpochFits segment number body := by
  unfold epochTest EpochFits IsMark
  cases body <;> simp

theorem placeTest_iff (body : RecordBody) (s : State) :
    placeTest body s = true ↔ ∀ line n old, body = .capture line n old → lineGuarded s line = true := by
  unfold placeTest
  cases body <;> simp

theorem walkTests_ends {h d : ReadResult} {s : State} {cause : ScanCause} (k : recordTests h d s = .ends cause) :
    walkTests h d s = .ends cause := by
  unfold walkTests
  rw [k]

/-- The order, epoch and place tests of a record that has passed the others. -/
theorem walkTests_eq {h d : ReadResult} {s : State} {seq last : SeqNo} {number segment : CheckpointNo} {body : RecordBody}
    (k : recordTests h d s = .accepted seq number body) (hl : s.scan.lastSeq = some last)
    (hg : s.scan.segment = some segment) :
    (¬ last < seq → walkTests h d s = .ends .order) ∧
    (last < seq → ¬ EpochFits segment number body → walkTests h d s = .ends .epoch) ∧
    (last < seq → EpochFits segment number body → placeTest body s = false → walkTests h d s = .ends .foreignLine) ∧
    (last < seq → EpochFits segment number body → placeTest body s = true →
      walkTests h d s = .accepted seq number body) := by
  unfold walkTests
  rw [k]
  dsimp only
  rw [hl, hg]
  dsimp only [Option.getD_some]
  rw [← epochTest_iff]
  refine ⟨fun a => if_pos (BitVec.not_lt.1 a), fun a b => ?_, fun a b c => ?_, fun a b c => ?_⟩
  all_goals rw [if_neg (BitVec.not_le.2 a)]
  · rw [if_pos (by rw [Bool.eq_false_iff.2 b]; rfl)]
  · rw [if_neg (by rw [b]; decide), if_pos (by rw [c]; rfl)]
  · rw [if_neg (by rw [b]; decide), if_neg (by rw [c]; decide)]

/-! ### An accepted record and the end that adopts -/

/-- What an accepted record changes, and what follows (R96, R98 to R100). -/
theorem acceptRecord_eq (p : Nat) (seq : SeqNo) (number : CheckpointNo) (body : RecordBody) (s : State) :
    ∃ working segment brk dropped, AcceptsRecord s p seq number body working segment brk dropped ∧
      acceptRecord p seq number body s =
        (let next := nextSlot s.journal p
         let u := { s with scan := { s.scan with
          lastSlot := some p, lastSeq := some seq, scanned := s.scan.scanned + 1, pointer := some next
          working := working, segment := segment, segBreak := brk, dropped := dropped } }
         if s.scan.start = some next then stopScan .wrapped next u else readScanSlot next u) := by
  cases body with
  | capture line n old => exact ⟨_, _, _, _, ⟨rfl, rfl, rfl, rfl⟩, rfl⟩
  | brk cause => exact ⟨_, _, _, _, ⟨rfl, rfl, rfl, rfl⟩, rfl⟩
  | mark v source previous restart =>
    refine ⟨_, _, _, _, ⟨rfl, rfl, rfl, rfl⟩, ?_⟩
    have kept : (if restart = true ∨ s.scan.segBreak ≠ none then ([] : List Checkpoint) else s.scan.working) =
        if (restart || s.scan.segBreak.isSome) = true then [] else s.scan.working := by
      cases restart <;> cases s.scan.segBreak <;> simp
    rw [kept]
    unfold acceptRecord acceptBody acceptMark satAdd
    simp only [Nat.min_comm]

/-- A counter after an adoption (R101). -/
theorem adoptedCounter_toNat {w : Nat} (retained last : BitVec w) :
    (adoptedCounter retained last).toNat = max retained.toNat (min (last.toNat + 1) (2 ^ w - 1)) := by
  unfold adoptedCounter
  have hb := last.isLt
  have ha := retained.isLt
  split
  · rename_i k
    have : last.toNat = 2 ^ w - 1 := by rw [k]; exact BitVec.toNat_allOnes
    dsimp only
    split <;> rename_i q <;> rw [BitVec.le_def] at q <;> omega
  · rename_i k
    have h0 : last.toNat ≠ 2 ^ w - 1 := fun q => k (BitVec.eq_of_toNat_eq (q.trans BitVec.toNat_allOnes.symm))
    have h1 : (last + 1).toNat = last.toNat + 1 := by
      have hw : w ≠ 0 := by rintro rfl; omega
      have one : (1#w).toNat = 1 := by
        rw [BitVec.toNat_ofNat]
        exact Nat.mod_eq_of_lt (Nat.one_lt_two_pow hw)
      rw [BitVec.toNat_add]
      change (last.toNat + (1#w).toNat) % 2 ^ w = _
      rw [one]
      exact Nat.mod_eq_of_lt (by omega)
    dsimp only
    split <;> rename_i q <;> rw [BitVec.le_def] at q <;> omega

/-- The scan stops beyond its last good record and adopts, whatever the two lines it read last (R101, R102). -/
theorem stopScan_adopts (cause : ScanCause) (endSlot : Nat) (s : State) (pair : PairRead) (hn : s.scan.scanned ≠ 0)
    (hc : cause ≠ .foreignLine ∧ cause ≠ .readError) {lastSlot head : Nat} {lastSeq : SeqNo} {number : CheckpointNo}
    {oldest newest : Checkpoint} (a : s.scan.lastSlot = some lastSlot) (b : s.scan.lastSeq = some lastSeq)
    (c : s.scan.segment = some number) (d : s.scan.working.head? = some oldest)
    (e : s.scan.working.getLast? = some newest) (f : oldest.markSlot = some head) :
    EndsAdopted cause endSlot lastSlot lastSeq number newest head s
      (stopScan cause endSlot { s with scan := { s.scan with pair := pair } }) := by
  unfold stopScan
  rw [if_neg hn, if_neg (by rintro (k | k); exacts [hc.1 k, hc.2 k])]
  unfold endAdopted
  simp only [a, b, c, d, e, f]
  refine ⟨adoptedCounter_toNat _ _, adoptedCounter_toNat _ _, ?_⟩
  unfold recordEnd restartAge latch
  cases s.scan.segBreak with
  | none => rfl
  | some k => cases k <;> rfl

end Sys2Proof.Machine
end

