-- ==== Sys2Proof/Laws/Sound.lean ====
section
/-! SUPPORT. What every operation keeps of Sound: one lemma for each operation, with what it asks of the state it runs on. -/

namespace Sys2Proof.Machine

set_option Elab.async false

/-! ### What Sound says of the entries and the list -/

/-- The entry that an entry number finds is in the queue under that number. -/
theorem mem_of_entryOf {s : State} {id : Nat} {e : CaptureEntry} (h : entryOf s id = some e) :
    e ∈ s.capture.entries ∧ e.id = id :=
  ⟨List.mem_of_find?_eq_some h, by simpa using List.find?_some h⟩

namespace Sound

variable {s : State}

/-- An entry that is not in AWAIT_SPACE is not on the space wait list. -/
theorem notWaiting (h : Sound s) {e : CaptureEntry} (he : e ∈ s.capture.entries) (hs : e.state ≠ .awaitSpace) :
    e.id ∉ s.capture.spaceWait := fun hm => by
  obtain ⟨x, hx, hi, hw⟩ := h.space.2 _ hm
  exact hs (eq_of_id h.distinct.1 hx he hi ▸ hw)

/-- A pending mark stands only in ARMED. -/
theorem armed_of_pending (h : Sound s) (hp : hasPending s = true) : s.ctl.state = .armed := by
  cases hc : s.ctl.state with
  | armed => rfl
  | unarmed => rw [hasPending, (h.quiet (.inl hc)).1] at hp; cases hp
  | adopting => rw [hasPending, (h.quiet (.inr hc)).1] at hp; cases hp
  | rolling => rw [h.phase.2.2 (.inl hc)] at hp; cases hp
  | failed => rw [h.phase.2.2 (.inr hc)] at hp; cases hp

theorem hasPending_of_entry {c : Checkpoint} (hc : pendingEntry s = some c) : hasPending s = true :=
  List.any_eq_true.2 ⟨c, List.mem_of_find?_eq_some hc, by simpa using List.find?_some hc⟩

/-- Where no mark is pending every checkpoint is ESTABLISHED. -/
theorem established (hp : hasPending s = false) : ∀ c ∈ s.ctl.checkpoints, c.status = .established := fun c hc => by
  have := List.any_eq_false.1 hp c hc
  cases hs : c.status with
  | established => rfl
  | pending => simp [hs] at this

/-- Outside UNARMED the journal has slots. -/
theorem slots_pos (h : Sound s) (hs : s.ctl.state ≠ .unarmed) : 64 ≤ s.journal.config.slots :=
  (h.range.1 (h.range.2 hs)).1

/-- The lists are in their bounds. -/
theorem bounded (h : Sound s) (hc : Capacities s) : ListsBounded s := by
  refine ⟨h.occupancy, h.list.1, fun older newest he c hm => ?_, ?_, h.working.1⟩
  · have := h.list.2
    rw [he, List.pairwise_append] at this
    exact this.2.2 c hm newest (List.mem_singleton.2 rfl)
  · have hsub : s.capture.spaceWait ⊆ s.capture.entries.map (·.id) := fun id hid => by
      obtain ⟨e, he, hi, _⟩ := h.space.2 id hid
      exact List.mem_map.2 ⟨e, he, hi⟩
    have := (List.subperm_of_subset h.space.1 hsub).length_le
    rw [List.length_map] at this
    exact Nat.le_trans this hc.2.2.1

end Sound

/-! ### Flags.lean and Ops.lean -/

variable {s : State}

theorem latch_sound (c : AlertCause) (h : Sound s) : Sound (latch c s) := { h with }

theorem countDataError_sound (h : Sound s) : Sound (countDataError s) := { h with }

theorem countAbsorbed_sound (h : Sound s) : Sound (countAbsorbed s) := { h with }

theorem countCaptureWritten_sound (h : Sound s) : Sound (countCaptureWritten s) := { h with }

theorem setUnrecorded_sound (a : SeqNo) (h : Sound s) : Sound (setUnrecorded a s) := { h with }

theorem clearUnrecorded_sound (a : SeqNo) (h : Sound s) : Sound (clearUnrecorded a s) := by
  unfold clearUnrecorded; split
  · exact { h with }
  · exact h

theorem takeFree_sound (h : Sound s) : Sound (takeFree s) := { h with }

theorem enqueue_sound (e : DownEntry) (h : Sound s) : Sound (enqueue e s) := { h with }

theorem setTag_sound (tag : DownTag) (x : TagState) (h : Sound s) : Sound (setTag tag x s) := { h with }

theorem placeWhileRoom_sound : ∀ (l : List DownEntry) {s : State}, Sound s → Sound (placeWhileRoom l s).2
  | [], _, h => h
  | e :: rest, s, h => by
    unfold placeWhileRoom; split
    · exact placeWhileRoom_sound rest (enqueue_sound e h)
    · exact h

theorem submit_sound (waiting new : List DownEntry) (h : Sound s) : Sound (submit waiting new s).2 := by
  unfold submit; split
  · exact placeWhileRoom_sound _ h
  · exact h

theorem deliver_sound (n : Fin 8) (tag : Byte) (k : ResponseKind) (h : Sound s) : Sound (deliver n tag k s) := { h with }

theorem respond_sound (st : Status) (echo : Byte) (data : List Byte) (h : Sound s) : Sound (respond st echo data s) :=
  { h with }

theorem keepExecuting_sound (c : SlotCommand) (h : Sound s) : Sound (keepExecuting c s) := { h with }

theorem answerMark_sound (st : Status) (data : List Byte) (h : Sound s) : Sound (answerMark st data s) := by
  unfold answerMark; split
  · exact respond_sound _ _ _ h
  · exact h

/-- An entry changes: it keeps its number, goes no way back, and does not leave AWAIT_SPACE while it is on the space wait
list. -/
theorem updateEntry_sound {id : Nat} {f : CaptureEntry → CaptureEntry} (h : Sound s) (hi : ∀ e, (f e).id = e.id)
    (he : ∀ e ∈ s.capture.entries, e.id = id → (f e).early = true → s.ctl.state = .armed)
    (hs : id ∈ s.capture.spaceWait → ∀ e, e.state = .awaitSpace → (f e).state = .awaitSpace) :
    Sound (updateEntry id f s) :=
  have k : Keeps s (updateEntry id f s) := updateEntry_keeps id f s hi
  { h with
    distinct := k.guards.distinct h.distinct
    early := fun e hm => by
      obtain ⟨x, hx, rfl⟩ := List.mem_map.1 hm
      split
      · rename_i hid; exact he x hx (by simpa using hid)
      · exact h.early x hx
    space := ⟨h.space.1, fun i hm => by
      obtain ⟨e, hm', hid, hw⟩ := h.space.2 i hm
      refine ⟨_, List.mem_map.2 ⟨e, hm', rfl⟩, ?_⟩
      split
      · rename_i hq
        have hq' : e.id = id := by simpa using hq
        exact ⟨by rw [hi, hid], hs (by rw [← hq', hid]; exact hm) e hw⟩
      · exact ⟨hid, hw⟩⟩ }

/-- An entry that is on no list is freed. -/
theorem freeEntry_sound {id : Nat} (h : Sound s) (hs : id ∉ s.capture.spaceWait) : Sound (freeEntry id s) :=
  { h with
    distinct := (freeEntry_keeps id s).guards.distinct h.distinct
    early := fun e hm => h.early e (List.mem_filter.1 hm).1
    space := ⟨h.space.1, fun i hm => by
      obtain ⟨e, hm', hid, hw⟩ := h.space.2 i hm
      refine ⟨e, List.mem_filter.2 ⟨hm', ?_⟩, hid, hw⟩
      simp only [bne_iff_ne, ne_eq]
      rintro rfl
      exact hs (by rw [hid]; exact hm)⟩ }

theorem queueHeld_sound (e : CaptureEntry) (h : Sound s) : Sound (queueHeld e s) := by
  unfold queueHeld; split
  · exact enqueue_sound _ h
  · exact { h with }

theorem forwardEntry_sound {e : CaptureEntry} (b : Bool) (h : Sound s) (hs : e.id ∉ s.capture.spaceWait) :
    Sound (forwardEntry e b s) :=
  queueHeld_sound e (updateEntry_sound h (fun _ => rfl) (fun _ _ _ hf => by cases hf) (fun hm => absurd hm hs))

theorem forwardEntry_spaceWait (e : CaptureEntry) (b : Bool) (s : State) :
    (forwardEntry e b s).capture.spaceWait = s.capture.spaceWait := by
  unfold forwardEntry queueHeld; split <;> rfl

theorem endHold_sound (h : Sound s) : Sound (endHold s) := by
  unfold endHold; split
  · refine { h with intact := fun hn => ?_ }
    have := h.intact hn
    simp [this]
  · exact h

/-- Entries that are on no list go to forwarding one after another. -/
theorem foldl_forward_sound (recorded : CaptureEntry → Bool) : ∀ (l : List CaptureEntry) {s : State}, Sound s →
    (∀ e ∈ l, e.id ∉ s.capture.spaceWait) → Sound (l.foldl (fun s e => forwardEntry e (recorded e) s) s)
  | [], _, h, _ => h
  | e :: rest, s, h, hl => by
    rw [List.foldl_cons]
    refine foldl_forward_sound recorded rest (forwardEntry_sound _ h (hl e List.mem_cons_self)) fun x hx => ?_
    rw [forwardEntry_spaceWait]
    exact hl x (List.mem_cons_of_mem _ hx)

theorem stopWaiting_sound (ids : List Nat) (h : Sound s) : Sound (stopWaiting ids s) :=
  { h with space := ⟨h.space.1.filter _, fun i hm => h.space.2 i (List.mem_filter.1 hm).1⟩ }

theorem letGo_sound (p : CaptureEntry → Bool) (h : Sound s) : Sound (letGo p s) := by
  refine endHold_sound (foldl_forward_sound (fun _ => false) _ (stopWaiting_sound _ h) fun e he hm => ?_)
  have := (List.mem_filter.1 hm).2
  simp only [Bool.not_eq_true', ← Bool.not_eq_true, List.contains_iff_mem] at this
  exact this (List.mem_map.2 ⟨e, he, rfl⟩)

theorem setOccupancy_sound {n : Nat} (h : Sound s) (hn : n ≤ s.journal.config.slots) : Sound (setOccupancy n s) := by
  unfold setOccupancy; split
  · exact { h with occupancy := hn }
  · exact { h with occupancy := hn }

theorem queuePair_sound (a b : DownEntry) (h : Sound s) : Sound (queuePair a b s) := by
  unfold queuePair; split
  · exact { h with }
  · exact { h with }

theorem takeSlot_sound (o : SlotOwner) (h : Sound s) : Sound (takeSlot o s) := { h with }

theorem allocateSlot_sound (o : SlotOwner) (n : CheckpointNo) (b : RecordBody) (h : Sound s)
    (hn : s.journal.occupancy < s.journal.config.slots) : Sound (allocateSlot o n b s) :=
  queuePair_sound _ _ (setOccupancy_sound (takeSlot_sound o h) hn)

theorem noteExhaustedBreak_sound (h : Sound s) (ha : s.ctl.state = .armed) : Sound (noteExhaustedBreak s) :=
  { h with intact := fun hn => absurd ha hn }

theorem exhaustBreak_sound (h : Sound s) : Sound (exhaustBreak s) := by
  unfold exhaustBreak; split
  · rename_i hc
    exact letGo_sound _ (noteExhaustedBreak_sound h hc.1)
  · exact h

theorem setExhausted_sound (h : Sound s) : Sound (setExhausted s) := { h with }

theorem enterExhaustion_sound (h : Sound s) : Sound (enterExhaustion s) := by
  unfold enterExhaustion; split
  · exact h
  · exact exhaustBreak_sound (setExhausted_sound h)

theorem moveHead_sound (n : Nat) (b : Bool) (h : Sound s) : Sound (moveHead n b s) := { h with }

theorem trailStep_sound (h : Sound s) : Sound (trailStep s) := by
  unfold trailStep; split
  · exact setOccupancy_sound (moveHead_sound _ _ h) (Nat.le_trans (Nat.sub_le _ _) h.occupancy)
  · exact h

theorem startTrailing_sound (h : Sound s) : Sound (startTrailing s) := trailStep_sound (moveHead_sound _ _ h)

/-- Entries leave the checkpoint list. -/
theorem setList_sound {l : List Checkpoint} (h : Sound s) (hl : l.Sublist s.ctl.checkpoints) : Sound (setList l s) :=
  have k := setList_keeps l s fun _ hc => hl.subset hc
  { h with
    quiet := k.quiet h.quiet
    phase := k.phase h.phase
    list := ⟨Nat.le_trans hl.length_le h.list.1, h.list.2.sublist hl⟩ }

/-- Each entry of the checkpoint list changes, none of them to PENDING. -/
theorem mapList_sound {f : Checkpoint → Checkpoint} {t : State} (h : Sound s)
    (hf : ∀ c, c.status = .established → (f c).status = .established)
    (ht : Sound { t with ctl := { t.ctl with checkpoints := s.ctl.checkpoints } })
    (hc : t.ctl.checkpoints = s.ctl.checkpoints.map f) (hs : t.ctl.state = s.ctl.state) : Sound t :=
  { ht with
    quiet := fun hu => ⟨by rw [hc, (h.quiet (by rw [← hs]; exact hu)).1]; rfl, (ht.quiet hu).2⟩
    phase := ⟨ht.phase.1, ht.phase.2.1, fun hr => by
      have := Sound.established (h.phase.2.2 (by rw [← hs]; exact hr))
      rw [hasPending, hc, List.any_map, List.any_eq_false]
      intro c hm
      simp [hf c (this c hm)]⟩
    list := by
      refine ⟨by rw [hc, List.length_map]; exact ht.list.1, ?_⟩
      rw [hc, List.pairwise_map]
      exact h.list.2.imp fun hx => hf _ hx }

theorem releaseOldest_sound (h : Sound s) : Sound (releaseOldest s) := by
  unfold releaseOldest; split
  · rename_i c next rest hl
    have hk : Sound (setList (next :: rest) s) := setList_sound h (by rw [hl]; exact List.sublist_cons_self _ _)
    split
    · exact setOccupancy_sound (moveHead_sound _ _ hk) (Nat.le_trans (Nat.sub_le _ _) h.occupancy)
    · exact hk
  · exact startTrailing_sound (setList_sound h (List.nil_sublist _))

theorem emptyJournal_sound (h : Sound s) : Sound (emptyJournal s) :=
  setOccupancy_sound (s := forgetSlots s) { h with } (Nat.zero_le _)

theorem clearFilter_sound (h : Sound s) : Sound (clearFilter s) := { h with }

theorem restartAge_sound (h : Sound s) : Sound (restartAge s) := { h with }

theorem releaseAfterEmptying_sound (h : Sound s) : Sound (releaseAfterEmptying s) := by
  have hc : Sound (clearSpace s) := { h with space := ⟨List.nodup_nil, fun _ hm => nomatch hm⟩ }
  have fold : ∀ (l : List CaptureEntry) {s : State}, Sound s → s.capture.spaceWait = [] → Sound (l.foldl releaseEntry s) := by
    intro l
    induction l with
    | nil => intro s h _; exact h
    | cons e rest ih =>
      intro s h hs
      have hn : e.id ∉ s.capture.spaceWait := by rw [hs]; exact List.not_mem_nil
      rw [List.foldl_cons]
      unfold releaseEntry
      split
      · exact ih (forwardEntry_sound _ h hn) (by rw [forwardEntry_spaceWait, hs])
      · split
        · exact ih (forwardEntry_sound _ h hn) (by rw [forwardEntry_spaceWait, hs])
        · exact ih h hs
  exact endHold_sound (fold _ hc rfl)

/-- After an emptying no entry is short of RECORDING. -/
theorem releaseAfterEmptying_early (h : (s.capture.entries.map (·.id)).Nodup) :
    ∀ e ∈ (releaseAfterEmptying s).capture.entries, e.early = false := by
  rw [releaseAfterEmptying_eq s h]
  have : (endHold (forwardInOrder (leavingOrder s) (clearSpace s))).capture.entries =
      (forwardInOrder (leavingOrder s) (clearSpace s)).capture.entries := by
    unfold endHold; split <;> rfl
  rw [this]
  intro e he
  obtain ⟨x, hm, rfl⟩ := List.mem_map.1 he
  split
  · rfl
  · rename_i hx
    rw [Bool.eq_false_iff]
    exact fun early => hx ((mem_leavingOrder s x).2 ⟨hm, .inr early⟩)

theorem enterUnarmed_sound (h : Sound s) (he : ∀ e ∈ s.capture.entries, e.early = false) (hw : s.scan.working = []) :
    Sound (enterUnarmed s) :=
  have k := enterUnarmed_keeps s
  { h with
    quiet := k.quiet h.quiet
    phase := k.phase h.phase
    range := ⟨h.range.1, fun hn => absurd rfl hn⟩
    list := ⟨Nat.zero_le _, List.Pairwise.nil⟩
    working := ⟨h.working.1, h.working.2.1, fun _ => hw⟩
    early := fun e hm hf => by rw [he e hm] at hf; cases hf
    intact := fun _ => rfl }

/-! ### Marks.lean -/

theorem setWaiting_sound (l : List AllocRequest) (h : Sound s) : Sound (setWaiting l s) := { h with }

theorem judgeBreak_sound (n : CheckpointNo) (c : RecordCause) (h : Sound s) : Sound (judgeBreak n c s) := by
  unfold judgeBreak; split
  · exact setUnrecorded_sound _ (enterExhaustion_sound h)
  · split
    · exact allocateSlot_sound _ _ _ h ‹_›
    · exact setUnrecorded_sound _ h

theorem requestBreak_sound (b : Bool) (n : CheckpointNo) (c : RecordCause) (h : Sound s) :
    Sound (requestBreak b n c s) := by
  unfold requestBreak; split
  · exact setWaiting_sound _ h
  · exact judgeBreak_sound _ _ h

theorem breakOpen_sound (c : RecordCause) (h : Sound s) (ha : s.ctl.state = .armed) : Sound (breakOpen c s) :=
  latch_sound _ (requestBreak_sound _ _ _ (letGo_sound _ (s := noteOpenBreak c s)
    { h with intact := fun hn => absurd ha hn }))

theorem pendingRestarts_sound (h : Sound s) : Sound (pendingRestarts s) :=
  have hk := setList_sound h (List.filter_sublist (p := fun c : Checkpoint => c.status == CheckpointStatus.pending))
  { hk with }

theorem breakClosing_sound (n : CheckpointNo) (c : RecordCause) (h : Sound s) : Sound (breakClosing n c s) :=
  startTrailing_sound (pendingRestarts_sound (latch_sound _ (requestBreak_sound _ _ _ (letGo_sound _
    (s := noteClosingBreak c s) { h with }))))

theorem raiseBreak_sound (c : RecordCause) (h : Sound s) : Sound (raiseBreak c s) := by
  unfold raiseBreak; split
  · split
    · split
      · exact h
      · exact breakOpen_sound c h ‹_›
    · split
      · exact h
      · exact breakClosing_sound _ c h
  · exact h

theorem countCapture_sound (n : CheckpointNo) (h : Sound s) : Sound (countCapture n s) :=
  mapList_sound h (fun c hc => by split <;> exact hc) { h with } rfl rfl

theorem leaveSpace_sound (id : Nat) (h : Sound s) : Sound (leaveSpace id s) :=
  { h with space := ⟨h.space.1.filter _, fun i hm => h.space.2 i (List.mem_filter.1 hm).1⟩ }

theorem leaveSpace_notMem (id : Nat) (s : State) : id ∉ (leaveSpace id s).capture.spaceWait := fun hm => by
  simpa using (List.mem_filter.1 hm).2

theorem grantCapture_sound (e : CaptureEntry) (h : Sound s) (hn : s.journal.occupancy < s.journal.config.slots) :
    Sound (grantCapture e s) :=
  endHold_sound (countCapture_sound _ (updateEntry_sound (leaveSpace_sound _ (allocateSlot_sound _ _ _ h hn))
    (fun _ => rfl) (fun _ _ _ hf => by cases hf) (fun hm => absurd hm (leaveSpace_notMem _ _))))

/-- An entry short of RECORDING joins the space wait list. -/
theorem enterSpace_sound {id : Nat} (h : Sound s) (ha : s.ctl.state = .armed) (hm : ∃ e ∈ s.capture.entries, e.id = id)
    (hn : id ∉ s.capture.spaceWait) : Sound (enterSpace id s) := by
  have hk : Sound (updateEntry id (fun x => { x with state := .awaitSpace }) s) :=
    updateEntry_sound h (fun _ => rfl) (fun _ _ _ _ => ha) (fun hm => absurd hm hn)
  obtain ⟨e, he, hi⟩ := hm
  refine { hk with space := ⟨?_, fun i hm => ?_⟩ }
  · exact List.nodup_append.2 ⟨h.space.1, List.nodup_singleton _, fun a ha b hb => by
      rw [List.mem_singleton.1 hb]; rintro rfl; exact hn ha⟩
  · rcases List.mem_append.1 hm with hm | hm
    · exact hk.space.2 i hm
    · rw [List.mem_singleton.1 hm]
      exact ⟨{ e with state := .awaitSpace }, List.mem_map.2 ⟨e, he, by rw [if_pos (by simpa using hi)]⟩, hi, rfl⟩

theorem beginHold_sound (h : Sound s) (ha : s.ctl.state = .armed) : Sound (beginHold s) :=
  latch_sound .holding (s := { s with
    ctl := { s.ctl with condition := .holding }
    capture := { s.capture with hold := { running := true, count := 0, timeout := s.journal.config.holdTimeout } } })
    { h with intact := fun hn => absurd ha hn }

theorem joinSpace_sound {id : Nat} (h : Sound s) (ha : s.ctl.state = .armed) (hm : ∃ e ∈ s.capture.entries, e.id = id) :
    Sound (joinSpace id s) := by
  unfold joinSpace; split
  · exact h
  · rename_i hn
    have hn : id ∉ s.capture.spaceWait := fun hm => hn (List.contains_iff_mem.2 hm)
    split
    · exact beginHold_sound (enterSpace_sound h ha hm hn) ha
    · exact enterSpace_sound h ha hm hn

/-- The capture limit is not above the number of slots. -/
theorem captureLimit_le (j : Journal) : captureLimit j ≤ j.config.slots := by
  unfold captureLimit; split
  · exact Nat.sub_le _ _
  · exact Nat.zero_le _

theorem judgeCapture_sound (id : Nat) (h : Sound s) : Sound (judgeCapture id s) := by
  unfold judgeCapture; split
  · exact h
  · rename_i e he
    split
    · exact h
    · rename_i hearly
      have hm := mem_of_entryOf he
      split
      · exact letGo_sound _ (exhaustBreak_sound (enterExhaustion_sound h))
      · split
        · exact grantCapture_sound e h (Nat.lt_of_lt_of_le ‹_› (captureLimit_le _))
        · split
          · exact letGo_sound _ (raiseBreak_sound _ h)
          · exact joinSpace_sound h (h.early e hm.1 (by simpa using hearly)) ⟨e, hm.1, hm.2⟩

theorem requestCapture_sound (id : Nat) (h : Sound s) : Sound (requestCapture id s) := by
  unfold requestCapture; split
  · exact setWaiting_sound _ h
  · exact judgeCapture_sound id h

theorem askCapture_sound (id : Nat) (h : Sound s) : Sound (askCapture id s) := by
  unfold askCapture; split
  · exact h
  · rename_i e he
    have hm := mem_of_entryOf he
    split
    · exact h
    · rename_i hearly
      split
      · exact requestCapture_sound id h
      · exact joinSpace_sound h (h.early e hm.1 (by simpa using hearly)) ⟨e, hm.1, hm.2⟩

theorem grantSpace_sound : ∀ (n : Nat) {s : State}, Sound s → Sound (grantSpace n s)
  | 0, _, h => h
  | n + 1, s, h => by
    unfold grantSpace; split
    · exact h
    · split
      · exact grantSpace_sound n (requestCapture_sound _ h)
      · exact h

theorem establish_sound (c : Checkpoint) (h : Sound s) : Sound (establish c s) := by
  have hk : Sound (setEstablished s) := mapList_sound h
    (fun c hc => by split; · rfl
                    · exact hc) { h with } rfl rfl
  exact answerMark_sound _ _ (latch_sound _ (restartAge_sound (clearUnrecorded_sound _ hk)))

theorem breakByMark_sound (r : MarkReason) (h : Sound s) (ha : s.ctl.state = .armed) : Sound (breakByMark r s) := by
  refine letGo_sound _ (latch_sound _ ?_)
  unfold breakCondition; split
  · exact h
  · exact { h with intact := fun hn => absurd ha hn }

theorem removePending_sound (c : Checkpoint) (r : MarkReason) (h : Sound s) : Sound (removePending c r s) :=
  have hk := setList_sound h (List.filter_sublist (p := fun c : Checkpoint => c.status != CheckpointStatus.pending))
  { hk with }

theorem dropCheckpoints_sound (h : Sound s) (hs : s.ctl.state ≠ .adopting) : Sound (dropCheckpoints s) := by
  have he := emptyJournal_keeps s
  have hk : Sound (clearFilter (emptyJournal s)) := clearFilter_sound (emptyJournal_sound h)
  refine enterUnarmed_sound (releaseAfterEmptying_sound hk) (releaseAfterEmptying_early hk.distinct.1) ?_
  rw [(releaseAfterEmptying_keeps _).scan, (clearFilter_keeps _).scan, he.scan]
  exact h.working.2.2 hs

theorem answerMark_ctl (st : Status) (data : List Byte) (s : State) : (answerMark st data s).ctl = s.ctl := by
  unfold answerMark; split <;> rfl

theorem failMark_sound (r : MarkReason) (h : Sound s) : Sound (failMark r s) := by
  unfold failMark; split
  · exact h
  · rename_i c hc
    have ha := h.armed_of_pending (Sound.hasPending_of_entry hc)
    have hk : Sound (answerMark (failStatus r) [] (latch .markRefused (removePending c r s))) :=
      answerMark_sound _ _ (latch_sound _ (removePending_sound c r h))
    have hs : (answerMark (failStatus r) [] (latch .markRefused (removePending c r s))).ctl.state = .armed := by
      rw [answerMark_ctl]; exact ha
    dsimp only
    split
    · exact dropCheckpoints_sound hk (by rw [hs]; decide)
    · exact breakByMark_sound r hk hs

theorem placeMark_sound (slot : Nat) (seq : SeqNo) (h : Sound s) : Sound (placeMark slot seq s) :=
  mapList_sound h (fun c hc => by split <;> exact hc) { h with } rfl rfl

theorem foldl_sound {α : Type} (f : State → α → State) (hf : ∀ (s : State) (a : α), Sound s → Sound (f s a)) :
    ∀ (l : List α) {s : State}, Sound s → Sound (l.foldl f s)
  | [], _, h => h
  | a :: rest, _, h => foldl_sound f hf rest (hf _ a h)

theorem askWaiting_sound (h : Sound s) : Sound (askWaiting s) := foldl_sound _ (fun _ id h => askCapture_sound id h) _ h

theorem judgeMark_sound (h : Sound s) : Sound (judgeMark s) := by
  unfold judgeMark; split
  · exact h
  · split
    · exact failMark_sound _ (enterExhaustion_sound h)
    · split
      · exact askWaiting_sound (trailStep_sound (placeMark_sound _ _ (allocateSlot_sound _ _ _ h ‹_›)))
      · exact failMark_sound _ h

theorem requestMark_sound (h : Sound s) : Sound (requestMark s) := by
  unfold requestMark; split
  · exact setWaiting_sound _ h
  · exact judgeMark_sound h

theorem afterSpace_sound (h : Sound s) : Sound (afterSpace s) := by
  have hk := grantSpace_sound s.capture.spaceWait.length h
  unfold afterSpace reportClosing; split
  · exact hk
  · split
    · exact requestMark_sound hk
    · exact hk

theorem judgeRequest_sound (r : AllocRequest) (h : Sound s) : Sound (judgeRequest r s) := by
  unfold judgeRequest; split
  · exact judgeCapture_sound _ h
  · exact judgeMark_sound h
  · exact judgeBreak_sound _ _ h

theorem judgeWaiting_sound : ∀ (n : Nat) {s : State}, Sound s → Sound (judgeWaiting n s)
  | 0, _, h => h
  | n + 1, s, h => by
    unfold judgeWaiting; split
    · exact h
    · split
      · exact h
      · exact judgeWaiting_sound n (judgeRequest_sound _ (setWaiting_sound _ h))

theorem refuseMark_sound (src : MarkSource) (v : BitVec 64) (r : MarkReason) (h : Sound s) :
    Sound (refuseMark src v r s) := by
  unfold refuseMark noteRefused; split
  · exact latch_sound .markRefused { enterExhaustion_sound h with }
  · exact latch_sound .markRefused { h with }

/-- A mark point leaves room for the PENDING entry. -/
theorem makeRoom_sound (b : Bool) (h : Sound s) (hd : 1 ≤ s.journal.config.depth) :
    Sound (makeRoom b s) ∧ (makeRoom b s).ctl.checkpoints.Sublist s.ctl.checkpoints ∧
    (makeRoom b s).journal.configured = s.journal.configured ∧
    (makeRoom b s).ctl.checkpoints.length + 1 ≤ (makeRoom b s).journal.config.depth := by
  have cfg : ∀ (n : Nat) (t : State), (setOccupancy n t).journal.config = t.journal.config ∧
      (setOccupancy n t).journal.configured = t.journal.configured ∧ (setOccupancy n t).ctl = t.ctl :=
    fun n t => by unfold setOccupancy; split <;> exact ⟨rfl, rfl, rfl⟩
  have trail : ∀ t : State, (startTrailing t).journal.config = t.journal.config ∧
      (startTrailing t).journal.configured = t.journal.configured ∧ (startTrailing t).ctl = t.ctl := fun t => by
    unfold startTrailing trailStep; split
    · exact cfg _ _
    · exact ⟨rfl, rfl, rfl⟩
  unfold makeRoom; split
  · split
    · rename_i he
      rw [List.isEmpty_iff] at he
      exact ⟨h, List.Sublist.refl _, rfl, by rw [he]; exact hd⟩
    · refine ⟨startTrailing_sound (setList_sound h (List.nil_sublist _)), ?_⟩
      rw [(trail _).1, (trail _).2.1, (trail _).2.2]; exact ⟨List.nil_sublist _, rfl, hd⟩
  · split
    · refine ⟨releaseOldest_sound h, ?_⟩
      have hl := h.list.1
      unfold releaseOldest; split
      · rename_i c next rest hc
        rw [hc] at hl ⊢
        split
        · rw [(cfg _ _).1, (cfg _ _).2.1, (cfg _ _).2.2]; exact ⟨List.sublist_cons_self _ _, rfl, hl⟩
        · exact ⟨List.sublist_cons_self _ _, rfl, hl⟩
      · rw [(trail _).1, (trail _).2.1, (trail _).2.2]; exact ⟨List.nil_sublist _, rfl, hd⟩
    · rename_i hn
      exact ⟨h, List.Sublist.refl _, rfl, Nat.succ_le_of_lt (Nat.lt_of_not_le hn)⟩

theorem appendPending_sound (src : MarkSource) (v : BitVec 64) (p : PendingMark) (b : Bool) (h : Sound s)
    (hc : s.journal.configured = true) (hg : gateClosed s = false) (hp : hasPending s = false)
    (hl : s.ctl.checkpoints.length + 1 ≤ s.journal.config.depth) : Sound (appendPending src v p b s) :=
  { h with
    quiet := fun hu => by rcases hu with hu | hu <;> cases hu
    phase := phase_of_calm_change (s := s) (fun e => by simp [gateClosed, e] at hg) (fun e => by simp [gateClosed, e] at hg)
      (by simp [appendPending]) (by simp [appendPending]) rfl h.phase
    range := ⟨h.range.1, fun _ => hc⟩
    list := ⟨by simpa [appendPending] using hl, List.pairwise_append.2
      ⟨h.list.2, List.pairwise_singleton _ _, fun c hm _ _ => Sound.established hp c hm⟩⟩
    working := ⟨h.working.1, h.working.2.1, fun _ => h.working.2.2 fun e => by simp [gateClosed, e] at hg⟩
    early := fun _ _ _ => rfl
    intact := fun hn => absurd rfl hn }

theorem markPoint_sound (src : MarkSource) (v : BitVec 64) (h : Sound s) (hc : s.journal.configured = true)
    (hg : gateClosed s = false) (hp : hasPending s = false) : Sound (markPoint src v s) := by
  have hk : ∀ b, Sound (closeEpoch b s) := fun b => { h with }
  unfold markPoint
  dsimp only
  generalize (s.ctl.state == .unarmed || s.ctl.condition == .broken) = b
  have ⟨h1, h2, h3, h4⟩ := makeRoom_sound b (hk b) (h.range.1 hc).2.2.1
  refine appendPending_sound src v _ _ h1 (by rw [h3]; exact hc)
    (by rw [gateClosed_of_state (makeRoom_ctl_state b (closeEpoch b s))]; exact hg)
    (noPending_of_subset (fun c hm => h2.subset hm) hp) h4

theorem requestMarkFrom_sound (src : MarkSource) (v : BitVec 64) (h : Sound s) : Sound (requestMarkFrom src v s) := by
  unfold requestMarkFrom; split
  · exact refuseMark_sound _ _ _ h
  · exact h
  · have hv := markVerdict_taken ‹_›
    exact markPoint_sound _ _ h hv.2.1 hv.1 hv.2.2.2

theorem judgeMarkCommand_sound (v : BitVec 64) (h : Sound s) : Sound (judgeMarkCommand v s) := by
  unfold judgeMarkCommand; split
  · exact respond_sound _ _ _ (refuseMark_sound _ _ _ h)
  · exact keepExecuting_sound _ h
  · have hv := markVerdict_taken ‹_›
    exact markPoint_sound _ _ (keepExecuting_sound _ h) hv.2.1 hv.1 hv.2.2.2

theorem passSlot_sound (r : SlotRecord) (h : Sound s) : Sound (passSlot r s) := by
  refine trailStep_sound ?_
  have hk : Sound (moveCommit r s) := { h with }
  unfold tellOwner; split
  · split
    · rename_i e he
      have hm := mem_of_entryOf he
      split
      · rename_i hs
        exact forwardEntry_sound _ hk (hk.notWaiting hm.1 (by rw [hs]; decide))
      · exact hk
    · exact hk
  · split
    · split
      · exact establish_sound _ hk
      · exact hk
    · exact hk
  · exact hk

theorem passSettled_sound : ∀ (n : Nat) {s : State}, Sound s → Sound (passSettled n s)
  | 0, _, h => h
  | n + 1, s, h => by
    unfold passSettled; split
    · exact h
    · split
      · exact passSettled_sound n (passSlot_sound _ h)
      · exact h

theorem advanceCommit_sound (h : Sound s) : Sound (advanceCommit s) := by
  unfold advanceCommit; split
  · exact h
  · exact h
  all_goals exact passSettled_sound _ h

theorem reportSettled_sound (r : SlotRecord) (h : Sound s) : Sound (reportSettled r s) := by
  unfold reportSettled; split
  · rename_i id _
    have hk : Sound (updateEntry id (fun e => if e.state = .recording then { e with state := .awaitCommit } else e) s) :=
      updateEntry_sound h (fun e => by split <;> rfl)
        (fun e hm _ hf => h.early e hm (by
          split at hf
          · cases hf
          · exact hf))
        (fun _ e he => by rw [if_neg (by rw [he]; decide)]; exact he)
    dsimp only
    split
    · exact raiseBreak_sound _ hk
    · split
      · exact countCaptureWritten_sound hk
      · exact hk
  · split
    · split
      · exact failMark_sound _ h
      · exact h
    · exact h
  · split
    · exact setUnrecorded_sound _ h
    · exact h

theorem dropForgotten_sound (r : SlotRecord) (h : Sound s) : Sound (dropForgotten r s) := by
  have hk : Sound (eraseSlot r s) := { h with }
  unfold dropForgotten; split
  · split
    · rename_i e he
      split
      · rename_i hs
        exact forwardEntry_sound _ hk (hk.notWaiting (mem_of_entryOf he).1 (by rw [hs]; decide))
      · exact hk
    · exact hk
  · exact hk
  · exact hk

theorem journalWriteDone_sound (slot : Nat) (half : Half) (error : Bool) (h : Sound s) :
    Sound (journalWriteDone slot half error s) := by
  have hk : ∀ r r', Sound (replaceSlot r r' s) := fun _ _ => { h with }
  unfold journalWriteDone; split
  · exact h
  · dsimp only
    split
    · split
      · exact dropForgotten_sound _ (hk _ _)
      · exact advanceCommit_sound (reportSettled_sound _ (hk _ _))
    · exact hk _ _

/-! ### Rollback.lean -/

theorem startRollback_sound (o : Origin) (c : Checkpoint) (h : Sound s) (hp : hasPending s = false)
    (ha : s.ctl.state = .armed) : Sound (startRollback o c s) := by
  have k := startRollback_keeps o c s hp
  have e : ∀ (l : List CaptureEntry) (t : State),
      l.foldl (fun s e => deliver e.initiator e.tag .retracted s) t = { t with
        up := (l.foldl (fun s e => deliver e.initiator e.tag .retracted s) t).up } := by
    intro l
    induction l with
    | nil => intro t; rfl
    | cons x rest ih => intro t; rw [List.foldl_cons, ih]; rfl
  have hc : ∀ x : CaptureEntry, x.cancellable = false → x.early = false := fun x hx => by
    have : x.state = .forwarding := by simpa [CaptureEntry.cancellable] using hx
    simp [CaptureEntry.early, this]
  have hq := k.quiet h.quiet
  have hd := k.guards.distinct h.distinct
  have hf := k.phase h.phase
  unfold startRollback retractEntries at *
  rw [e] at *
  exact {
    distinct := hd, quiet := hq, phase := hf, occupancy := h.occupancy, list := h.list, overlap := h.overlap
    rback := h.rback, range := ⟨h.range.1, fun _ => h.range.2 (by rw [ha]; decide)⟩
    space := ⟨List.nodup_nil, fun _ hm => nomatch hm⟩
    working := ⟨h.working.1, h.working.2.1, fun _ => h.working.2.2 (by rw [ha]; decide)⟩
    early := fun x hm hx => by
      have := (List.mem_filter.1 hm).2
      rw [hc x (by simpa using this)] at hx; cases hx
    intact := fun _ => rfl }

/-- The target's epoch is open again. -/
theorem settle_sound (b : Bool) (h : Sound s) (hr : s.ctl.state = .rolling) : Sound (settle b s) := by
  have hs := h.slots_pos (by rw [hr]; decide)
  unfold settle; split
  · exact h
  · rename_i t _
    have hk : Sound (truncate t.slot s) := by
      refine setOccupancy_sound (s := moveTailBack t.slot s) { h with } ?_
      have := Nat.mod_lt (t.slot + s.journal.config.slots - s.journal.head) (show 0 < s.journal.config.slots by omega)
      show ringDistance s.journal s.journal.head t.slot + 1 ≤ s.journal.config.slots
      unfold ringDistance
      omega
    have ht : (truncate t.slot s).ctl = s.ctl := setOccupancy_ctl _ _
    have hc : (truncate t.slot s).journal.configured = true := by
      have : (truncate t.slot s).journal.configured = s.journal.configured := by
        unfold truncate setOccupancy; split <;> rfl
      rw [this]; exact h.range.2 (by rw [hr]; decide)
    refine latch_sound _ (restartAge_sound ?_)
    have hm : Sound { reopenTarget t b (truncate t.slot s) with
        ctl := { (reopenTarget t b (truncate t.slot s)).ctl with checkpoints := (truncate t.slot s).ctl.checkpoints } } :=
      { hk with
        quiet := fun hu => by rcases hu with hu | hu <;> cases hu
        phase := by simp [PhaseFollowsState, reopenTarget]
        range := ⟨hk.range.1, fun _ => hc⟩
        working := ⟨hk.working.1, hk.working.2.1, fun _ => hk.working.2.2 (by rw [ht, hr]; decide)⟩
        early := fun _ _ _ => rfl
        intact := fun hn => absurd rfl hn
        rback := fun hh hb => by
          simp only [reopenTarget, Bool.or_eq_true, Bool.and_eq_true] at hb
          rcases hb with hb | hb
          · exact hk.rback hh hb
          · exact hb.2 }
    exact { hm with
      quiet := fun hu => by rcases hu with hu | hu <;> cases hu
      phase := by simp [PhaseFollowsState, reopenTarget]
      list := by
        refine ⟨by simpa [reopenTarget] using hk.list.1, ?_⟩
        show (List.map _ _).Pairwise _
        rw [List.pairwise_map]
        exact hk.list.2.imp fun hx => by split <;> exact hx }

theorem undoSubmit_sound (l : List DownEntry) (h : Sound s) : Sound (undoSubmit l s) :=
  have hk := submit_sound s.rollback.undoWait l h
  { hk with }

theorem readSlot_sound (slot : Nat) (h : Sound s) : Sound (readSlot slot s) :=
  undoSubmit_sound _ (s := clearPair s) { h with }

theorem enterUndo_sound (p : Nat) (h : Sound s) (hr : s.rollback.phase = .retract) : Sound (enterUndo p s) :=
  { h with phase := (enterUndo_keeps p s hr).phase h.phase }

theorem checkRetraction_sound (h : Sound s) : Sound (checkRetraction s) := by
  unfold checkRetraction; split
  · rename_i hr
    unfold beginUndo; split
    · exact h
    · dsimp only
      split
      · exact settle_sound _ (enterUndo_sound _ h hr.1) (h.phase.1.2 (.inl hr.1))
      · exact readSlot_sound _ (enterUndo_sound _ h hr.1)
  · exact h

theorem slotDone_sound (seq : SeqNo) (h : Sound s) : Sound (slotDone seq s) := by
  have hk : ∀ back, Sound (countSlot seq back s) := fun _ => { h with }
  unfold slotDone; split
  · dsimp only
    split
    · exact undoSubmit_sound _ (hk _)
    · exact readSlot_sound _ (hk _)
  · exact h

theorem stopWalk_sound (c : WalkCause) (h : Sound s) (hr : s.ctl.state = .rolling) : Sound (stopWalk c s) := by
  unfold stopWalk; split
  · exact h
  · rename_i p _
    have k := noteFailure_keeps p c s hr
    exact latch_sound .rollbackFailed (s := noteFailure p c s) { h with
      quiet := k.quiet h.quiet
      phase := k.phase h.phase
      range := ⟨h.range.1, fun _ => h.range.2 (by rw [hr]; decide)⟩
      working := ⟨h.working.1, h.working.2.1, fun _ => h.working.2.2 (by rw [hr]; decide)⟩
      early := fun e hm hf => by have := h.early e hm hf; rw [hr] at this; cases this
      intact := fun _ => h.intact (by rw [hr]; decide) }

theorem undoSlot_sound (header data : LineData) (h : Sound s) (hr : s.ctl.state = .rolling) :
    Sound (undoSlot header data s) := by
  have record : ∀ slot seq number body, Sound (undoRecord slot seq number body s) := fun slot seq number body => by
    unfold undoRecord; split
    · split
      · exact undoSubmit_sound _ (s := { s with rollback := { s.rollback with current := some seq } }) { h with }
      · exact stopWalk_sound _ h hr
    · split
      · exact slotDone_sound _ (setList_sound h List.filter_sublist)
      · exact stopWalk_sound _ h hr
    · exact stopWalk_sound _ h hr
  unfold undoSlot
  repeat' split
  all_goals first | exact h | exact stopWalk_sound _ h hr | exact record _ _ _ _

theorem undoReadDone_sound (half : Half) (r : ReadResult) (h : Sound s) (hr : s.ctl.state = .rolling) :
    Sound (undoReadDone half r s) := by
  have hk : Sound (storePair half r s) := { h with }
  unfold undoReadDone judgePair; split
  · exact undoSlot_sound _ _ hk hr
  · exact stopWalk_sound _ hk hr
  · exact hk

theorem refuseLine_sound (r : LineRefusal) (h : Sound s) : Sound (refuseLine r s) := latch_sound .rollbackRefused { h with }

theorem setLineRequest_sound (b : Bool) (h : Sound s) : Sound (setLineRequest b s) := { h with }

theorem judgeLine_sound (h : Sound s) : Sound (judgeLine s) := by
  have hk := setLineRequest_sound false h
  unfold judgeLine; split
  · exact refuseLine_sound _ hk
  · rename_i ha
    unfold judgeArmedLine; split
    · exact setLineRequest_sound true hk
    · rename_i hp
      split
      · exact refuseLine_sound _ hk
      · split
        · exact startRollback_sound _ _ hk (by simpa using hp) ha
        · exact refuseLine_sound _ hk
  · exact countAbsorbed_sound { hk with }
  · exact refuseLine_sound _ hk
  · exact setLineRequest_sound true h

theorem judgeRollback_sound (d : Byte) (h : Sound s) : Sound (judgeRollback d s) := by
  unfold judgeRollback; split
  · exact respond_sound _ _ _ h
  · exact respond_sound _ _ _ h
  · exact respond_sound _ _ _ h
  · exact respond_sound _ _ _ h
  · rename_i ha
    split
    · exact respond_sound _ _ _ h
    · split
      · exact keepExecuting_sound _ h
      · rename_i hp
        split
        · exact respond_sound _ _ _ h
        · split
          · exact respond_sound _ _ _ h
          · exact startRollback_sound _ _ (respond_sound _ _ _ h) (by rw [Bool.not_eq_true] at hp; exact hp) ha

theorem judgeWaiter_sound (h : Sound s) : Sound (judgeWaiter s) := by
  have command : ∀ c {s : State}, Sound s → Sound (judgeCommand c s) := fun c s h => by
    unfold judgeCommand; split
    · exact judgeMarkCommand_sound _ h
    · exact judgeRollback_sound _ h
  unfold judgeWaiter; split
  · exact h
  · split
    · exact h
    · exact judgeLine_sound h
    · exact command _ h
    · split
      · exact judgeLine_sound (takeFree_sound h)
      · exact command _ (takeFree_sound h)

theorem setPhase_sound (h : Sound s) : Sound (setPhase s) := by
  have kp := (setPhase_keeps s).phase h.phase
  unfold setPhase at *; split
  · exact h
  · rename_i hn
    rw [if_neg hn] at kp
    exact { h with phase := kp }

theorem inTurn_sound (judge : State → State) (hj : ∀ s, Sound s → Sound (judge s)) (h : Sound s) :
    Sound (inTurn judge s) := by
  unfold inTurn
  split
  · split
    · exact takeFree_sound h
    · exact hj _ (takeFree_sound h)
  · exact hj _ h

theorem judgeNext_sound (h : Sound s) : Sound (judgeNext s) := afterSpace_sound (judgeWaiter_sound h)

theorem closeEvent_sound (h : Sound s) : Sound (closeEvent s) := setPhase_sound (checkRetraction_sound h)

theorem finish_sound (h : Sound s) : Sound (finish s) :=
  closeEvent_sound (inTurn_sound _ (fun _ h => inTurn_sound _ (fun _ h => judgeNext_sound h) (judgeNext_sound h))
    (afterSpace_sound h))

theorem finishScan_sound (h : Sound s) : Sound (finishScan s) :=
  closeEvent_sound (judgeNext_sound (judgeNext_sound (afterSpace_sound h)))

/-! ### Adoption.lean -/

theorem scanSubmit_sound (l : List DownEntry) (h : Sound s) : Sound (scanSubmit l s) :=
  have hk := submit_sound s.scan.scanWait l h
  { hk with }

theorem readScanSlot_sound (slot : Nat) (h : Sound s) : Sound (readScanSlot slot s) :=
  scanSubmit_sound _ (s := { s with scan := { s.scan with pair := { header := none, data := none } } }) { h with }

theorem startScan_sound (start : Nat) (h : Sound s) (hu : s.ctl.state = .unarmed)
    (hc : s.journal.configured = true) : Sound (startScan start s) :=
  readScanSlot_sound _ { h with
    quiet := fun _ => h.quiet (.inl hu)
    phase := phase_of_calm_change (s := s) (by simp [hu]) (by simp [hu]) (by simp) (by simp) rfl h.phase
    range := ⟨h.range.1, fun _ => hc⟩
    working := ⟨Nat.zero_le _, fun _ hm => (nomatch hm), fun _ => rfl⟩
    early := fun e hm hf => by have := h.early e hm hf; rw [hu] at this; cases this
    intact := fun _ => h.intact (by rw [hu]; decide) }

theorem countNewest_length : ∀ l : List Checkpoint, (countNewest l).length = l.length
  | [] => rfl
  | [_] => rfl
  | _ :: c :: rest => by
    show (countNewest (c :: rest)).length + 1 = _
    rw [countNewest_length (c :: rest)]; rfl

theorem countNewest_established : ∀ l : List Checkpoint, (∀ c ∈ l, c.status = .established) →
    ∀ c ∈ countNewest l, c.status = .established
  | [], _, _, hc => nomatch hc
  | [x], h, c, hc => by rw [List.mem_singleton.1 hc]; exact h x List.mem_cons_self
  | x :: y :: rest, h, c, hc => by
    rcases List.mem_cons.1 hc with rfl | hc
    · exact h _ List.mem_cons_self
    · exact countNewest_established (y :: rest) (fun c hc => h c (List.mem_cons_of_mem _ hc)) c hc

theorem acceptBody_sound (slot : Nat) (seq : SeqNo) (number : CheckpointNo) (body : RecordBody) (h : Sound s)
    (ha : s.ctl.state = .adopting) : Sound (acceptBody slot seq number body s) := by
  unfold acceptBody; split
  · exact { h with working := ⟨by rw [countNewest_length]; exact h.working.1,
      countNewest_established _ h.working.2.1, fun hn => absurd ha hn⟩ }
  · rename_i value source _ restart
    refine { h with working := ⟨?_, ?_, fun hn => absurd ha hn⟩ }
    · simp only [acceptMark, List.length_drop]
      omega
    · intro c hc
      have := List.mem_of_mem_drop hc
      rcases List.mem_append.1 this with hm | hm
      · split at hm
        · cases hm
        · exact h.working.2.1 c hm
      · rw [List.mem_singleton.1 hm]
  · exact { h with }

theorem endUnarmed_sound (r : ScanResult) (c : ScanCause) (e : Option Nat) (h : Sound s)
    (ha : s.ctl.state ≠ .armed) : Sound (endUnarmed r c e s) := by
  have hk := emptyJournal_sound h
  have hn : ∀ x ∈ s.capture.entries, x.early = false := fun x hm => by
    cases hx : x.early with
    | false => rfl
    | true => exact absurd (h.early x hm hx) ha
  unfold endUnarmed
  rw [emptyJournal_eq] at hk ⊢
  have k := enterUnarmed_keeps { s with journal := (emptied s).journal }
  refine latch_sound .adoptDone ?_
  exact { hk with
    quiet := k.quiet hk.quiet
    phase := k.phase hk.phase
    range := ⟨hk.range.1, fun hn => absurd rfl hn⟩
    list := ⟨Nat.zero_le _, List.Pairwise.nil⟩
    working := ⟨Nat.zero_le _, fun _ hm => (nomatch hm), fun _ => rfl⟩
    early := fun e hm hf => by rw [hn e hm] at hf; cases hf
    intact := fun _ => rfl }

theorem endAdopted_sound (c : ScanCause) (e : Nat) (h : Sound s) (ha : s.ctl.state = .adopting) :
    Sound (endAdopted c e s) := by
  have hs := h.slots_pos (by rw [ha]; decide)
  unfold endAdopted; split
  · refine latch_sound .adoptDone ?_
    exact { h with
      quiet := fun hu => by rcases hu with hu | hu <;> cases hu
      phase := phase_of_calm_change (s := s) (by simp [ha]) (by simp [ha]) (by simp [restartAge]) (by simp [restartAge])
        rfl h.phase
      range := ⟨h.range.1, fun _ => h.range.2 (by rw [ha]; decide)⟩
      occupancy := by
        show ringDistance s.journal _ _ + 1 ≤ s.journal.config.slots
        exact Nat.mod_lt _ (by omega)
      list := ⟨h.working.1, List.pairwise_of_forall_mem_list fun a hm _ _ => h.working.2.1 a hm⟩
      working := ⟨Nat.zero_le _, fun _ hm => (nomatch hm), fun _ => rfl⟩
      early := fun _ _ _ => rfl
      intact := fun hn => absurd rfl hn }
  · exact h

theorem stopScan_sound (c : ScanCause) (e : Nat) (h : Sound s) (ha : s.ctl.state = .adopting) :
    Sound (stopScan c e s) := by
  have hn : s.ctl.state ≠ .armed := by rw [ha]; decide
  unfold stopScan; split
  · exact endUnarmed_sound _ _ _ h hn
  · split
    · exact endUnarmed_sound _ _ _ h hn
    · exact endAdopted_sound _ _ h ha

theorem scanReadDone_sound (run slot : Nat) (half : Half) (r : ReadResult) (h : Sound s) :
    Sound (scanReadDone run slot half r s) := by
  unfold scanReadDone; split
  · rename_i ha
    dsimp only
    have hk : Sound { s with scan := { s.scan with pair := s.scan.pair.store half r } } := { h with }
    split
    · unfold scanSlot; split
      · unfold acceptRecord
        have hb := acceptBody_sound slot ‹SeqNo› ‹CheckpointNo› ‹RecordBody› hk ha.1
        have hc := acceptBody_ctl slot ‹SeqNo› ‹CheckpointNo› ‹RecordBody›
          { s with scan := { s.scan with pair := s.scan.pair.store half r } }
        dsimp only
        split
        · exact stopScan_sound _ _ { hb with } (by rw [hc]; exact ha.1)
        · exact readScanSlot_sound _ { hb with }
      · exact stopScan_sound _ _ hk ha.1
    · exact hk
  · exact h

/-! ### Path.lean, Lines.lean and Reset.lean -/

theorem popIngress_sound (n : Fin 8) (rest : List UpRequest) (h : Sound s) : Sound (popIngress n rest s) := { h with }

theorem arrive_sound (r : UpRequest) (h : Sound s) : Sound (arrive r s) := by
  unfold arrive
  dsimp only
  repeat' split
  all_goals exact { h with }

/-- The windows stand as they did. -/
theorem recordViolation_sound (r : UpRequest) (c : ViolationCause) (h : Sound s) : Sound (recordViolation r c s) := by
  unfold recordViolation; split
  · exact { h with }
  · exact { h with }

theorem createEntry_sound (r : UpRequest) (mask : ByteMask) (data : LineData) (h : Sound s)
    (ha : s.ctl.state = .armed) : Sound (createEntry r mask data s) := by
  refine { h with distinct := ⟨?_, ?_⟩, early := fun _ _ _ => ha, space := ⟨h.space.1, fun i hm => ?_⟩ }
  · simp only [createEntry, enqueue, List.map_append, List.map_cons, List.map_nil]
    refine List.nodup_append.2 ⟨h.distinct.1, List.nodup_singleton _, fun a hm b hb => ?_⟩
    obtain ⟨x, hx, hi⟩ := List.mem_map.1 hm
    have := h.distinct.2 x hx
    have := List.mem_singleton.1 hb
    omega
  · intro e hm
    rcases List.mem_append.1 hm with hm | hm
    · exact Nat.lt_succ_of_lt (h.distinct.2 e hm)
    · rw [List.mem_singleton.1 hm]; exact Nat.lt_succ_self _
  · obtain ⟨e, he, hi⟩ := h.space.2 i hm
    exact ⟨e, List.mem_append_left _ he, hi⟩

theorem treat_sound (r : UpRequest) (h : Sound s) : Sound (treat r (treatment s r) s) := by
  have hp : ∀ g {s : State}, Sound s → Sound (passRequest r g s) := fun g s h => enqueue_sound _ h
  unfold treat; split
  · exact hp _ h
  · exact recordViolation_sound _ _ (hp _ h)
  · exact finish_sound (requestMarkFrom_sound _ _ (hp _ h))
  · exact recordViolation_sound _ _ (deliver_sound _ _ _ h)
  · exact hp true (s := { s with alerts := { s.alerts with filterHits := satInc s.alerts.filterHits } }) { h with }
  · rename_i mask data ht
    refine createEntry_sound r mask data h ?_
    unfold treatment guardedWrite markerWrite at ht
    split at ht
    · cases ht
    · split at ht
      all_goals first | (cases ht) | skip
      · split at ht
        · split at ht <;> cases ht
        · cases ht
      · split at ht
        · cases ht
        · cases ht
        · split at ht
          · rename_i hc
            simp only [capturing, Bool.and_eq_true, beq_iff_eq] at hc
            exact hc.1
          · cases ht

theorem oldLineDone_sound (id : Nat) (r : ReadResult) (h : Sound s) : Sound (oldLineDone id r s) := by
  have hk : Sound { s with rollback := { s.rollback with readsLeft := s.rollback.readsLeft.filter fun x => x != id } } :=
    { h with }
  unfold oldLineDone
  dsimp only
  split
  · exact hk
  · rename_i e he
    have hm := mem_of_entryOf he
    split
    · rename_i data
      have hu := updateEntry_sound (id := id) (f := fun x => { x with oldData := some data }) hk (fun _ => rfl)
        (fun e hm _ hf => hk.early e hm hf) (fun _ _ hw => hw)
      split
      · rename_i hs
        split
        · refine updateEntry_sound hu (fun _ => rfl) (fun _ _ _ _ => ?_) (fun hw => absurd hw ?_)
          · exact h.early e hm.1 (by simp [CaptureEntry.early, hs])
          · have := hk.notWaiting hm.1 (by rw [hs]; decide)
            rw [hm.2] at this; exact this
        · exact askCapture_sound _ hu
      · exact hu
    · split
      · rename_i hs
        have := hk.notWaiting hm.1 (by rw [hs]; decide)
        rw [hm.2] at this
        exact countDataError_sound (deliver_sound _ _ _ (freeEntry_sound hk this))
      · exact hk

theorem retire_sound (id : Nat) (error : Bool) (h : Sound s) : Sound (retire id error s) := by
  unfold retire; split
  · exact h
  · rename_i e he
    have hm := mem_of_entryOf he
    split
    · exact h
    · rename_i hs
      have hs : e.state = .forwarding := by simpa using hs
      have hn := h.notWaiting hm.1 (by rw [hs]; decide)
      rw [hm.2] at hn
      split
      · exact freeEntry_sound (countDataError_sound (deliver_sound _ _ _ h)) hn
      · dsimp only
        have hd := deliver_sound e.initiator e.tag (.okay none) h
        unfold filterInsert
        repeat' split
        all_goals exact freeEntry_sound { hd with } hn

theorem queueForwarded_sound (h : Sound s) : Sound (queueForwarded s) := by
  unfold queueForwarded
  dsimp only
  repeat' split
  all_goals exact { h with }

theorem resetBlocks_sound (s : State) (j : Journal) (c : Bool) (o : Vector TagState 64)
    (hj : (j.configured = true → 64 ≤ j.config.slots ∧ j.config.slots ≤ 1048576 ∧ 1 ≤ j.config.depth ∧
      j.config.depth ≤ 4) ∧ j.occupancy = 0) :
    Sound { resetBlocks s with
      journal := j, ctl := { Controller.reset with memorySuspect := c }
      down := { (resetBlocks s).down with outstanding := o } } where
  distinct := ⟨List.nodup_nil, fun _ hm => nomatch hm⟩
  quiet := fun _ => ⟨rfl, rfl⟩
  phase := by simp [PhaseFollowsState, resetBlocks, Controller.reset, Rollback.reset]
  range := ⟨hj.1, fun hn => absurd rfl hn⟩
  occupancy := by rw [hj.2]; exact Nat.zero_le _
  list := ⟨Nat.zero_le _, List.Pairwise.nil⟩
  space := ⟨List.nodup_nil, fun _ hm => nomatch hm⟩
  working := ⟨Nat.zero_le _, fun _ hm => (nomatch hm), fun _ => rfl⟩
  early := fun _ hm => nomatch hm
  intact := fun _ => rfl
  rback := fun _ hb => by cases hb
  overlap := ⟨fun i _ _ hi => by simp [resetBlocks, Classifier.reset] at hi, fun k _ hk => by
    simp [resetBlocks, Classifier.reset] at hk⟩

theorem powerOn_sound (s : State) : Sound (powerOn s) :=
  resetBlocks_sound s Journal.reset false _ ⟨fun hc => (nomatch hc), rfl⟩

theorem warmReset_sound (h : Sound s) : Sound (warmReset s) :=
  resetBlocks_sound s s.journal.warm s.ctl.memorySuspect _ ⟨h.range.1, rfl⟩

theorem endReset_sound (levels : PinLevels) (h : Sound s) : Sound (endReset levels s) :=
  { h with rback := fun _ hb => by cases hb }

theorem tick_sound (h : Sound s) : Sound (tick s) := by
  have h1 : ∀ {s : State}, Sound s → Sound (tickHold s) := fun h => by
    unfold tickHold; repeat' split
    all_goals exact { h with }
  have h2 : ∀ {s : State}, Sound s → Sound (tickPacing s) := fun h => by
    unfold tickPacing; repeat' split
    all_goals exact { h with }
  have h3 : ∀ {s : State}, Sound s → Sound (tickAge s) := fun h => by
    unfold tickAge; repeat' split
    all_goals exact { h with }
  unfold tick; split
  · exact h
  · exact h3 (h2 (h1 h))

end Sys2Proof.Machine
end

