-- ==== Sys2Proof/Tests/Slice0.lean ====
section
/-! SUPPORT. Tests: an ill-formed term for each check of WellFormed.lean, the check codes of the spec, worked examples of
10_operating_sequences_and_worked_examples.md, and, for each obligation with hypotheses, states that meet them. -/

namespace Sys2Proof.Tests

open Sys2Proof.Machine

set_option Elab.async false

/-! ### Well-formed commands -/

theorem test_wf_getStatus : (Instr.getStatus 7).wellFormed = true ∧ (Instr.getStatus 0).wellFormed = false ∧
    (Instr.getStatus 8).wellFormed = false := by decide

theorem test_wf_getWindow : (Instr.getWindow 15).wellFormed = true ∧ (Instr.getWindow 16).wellFormed = false := by decide

theorem test_wf_getInitiator : (Instr.getInitiator 7).wellFormed = true ∧ (Instr.getInitiator 8).wellFormed = false := by
  decide

theorem test_wf_setWindow : (Instr.setWindow 15 3 16777215 1).wellFormed = true ∧
    (Instr.setWindow 16 3 0 1).wellFormed = false ∧ (Instr.setWindow 0 0 0 1).wellFormed = false ∧
    (Instr.setWindow 0 4 0 1).wellFormed = false ∧ (Instr.setWindow 0 1 16777216 1).wellFormed = false ∧
    (Instr.setWindow 0 1 0 0).wellFormed = false ∧ (Instr.setWindow 0 1 16777215 2).wellFormed = false ∧
    (Instr.setWindow 0 2 0 2).wellFormed = false := by decide

theorem test_wf_clearWindow : (Instr.clearWindow 15).wellFormed = true ∧ (Instr.clearWindow 16).wellFormed = false := by
  decide

theorem test_wf_setInitiator : (Instr.setInitiator 7 3 1).wellFormed = true ∧
    (Instr.setInitiator 8 1 0).wellFormed = false ∧ (Instr.setInitiator 0 0 0).wellFormed = false ∧
    (Instr.setInitiator 0 4 0).wellFormed = false ∧ (Instr.setInitiator 0 1 2).wellFormed = false := by decide

theorem test_wf_setJournal : (Instr.setJournal 4096 64 32 4 0 2 32 1023 4095).wellFormed = true := by decide

theorem test_ill_setJournal_place : (Instr.setJournal 1 64 3 2 0 1 0 64 10).wellFormed = false ∧
    (Instr.setJournal 0xFFFFFF000#64 64 3 2 0 1 0 64 10).wellFormed = false ∧
    (Instr.setJournal 0 63 3 2 0 1 0 64 10).wellFormed = false ∧
    (Instr.setJournal 0 1048577 3 2 0 1 0 64 10).wellFormed = false := by decide

theorem test_ill_setJournal_reserve : (Instr.setJournal 0 64 1 1 0 1 0 64 10).wellFormed = false ∧
    (Instr.setJournal 0 64 3 3 0 1 0 64 10).wellFormed = false ∧
    (Instr.setJournal 0 64 33 2 0 1 0 64 10).wellFormed = false ∧
    (Instr.setJournal 0 64 3 0 0 1 0 64 10).wellFormed = false ∧
    (Instr.setJournal 0 64 6 5 0 1 0 64 10).wellFormed = false := by decide

theorem test_ill_setJournal_rest : (Instr.setJournal 0 64 3 2 0 0 0 64 10).wellFormed = false ∧
    (Instr.setJournal 0 64 3 2 0 3 0 64 10).wellFormed = false ∧
    (Instr.setJournal 0 64 3 2 0 1 62 64 10).wellFormed = false ∧
    (Instr.setJournal 0 64 3 2 0 1 0 0 10).wellFormed = false ∧
    (Instr.setJournal 0 64 3 2 0 1 0 1024 10).wellFormed = false ∧
    (Instr.setJournal 0 64 3 2 0 1 0 64 0).wellFormed = false ∧
    (Instr.setJournal 0 64 3 2 0 1 0 64 4096).wellFormed = false := by decide

theorem test_wf_setTiming : (Instr.setTiming 0 1023 4095 0 7).wellFormed = true ∧
    (Instr.setTiming 0 0 10 0 7).wellFormed = false ∧ (Instr.setTiming 0 1024 10 0 7).wellFormed = false ∧
    (Instr.setTiming 0 64 0 0 7).wellFormed = false ∧ (Instr.setTiming 0 64 4096 0 7).wellFormed = false ∧
    (Instr.setTiming 0 64 10 0 8).wellFormed = false := by decide

theorem test_wf_alerts : (Instr.setAlertMask 4095).wellFormed = true ∧ (Instr.setAlertMask 4096).wellFormed = false ∧
    (Instr.clearAlerts 4095).wellFormed = true ∧ (Instr.clearAlerts 4096).wellFormed = false := by decide

theorem test_wf_rollback : (Instr.rollback 4).wellFormed = true ∧ (Instr.rollback 0).wellFormed = false ∧
    (Instr.rollback 5).wellFormed = false := by decide

theorem test_wf_adopt : (Instr.adopt 1048575).wellFormed = true ∧ (Instr.adopt 0xFFFFFFFF#32).wellFormed = true ∧
    (Instr.adopt 1048576).wellFormed = false := by decide

theorem test_wf_writeTransfer : (Instr.writeTransfer 0x4C [2, 0, 0]).wellFormed = true ∧
    (Instr.writeTransfer 0x4C []).wellFormed = true ∧ (Instr.writeTransfer 0x4C [2, 0]).wellFormed = false ∧
    (Instr.writeTransfer 0x4C [2]).wellFormed = false := by decide

/-! ### The check codes (R8, R159): the check values of the two standard codes over the digits 1 to 9 -/

theorem test_crc32 : crc32 [0x31, 0x32, 0x33, 0x34, 0x35, 0x36, 0x37, 0x38, 0x39] = 0xFC891918#32 := by decide +kernel

theorem test_crc8 : crc8 [0x31, 0x32, 0x33, 0x34, 0x35, 0x36, 0x37, 0x38, 0x39] = 0xF4#8 := by decide +kernel

/-! ### Small states -/

/-- The state an outcome answers. -/
def after (o : Host.Outcome State Fault Refusal) : State :=
  match o with
  | .next t => t
  | _ => State.reset

def tConfig : JournalConfig :=
  { base := 0x100000#36, slots := 64, reserve := 3, depth := 2, runStamp := 0xABCD#16, policy := .break_, paceMark := 0
    pacingInterval := 64, holdTimeout := 10 }

def tWindows : Vector Window 16 :=
  (Classifier.reset.windows.set 0 { enabled := true, kind := .guarded, base := 0, size := 16 }).set 1
    { enabled := true, kind := .marker, base := 16, size := 1 }

def tReady : State :=
  { State.reset with
    journal := { Journal.reset with configured := true, config := tConfig }
    cls := { Classifier.reset with windows := tWindows } }

def tMark (n : Nat) (status : CheckpointStatus) : Checkpoint :=
  { number := BitVec.ofNat 32 n, status := status, markSlot := some (n - 1), markSeq := some (BitVec.ofNat 64 n), value := 7
    source := .management, captures := 0 }

/-- ARMED with checkpoint 1 established at slot 0. -/
def tArmed : State :=
  { tReady with
    journal := { tReady.journal with
      commit := 1, tail := 1, occupancy := 1, seq := 2, nextCheckpoint := 2, adoptable := true }
    ctl := { Controller.reset with
      state := .armed, openEpoch := some 1, checkpoints := [tMark 1 .established]
      age := { running := true, count := 0, limit := 0, stale := false } } }

def tIn (s : State) (x : CtlState) : State := { s with ctl := { s.ctl with state := x } }

def tUsing (s : State) (src : Source) : State :=
  { s with down := { s.down with outstanding := s.down.outstanding.set 5 (.inUse src) } }

def tEntry : CaptureEntry :=
  { id := 0, line := 8, mask := -1, data := 77, initiator := 2, tag := 9, epoch := 1, state := .lineRead, slot := none
    oldData := none, recorded := true }

def tWith (s : State) (e : CaptureEntry) : State :=
  { s with capture := { s.capture with entries := [e], nextEntry := 1 } }

def tHead (s : State) (r : UpRequest) : State :=
  { s with up := { s.up with ingress := s.up.ingress.set r.initiator.val [r] } }

def tSlot (slot : Nat) (owner : SlotOwner) (seq : SeqNo) : SlotRecord :=
  { slot := slot, seq := seq, owner := owner, header := .ok, data := .outstanding, forgotten := false }

def tHeld : State := { tReady with lines := { tReady.lines with wrstLow := true } }

def tSlotted (s : State) (x : CommandSlot) : State := { s with port := { s.port with slot := x } }

/-- ARMED with a second mark pending. -/
def tPending : State :=
  { tArmed with ctl := { tArmed.ctl with
    openEpoch := some 2, checkpoints := [tMark 1 .established, tMark 2 .pending]
    pendingMark := some { previous := some 1, restart := false } } }

def tBroken : State := { tArmed with ctl := { tArmed.ctl with condition := .broken } }

def tTarget : Target := { number := 1, slot := 0, seq := 1 }

/-- ROLLING back to checkpoint 1, one slot after it. -/
def tRolling (phase : Phase) (remaining : Nat) : State :=
  { tArmed with
    journal := { tArmed.journal with commit := 2, tail := 2, occupancy := 2, seq := 3 }
    ctl := { tArmed.ctl with state := .rolling, age := { running := false, count := 0, limit := 0, stale := false } }
    rollback := { Rollback.reset with
      phase := phase, origin := some .line, target := some tTarget, undoLimit := some 2, undoPointer := some 1
      remaining := remaining } }

def tRecord (seq : SeqNo) (number : CheckpointNo) (body : RecordBody) : Record :=
  { runStamp := 0xABCD#16, seq := seq, checkpoint := number, body := body }

/-- ADOPTING with the anchor of checkpoint 1 at slot 0 accepted, and the header line of slot 1 read. -/
def tScan (header : ReadResult) : State :=
  { tReady with
    ctl := { Controller.reset with state := .adopting }
    scan := { Scanner.reset with
      start := some 0, pointer := some 1, scanned := 1, lastSlot := some 0, lastSeq := some 1, segment := some 1
      working := [tMark 1 .established], pair := { header := some header, data := none }, run := 1 } }

def tWrite (initiator : Fin 8) (line : LineAddr) : UpRequest :=
  { initiator := initiator, tag := 9, line := line, access := .write (-1) 5 }

def tRead (initiator : Fin 8) (line : LineAddr) : UpRequest :=
  { initiator := initiator, tag := 9, line := line, access := .read }

def tClass (s : State) (n : Fin 8) (cls : InitiatorClass) (permission : Bool) : State :=
  { s with cls := { s.cls with initiators := s.cls.initiators.set n.val ⟨cls, permission⟩ } }

/-- Places in the outgoing queue. -/
def tOut (s : State) (n : Nat) : State :=
  { s with down := { s.down with outgoing := List.replicate n (readOf 0 (.oldLine 0)) } }

/-! ### Record headers, byte by byte from Table 11.1, and the exchange of 11.4 -/

theorem test_layout_capture : bytesLE 60 (headerFields (tRecord 0x0807060504030201#64 0x0C0B0A09#32
      (.capture 0x3FFEFDFC#30 7 77))) =
    [0x01, 0, 0xCD, 0xAB, 0, 0, 0, 0, 1, 2, 3, 4, 5, 6, 7, 8, 9, 10, 11, 12, 0xFC, 0xFD, 0xFE, 0x3F, 7, 0, 0, 0] ++
      zeros 32 := by decide +kernel

theorem test_layout_mark : bytesLE 60 (headerFields (tRecord 0x0807060504030201#64 0x0C0B0A09#32
      (.mark 0xF8F7F6F5F4F3F2F1#64 .management (some 0xE4E3E2E1#32) true))) =
    [0x02, 0, 0xCD, 0xAB, 0, 0, 0, 0, 1, 2, 3, 4, 5, 6, 7, 8, 9, 10, 11, 12, 0xF1, 0xF2, 0xF3, 0xF4, 0xF5, 0xF6, 0xF7,
      0xF8, 0x80, 1, 0, 0, 0xE1, 0xE2, 0xE3, 0xE4] ++ zeros 24 := by decide +kernel

theorem test_layout_mark_first : (bytesLE 60 (headerFields (tRecord 1 1 (.mark 0 (.initiator 7) none false)))).drop 28 =
    [7, 0, 0, 0, 0xFF, 0xFF, 0xFF, 0xFF] ++ zeros 24 := by decide +kernel

theorem test_layout_break : bytesLE 60 (headerFields (tRecord 0x0807060504030201#64 0x0C0B0A09#32 (.brk .holdTimeout))) =
    [0x03, 0, 0xCD, 0xAB, 0, 0, 0, 0, 1, 2, 3, 4, 5, 6, 7, 8, 9, 10, 11, 12, 2] ++ zeros 39 := by decide +kernel

/-- ROLLBACK with depth 2 over checkpoints 21 to 23, at address 4Dh, and the read that follows. -/
theorem test_example_wire :
    let s := { tArmed with
      ctl := { tArmed.ctl with
        openEpoch := some 23, checkpoints := [tMark 21 .established, tMark 22 .established, tMark 23 .established] }
      port := { tArmed.port with address := 0x4D } }
    let frame := [0x21, 0x01, 0x02]
    let t := after (exec (.writeTransfer 0x4D (frame ++ [crc8 frame])) s)
    let answer := [0x01, 0x21, 0x04, 0x16, 0x00, 0x00, 0x00]
    (after (exec (.readTransfer 0x4D) t)).port.reading = some ⟨answer ++ [crc8 answer], true⟩ ∧
    (let u := after (exec .responseConsumed (after (exec (.readTransfer 0x4D) t)))
     let idle := [0x03, 0x00, 0x00]
     u.port.slot = .idle ∧ (after (exec (.readTransfer 0x4D) u)).port.reading = some ⟨idle ++ [crc8 idle], false⟩) := by
  decide +kernel

/-- Its frame with a count of 2: FRAME_ERROR with one parameter byte, RANGE with two. -/
theorem test_example_wire_counts :
    let short := [0x21, 0x02, 0x02]
    let long := [0x21, 0x02, 0x02, 0x00]
    (judgeFrame (short ++ [crc8 short]) tArmed).port.slot = .done ⟨.frameError, 0x21, []⟩ ∧
    (judgeFrame (long ++ [crc8 long]) tArmed).port.slot = .done ⟨.range, 0x21, []⟩ := by decide +kernel

/-! ### Worked examples of 10_operating_sequences_and_worked_examples.md, one step each -/

/-- Table 10.3 with the depth 3: E1 and E2 hold, and the pending mark 11 waits for the closing epoch 10. -/
def tHoldEnds : State :=
  { tReady with
    journal := { tReady.journal with
      config := { tConfig with reserve := 4, depth := 3, policy := .hold, holdTimeout := 20 }
      head := 10, commit := 6, tail := 6, occupancy := 60, seq := 1060, nextCheckpoint := 12, adoptable := true }
    capture := { Capture.reset with
      entries := [{ tEntry with state := .awaitSpace, epoch := 10, oldData := some 1 },
        { tEntry with id := 1, line := 9, state := .awaitSpace, epoch := 10, oldData := some 2 }]
      nextEntry := 2, spaceWait := [0, 1], hold := { running := true, count := 19999, timeout := 20 }, closing := some 10 }
    ctl := { Controller.reset with
      state := .armed, condition := .holding, openEpoch := some 11
      checkpoints := [{ tMark 9 .established with markSlot := some 10, markSeq := some 1000 },
        { tMark 10 .established with markSlot := some 40, markSeq := some 1030 },
        { tMark 11 .pending with markSlot := none, markSeq := none }]
      pendingMark := some { previous := some 10, restart := false } } }

/-- The hold timer expires: BREAK takes slot 6, the pending mark becomes a restart, and MARK takes slot 7. -/
theorem test_example_hold_timeout :
    let t := after (exec .holdTimerExpiry tHoldEnds)
    (t.journal.head = 6 ∧ t.journal.tail = 8 ∧ t.journal.occupancy = 2 ∧ t.journal.seq = 1062) ∧
    (t.journal.slotRecords.map fun r => (r.slot, r.seq, r.owner)) = [(6, 1060, .brk), (7, 1061, .mark)] ∧
    (t.ctl.checkpoints.map fun c => (c.number, c.markSlot)) = [(11, some 7)] ∧ t.ctl.lastBreak = some .holdTimeout ∧
    t.ctl.pendingMark = some { previous := some 10, restart := true } ∧ t.capture.spaceWait = [] ∧
    (t.capture.entries.map fun e => (e.state, e.recorded)) = [(.forwarding, false), (.forwarding, false)] := by
  decide +kernel

/-- Slot 6 settles, and head follows the commit point to slot 7. -/
theorem test_example_hold_timeout_settles :
    let s := after (exec .holdTimerExpiry tHoldEnds)
    let u := { s with
      journal := { s.journal with slotRecords := s.journal.slotRecords.map fun r =>
        if r.slot = 6 then { r with header := .ok } else r }
      down := { s.down with outstanding := s.down.outstanding.set 5 (.inUse (.journal 6 .data)) } }
    let t := after (exec (.journalWriteCompletion 5 false) u)
    t.journal.head = 7 ∧ t.journal.commit = 7 ∧ t.journal.occupancy = 1 ∧ t.journal.trailing = false := by decide +kernel

/-- Table 10.3 as it stands: at 3 ms a MARK releases checkpoint 9, and the two held entries and the mark take slots 6 to
8. -/
theorem test_example_hold_relieved :
    let s := { tHoldEnds with
      journal := { tHoldEnds.journal with
        config := { tHoldEnds.journal.config with depth := 2 }, nextCheckpoint := 11 }
      capture := { tHoldEnds.capture with closing := none }
      ctl := { tHoldEnds.ctl with
        openEpoch := some 10, checkpoints := tHoldEnds.ctl.checkpoints.dropLast, pendingMark := none } }
    let t := after (exec (.mark 0xB00) s)
    (t.journal.head = 40 ∧ t.journal.tail = 9 ∧ t.journal.occupancy = 33 ∧ t.journal.seq = 1063) ∧
    (t.ctl.checkpoints.map fun c => (c.number, c.markSlot, c.captures)) = [(10, some 40, 2), (11, some 8, 0)] ∧
    t.ctl.condition = .intact ∧ t.capture.hold.running = false ∧ t.capture.spaceWait = [] := by decide +kernel

/-- Table 10.2: E1's read completes; slot 302 for E1, MARK slot 303, slot 304 for E4. -/
theorem test_example_mark_with_captures :
    let s := { tReady with
      journal := { tReady.journal with
        config := { tConfig with slots := 512, depth := 3 }, head := 200, commit := 302, tail := 302, occupancy := 102
        seq := 703, nextCheckpoint := 7 }
      capture := { Capture.reset with
        entries := [{ tEntry with epoch := 5 },
          { tEntry with id := 1, line := 9, epoch := 6, state := .awaitMark, oldData := some 4 }]
        nextEntry := 2, closing := some 5 }
      ctl := { Controller.reset with
        state := .armed, openEpoch := some 6
        checkpoints := [{ tMark 4 .established with markSlot := some 200 }, { tMark 5 .established with markSlot := some 260 },
          { tMark 6 .pending with markSlot := none, markSeq := none }]
        pendingMark := some { previous := some 5, restart := false } }
      down := { tReady.down with outstanding := tReady.down.outstanding.set 5 (.inUse (.oldLine 0)) } }
    let t := after (exec (.oldLineReadCompletion 5 (.ok 3)) s)
    (t.journal.commit = 302 ∧ t.journal.tail = 305 ∧ t.journal.occupancy = 105 ∧ t.journal.seq = 706) ∧
    (t.journal.slotRecords.map fun r => (r.slot, r.seq, r.owner)) =
      [(302, 703, .capture 0), (303, 704, .mark), (304, 705, .capture 1)] ∧
    (t.capture.entries.map (·.state)) = [.recording, .recording] ∧
    (t.ctl.checkpoints.map fun c => (c.number, c.captures)) = [(4, 0), (5, 1), (6, 1)] := by decide +kernel

set_option maxRecDepth 100000 in
/-- Table 10.5: slot 12 fails its check code, and the pending line request is judged in the same event. -/
theorem test_example_adoption_ends :
    let s := { tReady with
      journal := { tReady.journal with
        config := { tConfig with slots := 256, reserve := 6, depth := 3 }, head := 250, commit := 250, tail := 250
        seq := 8970, nextCheckpoint := 59, adoptable := true }
      ctl := { Controller.reset with state := .adopting }
      rollback := { Rollback.reset with phase := .waiting, pendingLine := true, fltreq := true }
      scan := { Scanner.reset with
        start := some 250, pointer := some 12, scanned := 18, lastSlot := some 11, lastSeq := some 8967
        segment := some 57
        working := [{ tMark 56 .established with markSlot := some 250, markSeq := some 8950, captures := 9 },
          { tMark 57 .established with markSlot := some 4, markSeq := some 8960, captures := 7 }]
        pair := { header := some (.ok 0), data := none }, run := 1 }
      down := { tReady.down with outstanding := tReady.down.outstanding.set 5 (.inUse (.scanRead 1 12 .data)) } }
    let t := after (exec (.scanReadCompletion 5 (.ok 0)) s)
    (t.scan.result = .adopted ∧ t.scan.endCause = .check ∧ t.scan.endSlot = some 12 ∧ t.alerts.latches = 0x100#12) ∧
    (t.journal.head = 250 ∧ t.journal.tail = 12 ∧ t.journal.commit = 12 ∧ t.journal.occupancy = 18 ∧
      t.journal.seq = 8970 ∧ t.journal.nextCheckpoint = 59) ∧
    (t.ctl.state = .rolling ∧ t.ctl.openEpoch = some 57 ∧ t.rollback.phase = .undo ∧ t.rollback.remaining = 7 ∧
      t.rollback.target = some { number := 57, slot := 4, seq := 8960 } ∧ t.rollback.undoLimit = some 12 ∧
      t.rollback.undoPointer = some 11 ∧ t.rollback.ackMark = true ∧ t.rollback.pendingLine = false) := by decide +kernel

/-- A restart mark waits for its slot behind a forgotten slot, and an old slot of the epoch before it settles failed: the
BREAK of the open epoch waits behind the MARK, whose record must come first (R13, R44). -/
theorem test_open_break_waits_behind_mark :
    let s := { tArmed with
      journal := { tArmed.journal with
        allocWait := [.mark], slotRecords := [{ tSlot 1 .mark 1 with forgotten := true }] } }
    (breakOpen .journalWrite s).journal.allocWait = [.mark, .brk 1 .journalWrite] := by decide +kernel

/-- An entry of the closing epoch that waits in AWAIT_MARK for the outcome of its CAPTURE request holds the closing report
back (R37). -/
theorem test_closing_waits_for_requested_capture :
    let e := { tEntry with state := .awaitMark, oldData := some 1 }
    let s := { tWith tPending e with capture := { (tWith tPending e).capture with closing := some 1 } }
    closingClear { s with journal := { s.journal with allocWait := [.capture 0] } } = false ∧
    closingClear (updateEntry 0 (fun x => { x with state := .recording }) s) = true := by decide +kernel

/-- ARMED with a marker write of initiator 3 at the head of its queue. -/
def tMarker (s : State) : State := tClass (tHead s (tWrite 3 0x400)) 3 .tracked true

/-- R180, case 3: both waited on one mark, and the marker write is taken first. The ROLLBACK waits for its mark too, and then
targets it. -/
theorem test_marker_write_before_waiting_rollback :
    let waits := tSlotted (tMarker tArmed) (.executing (.rollback 1))
    let s := after (exec .acceptance { waits with rollback := { waits.rollback with phase := .waiting } })
    let u := { s with
      journal := { s.journal with slotRecords := s.journal.slotRecords.map fun r => { r with header := .ok } }
      down := { s.down with outstanding := s.down.outstanding.set 5 (.inUse (.journal 1 .data)) } }
    let t := after (exec (.journalWriteCompletion 5 false) u)
    (hasPending s = true ∧ s.port.slot = .executing (.rollback 1) ∧ s.rollback.phase = .waiting) ∧
    t.port.slot = .done ⟨.started, 0x21, [2, 0, 0, 0]⟩ ∧
    t.rollback.target = some { number := 2, slot := 1, seq := 2 } := by decide +kernel

/-- The last byte of the longest frame is acknowledged, and the next is not (R156). -/
theorem test_acknowledged_bytes : acknowledges 0x4C 0 tReady = true ∧ acknowledges 0x4C 257 tReady = true ∧
    acknowledges 0x4C 258 tReady = false ∧ acknowledges 0x4D 0 tReady = false ∧ acknowledges 0x4C 0 tHeld = false := by
  decide +kernel

/-- Slots 1 to 3 have settled behind slot 0 and slot 4 has not: the commit point passes all four, the held writes of both
captures go, the mark between them is established, and the trailing head follows to its MARK slot. -/
theorem test_commit_passes_settled_slots :
    let ok := fun r : SlotRecord => { r with data := .ok }
    let e := { tEntry with state := .recording, slot := some 0 }
    let s := { tUsing tArmed (.journal 0 .data) with
      journal := { tArmed.journal with
        head := 0, commit := 0, tail := 5, occupancy := 5, seq := 6, trailing := true
        slotRecords := [tSlot 0 (.capture 0) 1, ok (tSlot 1 .brk 2), ok (tSlot 2 .mark 3), ok (tSlot 3 (.capture 1) 4),
          tSlot 4 (.capture 2) 5] }
      capture := { tArmed.capture with
        entries := [e, { e with id := 1, line := 9, epoch := 3, state := .awaitCommit, slot := some 3 }], nextEntry := 2 }
      ctl := { tArmed.ctl with
        openEpoch := some 3, checkpoints := [tMark 3 .pending], pendingMark := some { previous := some 1, restart := true } } }
    let t := after (exec (.journalWriteCompletion 5 false) s)
    t.journal.commit = 4 ∧ t.journal.slotRecords.map (·.slot) = [4] ∧ t.journal.head = 2 ∧ t.journal.occupancy = 3 ∧
    t.journal.trailing = false ∧ (t.ctl.checkpoints.map (·.status)) = [.established] ∧
    (t.capture.entries.map (·.state)) = [.forwarding, .forwarding] ∧ t.down.outgoing.map (·.request.line) = [8, 9] ∧
    t.alerts.capturesWritten = 1 := by decide +kernel

/-- The bytes of the frame, and FFh after its check byte (R157). -/
theorem test_bytes_after_check :
    let s := after (exec (.readTransfer 0x4C) tArmed)
    (List.range 6).map (sentByte s.port) = [0x03, 0, 0, crc8 [0x03, 0, 0], 0xFF, 0xFF] := by decide +kernel

/-! ### States that meet the hypotheses of the obligations, one theorem for each: the machine and the port -/

theorem met_StepRunsFrontCommand :
    State.pending { tReady with pending := [.getCheckpoints, .acceptance] } = .getCheckpoints :: [.acceptance] := rfl

theorem met_EmptyQueueTakesTimeStep :
    (tReady.pending = [] ∧ held tReady = false) ∧ (tHeld.pending = [] ∧ held tHeld = true) := by decide

theorem met_CapacitiesKept : ∃ t, step { tArmed with pending := [.acceptance] } = .next t ∧
    Capacities { tArmed with pending := [.acceptance] } ∧ EntriesDistinct { tArmed with pending := [.acceptance] } := by
  refine ⟨_, rfl, ⟨by decide, by decide, by decide, by decide, by decide, fun set => ?_⟩, by decide⟩
  exact Nat.zero_le _

/-- ARMED, with no window enabled. -/
def tPlain : State := { tArmed with cls := Classifier.reset, pending := [.discard] }

theorem met_Sound : ∃ t, step tPlain = .next t ∧ Sound tPlain ∧ NoCheckpointsWhenUnarmed tPlain ∧
    PhaseFollowsState tPlain := by
  have off : ∀ k : Fin 16, tPlain.cls.windows[k.val].enabled = false := by decide
  exact ⟨_, rfl, { distinct := by decide, quiet := by decide, phase := by decide, range := by decide
                   occupancy := by decide, list := by decide, space := by decide, working := by decide, early := by decide
                   intact := by decide, rback := by decide
                   overlap := ⟨fun i _ _ h => (by rw [off i] at h; exact nomatch h),
                     fun k _ h => by rw [off k] at h; exact nomatch h⟩ }, by decide, by decide⟩

theorem met_EveryCommandCompletes : NoCheckpointsWhenUnarmed tArmed ∧ Instr.wrstFall ≠ .porstFall := by decide

/-- With no entry waiting for space and no mark pending, two decidable tests are left. -/
theorem atRest_of {s : State} (h : s.capture.spaceWait = []) (k : pendingEntry s = none) (w : WaitersAtRest s)
    (p : PhaseAtRest s) : AtRest s :=
  ⟨fun id hi => by rw [h] at hi; exact (nomatch hi), fun c hc => by rw [k] at hc; exact (nomatch hc), w, p⟩

theorem met_EventEndsPlainly :
    let s := tUsing tReady (.passed 2 9 true false)
    let t := passedDone 2 9 true .error (setTag 5 .free s)
    exec (.passedRequestCompletion 5 .error) s = .next (finish t) ∧ AtRest t ∧
      (t.rollback.phase = .retract → retractionDone t = false) :=
  ⟨rfl, atRest_of rfl rfl (by decide) (by decide), by decide⟩

/-- A read of an earlier scan ends an event of a scan. -/
theorem met_EventEndsPlainly_scan :
    let s := tUsing (tScan .error) (.scanRead 0 1 .data)
    exec (.scanReadCompletion 5 .error) s = .next (finishScan (setTag 5 .free s)) ∧ AtRest (setTag 5 .free s) ∧
      (setTag 5 .free s).rollback.phase ≠ .retract :=
  ⟨rfl, atRest_of rfl rfl (Or.inr (Or.inl rfl)) (by decide), by decide⟩

/-- ARMED, with one entry waiting for space that a release has made. -/
theorem met_EventEndsPlainly_space :
    let e := { tEntry with state := .awaitSpace, oldData := some 1 }
    let s := { tWith tArmed e with capture := { (tWith tArmed e).capture with spaceWait := [0] } }
    s.capture.spaceWait = 0 :: [] ∧ (0 : Nat) ∉ ([] : List Nat) ∧ entryOf s 0 = some e ∧ e.state = .awaitSpace ∧
    CanWrite s ∧ s.journal.occupancy < captureLimit s.journal := by decide +kernel

/-- The mark 2 pending without its slot, one entry waiting for it, and one of the closing epoch already recorded. -/
theorem met_EventEndsPlainly_mark :
    let c := { tMark 2 .pending with markSlot := none, markSeq := none }
    let s := { tPending with
      ctl := { tPending.ctl with checkpoints := [tMark 1 .established, c] }
      capture := { tPending.capture with
        closing := some 1, nextEntry := 2
        entries := [{ tEntry with state := .recording }, { tEntry with id := 1, epoch := 2, state := .awaitMark }] } }
    EntriesDistinct s ∧ s.capture.spaceWait = [] ∧ pendingEntry s = some c ∧ c.markSlot = none ∧
    s.ctl.pendingMark = some { previous := some 1, restart := false } ∧
    (s.capture.closing = some 1 ∧ ∀ e ∈ s.capture.entries, e.epoch = 1 → e.early = false) ∧
    CanWriteAll (1 + (s.capture.entries.filter fun e => e.state == .awaitMark).length) s ∧
    s.journal.occupancy + 1 + (s.capture.entries.filter fun e => e.state == .awaitMark).length ≤
      captureLimit s.journal := by decide +kernel

def tLine (s : State) : State := { s with rollback := { s.rollback with pendingLine := true } }

theorem met_EventEndsPlainly_line :
    (∀ s ∈ [tLine tArmed, tLine tBroken, tLine tReady, tLine (tIn (tRolling .stopped 1) .failed), tLine (tRolling .undo 1)],
      s.capture.spaceWait = [] ∧ hasPending s = false ∧ s.ctl.state ≠ .adopting ∧ s.rollback.pendingLine = true ∧
      waitingCommand s = none) ∧
    ((tLine tArmed).ctl.state = .armed ∧ (tLine tArmed).ctl.condition ≠ .broken ∧
      (tLine tArmed).ctl.checkpoints.getLast? = some (tMark 1 .established)) ∧
    ((tLine tBroken).ctl.state = .armed ∧ (tLine tBroken).ctl.condition = .broken) ∧
    (tLine tReady).ctl.state = .unarmed ∧ (tLine (tRolling .undo 1)).ctl.state = .rolling := by decide +kernel

/-- A ROLLBACK that waited finds the first checkpoint, none at depth 2 or 4, or another state; and one beside a line
request. -/
theorem met_EventEndsPlainly_rollback :
    let waits := fun (s : State) (d : Byte) => tSlotted s (.executing (.rollback d))
    let nth := fun (s : State) (d : Byte) => if d.toNat ≤ s.ctl.checkpoints.length
      then s.ctl.checkpoints[s.ctl.checkpoints.length - d.toNat]? else none
    (∀ s ∈ [tArmed, tBroken, tReady, tIn (tRolling .stopped 1) .failed, tRolling .undo 1], ∀ d ∈ [(1 : Byte), 2, 4],
      (waits s d).capture.spaceWait = [] ∧ hasPending (waits s d) = false ∧ (waits s d).ctl.state ≠ .adopting ∧
      (waits s d).rollback.pendingLine = false ∧ 1 ≤ d.toNat ∧ d.toNat ≤ 4) ∧
    nth tArmed 1 = some (tMark 1 .established) ∧ nth tArmed 2 = none ∧ nth tArmed 4 = none ∧
    ((tLine (waits tArmed 1)).rollback.pendingLine = true ∧
      (tLine (waits tArmed 1)).port.slot = .executing (.rollback 1) ∧
      (tLine (waits tArmed 1)).ctl.checkpoints.getLast? = some (tMark 1 .established)) := by decide +kernel

theorem met_EventEndsPlainly_command :
    let waits := fun s : State => tSlotted s (.executing (.mark 7 false))
    (∀ s ∈ [tArmed, { tReady with journal := { tReady.journal with nextCheckpoint := 0xFFFFFFFF#32 } }, State.reset,
        tRolling .undo 1, tIn (tRolling .stopped 1) .failed],
      (waits s).capture.spaceWait = [] ∧ hasPending (waits s) = false ∧ (waits s).ctl.state ≠ .adopting ∧
      (waits s).rollback.pendingLine = false ∧ ∀ e ∈ (waits s).capture.entries, e.state ≠ .awaitMark) ∧
    (tArmed.ctl.state = .armed ∧ tArmed.journal.configured = true ∧
      ¬ (tArmed.journal.exhausted = true ∨ tArmed.journal.seq = 0xFFFFFFFFFFFFFFFF#64 ∨
        tArmed.journal.nextCheckpoint = 0xFFFFFFFF#32)) ∧
    (State.reset.ctl.state = .unarmed ∧ State.reset.journal.configured = false) := by decide +kernel

/-- A line request beside a MARK command, where the line request would be taken, BROKEN, or without a checkpoint. -/
theorem met_EventEndsPlainly_lineAndMark :
    let waits := fun s : State => tLine (tSlotted s (.executing (.mark 7 false)))
    (∀ s ∈ [tArmed, tBroken, tReady],
      (waits s).capture.spaceWait = [] ∧ hasPending (waits s) = false ∧ (waits s).ctl.state ≠ .adopting ∧
      (waits s).rollback.pendingLine = true ∧ (waits s).port.slot = .executing (.mark 7 false) ∧
      (∀ e ∈ (waits s).capture.entries, e.state ≠ .awaitMark) ∧ (waits s).journal.configured = true ∧
      ¬ ((waits s).journal.exhausted = true ∨ (waits s).journal.seq = 0xFFFFFFFFFFFFFFFF#64 ∨
        (waits s).journal.nextCheckpoint = 0xFFFFFFFF#32) ∧ JudgesAtOnce finish (waits s)) ∧
    (waits tArmed).ctl.checkpoints.getLast? = some (tMark 1 .established) ∧ (waits tBroken).ctl.condition = .broken ∧
    (waits tReady).ctl.state = .unarmed := by
  intro waits
  have none : ∀ s ∈ [tArmed, tBroken, tReady], markerWaits (waits s) = false := by decide +kernel
  refine ⟨fun s hs => ?_, by decide +kernel⟩
  have rest : (waits s).capture.spaceWait = [] ∧ hasPending (waits s) = false ∧ (waits s).ctl.state ≠ .adopting ∧
      (∀ e ∈ (waits s).capture.entries, e.state ≠ .awaitMark) ∧ (waits s).journal.configured = true ∧
      ¬ ((waits s).journal.exhausted = true ∨ (waits s).journal.seq = 0xFFFFFFFFFFFFFFFF#64 ∨
        (waits s).journal.nextCheckpoint = 0xFFFFFFFF#32) := by
    revert s
    decide +kernel
  exact ⟨rest.1, rest.2.1, rest.2.2.1, rfl, rfl, rest.2.2.2.1, rest.2.2.2.2.1, rest.2.2.2.2.2,
    .inr ⟨rfl, fun h => by rw [← markerWaits_iff, none s hs] at h; exact nomatch h⟩⟩

/-- A marker write at a head in ARMED, beside a line request, a ROLLBACK or a MARK that waits, or two of them. -/
theorem met_EventEndsPlainly_marker :
    let rollback := tSlotted (tMarker tArmed) (.executing (.rollback 1))
    let mark := tSlotted (tMarker tArmed) (.executing (.mark 7 false))
    (∀ s ∈ [tLine (tMarker tArmed), rollback, mark, tLine rollback, tLine mark],
      s.capture.spaceWait = [] ∧ hasPending s = false ∧ s.ctl.state = .armed ∧ s.rollback.phase ≠ .retract ∧
      (∀ e ∈ s.capture.entries, e.state ≠ .awaitMark) ∧ MarkerAtHead s) ∧
    ((tLine (tMarker tArmed)).rollback.pendingLine = true ∧ waitingCommand (tLine (tMarker tArmed)) = none) ∧
    (rollback.rollback.pendingLine = false ∧ waitingCommand rollback = some (.rollback 1)) ∧
    (mark.rollback.pendingLine = false ∧ waitingCommand mark = some (.mark 7 false)) := by
  intro rollback mark
  refine ⟨fun s hs => ?_, by decide +kernel⟩
  rw [← markerWaits_iff]
  revert s
  decide +kernel

theorem met_RetractionEnds : ∀ n ∈ [0, 1],
    let s := tRolling .retract n
    (AtRest s ∧ PhaseFollowsState s ∧ s.ctl.state = .rolling ∧ s.rollback.phase = .retract ∧
      s.rollback.undoLimit = some 2 ∧ s.rollback.target = some tTarget ∧ s.rollback.remaining = n) ∧
    s.capture.entries = [] ∧
    (∀ r ∈ s.journal.slotRecords, r.forgotten = false → r.header ≠ .outstanding ∧ r.data ≠ .outstanding) ∧
    s.rollback.readsLeft = [] ∧
    ∀ k t isRead, (∀ e ∈ s.down.outgoing, e.source ≠ .passed k t isRead true) ∧
      ∀ tag, tagState s tag ≠ .inUse (.passed k t isRead true) := by
  intro n _
  have free : ∀ tag, tagState State.reset tag = .free := by decide +kernel
  have phase : PhaseFollowsState (tRolling .retract n) :=
    ⟨⟨fun _ => Or.inl rfl, fun _ => rfl⟩, ⟨fun h => (nomatch h), fun h => (nomatch h)⟩, fun _ => rfl⟩
  exact ⟨⟨atRest_of rfl rfl (Or.inr (Or.inr ⟨rfl, rfl⟩)) (Or.inl rfl), phase, rfl, rfl, rfl, rfl, rfl⟩, rfl,
    fun _ hr => absurd hr List.not_mem_nil, rfl,
    fun _ _ _ => ⟨fun _ he => absurd he List.not_mem_nil, fun tag h => (nomatch (free tag).symm.trans h)⟩⟩

/-- One thing outstanding: an entry in FORWARDING, and an old-line read of a cancelled entry. -/
theorem met_RetractionEnds_outstanding :
    let s := tWith (tRolling .retract 1) { tEntry with state := .forwarding }
    let r := { tRolling .retract 1 with rollback := { (tRolling .retract 1).rollback with readsLeft := [0] } }
    (AtRest s ∧ s.capture.entries ≠ []) ∧ (AtRest r ∧ r.rollback.readsLeft ≠ []) :=
  ⟨⟨atRest_of rfl rfl (Or.inr (Or.inr ⟨rfl, rfl⟩)) (Or.inl rfl), nofun⟩,
    ⟨atRest_of rfl rfl (Or.inr (Or.inr ⟨rfl, rfl⟩)) (Or.inl rfl), nofun⟩⟩

theorem met_CommandFrameIsCommand : commandFrame .getCheckpoints = some [0x02, 0x00, 0x2A] ∧ Ready tReady := by
  decide +kernel

theorem met_BadFramesAreRefused : Ready tReady ∧ wfFrame [0x02, 0x00] = false ∧ wfFrame [0x02] = false ∧
    (wfFrame [0x02, 0x00, 0x2B] = true ∧
      List.getLast? [0x02, 0x00, 0x2B] ≠ some (crc8 (List.dropLast [0x02, 0x00, 0x2B]))) ∧
    (wfFrame [0x06, 0x00, 0x7E] = true ∧
      List.getLast? [0x06, 0x00, 0x7E] = some (crc8 (List.dropLast [0x06, 0x00, 0x7E])) ∧ paramCount 0x06 = none) ∧
    (wfFrame [0x01, 0x00, 0x15] = true ∧
      List.getLast? [0x01, 0x00, 0x15] = some (crc8 (List.dropLast [0x01, 0x00, 0x15])) ∧ paramCount 0x01 = some 1 ∧
      (List.head? [(0x00 : Byte), 0x15]).map BitVec.toNat ≠ some 1) ∧
    258 < (0x02 :: List.replicate 258 (0 : Byte)).length := by decide +kernel

theorem met_FramesNotTaken :
    (held tHeld = true ∧ (0x4D#7 ≠ tReady.port.address)) ∧ (commandFrame .discard ≠ none ∧ held tHeld = true) ∧
    held tReady = false ∧
    (held (tSlotted tReady (.executing (.rollback 1))) = false ∧
      (tSlotted tReady (.executing (.rollback 1))).port.slot ≠ .idle ∧ ([0x02] : List Byte) ≠ [] ∧
      commandFrame .retry ≠ none) ∧
    (tSlotted tReady (.done ⟨.ok, 0x10, []⟩)).port.slot ≠ .idle := by decide +kernel

theorem met_ResponseIsReadAndConsumed :
    let reading := fun h : Bool => { tSlotted tReady (.done ⟨.ok, 0x10, []⟩) with
      port := { (tSlotted tReady (.done ⟨.ok, 0x10, []⟩)).port with reading := some ⟨[], h⟩ } }
    (held tReady = false ∧ tReady.port.slot = .idle) ∧
    (tSlotted tReady (.executing (.mark 7 true))).port.slot = .executing (.mark 7 true) ∧
    (tSlotted tReady (.executing (.mark 7 false))).port.slot = .executing (.mark 7 false) ∧
    (tSlotted tReady (.executing (.rollback 1))).port.slot = .executing (.rollback 1) ∧
    ((reading true).port.reading = some ⟨[], true⟩ ∧ (reading true).port.slot = .done ⟨.ok, 0x10, []⟩) ∧
    tReady.port.reading = none ∧ (reading false).port.reading = some ⟨[], false⟩ ∧
    (([0x2A] : List Byte)[0]? = some 0x2A ∧ ([0x2A] : List Byte).length ≤ 1) := by decide

/-! ### Reading and configuring -/

theorem met_StatusSections : Ready tReady ∧ (0 : Byte).toNat < 1 ∧ 7 < (8 : Byte).toNat ∧ tReady.ctl.lastRefused = none ∧
    ({ tReady.ctl with lastRefused := some ⟨.management, 7, .state⟩ } : Controller).lastRefused =
      some ⟨.management, 7, .state⟩ := by decide

theorem met_TableReads : Ready tReady ∧ tArmed.ctl.checkpoints[0]? = some (tMark 1 .established) ∧
    tPending.ctl.checkpoints[1]? = some (tMark 2 .pending) ∧ (15 : Byte).toNat < 16 ∧ 16 ≤ (16 : Byte).toNat ∧
    (7 : Byte).toNat < 8 ∧ 8 ≤ (8 : Byte).toNat ∧ tReady.cls.violations = [] ∧
    ({ tReady.cls with violations := [⟨7, 9, 8, .blockedWrite⟩] } : Classifier).violations =
      [⟨7, 9, 8, .blockedWrite⟩] := by decide

theorem met_SetWindowJudged_range : Ready tReady ∧ WindowOutOfRange 16 1 0 1 ∧ WindowOutOfRange 0 0 0 1 ∧
    WindowOutOfRange 0 4 0 1 ∧ WindowOutOfRange 0 1 16777216 1 ∧ WindowOutOfRange 0 1 0 0 ∧
    WindowOutOfRange 0 1 0 16777217 ∧ WindowOutOfRange 0 1 16777215 2 ∧ WindowOutOfRange 0 2 0 2 :=
  ⟨by decide, by decide, by decide, by decide, by decide, by decide, by decide, by decide, by decide⟩

theorem met_SetWindowJudged_armed : Ready tArmed ∧ ¬ WindowOutOfRange 15 1 16777215 1 ∧ TouchesGuarded 15 1 tArmed ∧
    tArmed.ctl.state ≠ .unarmed ∧ ¬ WindowOutOfRange 0 3 0 16777216 ∧ TouchesGuarded 0 3 tArmed :=
  ⟨by decide, by decide, Or.inl rfl, by decide, by decide, Or.inr ⟨_, rfl, rfl, rfl⟩⟩

theorem met_SetWindowJudged_overlap : Ready tReady ∧ ¬ WindowOutOfRange 15 1 15 1 ∧ WindowOverlaps 15 15 1 tReady ∧
    WindowOverlaps 15 257 1 tReady ∧ (TouchesGuarded 15 1 tReady → tReady.ctl.state = .unarmed) :=
  ⟨by decide, by decide, Or.inl ⟨0, by decide, by decide, 15, by decide, by decide, by decide, by decide⟩,
    Or.inr ⟨rfl, 0x101FFF, by decide, by decide, by decide, by decide⟩, fun _ => rfl⟩

theorem met_SetWindowJudged_ok : Ready State.reset ∧ ¬ WindowOutOfRange 15 3 16777215 1 ∧
    (TouchesGuarded 15 3 State.reset → State.reset.ctl.state = .unarmed) ∧
    ¬ WindowOverlaps 15 16777215 1 State.reset := by
  refine ⟨by decide, by decide, fun _ => rfl, ?_⟩
  have off : ∀ k : Fin 16, State.reset.cls.windows[k.val].enabled = false := by decide
  rintro (⟨k, -, h, -⟩ | ⟨h, -⟩)
  · rw [off k] at h; exact nomatch h
  · exact nomatch h

theorem met_ClearWindowJudged : (Ready tReady ∧ 16 ≤ (16 : Byte).toNat) ∧
    (Ready tArmed ∧ (0 : Byte).toNat < 16 ∧ tArmed.cls.windows[0].enabled = true ∧ tArmed.cls.windows[0].kind = .guarded ∧
      tArmed.ctl.state ≠ .unarmed) ∧
    ((15 : Byte).toNat < 16 ∧ tArmed.cls.windows[15].enabled = false) := by decide

theorem met_SetInitiatorJudged : Ready tReady ∧ 8 ≤ (8 : Byte).toNat ∧
    ¬ (8 ≤ (7 : Byte).toNat ∨ ((3 : Byte) ≠ 1 ∧ (3 : Byte) ≠ 2 ∧ (3 : Byte) ≠ 3) ∨ ((1 : Byte) ≠ 0 ∧ (1 : Byte) ≠ 1)) := by
  decide

theorem met_SetJournalJudged : (Ready tArmed ∧ tArmed.ctl.state = .armed) ∧
    (Ready (tIn tReady .adopting) ∧ (tIn tReady .adopting).ctl.state = .adopting) ∧
    (Ready tReady ∧ tReady.ctl.state = .unarmed ∧ JournalOutOfRange 0 63 3 2 1 0 64 10) ∧
    (Ready State.reset ∧ State.reset.ctl.state = .unarmed ∧ ¬ JournalOutOfRange 0xFFFFFE000#64 64 5 4 2 59 1023 4095) := by
  decide

theorem met_SetJournalJudged_area : ¬ JournalOutOfRange 0 64 3 2 1 0 64 10 ∧ AreaOverlaps 0 64 tReady ∧
    ¬ AreaOverlaps 0xFFFFFE000#64 64 State.reset := by
  refine ⟨by decide, ⟨0, by decide, 8191, by decide, by decide, by decide, by decide⟩, ?_⟩
  have off : ∀ k : Fin 16, State.reset.cls.windows[k.val].enabled = false := by decide
  rintro ⟨k, h, -⟩
  rw [off k] at h
  exact nomatch h

theorem met_SetTimingJudged :
    let limit := if tReady.journal.configured then tReady.journal.config.slots - tReady.journal.config.reserve else 0
    let aged : State := { tReady with ctl := { tReady.ctl with age := { tReady.ctl.age with count := 4095000 } } }
    Ready tReady ∧ limit < (62 : BitVec 32).toNat ∧ (61 : BitVec 32).toNat ≤ limit ∧ (1023 : BitVec 16).toNat ≤ 1023 ∧
    (4095 : BitVec 16).toNat ≤ 4095 ∧ (7 : Byte).toNat ≤ 7 ∧ (0 : BitVec 16).toNat < 1 ∧ 7 < (8 : Byte).toNat ∧
    Ready aged ∧ (4095 : BitVec 16) ≠ 0 ∧ aged.ctl.age.stale = false ∧
    (4095 : BitVec 16).toNat * 1000 ≤ aged.ctl.age.count ∧ ¬ (4096 : BitVec 16).toNat * 1000 ≤ aged.ctl.age.count := by
  decide

/-- A cause latched and enabled pulls ALERT low; one that is masked does not (R141). -/
theorem test_alert_low :
    let alerts := fun latches mask : BitVec 12 => { tReady with alerts := { tReady.alerts with latches := latches, mask := mask } }
    alertLow (alerts 0x008 0xFF7) = false ∧ alertLow (alerts 0x018 0xFF7) = true ∧ alertLow (alerts 0 0xFFF) = false := by
  decide

theorem met_AlertCommandsJudged : Ready tReady ∧ 4096 ≤ (4096 : BitVec 16).toNat ∧ (4095 : BitVec 16).toNat < 4096 := by
  decide

/-! ### Marks and rollbacks -/

def tSpent : State := { tReady with journal := { tReady.journal with nextCheckpoint := 0xFFFFFFFF#32 } }

theorem met_MarkNotTaken : (Ready (tIn tReady .rolling) ∧ (tIn tReady .rolling).ctl.state = .rolling) ∧
    (Ready (tIn tReady .failed) ∧ (tIn tReady .failed).ctl.state = .failed) ∧
    (Ready State.reset ∧ State.reset.ctl.state = .unarmed ∧ State.reset.journal.configured = false) ∧
    (Ready tSpent ∧ tSpent.ctl.state = .unarmed ∧ tSpent.journal.configured = true ∧
      tSpent.journal.nextCheckpoint = 0xFFFFFFFF#32) ∧
    (Ready tPending ∧ tPending.ctl.state = .armed ∧ tPending.journal.configured = true ∧
      tPending.journal.exhausted = false ∧ tPending.journal.seq ≠ 0xFFFFFFFFFFFFFFFF#64 ∧
      tPending.journal.nextCheckpoint ≠ 0xFFFFFFFF#32 ∧ hasPending tPending = true) := by decide

theorem met_ExhaustionBreaks : (EntriesDistinct (tWith tArmed tEntry) ∧ (tWith tArmed tEntry).journal.exhausted = false ∧
    (tWith tArmed tEntry).ctl.state = .armed ∧ (tWith tArmed tEntry).ctl.condition ≠ .broken) ∧
    (EntriesDistinct tReady ∧ tReady.journal.exhausted = false ∧ tReady.ctl.state ≠ .armed) ∧
    tBroken.ctl.condition = .broken := by decide

theorem met_MarkTaken : Ready tArmed ∧ tArmed.ctl.state = .armed ∧ tArmed.journal.configured = true ∧
    tArmed.journal.exhausted = false ∧ tArmed.journal.seq ≠ 0xFFFFFFFFFFFFFFFF#64 ∧
    tArmed.journal.nextCheckpoint ≠ 0xFFFFFFFF#32 ∧ hasPending tArmed = false := by decide

theorem met_MarkFromUnarmedWritesRecord : Ready tReady ∧ tReady.ctl.state = .unarmed ∧ tReady.ctl.checkpoints = [] ∧
    tReady.rollback.phase ≠ .retract ∧ tReady.journal.configured = true ∧ tReady.journal.nextCheckpoint ≠ 0xFFFFFFFF#32 ∧
    tReady.journal.occupancy < tReady.journal.config.slots ∧ tReady.journal.trailing = false ∧ CanWrite tReady ∧
    tReady.capture.spaceWait = [] ∧ (∀ e ∈ tReady.capture.entries, e.state ≠ .awaitMark) := by decide

theorem met_RollbackNotTaken : (Ready (tIn tReady .adopting) ∧ (tIn tReady .adopting).ctl.state = .adopting) ∧
    (Ready (tIn tReady .failed) ∧ (tIn tReady .failed).ctl.state = .failed) ∧
    (Ready tReady ∧ tReady.ctl.state = .unarmed) ∧
    (Ready tArmed ∧ tArmed.ctl.state = .armed ∧ ¬ (1 ≤ (0 : Byte).toNat ∧ (0 : Byte).toNat ≤ 4) ∧
      ¬ (1 ≤ (5 : Byte).toNat ∧ (5 : Byte).toNat ≤ 4)) ∧
    (Ready tPending ∧ tPending.ctl.state = .armed ∧ 1 ≤ (1 : Byte).toNat ∧ hasPending tPending = true) ∧
    (Ready tBroken ∧ tBroken.ctl.state = .armed ∧ hasPending tBroken = false ∧ tBroken.ctl.condition = .broken) ∧
    (hasPending tArmed = false ∧ tArmed.ctl.condition ≠ .broken ∧ (4 : Byte).toNat ≤ 4 ∧
      tArmed.ctl.checkpoints.length < (4 : Byte).toNat) := by decide

/-- ARMED with four checkpoints, all established. -/
def tFour : State :=
  { tArmed with ctl := { tArmed.ctl with
    openEpoch := some 4
    checkpoints := [tMark 1 .established, tMark 2 .established, tMark 3 .established, tMark 4 .established] } }

theorem met_RollbackStarts : Ready tFour ∧ tFour.ctl.state = .armed ∧ hasPending tFour = false ∧
    tFour.ctl.condition ≠ .broken ∧
    (1 ≤ (1 : Byte).toNat ∧ tFour.ctl.checkpoints[tFour.ctl.checkpoints.length - (1 : Byte).toNat]? =
      some (tMark 4 .established)) ∧
    ((4 : Byte).toNat ≤ 4 ∧ tFour.ctl.checkpoints[tFour.ctl.checkpoints.length - (4 : Byte).toNat]? =
      some (tMark 1 .established) ∧ (4 : Byte).toNat ≤ tFour.ctl.checkpoints.length) := by decide

def tFailed : State := tIn (tRolling .stopped 1) .failed

theorem met_RetryAndAbandonJudged : (Ready tFailed ∧ tFailed.ctl.state = .failed ∧
    tFailed.rollback.target = some tTarget ∧ tFailed.rollback.undoPointer = some 1) ∧
    (Ready (tIn tReady .adopting) ∧ (tIn tReady .adopting).ctl.state = .adopting) ∧
    (Ready (tRolling .undo 1) ∧ (tRolling .undo 1).ctl.state = .rolling) ∧
    (Ready tReady ∧ tReady.ctl.state = .unarmed) ∧ (Ready tArmed ∧ tArmed.ctl.state = .armed) := by decide

/-- An emptying sends the entries in AWAIT_COMMIT in the order of their slots 62, 63 and 0, whatever the order of their
acceptance, and then the one without a slot. -/
theorem test_discard_in_slot_order :
    let settled := fun (id slot : Nat) (line : LineAddr) =>
      { tEntry with id := id, line := line, state := .awaitCommit, slot := some slot }
    let s := { tArmed with
      journal := { tArmed.journal with head := 60, commit := 61, tail := 1, occupancy := 5 }
      capture := { tArmed.capture with
        entries := [tEntry, settled 1 0 9, settled 2 63 10, settled 3 62 11], nextEntry := 4 } }
    (after (exec .discard s)).down.outgoing.map (·.request.line) = [11, 10, 9, 8] ∧
    (after (exec .discard (tOut s 30))).capture.forwardWait = [1, 0] := by decide +kernel

theorem met_DiscardJudged : (Ready tReady ∧ tReady.ctl.state = .unarmed) ∧
    (Ready (tRolling .undo 1) ∧ (tRolling .undo 1).ctl.state = .rolling) ∧
    (Ready tFailed ∧ tFailed.ctl.state = .failed) ∧
    (Ready (tWith tArmed tEntry) ∧ (tWith tArmed tEntry).ctl.state = .armed ∧ EntriesDistinct (tWith tArmed tEntry)) ∧
    (Ready (tScan .error) ∧ (tScan .error).ctl.state = .adopting) := by decide

/-! ### Adoption and resets -/

def tAdoptable : State := { tReady with journal := { tReady.journal with adoptable := true, head := 63 } }

theorem met_AdoptJudged_refused :
    ¬ ((1048576 : BitVec 32) = 0xFFFFFFFF#32 ∨ (1048576 : BitVec 32).toNat ≤ 1048575) ∧
    (1048575 : BitVec 32).toNat ≤ 1048575 ∧
    (Ready (tScan .error) ∧ (tScan .error).ctl.state = .adopting) ∧ (Ready tFailed ∧ tFailed.ctl.state = .failed) ∧
    (Ready tArmed ∧ tArmed.ctl.state = .armed) ∧
    (Ready State.reset ∧ State.reset.ctl.state = .unarmed ∧ State.reset.journal.configured = false) ∧
    (Ready tReady ∧ tReady.journal.adoptable = false) ∧ tReady.journal.config.slots ≤ (64 : BitVec 32).toNat := by decide

theorem met_AdoptJudged_noGuarded :
    let s := { tReady with cls := Classifier.reset }
    Ready s ∧ s.ctl.state = .unarmed ∧ s.journal.configured = true ∧
    ¬ ∃ k : Fin 16, s.cls.windows[k.val].enabled = true ∧ s.cls.windows[k.val].kind = .guarded := by decide

theorem met_AdoptJudged_taken : Ready tAdoptable ∧ tAdoptable.ctl.state = .unarmed ∧
    tAdoptable.journal.configured = true ∧
    (∃ k : Fin 16, tAdoptable.cls.windows[k.val].enabled = true ∧ tAdoptable.cls.windows[k.val].kind = .guarded) ∧
    (tAdoptable.journal.adoptable = true ∧ 63 = tAdoptable.journal.head) ∧
    ((63 : BitVec 32).toNat ≤ 1048575 ∧ (63 : BitVec 32).toNat < tAdoptable.journal.config.slots ∧
      63 = (63 : BitVec 32).toNat) := by decide

theorem met_ResetCommandIsWarmReset : Ready tArmed := by decide

theorem met_ResetLineEdges :
    let porst := { tReady with lines := { tReady.lines with porstLow := true } }
    let both := { tHeld with lines := { tHeld.lines with porstLow := true } }
    (tReady.lines.porstLow = false ∧ tReady.lines.wrstLow = false) ∧
    (porst.lines.porstLow = true ∧ porst.lines.wrstLow = false) ∧
    (tHeld.lines.wrstLow = true ∧ tHeld.lines.porstLow = false) ∧
    (both.lines.porstLow = true ∧ both.lines.wrstLow = true) := by decide

/-! ### The memory path -/

theorem met_ArrivalJudged :
    let full := { tReady with up := { tReady.up with
      ingress := tReady.up.ingress.set 7 (List.replicate 4 (tRead 7 0)) } }
    (held tHeld = true) ∧ 4 ≤ (full.up.ingress[(tRead 7 0).initiator.val]).length ∧
    (held tReady = false ∧ (tReady.up.ingress[(tRead 7 0).initiator.val]).length < 4) := by decide

/-- The journal area is lines 4000h to 407Fh; window 0 is lines 0 to 3FFh, and window 1 lines 400h to 43Fh. -/
theorem met_TreatmentTable :
    let area := fun line : LineAddr => tReady.journal.configured = true ∧
      tReady.journal.config.base.toNat / 64 ≤ line.toNat ∧
      line.toNat < tReady.journal.config.base.toNat / 64 + 2 * tReady.journal.config.slots
    let inWindow := fun (k : Fin 16) (line : LineAddr) => tReady.cls.windows[k.val].enabled = true ∧
      tReady.cls.windows[k.val].base ≤ line.toNat / 64 ∧
      line.toNat / 64 < tReady.cls.windows[k.val].base + tReady.cls.windows[k.val].size
    (area 0x4000 ∧ area 0x407F) ∧
    (¬ area 0x3FF ∧ inWindow 0 0x3FF ∧ ∀ i : Fin 16, i ≠ 0 → ¬ inWindow i 0x3FF) ∧
    (¬ area 0x43F ∧ inWindow 1 0x43F ∧ ∀ i : Fin 16, i ≠ 1 → ¬ inWindow i 0x43F) ∧
    (¬ area 0x4080 ∧ ∀ i : Fin 16, ¬ inWindow i 0x4080) := by decide +kernel

theorem met_TreatmentTable_write : targetOf tReady 0x3FFF = .ordinary ∧ targetOf tReady 0x407F = .journalArea ∧
    targetOf tReady 0x43F = .window .marker ∧ targetOf tReady 0x3FF = .window .guarded ∧
    targetOf { tReady with cls := { tReady.cls with
      windows := tReady.cls.windows.set 2 { enabled := true, kind := .frozen, base := 32, size := 1 } } } 0x800 = .window .frozen ∧
    (0x7F : ByteMask).extractLsb' 0 8 ≠ 0xFF#8 ∧ (0xFF : ByteMask).extractLsb' 0 8 = 0xFF#8 ∧
    (tRead 0 0).access = .read ∧ (tWrite 0 0).access = .write (-1) 5 := by decide +kernel

theorem met_TreatmentTable_class :
    let s := tClass (tClass tArmed 6 .untracked false) 7 .blocked true
    s.cls.initiators[5].cls = .tracked ∧ s.cls.initiators[6].cls = .untracked ∧ s.cls.initiators[7].cls = .blocked ∧
    s.cls.initiators[7].permission = true ∧ s.cls.initiators[6].permission = false ∧ s.ctl.state = .armed ∧
    s.ctl.condition ≠ .broken ∧ tBroken.ctl.condition = .broken ∧ (8 : LineAddr) ∉ s.capture.filter ∧
    (8 : LineAddr) ∈ ({ s.capture with filter := [8] } : Capture).filter := by decide

theorem met_ArbiterChoice : (∀ n : Fin 8, holdReason tReady n ≠ .none) ∧
    (∀ n : Fin 8, let s := tHead tReady (tRead n 0x5000)
      holdReason s n = .none ∧ s.up.ingress[n.val] = tRead n 0x5000 :: [] ∧
      ∀ m : Fin 8, (m - s.up.position - 1).val < (n - s.up.position - 1).val → holdReason s m ≠ .none) := by
  decide +kernel

theorem met_IneligibleHeadsStay_place :
    let gate := tHead (tRolling .undo 1) (tRead 3 0x3FF)
    let line := tHead (tWith tArmed tEntry) (tWrite 3 8)
    let mark := tClass (tHead tPending (tWrite 3 0x400)) 3 .tracked true
    (∃ t, exec .acceptance gate = .next t ∧ gate.up.ingress[3] = tRead 3 0x3FF :: [] ∧ gate.ctl.state = .rolling ∧
      targetOf gate 0x3FF = .window .guarded) ∧
    (∃ t, exec .acceptance line = .next t ∧ ∃ e ∈ line.capture.entries, e.line = (tWrite 3 8).line) ∧
    (∃ t, exec .acceptance mark = .next t ∧ treatment mark (tWrite 3 0x400) = .passMark 5 ∧ hasPending mark = true) :=
  ⟨⟨_, rfl, by decide +kernel⟩, ⟨_, rfl, by decide +kernel⟩, ⟨_, rfl, by decide +kernel⟩⟩

theorem met_IneligibleHeadsStay_room :
    let base := tHead tArmed (tWrite 3 16)
    let full := { base with capture := { base.capture with entries := List.replicate 16 tEntry } }
    let paced := { base with
      journal := { base.journal with config := { tConfig with paceMark := 1 } }
      capture := { base.capture with pacing := some 63 } }
    let queue := tOut base 32
    (∃ t, exec .acceptance full = .next t ∧ treatment full (tWrite 3 16) = .capture (-1) 5 ∧
      16 ≤ full.capture.entries.length) ∧
    (∃ t, exec .acceptance paced = .next t ∧ treatment paced (tWrite 3 16) = .capture (-1) 5 ∧
      paced.journal.config.paceMark ≠ 0 ∧ paced.journal.config.paceMark ≤ paced.journal.occupancy ∧
      paced.capture.pacing = some 63 ∧ 63 < paced.journal.config.pacingInterval) ∧
    (∃ t, exec .acceptance queue = .next t ∧ treatment queue (tWrite 3 16) = .capture (-1) 5 ∧
      32 ≤ queue.down.outgoing.length) :=
  ⟨⟨_, rfl, by decide +kernel⟩, ⟨_, rfl, by decide +kernel⟩, ⟨_, rfl, by decide +kernel⟩⟩

/-- An empty queue, and heads that no condition holds: a read of ordinary memory, a capture below each limit, and a
marker write with no mark pending. -/
theorem met_IneligibleHeadsStay_none :
    let read := tHead tReady (tRead 3 0x5000)
    let write := tHead (tOut tArmed 31) (tWrite 3 8)
    let mark := tClass (tHead tArmed (tWrite 3 0x400)) 3 .tracked true
    tReady.up.ingress[3] = [] ∧
    (∀ s ∈ [read, write, mark], s.ctl.state ≠ .rolling ∧ s.ctl.state ≠ .failed ∧ s.ctl.state ≠ .adopting ∧
      s.capture.entries = [] ∧ hasPending s = false ∧ s.journal.config.paceMark = 0 ∧ s.down.outgoing.length < 32) ∧
    read.up.ingress[3] = tRead 3 0x5000 :: [] ∧ treatment write (tWrite 3 8) = .capture (-1) 5 ∧
    treatment mark (tWrite 3 0x400) = .passMark 5 := by decide +kernel

theorem met_AcceptanceByTreatment :
    let pass := tHead tArmed (tRead 7 0x3FF)
    let unpermitted := tHead tArmed (tWrite 7 0x400)
    let denied := tHead tArmed (tWrite 7 0x4000)
    let miss := tHead tArmed (tWrite 7 8)
    let hit := { miss with capture := { miss.capture with filter := [8] } }
    (chosen pass = some 7 ∧ pass.up.ingress[7] = tRead 7 0x3FF :: [] ∧ treatment pass (tRead 7 0x3FF) = .pass true) ∧
    (chosen unpermitted = some 7 ∧ treatment unpermitted (tWrite 7 0x400) = .passUnpermitted) ∧
    (chosen denied = some 7 ∧ treatment denied (tWrite 7 0x4000) = .denied .journalWrite) ∧
    (chosen hit = some 7 ∧ treatment hit (tWrite 7 8) = .filterHit) ∧
    (chosen miss = some 7 ∧ treatment miss (tWrite 7 8) = .capture (-1) 5) := by decide +kernel

theorem met_MarkerWriteRequestsMark :
    let marks := fun s : State => tClass (tHead s (tWrite 7 0x400)) 7 .tracked true
    let unset := { marks tReady with journal := { tReady.journal with configured := false } }
    (chosen (marks (tIn tReady .failed)) = some 7 ∧ treatment (marks (tIn tReady .failed)) (tWrite 7 0x400) = .passMark 5 ∧
      (marks (tIn tReady .failed)).ctl.state = .failed) ∧
    (chosen unset = some 7 ∧ treatment unset (tWrite 7 0x400) = .passMark 5 ∧ unset.ctl.state = .unarmed ∧
      unset.journal.configured = false) ∧
    (chosen (marks tSpent) = some 7 ∧ treatment (marks tSpent) (tWrite 7 0x400) = .passMark 5 ∧
      (marks tSpent).journal.nextCheckpoint = 0xFFFFFFFF#32) ∧
    (chosen (marks tArmed) = some 7 ∧ treatment (marks tArmed) (tWrite 7 0x400) = .passMark 5 ∧
      (marks tArmed).up.ingress[7] = tWrite 7 0x400 :: [] ∧ (marks tArmed).journal.exhausted = false) := by
  decide +kernel

theorem met_DownstreamIssue : ((tOut tReady 1).down.outgoing = readOf 0 (.oldLine 0) :: [] ∧ held (tOut tReady 1) = false ∧
    tagState (tOut tReady 1) 63 = .free) ∧ tReady.down.outgoing = [] ∧ held tHeld = true ∧
    tagState (tUsing tReady (.oldLine 0)) 5 ≠ .free := by decide

theorem met_DiscardedCompletions :
    let abandoned := { tReady with down := { tReady.down with outstanding := tReady.down.outstanding.set 63 .abandoned } }
    tagState abandoned 63 = .abandoned ∧ tagState tReady 0 = .free ∧
    (∀ n t isRead guarded, tagState (tUsing tReady (.oldLine 0)) 5 ≠ .inUse (.passed n t isRead guarded)) ∧
    (∀ id, tagState (tUsing tReady (.forwarded 0)) 5 ≠ .inUse (.oldLine id)) := by
  have old : tagState (tUsing tReady (.oldLine 0)) 5 = .inUse (.oldLine 0) := by decide
  have held : tagState (tUsing tReady (.forwarded 0)) 5 = .inUse (.forwarded 0) := by decide
  exact ⟨by decide, by decide, fun _ _ _ _ h => (nomatch old.symm.trans h),
    fun _ h => (nomatch held.symm.trans h)⟩

theorem met_PassedRequestCompletes :
    tagState (tUsing tReady (.passed 7 9 true false)) 5 = .inUse (.passed 7 9 true false) := by decide

theorem met_OldLineReadCompletes :
    let s := tUsing (tWith tArmed tEntry) (.oldLine 0)
    let gone := tUsing tArmed (.oldLine 0)
    let late := tUsing (tWith tArmed { tEntry with state := .forwarding }) (.oldLine 0)
    let waits := { tUsing (tWith tArmed { tEntry with epoch := 2 }) (.oldLine 0) with ctl := { tPending.ctl with
      checkpoints := [tMark 1 .established, { tMark 2 .pending with markSlot := none }] } }
    (tagState gone 5 = .inUse (.oldLine 0) ∧ entryOf gone 0 = none) ∧
    (tagState late 5 = .inUse (.oldLine 0) ∧ entryOf late 0 = some { tEntry with state := .forwarding }) ∧
    (tagState s 5 = .inUse (.oldLine 0) ∧ entryOf s 0 = some tEntry ∧ tEntry.state = .lineRead) ∧
    (tagState waits 5 = .inUse (.oldLine 0) ∧ entryOf waits 0 = some { tEntry with epoch := 2 } ∧
      ∃ c ∈ waits.ctl.checkpoints, c.status = .pending ∧ c.number = 2 ∧ c.markSlot = none) := by decide +kernel

theorem met_CaptureSlotGranted :
    let s := { tUsing (tWith tArmed tEntry) (.oldLine 0) with journal := { tArmed.journal with
      commit := 60, tail := 60, occupancy := 60 } }
    tagState s 5 = .inUse (.oldLine 0) ∧ entryOf s 0 = some tEntry ∧ tEntry.state = .lineRead ∧
    (∀ c ∈ s.ctl.checkpoints, c.status = .pending → c.number = tEntry.epoch → c.markSlot ≠ none) ∧
    s.capture.spaceWait = [] ∧ CanWrite s ∧ s.journal.occupancy < captureLimit s.journal := by decide +kernel

/-- ARMED with an entry whose old line is being read, at the capture limit of 61. -/
def tLimit (policy : OverflowPolicy) : State :=
  { tUsing (tWith tArmed tEntry) (.oldLine 0) with journal := { tArmed.journal with
    config := { tConfig with policy := policy }, commit := 61, tail := 61, occupancy := 61 } }

theorem met_CaptureLimitReached : ∀ policy ∈ [OverflowPolicy.break_, OverflowPolicy.hold],
    tagState (tLimit policy) 5 = .inUse (.oldLine 0) ∧ EntriesDistinct (tLimit policy) ∧
    entryOf (tLimit policy) 0 = some tEntry ∧ tEntry.state = .lineRead ∧
    (∀ c ∈ (tLimit policy).ctl.checkpoints, c.status = .pending → c.number = tEntry.epoch → c.markSlot ≠ none) ∧
    (tLimit policy).capture.spaceWait = [] ∧ CanWrite (tLimit policy) ∧
    captureLimit (tLimit policy).journal ≤ (tLimit policy).journal.occupancy ∧
    (tLimit policy).journal.config.policy = policy ∧ (tLimit policy).ctl.state = .armed ∧
    (tLimit policy).journal.occupancy < (tLimit policy).journal.config.slots := by decide +kernel

theorem met_CaptureLimitReached_epochs :
    let b := fun s : State => released (reachedByBreak tEntry.epoch) { s with
      down := { s.down with outstanding := s.down.outstanding.set 5 .free }
      capture := { s.capture with entries := s.capture.entries.map fun x =>
        if x.id == 0 then { x with oldData := some 1, state := .lineRead } else x } }
    let s := tLimit .break_
    let closing := { s with capture := { s.capture with closing := some 1 } }
    (CanWrite (b s) ∧ s.capture.closing = none ∧ s.ctl.condition ≠ .broken ∧ s.ctl.openEpoch = some tEntry.epoch) ∧
    (CanWrite (b closing) ∧ closing.capture.closing = some tEntry.epoch ∧ closing.capture.closingBroken = false) := by
  decide +kernel

/-- Another entry waits for space already; a forgotten slot at the tail has a write outstanding; a request waits already; and
the sequence counter is spent. -/
theorem met_CaptureLimitReached_waits :
    let s := tLimit .hold
    let behind := { s with capture := { s.capture with
      entries := [tEntry, { tEntry with id := 1, line := 9, state := .awaitSpace }], nextEntry := 2, spaceWait := [1] } }
    let blocked := { s with journal := { s.journal with
      slotRecords := [{ tSlot s.journal.tail .mark 1 with forgotten := true }] } }
    let queued := { s with journal := { s.journal with allocWait := [.mark] } }
    let spent := { s with journal := { s.journal with seq := 0xFFFFFFFFFFFFFFFF#64 } }
    (EntriesDistinct behind ∧ entryOf behind 0 = some tEntry ∧ behind.capture.spaceWait ≠ [] ∧
      (0 : Nat) ∉ behind.capture.spaceWait) ∧
    (blocked.capture.spaceWait = [] ∧ MustWait blocked) ∧ (queued.capture.spaceWait = [] ∧ MustWait queued) ∧
    (spent.capture.spaceWait = [] ∧ ¬ MustWait spent ∧ spent.journal.exhausted = false ∧ spent.ctl.state = .armed ∧
      spent.ctl.condition ≠ .broken) := by
  decide +kernel

theorem met_ForwardedWriteRetires :
    let e := { tEntry with state := .forwarding }
    let s := tUsing (tWith tArmed e) (.forwarded 0)
    let full := { s with capture := { s.capture with filter := (List.range 16).map fun k => BitVec.ofNat 30 (264 + 256 * k) } }
    let inserts := fun s : State => e.recorded = true ∧ s.ctl.openEpoch = some e.epoch ∧ s.ctl.state = .armed ∧
      s.ctl.condition ≠ .broken ∧ e.line ∉ s.capture.filter
    let ways := fun s : State => (s.capture.filter.filter fun x => x.toNat % 256 == e.line.toNat % 256).length
    (tagState s 5 = .inUse (.forwarded 0) ∧ entryOf s 0 = some e ∧ inserts s ∧ ways s < 16) ∧
    (tagState full 5 = .inUse (.forwarded 0) ∧ entryOf full 0 = some e ∧ inserts full ∧ 16 ≤ ways full) ∧
    ¬ inserts { s with ctl := { s.ctl with condition := .broken } } ∧
    (tagState (tUsing (tWith tArmed { tEntry with state := .recording }) (.forwarded 0)) 5 = .inUse (.forwarded 0) ∧
      ({ tEntry with state := .recording } : CaptureEntry).state ≠ .forwarding) := by decide +kernel

/-- ARMED with the mark 2 pending: its record at slot 1 has its header line written. -/
def tMarking (older : List Checkpoint) : State :=
  { tUsing tArmed (.journal 1 .data) with
    journal := { tArmed.journal with
      tail := 2, occupancy := 2, seq := 3, nextCheckpoint := 3, slotRecords := [tSlot 1 .mark 2] }
    ctl := { tArmed.ctl with
      checkpoints := older ++ [tMark 2 .pending], openEpoch := some 2
      pendingMark := some { previous := some 1, restart := false } } }

/-- The data line last, or the header line, behind a trailing head, with the next slot still outstanding. -/
theorem met_MarkEstablished :
    let s := tMarking [tMark 1 .established]
    let r := { tSlot 1 .mark 2 with header := .outstanding, data := .ok }
    let next := tSlot 2 (.capture 0) 3
    let u := { tUsing s (.journal 1 .header) with journal := { s.journal with slotRecords := [r, next], trailing := true } }
    LastWrite s 5 false (tSlot 1 .mark 2) { tSlot 1 .mark 2 with data := .ok } ∧
    (LastWrite u 5 false r { r with header := .ok } ∧ u.journal.slotRecords = r :: [next] ∧ r ∉ [next] ∧
      ∀ x, [next].find? (fun x => !x.forgotten) = some x → x.header = .outstanding ∨ x.data = .outstanding) ∧
    (s.journal.slotRecords = tSlot 1 .mark 2 :: [] ∧ (tSlot 1 .mark 2).forgotten = false ∧ s.ctl.state = .armed ∧
      s.ctl.checkpoints = [tMark 1 .established] ++ [tMark 2 .pending] ∧
      (∀ x ∈ [tMark 1 .established], x.status = .established) ∧ (tMark 2 .pending).status = .pending ∧
      (tMark 2 .pending).markSlot = some (tSlot 1 .mark 2).slot ∧ s.journal.voidFailed = none) :=
  ⟨Or.inr ⟨by decide, by decide, rfl⟩,
    ⟨Or.inl ⟨by decide, by decide, rfl⟩, rfl, by decide, fun x h => by obtain rfl := Option.some.inj h; exact Or.inr rfl⟩,
    by decide +kernel⟩

theorem met_JournalWriteCompletes :
    let r := tSlot 1 (.capture 0) 2
    let e := { tEntry with state := .recording, slot := some 1 }
    let s := { tUsing (tWith tArmed e) (.journal 1 .data) with journal := { tArmed.journal with
      tail := 2, occupancy := 2, seq := 3, slotRecords := [r] } }
    let first := { tUsing s (.journal 1 .header) with journal := { s.journal with
      slotRecords := [{ r with header := .outstanding }] } }
    (tagState first 5 = .inUse (.journal 1 .header) ∧
      first.journal.slotRecords.find? (fun x => x.slot == 1) = some { r with header := .outstanding } ∧
      ({ r with header := .outstanding } : SlotRecord).data = .outstanding) ∧
    (tagState s 5 = .inUse (.journal 1 .data) ∧ s.journal.slotRecords.find? (fun x => x.slot == 1) = some r ∧
      s.journal.slotRecords = [r] ∧ r.forgotten = false ∧ r.owner = .capture 0 ∧ r.header = .ok ∧ s.ctl.state = .armed ∧
      s.capture.entries = [e] ∧ e.id = 0 ∧ e.state = .recording ∧ s.capture.forwardWait = [] ∧
      s.down.outgoing.length < 32 ∧ s.journal.trailing = false ∧ s.journal.voidFailed = none) := by decide +kernel

theorem met_JournalWriteCompletes_dataFirst :
    let r := { tSlot 1 (.capture 0) 2 with header := .outstanding }
    let s := { tUsing tArmed (.journal 1 .data) with journal := { tArmed.journal with slotRecords := [r] } }
    tagState s 5 = .inUse (.journal 1 .data) ∧ s.journal.slotRecords.find? (fun x => x.slot == 1) = some r ∧
    r.header = .outstanding := by decide +kernel

/-- ARMED with slots outstanding from the commit point, tag 5 holding the data line of slot 1. -/
def tWriting (records : List SlotRecord) (entries : List CaptureEntry) : State :=
  { tUsing tArmed (.journal 1 .data) with
    journal := { tArmed.journal with tail := 3, occupancy := 3, seq := 4, slotRecords := records }
    capture := { tArmed.capture with entries := entries, nextEntry := 2 } }

def tRecording (id : Nat) (state : EntryState) : CaptureEntry := { tEntry with id := id, state := state, slot := some (id + 1) }

/-- A settled slot behind the one that settles, and a slot before it that has not settled. -/
theorem met_JournalWriteCompletes_two :
    let r := tSlot 1 (.capture 0) 2
    let next := { tSlot 2 (.capture 1) 3 with data := .ok }
    let s := tWriting [r, next] [tRecording 0 .recording, tRecording 1 .awaitCommit]
    let before := tSlot 0 (.capture 1) 1
    let held := tWriting [before, r] [tRecording 0 .recording]
    (LastWrite s 5 false r { r with data := .ok } ∧ s.journal.slotRecords = r :: next :: [] ∧ r ∉ [next] ∧
      r.forgotten = false ∧ next.forgotten = false ∧ next.header ≠ .outstanding ∧ next.data ≠ .outstanding ∧
      r.owner = .capture (tRecording 0 .recording).id ∧ next.owner = .capture (tRecording 1 .awaitCommit).id ∧
      ({ r with data := .ok } : SlotRecord).header ≠ .error ∧ s.down.outgoing.length + 2 ≤ 32 ∧
      s.journal.slotRecords.find? (fun x => x.slot == 1) = some r) ∧
    (LastWrite held 5 false r { r with data := .ok } ∧
      held.journal.slotRecords.find? (fun x => !x.forgotten) = some before ∧ before ≠ r ∧ before.data = .outstanding ∧
      entryOf held 0 = some (tRecording 0 .recording) ∧ held.journal.slotRecords.find? (fun x => x.slot == 1) = some r) :=
  ⟨⟨Or.inr ⟨by decide, by decide, rfl⟩, by decide +kernel⟩, ⟨Or.inr ⟨by decide, by decide, rfl⟩, by decide +kernel⟩⟩

/-- A capture's slot settles failed; one whose entry a rollback has retracted; and a BREAK slot that settles failed. -/
theorem met_JournalWriteCompletes_failed :
    let r := tSlot 1 (.capture 0) 2
    let e := tRecording 0 .recording
    let s := tWriting [r] [e]
    let rolling := { tRolling .retract 1 with
      down := s.down, journal := { (tRolling .retract 1).journal with slotRecords := [r] } }
    let b := tSlot 1 .brk 2
    (LastWrite s 5 true r { r with data := .error } ∧ s.journal.slotRecords = [r] ∧ s.capture.entries = [e] ∧ e.id = 0 ∧
      e.state = .recording ∧ s.ctl.state = .armed ∧ s.ctl.condition ≠ .broken ∧ s.capture.closing = none ∧
      s.ctl.openEpoch = some 1 ∧ s.capture.spaceWait = [] ∧ s.capture.forwardWait = [] ∧ s.journal.trailing = false ∧
      s.journal.voidFailed = none ∧ CanWrite s ∧ s.down.outgoing.length + 3 ≤ 32 ∧
      s.journal.occupancy < s.journal.config.slots) ∧
    (LastWrite rolling 5 true r { r with data := .error } ∧ rolling.ctl.state = .rolling ∧ r.forgotten = false ∧
      entryOf rolling 0 = none) ∧
    (LastWrite (tWriting [b] []) 5 true b { b with data := .error } ∧ b.owner = .brk ∧ b.forgotten = false) :=
  ⟨⟨Or.inr ⟨by decide, by decide, rfl⟩, by decide +kernel⟩, ⟨Or.inr ⟨by decide, by decide, rfl⟩, by decide +kernel⟩,
    ⟨Or.inr ⟨by decide, by decide, rfl⟩, by decide +kernel⟩⟩

/-- A capture's slot settles failed while a closing epoch exists, one that has broken or not; and a MARK slot that settles,
complete, or failed when no pending mark holds it. -/
theorem met_JournalWriteCompletes_closing :
    let r := tSlot 1 (.capture 0) 2
    let s := tWriting [r] [tRecording 0 .recording]
    let closing := fun broken : Bool => { s with capture := { s.capture with closing := some 1, closingBroken := broken } }
    let m := tSlot 1 .mark 2
    (EntriesDistinct (closing false) ∧ (closing false).ctl.state = .armed ∧ (closing false).capture.closingBroken = false) ∧
    BreakNotTaken (closing true) ∧ BreakNotTaken (tIn s .rolling) ∧
    BreakNotTaken { s with ctl := { s.ctl with condition := .broken } } ∧
    (LastWrite (tWriting [m] []) 5 false m { m with data := .ok } ∧ m.owner = .mark ∧
      pendingEntry (tWriting [m] []) = none) :=
  ⟨by decide +kernel, by decide, by decide, by decide, Or.inr ⟨by decide, by decide, rfl⟩, rfl, rfl⟩

/-- A forgotten slot whose entry is still in RECORDING, and one without an entry. -/
theorem met_JournalWriteCompletes_forgotten :
    let r := { tSlot 1 (.capture 0) 2 with forgotten := true }
    let s := tIn (tWriting [r] [tRecording 0 .recording]) .unarmed
    LastWrite s 5 false r { r with data := .ok } ∧ r.forgotten = true ∧ r.owner = .capture 0 ∧
    entryOf s 0 = some (tRecording 0 .recording) ∧ (tRecording 0 .recording).state = .recording ∧
    s.capture.forwardWait = [] ∧ s.down.outgoing.length < 32 ∧ entryOf (tWriting [r] []) 0 = none :=
  ⟨Or.inr ⟨by decide, by decide, rfl⟩, by decide +kernel⟩

theorem met_FirstMarkFails :
    let r := tSlot 1 .mark 2
    (∀ older ∈ [[], [tMark 1 .established]], EntriesDistinct (tMarking older) ∧
      (tMarking older).journal.slotRecords = [r] ∧ (tMarking older).ctl.state = .armed ∧
      (tMarking older).ctl.checkpoints = older ++ [tMark 2 .pending] ∧ (∀ x ∈ older, x.status = .established) ∧
      (tMarking older).journal.trailing = false ∧ (tMarking older).journal.voidFailed = none) ∧
    (∀ older, LastWrite (tMarking older) 5 true r { r with data := .error }) ∧
    (LastWrite (tMarking []) 5 false { r with header := .error } { r with header := .error, data := .ok }) ∧
    r.forgotten = false ∧ r.owner = .mark ∧ (tMark 2 .pending).status = .pending ∧
    (tMark 2 .pending).markSlot = some r.slot ∧ ([tMark 1 .established] : List Checkpoint) ≠ [] :=
  ⟨by decide +kernel, fun _ => Or.inr ⟨(by decide : tagState (tMarking []) 5 = _), by decide, rfl⟩, Or.inr ⟨by decide, by decide, rfl⟩, by decide⟩

/-- Likewise with another slot, not settled, before it and a settled one behind it. -/
theorem met_FirstMarkFails_several :
    let r := tSlot 1 .mark 2
    let s := tMarking [tMark 1 .established]
    let t := { s with journal := { s.journal with
      commit := 0, head := 0, tail := 3, occupancy := 3
      slotRecords := [tSlot 0 (.capture 0) 1, r, { tSlot 2 (.capture 1) 3 with data := .ok }] } }
    LastWrite t 5 true r { r with data := .error } ∧ t.journal.slotRecords.find? (fun x => x.slot == r.slot) = some r ∧
    t.ctl.state = .armed := ⟨Or.inr ⟨by decide, by decide, rfl⟩, by decide +kernel⟩

theorem met_RecordReadsBack : ∀ v src restart,
    (tRecord 2 1 (.capture 8 7 77)).body ≠ .mark v src (some 0xFFFFFFFF#32) restart ∧
    (tRecord 2 1 (.brk .journalWrite)).body ≠ .mark v src (some 0xFFFFFFFF#32) restart ∧
    (tRecord 2 1 (.mark 7 .management (some 0xFFFFFFFE#32) false)).body ≠ .mark v src (some 0xFFFFFFFF#32) restart ∧
    (tRecord 2 1 (.mark 7 .management none true)).body ≠ .mark v src (some 0xFFFFFFFF#32) restart := by
  intro v src restart
  refine ⟨nofun, nofun, ?_, nofun⟩
  intro h
  injection h with _ _ h _
  exact absurd h (by decide)

/-! ### The walk and the scan -/

theorem met_UndoReadCompletes_first : ∀ half ∈ [Half.header, Half.data],
    let s := tUsing (tRolling .undo 1) (.undoRead 1 half)
    tagState s 5 = .inUse (.undoRead 1 half) ∧ s.ctl.state = .rolling ∧ s.rollback.phase = .undo ∧
    s.rollback.target = some tTarget ∧ s.rollback.undoPointer = some 1 ∧ s.rollback.pair.header = none ∧
    s.rollback.pair.data = none := by decide +kernel

/-- Both lines read, the data line last or the header line last (R134). -/
theorem met_UndoReadCompletes_both (h d : ReadResult) :
    CompletesPair { header := some h, data := none } .data d h d ∧
    CompletesPair { header := none, data := some d } .header h h d := ⟨Or.inr ⟨rfl, rfl, rfl⟩, Or.inl ⟨rfl, rfl, rfl⟩⟩

/-- The walk with the header line of its slot read. -/
def tWalk (header : ReadResult) (remaining : Nat) : State :=
  let s := tUsing (tRolling .undo remaining) (.undoRead 1 .data)
  { s with rollback := { s.rollback with pair := { header := some header, data := none } } }

set_option maxRecDepth 100000 in
theorem met_UndoReadCompletes_error : tagState (tWalk .error 1) 5 = .inUse (.undoRead 1 .data) ∧
    (tWalk .error 1).rollback.pair.header = some .error ∧
    checkPasses (0 : LineData) (0 : LineData) = false := by decide +kernel

set_option maxRecDepth 100000 in
theorem met_UndoReadCompletes_runStamp :
    let r := { tRecord 2 1 (.capture 8 7 77) with runStamp := 1 }
    checkPasses (recordHeader r) (recordData r) = true ∧
    headerRunStamp (recordHeader r) ≠ (tWalk (.ok (recordHeader r)) 1).journal.config.runStamp := by decide +kernel

/-- A header line of kind 4 with a right check code. -/
def tForged : LineData :=
  let fields : BitVec 480 := (0 : BitVec 448) ++ 0xABCD#16 ++ (0 : BitVec 8) ++ 4#8
  checkCode fields 0 ++ fields

set_option maxRecDepth 100000 in
theorem met_UndoReadCompletes_kind : checkPasses tForged 0 = true ∧ headerRunStamp tForged = tConfig.runStamp ∧
    decodeBody tForged 0 = none := by decide +kernel

/-- What both engines ask of a record before its order: the check, the run stamp and the kind. -/
abbrev Readable (r : Record) : Prop :=
  checkPasses (recordHeader r) (recordData r) = true ∧ headerRunStamp (recordHeader r) = tConfig.runStamp ∧
  decodeBody (recordHeader r) (recordData r) = some r.body

abbrev Ordered (s : State) (r : Record) : Prop :=
  tTarget.seq < headerSeq (recordHeader r) ∧ headerSeq (recordHeader r) < s.rollback.lastUndone.getD s.journal.seq

set_option maxRecDepth 100000 in
theorem met_UndoReadCompletes_order : Readable (tRecord 1 1 (.capture 8 7 77)) ∧
    ¬ Ordered (tWalk .error 1) (tRecord 1 1 (.capture 8 7 77)) ∧
    ¬ Ordered (tWalk .error 1) (tRecord 3 1 (.capture 8 7 77)) := by decide +kernel

set_option maxRecDepth 100000 in
theorem met_UndoReadCompletes_break : Readable (tRecord 2 1 (.brk .limit)) ∧
    Ordered (tWalk .error 1) (tRecord 2 1 (.brk .limit)) := by decide +kernel

set_option maxRecDepth 100000 in
theorem met_UndoReadCompletes_capture : Readable (tRecord 2 1 (.capture 0x3FF 7 77)) ∧
    Ordered (tWalk .error 1) (tRecord 2 1 (.capture 0x3FF 7 77)) ∧ lineGuarded (tWalk .error 1) 0x3FF = true ∧
    Readable (tRecord 2 1 (.capture 0x400 7 77)) ∧ lineGuarded (tWalk .error 1) 0x400 = false := by decide +kernel

set_option maxRecDepth 100000 in
theorem met_UndoReadCompletes_mark : ∀ n ∈ [1, 2],
    let r := tRecord 2 2 (.mark 7 .management (some 1) false)
    let s := tWalk (.ok (recordHeader r)) n
    let listed := { s with ctl := { s.ctl with checkpoints := [tMark 1 .established, tMark 2 .established] } }
    Readable r ∧ Ordered s r ∧ s.ctl.checkpoints.any (matchesMark 2 1 2) = false ∧
    listed.ctl.checkpoints.any (matchesMark 2 1 2) = true ∧ s.rollback.remaining = n := by decide +kernel

theorem met_UndoWriteCompletes : ∀ n ∈ [1, 2],
    let s := tUsing (tRolling .undo n) (.undoWrite 1)
    let t := { s with rollback := { s.rollback with current := some 2 } }
    tagState t 5 = .inUse (.undoWrite 1) ∧ t.ctl.state = .rolling ∧ t.rollback.phase = .undo ∧
    t.rollback.target = some tTarget ∧ t.rollback.undoPointer = some 1 ∧ t.rollback.current = some 2 ∧
    t.rollback.remaining = n := by decide +kernel

theorem met_RollbackSettles :
    let s := tUsing (tRolling .undo 0) (.voidWrite 1)
    tagState s 5 = .inUse (.voidWrite 1) ∧ s.ctl.state = .rolling ∧ s.rollback.phase = .undo ∧
    s.rollback.target = some tTarget := by decide +kernel

theorem met_ScanReadCompletes : ∀ header ∈ [ReadResult.error, .ok 0],
    let s := tUsing (tScan header) (.scanRead 1 1 .data)
    tagState s 5 = .inUse (.scanRead s.scan.run 1 .data) ∧ s.ctl.state = .adopting ∧ s.scan.scanned ≠ 0 ∧
    s.scan.lastSeq = some 1 ∧ s.scan.segment = some 1 ∧ CompletesPair s.scan.pair .data (.ok 0) header (.ok 0) ∧
    s.scan.start ≠ some (nextSlot s.journal 1) := by
  intro header hm
  refine ⟨?_, rfl, by decide +revert, rfl, rfl, Or.inr ⟨rfl, rfl, rfl⟩, ?_⟩ <;> decide +revert

/-- ADOPTING at the start slot 0, with no slot accepted yet and its data line read. -/
def tAnchor (data : ReadResult) : State :=
  { tUsing tReady (.scanRead 1 0 .header) with
    ctl := { Controller.reset with state := .adopting }
    scan := { Scanner.reset with start := some 0, pointer := some 0, pair := { header := none, data := some data }, run := 1 } }

/-- A read of a scan that has stopped, of an earlier scan, the first of the two reads, and the anchor's last read. -/
theorem met_ScanReadCompletes_anchor : (tReady.ctl.state ≠ .adopting ∧ (0 : Nat) ≠ (tAnchor .error).scan.run) ∧
    ((tScan .error).scan.pair.data = none ∧ (tAnchor .error).scan.pair.header = none) ∧
    tagState (tAnchor (.ok 0)) 5 = .inUse (.scanRead (tAnchor (.ok 0)).scan.run 0 .header) ∧
    (tAnchor (.ok 0)).ctl.state = .adopting ∧ (tAnchor (.ok 0)).scan.scanned = 0 ∧
    CompletesPair (tAnchor (.ok 0)).scan.pair .header (.ok 0) (.ok 0) (.ok 0) ∧
    (tAnchor (.ok 0)).scan.start ≠ some (nextSlot (tAnchor (.ok 0)).journal 0) :=
  ⟨by decide, by decide, by decide, rfl, rfl, Or.inl ⟨rfl, rfl, rfl⟩, by decide⟩

set_option maxRecDepth 100000 in
theorem met_ScanReadCompletes_capture : Readable (tRecord 2 1 (.capture 0x3FF 7 77)) ∧
    (1 : SeqNo) < headerSeq (recordHeader (tRecord 2 1 (.capture 0x3FF 7 77))) ∧
    headerCheckpoint (recordHeader (tRecord 2 1 (.capture 0x3FF 7 77))) = 1 ∧ lineGuarded (tScan .error) 0x3FF = true ∧
    Readable (tRecord 2 1 (.capture 0x400 7 77)) ∧ lineGuarded (tScan .error) 0x400 = false := by decide +kernel

set_option maxRecDepth 100000 in
theorem met_ScanReadCompletes_break : Readable (tRecord 2 1 (.brk .journalWrite)) ∧
    headerCheckpoint (recordHeader (tRecord 2 1 (.brk .journalWrite))) = 1 := by decide +kernel

set_option maxRecDepth 100000 in
theorem met_ScanReadCompletes_mark : Readable (tRecord 2 2 (.mark 7 (.initiator 7) (some 1) false)) ∧
    (1 : CheckpointNo) < headerCheckpoint (recordHeader (tRecord 2 2 (.mark 7 (.initiator 7) (some 1) false))) := by
  decide +kernel

set_option maxRecDepth 100000 in
theorem met_ScanEndsAdopted :
    let s := tUsing (tScan (.ok 0)) (.scanRead 1 1 .data)
    tagState s 5 = .inUse (.scanRead s.scan.run 1 .data) ∧ s.ctl.state = .adopting ∧ s.scan.scanned ≠ 0 ∧
    s.scan.lastSlot = some 0 ∧ s.scan.lastSeq = some 1 ∧ s.scan.segment = some 1 ∧
    s.scan.pair.header = some (.ok 0) ∧ checkPasses 0 0 = false ∧ s.scan.working.head? = some (tMark 1 .established) ∧
    s.scan.working.getLast? = some (tMark 1 .established) ∧ (tMark 1 .established).markSlot = some 0 := by decide +kernel

set_option maxRecDepth 100000 in
/-- Records that end the scan of `tScan` with RUN_STAMP, ORDER and EPOCH (KIND: `tForged`), and one that is accepted where
the pointer returns to the start slot. -/
theorem met_ScanEndsAdopted_causes :
    let stamped := { tRecord 2 1 (.brk .limit) with runStamp := 1 }
    (checkPasses (recordHeader stamped) 0 = true ∧ headerRunStamp (recordHeader stamped) ≠ tConfig.runStamp) ∧
    (Readable (tRecord 1 1 (.brk .limit)) ∧ ¬ (1 : SeqNo) < headerSeq (recordHeader (tRecord 1 1 (.brk .limit)))) ∧
    (Readable (tRecord 2 2 (.brk .limit)) ∧ headerCheckpoint (recordHeader (tRecord 2 2 (.brk .limit))) ≠ 1) ∧
    (Readable (tRecord 2 1 (.brk .limit)) ∧ headerCheckpoint (recordHeader (tRecord 2 1 (.brk .limit))) = 1 ∧
      (1 : SeqNo) < headerSeq (recordHeader (tRecord 2 1 (.brk .limit)))) ∧
    nextSlot tReady.journal 63 = 0 := by decide +kernel

/-- What the epoch test says of a BREAK and a MARK record of the segment 1 (Table 5.2). -/
theorem met_EpochFits : EpochFits 1 1 (.brk .limit) ∧ ¬ EpochFits 1 2 (.brk .limit) ∧
    EpochFits 1 2 (.mark 7 .management none false) ∧ ¬ EpochFits 1 1 (.mark 7 .management none false) :=
  ⟨⟨fun ⟨_, _, _, _, h⟩ => (nomatch h), fun _ => rfl⟩,
    fun h => absurd (h.2 fun ⟨_, _, _, _, h⟩ => nomatch h) (by decide),
    ⟨fun _ => by decide, fun h => absurd ⟨_, _, _, _, rfl⟩ h⟩,
    fun h => absurd (h.1 ⟨_, _, _, _, rfl⟩) (by decide)⟩

/-- Adoption at the largest values: the counters stand there (00_scope.md, Conventions). -/
theorem test_adopted_counters_saturate : adoptedCounter (1 : SeqNo) 0xFFFFFFFFFFFFFFFF#64 = 0xFFFFFFFFFFFFFFFF#64 ∧
    adoptedCounter (7 : CheckpointNo) 0xFFFFFFFF#32 = 0xFFFFFFFF#32 ∧ adoptedCounter (9 : CheckpointNo) 5 = 9 ∧
    adoptedCounter (2 : CheckpointNo) 5 = 6 := by decide

/-! ### Requests that waited, timers and lines -/

theorem met_WaitingRequestsEnter :
    let w := readOf 0 (.oldLine 0)
    let s := { tWith (tOut tArmed 30) tEntry with
      journal := { tArmed.journal with writeWait := [(w, w)] }
      rollback := { tArmed.rollback with undoWait := [w] }
      scan := { tArmed.scan with scanWait := [w] }
      capture := { (tWith tArmed tEntry).capture with forwardWait := [0] } }
    (s.capture.forwardWait = 0 :: [] ∧ entryOf s 0 = some tEntry ∧ (tOut s 31).down.outgoing.length < 32) ∧
    (s.journal.writeWait = (w, w) :: [] ∧ s.down.outgoing.length + 2 ≤ 32) ∧
    (s.rollback.undoWait = w :: [] ∧ s.scan.scanWait = w :: []) ∧
    32 ≤ (tOut s 32).down.outgoing.length ∧ 31 ≤ (tOut s 31).down.outgoing.length := by decide +kernel

theorem met_WaitingAllocationJudged :
    let s := { tArmed with journal := { tArmed.journal with allocWait := [.brk 1 .limit] } }
    let blocked := { s with journal := { s.journal with slotRecords := [{ tSlot 1 .mark 1 with forgotten := true }] } }
    tailBlocked blocked.journal = true ∧ tArmed.journal.allocWait = [] ∧ s.journal.allocWait = [.brk 1 .limit] ∧
    CanWrite { s with journal := { s.journal with allocWait := [] } } ∧
    s.journal.occupancy < s.journal.config.slots := by decide +kernel

/-- A MARK request due, and a CAPTURE request due, behind a forgotten slot at the tail; and behind a request that waits. -/
theorem met_WaitingAllocationJudged_must :
    let old := fun s : State => { s with journal := { s.journal with
      slotRecords := [{ tSlot s.journal.tail .mark 1 with forgotten := true }] } }
    let behind := fun s : State => { s with journal := { s.journal with allocWait := [.brk 1 .limit] } }
    let c := { tMark 2 .pending with markSlot := none, markSeq := none }
    let m := { tPending with ctl := { tPending.ctl with checkpoints := [tMark 1 .established, c] } }
    let e := tWith tArmed { tEntry with state := .awaitSpace, oldData := some 1 }
    let w := { e with capture := { e.capture with spaceWait := [0] } }
    (∀ s ∈ [old m, behind m], s.capture.spaceWait = [] ∧ pendingEntry s = some c ∧ c.markSlot = none ∧
      AllocRequest.mark ∉ s.journal.allocWait ∧ s.capture.closing = none ∧ MustWait s) ∧
    (∀ s ∈ [old w, behind w], s.capture.spaceWait = 0 :: [] ∧ AllocRequest.capture 0 ∉ s.journal.allocWait ∧
      s.journal.occupancy < captureLimit s.journal ∧ MustWait s) := by decide +kernel

/-- One CAPTURE request, and one MARK request, that waited alone. -/
theorem met_WaitingAllocationJudged_others :
    let waits := fun (s : State) (r : AllocRequest) => { s with journal := { s.journal with allocWait := [r] } }
    let c := { tMark 2 .pending with markSlot := none, markSeq := none }
    let m := { tPending with ctl := { tPending.ctl with checkpoints := [tMark 1 .established, c] } }
    (entryOf (waits (tWith tArmed tEntry) (.capture 0)) 0 = some tEntry ∧ tEntry.early = true ∧
      CanWrite (tWith tArmed tEntry) ∧ tArmed.journal.occupancy < captureLimit tArmed.journal) ∧
    (pendingEntry (waits m .mark) = some c ∧ m.ctl.pendingMark = some { previous := some 1, restart := false } ∧
      (∀ e ∈ m.capture.entries, e.state ≠ .awaitMark) ∧ CanWrite m ∧
      m.journal.occupancy < m.journal.config.slots) := by decide +kernel

theorem met_TimerRows_hold :
    let s := { tWith tArmed { tEntry with state := .awaitSpace } with
      capture := { (tWith tArmed { tEntry with state := .awaitSpace }).capture with
        spaceWait := [0], hold := { running := true, count := 9999, timeout := 10 } }
      ctl := { tArmed.ctl with condition := .holding } }
    let b := released (reachedByBreak 1) { s with
      capture := { s.capture with hold := { s.capture.hold with count := s.capture.hold.count + 1 } }
      ctl := { s.ctl with condition := .broken, lastBreak := some .holdTimeout } }
    (s.capture.hold.running = true ∧ frozen s 0 = false ∧ s.capture.hold.timeout * 1000 ≤ s.capture.hold.count + 1) ∧
    EntriesDistinct s ∧ s.ctl.state = .armed ∧ s.ctl.condition ≠ .broken ∧ s.capture.closing = none ∧
    s.ctl.openEpoch = some 1 ∧ s.journal.occupancy < s.journal.config.slots ∧ CanWrite b ∧
    tArmed.capture.hold.running = false := by decide +kernel

/-- The hold timer about to expire while a closing epoch exists; and where the epoch has broken already. -/
theorem met_TimerRows_closing :
    let due := fun s : State => s.capture.hold.running = true ∧ frozen s 0 = false ∧
      s.capture.hold.timeout * 1000 ≤ s.capture.hold.count + 1
    let broken := { tBroken with capture := { tBroken.capture with hold := tHoldEnds.capture.hold } }
    let closed := { tHoldEnds with capture := { tHoldEnds.capture with closingBroken := true } }
    (due tHoldEnds ∧ EntriesDistinct tHoldEnds ∧ tHoldEnds.ctl.state = .armed ∧
      tHoldEnds.capture.closingBroken = false ∧ tHoldEnds.capture.closing = some 10) ∧
    (due broken ∧ BreakNotTaken broken) ∧ (due closed ∧ BreakNotTaken closed) := by decide +kernel

theorem met_TimerRows_pacing :
    let s := fun n : Nat => { tArmed with capture := { tArmed.capture with pacing := some n } }
    ((s 63).capture.pacing = some 63 ∧ frozen (s 63) 1 = false ∧ 63 + 1 = (s 63).journal.config.pacingInterval) ∧
    tArmed.capture.pacing = none ∧ ((s 64).capture.pacing = some 64 ∧ 64 + 1 ≠ (s 64).journal.config.pacingInterval) ∧
    frozen { s 63 with alerts := { (s 63).alerts with frz := true } } 1 = true := by decide +kernel

theorem met_TimerRows_age :
    let s := fun count : Nat => { tArmed with ctl := { tArmed.ctl with
      age := { running := true, count := count, limit := 1, stale := false } } }
    let due := fun s : State => s.ctl.age.running = true ∧ frozen s 2 = false ∧ s.ctl.age.limit ≠ 0 ∧
      s.ctl.age.stale = false ∧ s.ctl.age.limit * 1000 ≤ s.ctl.age.count + 1
    due (s 999) ∧ ¬ due (s 998) := by decide +kernel

theorem met_FltreqEdgeJudged :
    let high := { tArmed with rollback := { tArmed.rollback with fltreq := true } }
    let waits := fun s : State => { s with rollback := { s.rollback with pendingLine := true } }
    (held tHeld = true ∧ high.rollback.fltreq = true) ∧
    (held tReady = false ∧ tReady.rollback.fltreq = false ∧ tReady.ctl.state = .unarmed) ∧
    (held tFailed = false ∧ tFailed.rollback.fltreq = false ∧ tFailed.ctl.state = .failed) ∧
    ((tRolling .undo 1).rollback.fltreq = false ∧ (tRolling .undo 1).ctl.state = .rolling) ∧
    ((waits tPending).ctl.state = .armed ∧ (waits tPending).rollback.pendingLine = true) ∧
    ((waits (tScan .error)).ctl.state = .adopting ∧ (tScan .error).rollback.pendingLine = false) ∧
    (tPending.rollback.fltreq = false ∧ tPending.rollback.pendingLine = false ∧ hasPending tPending = true) ∧
    ((tSlotted tArmed (.executing (.rollback 1))).rollback.fltreq = false ∧
      hasPending (tSlotted tArmed (.executing (.rollback 1))) = false) ∧
    (tBroken.rollback.fltreq = false ∧ hasPending tBroken = false ∧ (∀ d, tBroken.port.slot ≠ .executing (.rollback d)) ∧
      tBroken.ctl.condition = .broken) ∧
    (∀ d, tArmed.port.slot ≠ .executing (.rollback d)) ∧
    (held tArmed = false ∧ tArmed.rollback.fltreq = false ∧ tArmed.rollback.pendingLine = false ∧
      tArmed.ctl.state = .armed ∧ hasPending tArmed = false ∧ tArmed.ctl.condition ≠ .broken ∧
      tArmed.ctl.checkpoints.getLast? = some (tMark 1 .established)) := by decide +kernel

theorem met_LevelChanges : held tHeld = true ∧ held tReady = false := by decide

end Sys2Proof.Tests
end

section
/-! PROOFS. Slices of bytes laid out one after another, and the header line of a record: the place of each field, and
the field read back from its place (R4 to R9, R182, Table 11.1). -/

namespace Sys2Proof.Machine

/-! ### Slices of bytes laid out one after another -/

@[simp] theorem zeros_length (n : Nat) : (zeros n).length = n := List.length_replicate

@[simp] theorem bytesAt_append_of_le {a b : List Byte} {offset n : Nat} (h : a.length ≤ offset) :
    bytesAt (a ++ b) offset n = bytesAt b (offset - a.length) n := by
  rw [bytesAt, bytesAt, List.drop_append, List.drop_eq_nil_of_le h, List.nil_append]

@[simp] theorem bytesAt_append_of_add_le {a b : List Byte} {offset n : Nat} (h : offset + n ≤ a.length) :
    bytesAt (a ++ b) offset n = bytesAt a offset n := by
  have room : n ≤ (a.drop offset).length := by rw [List.length_drop]; omega
  rw [bytesAt, bytesAt, List.drop_append_of_le_length (by omega), List.take_append_of_le_length room]

@[simp] theorem bytesAt_cons_succ (b : Byte) (l : List Byte) (offset n : Nat) :
    bytesAt (b :: l) (offset + 1) n = bytesAt l offset n := rfl

@[simp] theorem bytesAt_cons_one (b : Byte) (l : List Byte) : bytesAt (b :: l) 0 1 = [b] := rfl

@[simp] theorem bytesAt_bytesLE_all {w : Nat} (n : Nat) (v : BitVec w) : bytesAt (bytesLE n v) 0 n = bytesLE n v :=
  List.take_of_length_le (by simp)

@[simp] theorem bytesAt_zeros_all (n : Nat) : bytesAt (zeros n) 0 n = zeros n := List.take_of_length_le (by simp)

/-! ### The bytes of the header line -/

/-- The header line is its fields and then, in the last four bytes, the check code. -/
theorem recordHeader_fields_then_check (r : Record) : bytesLE 64 (recordHeader r) =
    bytesLE 60 (headerFields r) ++ bytesLE 4 (checkCode (headerFields r) (recordData r)) :=
  bytesLE_append 4 60 _ _ rfl

/-- A line address has 30 bits, and its field in a CAPTURE record four bytes: the two zero bits above it widen it. -/
theorem bodyField_capture (line : LineAddr) (n : Fin 8) (old : LineData) :
    bodyField (.capture line n old) = (0 : BitVec 280) ++ BitVec.ofNat 8 n.val ++ line.setWidth 32 := by
  apply BitVec.eq_of_getLsbD_eq
  intro i hi
  rw [bodyField]
  repeat rw [BitVec.getLsbD_append]
  rw [BitVec.getLsbD_setWidth]
  grind

theorem bytesLE_bodyField_capture (line : LineAddr) (n : Fin 8) (old : LineData) :
    bytesLE 40 (bodyField (.capture line n old)) =
      bytesLE 4 (line.setWidth 32) ++ ([BitVec.ofNat 8 n.val] ++ zeros 35) := by
  rw [bodyField_capture, bytesLE_append 36 4 _ _ rfl, bytesLE_append 35 1 _ _ rfl, bytesLE_one, bytesLE_zero]

theorem bytesLE_bodyField_mark (v : BitVec 64) (src : MarkSource) (previous : Option CheckpointNo) (restart : Bool) :
    bytesLE 40 (bodyField (.mark v src previous restart)) =
      bytesLE 8 v ++ ([sourceByte src] ++ ([boolByte restart] ++ (zeros 2 ++
        (bytesLE 4 (checkpointField previous) ++ zeros 24)))) := by
  rw [bodyField, bytesLE_append 32 8 _ _ rfl, bytesLE_append 31 1 _ _ rfl, bytesLE_append 30 1 _ _ rfl,
    bytesLE_append 28 2 _ _ rfl, bytesLE_append 24 4 _ _ rfl, bytesLE_one, bytesLE_one, bytesLE_zero, bytesLE_zero]

theorem bytesLE_bodyField_brk (cause : RecordCause) :
    bytesLE 40 (bodyField (.brk cause)) = [causeByte cause] ++ zeros 39 := by
  rw [bodyField, bytesLE_append 39 1 _ _ rfl, bytesLE_one, bytesLE_zero]

theorem recordHeader_common_layout (r : Record) :
    let h := bytesLE 64 (recordHeader r)
    bytesAt h 0 1 = [kindByte r.body] ∧ bytesAt h 1 1 = [0] ∧ bytesAt h 2 2 = bytesLE 2 r.runStamp ∧
      bytesAt h 4 4 = zeros 4 ∧ bytesAt h 8 8 = bytesLE 8 r.seq ∧ bytesAt h 16 4 = bytesLE 4 r.checkpoint := by
  have gap : zeros 1 = [0] := rfl
  simp [recordHeader_bytes, gap]

/-- The check code is computed over the header's own first 60 bytes and then the data line (R8). -/
theorem recordHeader_check_layout (r : Record) :
    let h := bytesLE 64 (recordHeader r)
    bytesAt h 60 4 = bytesLE 4 (crc32 (bytesAt h 0 60 ++ bytesLE 64 (recordData r))) := by
  simp [recordHeader_fields_then_check, checkCode]

theorem recordHeader_capture_layout {r : Record} {line : LineAddr} {n : Fin 8} {old : LineData}
    (hr : r.body = .capture line n old) :
    let h := bytesLE 64 (recordHeader r)
    bytesAt h 20 4 = bytesLE 4 (line.setWidth 32) ∧ bytesAt h 24 1 = [BitVec.ofNat 8 n.val] ∧
      bytesAt h 25 35 = zeros 35 := by
  simp [recordHeader_bytes, hr, bytesLE_bodyField_capture]

theorem recordHeader_mark_layout {r : Record} {v : BitVec 64} {src : MarkSource} {previous : Option CheckpointNo}
    {restart : Bool} (hr : r.body = .mark v src previous restart) :
    let h := bytesLE 64 (recordHeader r)
    bytesAt h 20 8 = bytesLE 8 v ∧ bytesAt h 28 1 = [sourceByte src] ∧ bytesAt h 29 1 = [boolByte restart] ∧
      bytesAt h 30 2 = zeros 2 ∧ bytesAt h 32 4 = bytesLE 4 (checkpointField previous) ∧
      bytesAt h 36 24 = zeros 24 := by
  simp [recordHeader_bytes, hr, bytesLE_bodyField_mark]

theorem recordHeader_brk_layout {r : Record} {cause : RecordCause} (hr : r.body = .brk cause) :
    let h := bytesLE 64 (recordHeader r)
    bytesAt h 20 1 = [causeByte cause] ∧ bytesAt h 21 39 = zeros 39 := by
  simp [recordHeader_bytes, hr, bytesLE_bodyField_brk]

/-! ### The fields read back -/

section readBack
open BitVec

theorem recordHeader_extract_check (r : Record) :
    (recordHeader r).extractLsb' 480 32 = checkCode (headerFields r) (recordData r) :=
  extractLsb'_append_eq_left

theorem recordHeader_extract_fields (r : Record) : (recordHeader r).extractLsb' 0 480 = headerFields r :=
  extractLsb'_append_eq_right

theorem recordHeader_extract {r : Record} {start len : Nat} (h : start + len ≤ 480) :
    (recordHeader r).extractLsb' start len = (headerFields r).extractLsb' start len :=
  extractLsb'_append_eq_of_add_le h

theorem recordHeader_extract_kind (r : Record) : (recordHeader r).extractLsb' 0 8 = kindByte r.body := by
  rw [recordHeader_extract (by decide), headerFields, extractLsb'_append_eq_right]

theorem headerRunStamp_recordHeader (r : Record) : headerRunStamp (recordHeader r) = r.runStamp := by
  rw [headerRunStamp, recordHeader_extract (by decide), headerFields]
  iterate 2 rw [extractLsb'_append_eq_of_le (by decide)]
  exact extractLsb'_append_eq_right

theorem headerSeq_recordHeader (r : Record) : headerSeq (recordHeader r) = r.seq := by
  rw [headerSeq, recordHeader_extract (by decide), headerFields]
  iterate 4 rw [extractLsb'_append_eq_of_le (by decide)]
  exact extractLsb'_append_eq_right

theorem headerCheckpoint_recordHeader (r : Record) : headerCheckpoint (recordHeader r) = r.checkpoint := by
  rw [headerCheckpoint, recordHeader_extract (by decide), headerFields]
  iterate 5 rw [extractLsb'_append_eq_of_le (by decide)]
  exact extractLsb'_append_eq_right

theorem recordHeader_extract_body (r : Record) {start len : Nat} (h : start + len ≤ 320) :
    (recordHeader r).extractLsb' (160 + start) len = (bodyField r.body).extractLsb' start len := by
  rw [recordHeader_extract (by omega), headerFields]
  iterate 6 rw [extractLsb'_append_eq_of_le (by omega)]
  rw [show 160 + start - 8 - 8 - 16 - 32 - 64 - 32 = start by omega]

theorem checkPasses_recordHeader (r : Record) : checkPasses (recordHeader r) (recordData r) = true := by
  rw [checkPasses, recordHeader_extract_check, recordHeader_extract_fields, beq_self_eq_true]

theorem sourceOfByte_sourceByte (src : MarkSource) : sourceOfByte (sourceByte src) = src := by
  cases src with
  | management => rfl
  | initiator n => revert n; decide

theorem causeOfByte_causeByte (cause : RecordCause) : causeOfByte (causeByte cause) = cause := by
  cases cause <;> rfl

/-- The number that stands for NONE is no checkpoint's (R10), so an absent number reads back as absent. -/
theorem checkpointField_readsBack {previous : Option CheckpointNo} (h : previous ≠ some 0xFFFFFFFF#32) :
    (if checkpointField previous = 0xFFFFFFFF#32 then none else some (checkpointField previous)) = previous := by
  cases previous with
  | none => rfl
  | some n => exact if_neg fun hn => h (congrArg some hn)

theorem decodeBody_capture {r : Record} {line : LineAddr} {n : Fin 8} {old : LineData}
    (hr : r.body = .capture line n old) : decodeBody (recordHeader r) old = some (.capture line n old) := by
  have kind := recordHeader_extract_kind r
  have hline := recordHeader_extract_body r (start := 0) (len := 30) (by decide)
  have initiator := recordHeader_extract_body r (start := 32) (len := 8) (by decide)
  rw [hr] at kind hline initiator
  rw [bodyField, extractLsb'_append_eq_right] at hline
  rw [bodyField_capture, extractLsb'_append_eq_of_le (by decide), extractLsb'_append_eq_right] at initiator
  simp [decodeBody, kind, hline, initiator, kindByte, Nat.mod_eq_of_lt n.isLt]

theorem decodeBody_mark {r : Record} {v : BitVec 64} {src : MarkSource} {previous : Option CheckpointNo}
    {restart : Bool} (hr : r.body = .mark v src previous restart) (number : previous ≠ some 0xFFFFFFFF#32)
    (data : LineData) : decodeBody (recordHeader r) data = some (.mark v src previous restart) := by
  have kind := recordHeader_extract_kind r
  have value := recordHeader_extract_body r (start := 0) (len := 64) (by decide)
  have source := recordHeader_extract_body r (start := 64) (len := 8) (by decide)
  have flag := recordHeader_extract_body r (start := 72) (len := 8) (by decide)
  have previousField := recordHeader_extract_body r (start := 96) (len := 32) (by decide)
  rw [hr] at kind value source flag previousField
  rw [bodyField, extractLsb'_append_eq_right] at value
  rw [bodyField, extractLsb'_append_eq_of_le (by decide), extractLsb'_append_eq_right] at source
  rw [bodyField] at flag previousField
  iterate 2 rw [extractLsb'_append_eq_of_le (by decide)] at flag
  rw [extractLsb'_append_eq_right] at flag
  iterate 4 rw [extractLsb'_append_eq_of_le (by decide)] at previousField
  rw [extractLsb'_append_eq_right] at previousField
  have restarts : (recordHeader r)[232] = restart := by
    calc (recordHeader r)[232] = ((recordHeader r).extractLsb' 232 8)[0] := by simp
      _ = (boolByte restart)[0] := congrArg (fun b : Byte => b[0]) flag
      _ = restart := by cases restart <;> rfl
  simp [decodeBody, kind, value, source, restarts, previousField, kindByte, sourceOfByte_sourceByte,
    checkpointField_readsBack number]

theorem decodeBody_brk {r : Record} {cause : RecordCause} (hr : r.body = .brk cause) (data : LineData) :
    decodeBody (recordHeader r) data = some (.brk cause) := by
  have kind := recordHeader_extract_kind r
  have byte := recordHeader_extract_body r (start := 0) (len := 8) (by decide)
  rw [hr] at kind byte
  rw [bodyField, extractLsb'_append_eq_right] at byte
  simp [decodeBody, kind, byte, kindByte, causeOfByte_causeByte]

/-- The body of a record reads back, where the previous checkpoint of a MARK record is not the number kept for NONE. -/
theorem decodeBody_recordHeader (r : Record)
    (number : ∀ v src restart, r.body ≠ .mark v src (some 0xFFFFFFFF#32) restart) :
    decodeBody (recordHeader r) (recordData r) = some r.body := by
  cases hr : r.body with
  | capture line n old =>
    rw [show recordData r = old by rw [recordData, hr]]
    exact decodeBody_capture hr
  | mark v src previous restart =>
    exact decodeBody_mark hr (fun isNone => number v src restart (isNone ▸ hr)) _
  | brk cause => exact decodeBody_brk hr _

end readBack

/-! ### The check code, bit by bit -/

/-- The CRC-32 takes the bits of all bytes in one run, each byte's most significant bit first (R8). -/
theorem crc32_eq_foldl_bits (bytes : List Byte) :
    crc32 bytes = ~~~ ((bytes.flatMap fun b => [7, 6, 5, 4, 3, 2, 1, 0].map b.getLsbD).foldl
      (crcBit 0x04C11DB7#32) 0xFFFFFFFF#32) := by
  simp only [List.foldl_flatMap, List.foldl_map]
  rfl

theorem crcBit_eq_ite (poly remainder : BitVec 32) (bit : Bool) : crcBit poly remainder bit =
    if remainder.getLsbD 31 ≠ bit then (remainder <<< 1) ^^^ poly else remainder <<< 1 := by
  simp only [crcBit, BitVec.msb_eq_getLsbD_last, bne_iff_ne]

/-- Settles O50: each field stands at its place in the header line's bytes, and is the same run of its bits. -/
theorem recordReadsBack : Obligations.RecordReadsBack := by
  refine ⟨fun bytes => ?_, fun r => ⟨?_, fun number => ⟨checkPasses_recordHeader r, headerRunStamp_recordHeader r,
    headerSeq_recordHeader r, headerCheckpoint_recordHeader r, decodeBody_recordHeader r number⟩⟩⟩
  · simp only [← crcBit_eq_ite]
    exact crc32_eq_foldl_bits bytes
  · obtain ⟨kind, byteOne, stamp, bytesFour, seq, checkpoint⟩ := recordHeader_common_layout r
    refine ⟨byteOne, stamp, bytesFour, seq, checkpoint, recordHeader_check_layout r, fun line n old hr => ?_,
      fun v src previous restart hr => ?_, fun cause hr => ?_⟩
    · obtain ⟨lineBytes, initiator, rest⟩ := recordHeader_capture_layout hr
      rw [hr] at kind
      exact ⟨kind, lineBytes, initiator, rest, by rw [recordData, hr]⟩
    · obtain ⟨value, source, flag, gap, previousBytes, rest⟩ := recordHeader_mark_layout hr
      rw [hr] at kind
      exact ⟨kind, value, fun h => by subst h; exact source, fun n h => by subst h; exact source, flag, gap,
        previousBytes, rest, by rw [recordData, hr]⟩
    · obtain ⟨causeAt, rest⟩ := recordHeader_brk_layout hr
      rw [hr] at kind
      exact ⟨kind, by cases cause <;> exact causeAt, rest, by rw [recordData, hr]⟩

end Sys2Proof.Machine
end

section
/-! PROOFS. The conditions of Table 7.2 as propositions, the hold reason as the first of them that holds, and the heads that
an acceptance leaves at the front of their queues (R126 to R128, R137). -/

namespace Sys2Proof.Machine

/-! ### The conditions of Table 7.2 -/

section conditions

variable (s : State) (r : UpRequest)

/-- The gate is closed and the request is for a GUARDED window (R127). -/
def HeldByGate : Prop :=
  (s.ctl.state = .rolling ∨ s.ctl.state = .failed ∨ s.ctl.state = .adopting) ∧ targetOf s r.line = .window .guarded

/-- A capture entry has the request's line (R24). -/
def HeldByLine : Prop := ∃ e ∈ s.capture.entries, e.line = r.line

/-- The request would request a mark while one is pending (R55). -/
def HeldByMark : Prop := (∃ v, treatment s r = .passMark v) ∧ hasPending s = true

/-- The request would create a capture entry (R24, R29). -/
def NeedsEntry : Prop := ∃ mask data, treatment s r = .capture mask data

/-- The request needs a capture entry and none is free (R28). -/
def HeldByCaptureFull : Prop := NeedsEntry s r ∧ 16 ≤ s.capture.entries.length

/-- The request needs a capture entry, pacing is in force and its interval has not elapsed (R38). -/
def HeldByPacing : Prop :=
  NeedsEntry s r ∧ s.journal.config.paceMark ≠ 0 ∧ s.journal.config.paceMark ≤ s.journal.occupancy ∧
    ∃ k, s.capture.pacing = some k ∧ k < s.journal.config.pacingInterval

/-- The request needs a place in the outgoing queue, as all but a denied one do, and none is free (R132). -/
def HeldByOutgoing : Prop := (∀ c, treatment s r ≠ .denied c) ∧ 32 ≤ s.down.outgoing.length

/-- Some condition of Table 7.2 holds for the request. -/
inductive Ineligible : Prop where
  | gate (h : HeldByGate s r)
  | line (h : HeldByLine s r)
  | mark (h : HeldByMark s r)
  | captureFull (h : HeldByCaptureFull s r)
  | pacing (h : HeldByPacing s r)
  | outgoing (h : HeldByOutgoing s r)

end conditions

/-! ### The tests the model makes of them -/

theorem gateClosed_iff (s : State) :
    gateClosed s = true ↔ s.ctl.state = .rolling ∨ s.ctl.state = .failed ∨ s.ctl.state = .adopting := by
  unfold gateClosed
  cases s.ctl.state <;> simp

theorem heldByGate_iff (s : State) (r : UpRequest) :
    (gateClosed s && targetOf s r.line == .window .guarded) = true ↔ HeldByGate s r := by
  rw [Bool.and_eq_true, gateClosed_iff, beq_iff_eq, HeldByGate]

theorem heldByLine_iff (s : State) (r : UpRequest) : lineHeld s r.line = true ↔ HeldByLine s r := by
  simp [lineHeld, HeldByLine]

theorem pacingElapsed_eq_false_iff (s : State) :
    pacingElapsed s = false ↔ ∃ k, s.capture.pacing = some k ∧ k < s.journal.config.pacingInterval := by
  unfold pacingElapsed
  cases s.capture.pacing <;> simp

theorem pacing_holds_iff (s : State) :
    (pacingInForce s && !pacingElapsed s) = true ↔
      s.journal.config.paceMark ≠ 0 ∧ s.journal.config.paceMark ≤ s.journal.occupancy ∧
        ∃ k, s.capture.pacing = some k ∧ k < s.journal.config.pacingInterval := by
  simp [pacingInForce, pacingElapsed_eq_false_iff, and_assoc]

theorem needsPlace_eq (s : State) :
    needsPlace s = if 32 ≤ s.down.outgoing.length then .downstreamFull else .none := by
  by_cases full : 32 ≤ s.down.outgoing.length
  · rw [if_pos full]
    exact if_neg (Nat.not_lt.2 full)
  · rw [if_neg full]
    exact if_pos (Nat.lt_of_not_le full)

/-! ### The hold reason is the first condition that holds -/

open scoped Classical in
/-- The conditions are asked in the order of R137; which of the last four can hold depends on the request's treatment. -/
theorem requestHold_eq (s : State) (r : UpRequest) : requestHold s r =
    if HeldByGate s r then .gate
    else if HeldByLine s r then .line
    else if HeldByMark s r then .markPending
    else if HeldByCaptureFull s r then .captureFull
    else if HeldByPacing s r then .pacing
    else if HeldByOutgoing s r then .downstreamFull
    else .none := by
  unfold requestHold
  simp only [heldByGate_iff, heldByLine_iff, pacing_holds_iff, needsPlace_eq]
  congr 2
  cases h : treatment s r <;>
    simp [HeldByMark, HeldByCaptureFull, HeldByPacing, HeldByOutgoing, NeedsEntry, h]

/-- A head request is eligible when none of the conditions of Table 7.2 holds for it (R126). -/
theorem requestHold_eq_none_iff (s : State) (r : UpRequest) : requestHold s r = .none ↔ ¬ Ineligible s r := by
  classical
  rw [requestHold_eq]
  constructor
  · rintro free (gate | line | mark | full | pacing | outgoing) <;> split_ifs at free
  · intro eligible
    rw [if_neg (eligible ∘ .gate), if_neg (eligible ∘ .line), if_neg (eligible ∘ .mark),
      if_neg (eligible ∘ .captureFull), if_neg (eligible ∘ .pacing), if_neg (eligible ∘ .outgoing)]

theorem not_heldByMark_of_needsEntry {s : State} {r : UpRequest} (h : NeedsEntry s r) : ¬ HeldByMark s r := by
  rintro ⟨⟨v, mark⟩, -⟩
  obtain ⟨mask, data, capture⟩ := h
  rw [mark] at capture
  cases capture

/-- Each hold reason, with the conditions before it in the order of R137 that have to fail. -/
theorem requestHold_first (s : State) (r : UpRequest) :
    (HeldByGate s r → requestHold s r = .gate) ∧
    (¬ HeldByGate s r → HeldByLine s r → requestHold s r = .line) ∧
    (¬ HeldByGate s r → ¬ HeldByLine s r → HeldByMark s r → requestHold s r = .markPending) ∧
    (¬ HeldByGate s r → ¬ HeldByLine s r → HeldByCaptureFull s r → requestHold s r = .captureFull) ∧
    (¬ HeldByGate s r → ¬ HeldByLine s r → ¬ HeldByCaptureFull s r → HeldByPacing s r → requestHold s r = .pacing) ∧
    (¬ HeldByGate s r → ¬ HeldByLine s r → ¬ HeldByMark s r → ¬ HeldByCaptureFull s r → ¬ HeldByPacing s r →
      HeldByOutgoing s r → requestHold s r = .downstreamFull) ∧
    (¬ HeldByGate s r → ¬ HeldByLine s r → ¬ HeldByMark s r → ¬ HeldByCaptureFull s r → ¬ HeldByPacing s r →
      ¬ HeldByOutgoing s r → requestHold s r = .none) := by
  classical
  rw [requestHold_eq]
  refine ⟨fun gate => if_pos gate, fun noGate line => ?_, fun noGate noLine mark => ?_, fun noGate noLine full => ?_,
    fun noGate noLine notFull pacing => ?_, fun noGate noLine noMark notFull noPacing outgoing => ?_,
    fun noGate noLine noMark notFull noPacing room => ?_⟩
  · rw [if_neg noGate, if_pos line]
  · rw [if_neg noGate, if_neg noLine, if_pos mark]
  · rw [if_neg noGate, if_neg noLine, if_neg (not_heldByMark_of_needsEntry full.1), if_pos full]
  · rw [if_neg noGate, if_neg noLine, if_neg (not_heldByMark_of_needsEntry pacing.1), if_neg notFull, if_pos pacing]
  · rw [if_neg noGate, if_neg noLine, if_neg noMark, if_neg notFull, if_neg noPacing, if_pos outgoing]
  · rw [if_neg noGate, if_neg noLine, if_neg noMark, if_neg notFull, if_neg noPacing, if_neg room]

theorem holdReason_of_nil {s : State} {n : Fin 8} (h : s.up.ingress[n.val] = []) : holdReason s n = .empty := by
  rw [holdReason, h]

theorem holdReason_of_cons {s : State} {n : Fin 8} {r : UpRequest} {rest : List UpRequest}
    (h : s.up.ingress[n.val] = r :: rest) : holdReason s n = requestHold s r := by
  rw [holdReason, h]

/-! ### What an acceptance leaves in the ingress queues -/

theorem recordViolation_up (r : UpRequest) (cause : ViolationCause) (s : State) :
    (recordViolation r cause s).up = s.up := by
  unfold recordViolation
  split <;> rfl

/-- The first step of a treatment takes nothing from an ingress queue: the request has left it already (R130). -/
theorem treat_ingress (r : UpRequest) (t : Treatment) (s : State) : (treat r t s).up.ingress = s.up.ingress := by
  cases t with
  | pass guarded => rfl
  | passUnpermitted => rw [treat, recordViolation_up, passRequest_up]
  | passMark value =>
      have marked := (requestMarkFrom_keeps (.initiator r.initiator) value (passRequest r false s)).trans (finish_keeps _)
      rw [treat, marked.ingress, passRequest_up]
  | denied cause => rw [treat, recordViolation_up, deliver_up]
  | filterHit => rfl
  | capture mask data => rfl

/-- The arbiter takes only a head that is eligible (R126, R129). -/
theorem holdReason_of_chosen {s : State} {n : Fin 8} (h : chosen s = some n) : holdReason s n = .none := by
  have test := List.find?_some (p := fun n => holdReason s n == .none) h
  exact beq_iff_eq.1 test

/-- An acceptance leaves the queue of a head that is held as it was. -/
theorem accept_ingress_of_held {s : State} {n : Fin 8} (held : holdReason s n ≠ .none) :
    (accept s).up.ingress[n.val] = s.up.ingress[n.val] := by
  unfold accept
  split
  · rfl
  · rename_i m taken
    have other : m.val ≠ n.val := fun same => held (Fin.ext same ▸ holdReason_of_chosen taken)
    split
    · rfl
    · simp only [treat_ingress, popIngress_up]
      exact Vector.getElem_set_ne _ _ other

theorem exec_acceptance (s : State) : exec .acceptance s = .next (accept s) := rfl

/-- A head that some condition of Table 7.2 holds is still the head after an acceptance. -/
theorem head_stays {s t : State} {n : Fin 8} {r : UpRequest} {rest : List UpRequest}
    (head : s.up.ingress[n.val] = r :: rest) (step : exec .acceptance s = .next t)
    (held : Ineligible s r) : t.up.ingress[n.val] = r :: rest := by
  rw [exec_acceptance] at step
  cases step
  have notFree : holdReason s n ≠ .none := by
    rw [holdReason_of_cons head]
    exact fun free => (requestHold_eq_none_iff s r).1 free held
  rw [accept_ingress_of_held notFree, head]

/-- Settles O37: the hold reason is the chain of Table 7.2's conditions in the order of R137, and the arbiter takes only a
head that none of them holds. -/
theorem ineligibleHeadsStay : Obligations.IneligibleHeadsStay := by
  refine ⟨fun s n empty => holdReason_of_nil empty, fun s n r rest head => ?_, fun s t n r rest head step => ?_⟩
  · rw [holdReason_of_cons head]
    exact requestHold_first s r
  · have stays := head_stays head step
    exact ⟨fun state guarded => stays (.gate ⟨state, guarded⟩), fun line => stays (.line line),
      fun mark pending => stays (.mark ⟨mark, pending⟩), fun entry full => stays (.captureFull ⟨entry, full⟩),
      fun entry set reached early => stays (.pacing ⟨entry, set, reached, early⟩),
      fun sent full => stays (.outgoing ⟨sent, full⟩)⟩

end Sys2Proof.Machine
end

section
/-! PROOFS. How the port takes a command, and the answer it gives in the event in which it is taken (R155 to R161). -/

namespace Sys2Proof.Machine

/-- A frame ends a read in progress (log 20). -/
def withoutRead (s : State) : State := { s with port := { s.port with reading := none } }

theorem answered_eq (status : Status) (code : Byte) (data : List Byte) (s : State) :
    answered status code data s = respond status code data (withoutRead s) := rfl

/-- The port carries out a command while the unit is not held in reset and the slot is IDLE (R155, R161). -/
theorem takeFrame_of_ready {s : State} (ready : Ready s) (carry : State → State) :
    takeFrame carry s = carry (withoutRead s) := by
  obtain ⟨notHeld, idle⟩ := ready
  unfold takeFrame
  rw [if_neg (by rw [notHeld]; decide)]
  dsimp only
  split
  · rfl
  · rename_i busy
    exact absurd (idle.symm.trans busy) (by simp)
  · rename_i busy
    exact absurd (idle.symm.trans busy) (by simp)

/-- A command the port takes has the meaning of its frame. -/
theorem exec_of_ready {s : State} {c : Instr} {carry : State → State} (ready : Ready s)
    (meaning : exec c s = .next (takeFrame carry s)) : exec c s = .next (carry (withoutRead s)) := by
  rw [meaning, takeFrame_of_ready ready]

/-- Held in reset, the port takes no frame (R155). -/
theorem takeFrame_of_held {s : State} (h : held s = true) (carry : State → State) : takeFrame carry s = s := by
  unfold takeFrame
  rw [if_pos h]

/-- A frame that arrives while the slot is not IDLE is discarded with an overrun (R163). -/
theorem takeFrame_of_busy {s : State} (h : held s = false) (busy : s.port.slot ≠ .idle) (carry : State → State) :
    takeFrame carry s = { s with port := { s.port with overrun := true, reading := none } } := by
  unfold takeFrame
  rw [if_neg (by rw [h]; decide)]
  dsimp only
  split
  · rename_i idle
    exact absurd idle busy
  · rfl
  · rfl

end Sys2Proof.Machine
end

section
/-! PROOFS. Windows and the journal area: the tests of overlap as the model computes them and as the statements say them
(R109 to R111). -/

namespace Sys2Proof.Machine

/-- Two ranges of granules meet where the later start comes before the earlier end. -/
theorem rangesMeet_iff (base₁ size₁ base₂ size₂ : Nat) :
    rangesMeet base₁ size₁ base₂ size₂ = true ↔ SharesGranule base₁ size₁ base₂ size₂ := by
  rw [rangesMeet, decide_eq_true_iff, SharesGranule]
  exact ⟨fun meet => ⟨max base₁ base₂, by omega⟩, fun ⟨g, h⟩ => by omega⟩

/-- The granules of an area are those that hold a byte of it (R111). -/
theorem rangesMeet_areaGranules_iff (base size areaBase slots : Nat) :
    rangesMeet base size (areaGranules areaBase slots).1 (areaGranules areaBase slots).2 = true ↔
      HoldsAreaByte base size areaBase slots := by
  rw [rangesMeet, decide_eq_true_iff, HoldsAreaByte, areaGranules]
  dsimp only
  split
  · rename_i empty
    exact ⟨fun meet => by omega, fun ⟨a, h⟩ => by omega⟩
  · constructor
    · intro meet
      exact ⟨max areaBase (base * 4096), by omega⟩
    · rintro ⟨a, h⟩
      omega

theorem sharesGranule_comm {base₁ size₁ base₂ size₂ : Nat} (h : SharesGranule base₁ size₁ base₂ size₂) :
    SharesGranule base₂ size₂ base₁ size₁ := by
  obtain ⟨g, h⟩ := h
  exact ⟨g, by omega⟩

/-- Some entry of the window table passes a test. -/
theorem windows_any_iff (windows : Vector Window 16) (p : Window → Bool) :
    windows.toList.any p = true ↔ ∃ k : Fin 16, p windows[k.val] = true := by
  rw [List.any_eq_true]
  constructor
  · rintro ⟨w, member, test⟩
    obtain ⟨k, bound, rfl⟩ := List.getElem_of_mem member
    exact ⟨⟨k, by simpa using bound⟩, by simpa using test⟩
  · rintro ⟨k, test⟩
    exact ⟨windows[k.val], by simp, test⟩

theorem windowOverlaps_iff (index : Byte) (w : Window) (base size : BitVec 32) (s : State) (hb : w.base = base.toNat)
    (hs : w.size = size.toNat) : windowOverlaps index.toNat w s = true ↔ WindowOverlaps index base size s := by
  unfold windowOverlaps WindowOverlaps
  rw [hb, hs, Bool.or_eq_true, Bool.and_eq_true, rangesMeet_areaGranules_iff, List.any_eq_true]
  simp only [List.mem_finRange, true_and, Bool.and_eq_true, bne_iff_ne, rangesMeet_iff, and_assoc]

theorem areaOverlaps_iff (c : JournalConfig) (s : State) : areaOverlaps c s = true ↔
    ∃ k : Fin 16, s.cls.windows[k.val].enabled = true ∧
      HoldsAreaByte s.cls.windows[k.val].base s.cls.windows[k.val].size c.base.toNat c.slots := by
  unfold areaOverlaps
  rw [windows_any_iff]
  simp only [Bool.and_eq_true, rangesMeet_areaGranules_iff]

end Sys2Proof.Machine
end

section
/-! PROOFS. What every command upholds: the bounds and laws of Guards.lean, and Sound; one lemma for each command that no
shared operation's lemma covers, and then one case for each command. -/

namespace Sys2Proof.Machine

/-- `t` has the bounds and laws that `s` has, lowers no counter, leaves the queue of commands as it is, and is sound if `s`
is. -/
structure Upholds (s t : State) : Prop where
  guards : Guards s t
  sound : Sound s → Sound t

namespace Upholds

theorem refl (s : State) : Upholds s s := ⟨.refl s, id⟩

theorem trans {s t u : State} (h : Upholds s t) (k : Upholds t u) : Upholds s u :=
  ⟨h.guards.trans k.guards, fun sound => k.sound (h.sound sound)⟩

end Upholds

theorem Keeps.upholds {s t : State} (h : Keeps s t) (sound : Sound s → Sound t) : Upholds s t := ⟨h.guards, sound⟩

theorem respond_upholds (status : Status) (echo : Byte) (data : List Byte) (s : State) :
    Upholds s (respond status echo data s) := (respond_keeps status echo data s).upholds (respond_sound status echo data)

/-- An operation and then the answer to its command. -/
theorem Upholds.respond {s t : State} {status : Status} {echo : Byte} {data : List Byte} (h : Upholds s t) :
    Upholds s (respond status echo data t) := h.trans (respond_upholds status echo data t)

theorem finish_upholds (s : State) : Upholds s (finish s) := (finish_keeps s).upholds finish_sound

theorem setTag_upholds (tag : DownTag) (x : TagState) (s : State) : Upholds s (setTag tag x s) :=
  ⟨setTag_guards tag x s, setTag_sound tag x⟩

/-- A frame changes nothing of its own but the port. -/
theorem takeFrame_upholds {carry : State → State} (h : ∀ s, Upholds s (carry s)) (s : State) :
    Upholds s (takeFrame carry s) := by
  have read : Upholds s (withoutRead s) := ⟨{}, fun sound => { sound with }⟩
  have overrun : Upholds s { s with port := { s.port with overrun := true, reading := none } } :=
    ⟨{}, fun sound => { sound with }⟩
  cases isHeld : held s with
  | true => rw [takeFrame_of_held isHeld]; exact .refl s
  | false =>
    by_cases idle : s.port.slot = .idle
    · rw [takeFrame_of_ready ⟨isHeld, idle⟩]; exact read.trans (h _)
    · rw [takeFrame_of_busy isHeld idle]; exact overrun

/-! ### Reading and configuring the unit -/

theorem doGetStatus_upholds (sec : Byte) (s : State) : Upholds s (doGetStatus sec s) := by
  unfold doGetStatus
  split <;> exact respond_upholds _ _ _ s

theorem doGetWindow_upholds (index : Byte) (s : State) : Upholds s (doGetWindow index s) := by
  unfold doGetWindow
  split <;> exact respond_upholds _ _ _ s

theorem doGetInitiator_upholds (number : Byte) (s : State) : Upholds s (doGetInitiator number s) := by
  unfold doGetInitiator
  split <;> exact respond_upholds _ _ _ s

theorem doReadViolation_upholds (s : State) : Upholds s (doReadViolation s) := by
  refine Upholds.respond ⟨{ capacities := ?_ }, fun sound => { sound with }⟩
  rintro ⟨violations, others⟩
  exact ⟨by simp only [List.length_tail]; omega, others⟩

/-- An entry of the window table is replaced by one that is disabled, or that overlaps neither another enabled window nor the
journal area (R111). -/
theorem writeWindow_sound {s : State} {index : Nat} {w : Window} (h : Sound s)
    (apart : w.enabled = true → (∀ k : Fin 16, k.val ≠ index → s.cls.windows[k.val].enabled = true →
        ¬ SharesGranule w.base w.size s.cls.windows[k.val].base s.cls.windows[k.val].size) ∧
      (s.journal.configured = true → ¬ HoldsAreaByte w.base w.size s.journal.config.base.toNat s.journal.config.slots)) :
    Sound (writeWindow index w s) := by
  have entry : ∀ k : Fin 16, (writeWindow index w s).cls.windows[k.val] =
      if index = k.val then w else s.cls.windows[k.val] := fun k => Vector.getElem_setIfInBounds _
  refine { h with overlap := ⟨fun i k differ => ?_, fun k => ?_⟩ }
  · rw [entry, entry]
    by_cases hi : index = i.val
    · have hk : ¬ index = k.val := fun hk => differ (Fin.ext (hi.symm.trans hk))
      rw [if_pos hi, if_neg hk]
      exact fun enabled => (apart enabled).1 k (Ne.symm hk)
    · rw [if_neg hi]
      by_cases hk : index = k.val
      · rw [if_pos hk]
        exact fun other enabled shared => (apart enabled).1 i (Ne.symm hi) other (sharesGranule_comm shared)
      · rw [if_neg hk]
        exact h.overlap.1 i k differ
  · rw [entry]
    by_cases hk : index = k.val
    · rw [if_pos hk]
      exact fun configured enabled => (apart enabled).2 configured
    · rw [if_neg hk]
      exact h.overlap.2 k

/-- A SET_WINDOW that is taken describes a window that overlaps nothing (R109). -/
theorem setWindowVerdict_ok {index kind : Byte} {base size : BitVec 32} {s : State} {w : Window}
    (h : setWindowVerdict index kind base size s = .ok w) : windowOverlaps index.toNat w s = false := by
  unfold setWindowVerdict at h
  split at h
  · split at h
    · cases h
    · split at h
      · cases h
      · rename_i apart
        cases h
        exact Bool.eq_false_iff.2 apart
  · cases h

theorem doSetWindow_upholds (index kind : Byte) (base size : BitVec 32) (s : State) :
    Upholds s (doSetWindow index kind base size s) := by
  unfold doSetWindow
  split
  · exact respond_upholds _ _ _ s
  · rename_i w verdict
    refine Upholds.respond ⟨{}, fun sound => writeWindow_sound sound fun _ => ?_⟩
    have apart := setWindowVerdict_ok verdict
    unfold windowOverlaps at apart
    rw [Bool.or_eq_false_iff, List.any_eq_false] at apart
    obtain ⟨windows, area⟩ := apart
    constructor
    · intro k other enabled shared
      refine windows k (List.mem_finRange k) ?_
      rw [(rangesMeet_iff _ _ _ _).2 shared, enabled]
      simpa using other
    · intro configured shared
      rw [configured, (rangesMeet_areaGranules_iff _ _ _ _).2 shared] at area
      cases area

theorem doClearWindow_upholds (index : Byte) (s : State) : Upholds s (doClearWindow index s) := by
  unfold doClearWindow
  split
  · exact respond_upholds _ _ _ s
  · split
    · exact respond_upholds _ _ _ s
    · exact Upholds.respond ⟨{}, fun sound => writeWindow_sound sound fun enabled => by cases enabled⟩

theorem doSetInitiator_upholds (number cls permission : Byte) (s : State) :
    Upholds s (doSetInitiator number cls permission s) := by
  unfold doSetInitiator
  split
  · split
    · exact Upholds.respond ⟨{}, fun sound => { sound with }⟩
    · exact respond_upholds _ _ _ s
  · exact respond_upholds _ _ _ s

/-- A configuration that SET_JOURNAL describes has its sizes in the ranges of Table 1.1. -/
theorem journalOfParams_ranges {base : BitVec 64} {slots : BitVec 32} {reserve depth : Byte} {runStamp : BitVec 16}
    {policy : Byte} {paceMark : BitVec 32} {pacingInterval holdTimeout : BitVec 16} {c : JournalConfig}
    (h : journalOfParams base slots reserve depth runStamp policy paceMark pacingInterval holdTimeout = some c) :
    64 ≤ c.slots ∧ c.slots ≤ 1048576 ∧ 1 ≤ c.depth ∧ c.depth ≤ 4 := by
  unfold journalOfParams at h
  split at h
  · cases h
  · split at h
    · rename_i ranges
      obtain ⟨-, -, low, high, one, four, -⟩ := ranges
      cases h
      exact ⟨low, high, one, four⟩
    · cases h

/-- SET_JOURNAL is taken in UNARMED only, with a configuration whose area overlaps no window (R2). -/
theorem setJournalVerdict_ok {described : Option JournalConfig} {s : State} {c : JournalConfig}
    (h : setJournalVerdict described s = .ok c) :
    s.ctl.state = .unarmed ∧ described = some c ∧ areaOverlaps c s = false := by
  unfold setJournalVerdict at h
  split at h
  all_goals try cases h
  rename_i unarmed
  split at h
  · cases h
  · split at h
    · cases h
    · rename_i apart
      cases h
      exact ⟨unarmed, rfl, Bool.eq_false_iff.2 apart⟩

theorem configureJournal_sound {c : JournalConfig} {s : State} (h : Sound s) (unarmed : s.ctl.state = .unarmed)
    (ranges : 64 ≤ c.slots ∧ c.slots ≤ 1048576 ∧ 1 ≤ c.depth ∧ c.depth ≤ 4) (apart : areaOverlaps c s = false) :
    Sound (configureJournal c s) := by
  have list : s.ctl.checkpoints = [] := (h.quiet (.inl unarmed)).1
  have working : s.scan.working = [] := h.working.2.2 (by rw [unarmed]; decide)
  exact { h with
    range := ⟨fun _ => ranges, fun _ => rfl⟩
    occupancy := Nat.zero_le _
    list := ⟨by rw [configureJournal_ctl, list]; exact Nat.zero_le _, h.list.2⟩
    working := ⟨by rw [configureJournal_scan, working]; exact Nat.zero_le _, h.working.2⟩
    overlap := ⟨h.overlap.1, fun k _ enabled shared =>
      Bool.eq_false_iff.1 apart ((areaOverlaps_iff c s).2 ⟨k, enabled, shared⟩)⟩ }

theorem doSetJournal_upholds (base : BitVec 64) (slots : BitVec 32) (reserve depth : Byte) (runStamp : BitVec 16)
    (policy : Byte) (paceMark : BitVec 32) (pacingInterval holdTimeout : BitVec 16) (s : State) :
    Upholds s (doSetJournal base slots reserve depth runStamp policy paceMark pacingInterval holdTimeout s) := by
  unfold doSetJournal
  split
  · exact respond_upholds _ _ _ s
  · rename_i c verdict
    obtain ⟨unarmed, described, apart⟩ := setJournalVerdict_ok verdict
    exact Upholds.respond
      ⟨{}, fun sound => configureJournal_sound sound unarmed (journalOfParams_ranges described) apart⟩

theorem doSetTiming_upholds (paceMark : BitVec 32) (pacingInterval holdTimeout ageLimit : BitVec 16) (freezeMask : Byte)
    (s : State) : Upholds s (doSetTiming paceMark pacingInterval holdTimeout ageLimit freezeMask s) := by
  unfold doSetTiming
  split
  · refine Upholds.respond (Upholds.trans
      (t := setTimingValues paceMark pacingInterval holdTimeout ageLimit freezeMask s) ⟨{}, fun sound => { sound with }⟩ ?_)
    split
    · exact ⟨{}, fun sound => { sound with }⟩
    · exact .refl _
  · exact respond_upholds _ _ _ s

theorem doSetAlertMask_upholds (mask : BitVec 16) (s : State) : Upholds s (doSetAlertMask mask s) := by
  unfold doSetAlertMask
  split
  · exact Upholds.respond ⟨{}, fun sound => { sound with }⟩
  · exact respond_upholds _ _ _ s

theorem doClearAlerts_upholds (selection : BitVec 16) (s : State) : Upholds s (doClearAlerts selection s) := by
  unfold doClearAlerts
  split
  · exact Upholds.respond ⟨{}, fun sound => { sound with }⟩
  · exact respond_upholds _ _ _ s

/-! ### Checkpoint commands -/

theorem doMark_upholds (value : BitVec 64) (s : State) : Upholds s (doMark value s) :=
  ((judgeMarkCommand_keeps value s).upholds (judgeMarkCommand_sound value)).trans (finish_upholds _)

theorem doRollback_upholds (depth : Byte) (s : State) : Upholds s (doRollback depth s) :=
  ((judgeRollback_keeps depth s).upholds (judgeRollback_sound depth)).trans (finish_upholds _)

/-- The state FAILED becomes ROLLING, and the phase UNDO (R85). -/
theorem resumeWalk_upholds {s : State} (failed : s.ctl.state = .failed) : Upholds s (resumeWalk s) := by
  have resumes : Upholds s { s with
      ctl := { s.ctl with state := .rolling }, rollback := { s.rollback with phase := .undo } } := by
    have phase : PhaseFollowsState s → PhaseFollowsState { s with
        ctl := { s.ctl with state := .rolling }, rollback := { s.rollback with phase := .undo } } := fun h =>
      ⟨by simp, by simp, fun _ => h.2.2 (.inr failed)⟩
    have quiet : NoCheckpointsWhenUnarmed { s with
        ctl := { s.ctl with state := .rolling }, rollback := { s.rollback with phase := .undo } } := by
      rintro (other | other) <;> cases other
    refine ⟨{ phase := phase, quiet := fun _ => quiet }, fun sound => { sound with
      phase := phase sound.phase
      quiet := quiet
      range := ⟨sound.range.1, fun _ => sound.range.2 (by rw [failed]; decide)⟩
      working := ⟨sound.working.1, sound.working.2.1, fun _ => sound.working.2.2 (by rw [failed]; decide)⟩
      early := fun e member early => nomatch failed.symm.trans (sound.early e member early)
      intact := fun _ => sound.intact (by rw [failed]; decide) }⟩
  refine resumes.trans ?_
  unfold resumeWalk
  dsimp only
  split
  · exact (readSlot_keeps _ _).upholds (readSlot_sound _)
  · exact .refl _

theorem doRetry_upholds (s : State) : Upholds s (doRetry s) := by
  unfold doRetry
  split
  · rename_i failed
    exact (resumeWalk_upholds failed).respond
  all_goals exact respond_upholds _ _ _ s

theorem giveUp_upholds {s : State} (failed : s.ctl.state = .failed) : Upholds s (giveUp s) := by
  have keeps := (emptyJournal_keeps s).trans ((clearFilter_keeps _).trans (enterUnarmed_keeps _))
  refine Upholds.trans (keeps.upholds fun sound => ?_) (u := giveUp s) ⟨{}, fun sound => { sound with }⟩
  refine enterUnarmed_sound (clearFilter_sound (emptyJournal_sound sound)) ?_ ?_
  · rw [emptyJournal_eq]
    intro e member
    rw [← Bool.not_eq_true]
    exact fun early => nomatch failed.symm.trans (sound.early e member early)
  · rw [emptyJournal_eq]
    exact sound.working.2.2 (by rw [failed]; decide)

theorem doAbandon_upholds (s : State) : Upholds s (doAbandon s) := by
  unfold doAbandon
  split
  · rename_i failed
    exact (giveUp_upholds failed).respond
  all_goals exact respond_upholds _ _ _ s

theorem doDiscard_upholds (s : State) : Upholds s (doDiscard s) := by
  unfold doDiscard
  split
  · exact respond_upholds _ _ _ s
  · rename_i armed
    refine (Upholds.respond ?_).trans (finish_upholds _)
    exact (dropCheckpoints_keeps s).upholds fun sound => dropCheckpoints_sound sound (by rw [armed]; decide)
  · rename_i adopting
    refine (Upholds.respond ?_).trans (finish_upholds _)
    exact ⟨(endUnarmed_keeps _ _ _ s).guards, fun sound => endUnarmed_sound _ _ _ sound (by rw [adopting]; decide)⟩
  · exact respond_upholds _ _ _ s
  · exact respond_upholds _ _ _ s

/-- ADOPT is taken in UNARMED only, with a configured journal (R92). -/
theorem adoptVerdict_taken {start : BitVec 32} {s : State} {slot : Nat} (h : adoptVerdict start s = .taken slot) :
    s.ctl.state = .unarmed ∧ s.journal.configured = true := by
  unfold adoptVerdict at h
  dsimp only at h
  split at h
  · cases h
  · split at h
    all_goals try cases h
    rename_i unarmed
    split at h
    · cases h
    · rename_i configured
      exact ⟨unarmed, by simpa using configured⟩

theorem startScan_upholds {start : Nat} {s : State} (unarmed : s.ctl.state = .unarmed)
    (configured : s.journal.configured = true) : Upholds s (startScan start s) where
  guards := {
    capacities := startScan_capacities start s
    distinct := fun distinct => (readScanSlot_keeps start _).guards.distinct distinct
    quiet := fun quiet => (startScan_keeps start s (quiet (.inl unarmed)) unarmed).guards.quiet quiet
    phase := fun phase => (readScanSlot_keeps start _).guards.phase
      (phase_of_calm_change (s := s) (by simp [unarmed]) (by simp [unarmed]) (by simp) (by simp) rfl phase)
    seq := startScan_seq start s
    nextCheckpoint := startScan_nextCheckpoint start s
    pending := (readScanSlot_keeps start _).guards.pending.trans rfl }
  sound := fun sound => startScan_sound start sound unarmed configured

theorem judgeAdopt_upholds (start : BitVec 32) (s : State) : Upholds s (judgeAdopt start s) := by
  unfold judgeAdopt
  split
  · exact respond_upholds _ _ _ s
  · rename_i slot verdict
    obtain ⟨unarmed, configured⟩ := adoptVerdict_taken verdict
    exact (startScan_upholds unarmed configured).respond

theorem commandReset_upholds (s : State) : Upholds s (commandReset s) :=
  ⟨commandReset_guards s, fun sound => takeFree_sound (endReset_sound _ (warmReset_sound sound))⟩

/-! ### Transfers -/

theorem ite_upholds {p : Prop} [Decidable p] {s t u : State} (a : Upholds s t) (b : Upholds s u) :
    Upholds s (if p then t else u) := by
  split
  · exact a
  · exact b

theorem carryOut_upholds (code : Byte) (p : List Byte) (s : State) : Upholds s (carryOut code p s) :=
  ite_upholds (doGetStatus_upholds _ s) <| ite_upholds (respond_upholds _ _ _ s) <|
  ite_upholds (doGetWindow_upholds _ s) <| ite_upholds (doGetInitiator_upholds _ s) <|
  ite_upholds (doReadViolation_upholds s) <| ite_upholds (doSetWindow_upholds _ _ _ _ s) <|
  ite_upholds (doClearWindow_upholds _ s) <| ite_upholds (doSetInitiator_upholds _ _ _ s) <|
  ite_upholds (doSetJournal_upholds _ _ _ _ _ _ _ _ _ s) <| ite_upholds (doSetTiming_upholds _ _ _ _ _ s) <|
  ite_upholds (doSetAlertMask_upholds _ s) <| ite_upholds (doClearAlerts_upholds _ s) <|
  ite_upholds (doMark_upholds _ s) <| ite_upholds (doRollback_upholds _ s) <| ite_upholds (doRetry_upholds s) <|
  ite_upholds (doAbandon_upholds s) <| ite_upholds (doDiscard_upholds s) <| ite_upholds (judgeAdopt_upholds _ s) <|
  ite_upholds (commandReset_upholds s) (.refl s)

theorem judgeFrame_upholds (bytes : List Byte) (s : State) : Upholds s (judgeFrame bytes s) := by
  unfold judgeFrame
  split
  · exact respond_upholds _ _ _ s
  · exact carryOut_upholds _ _ s

theorem writeTransfer_upholds (address : BitVec 7) (bytes : List Byte) (s : State) :
    Upholds s (writeTransfer address bytes s) := by
  unfold writeTransfer
  split
  · exact takeFrame_upholds (judgeFrame_upholds bytes) s
  · exact .refl s

theorem readTransfer_upholds (address : BitVec 7) (s : State) : Upholds s (readTransfer address s) := by
  unfold readTransfer
  split
  · exact ⟨{}, fun sound => { sound with }⟩
  · exact .refl s

theorem consumeResponse_upholds (s : State) : Upholds s (consumeResponse s) := by
  unfold consumeResponse
  split
  · exact ⟨{}, fun sound => { sound with }⟩
  · exact .refl s

/-! ### The memory path -/

/-- A request that the arbiter takes has found the places it needs (R126, R132). -/
theorem treat_guards {s : State} {r : UpRequest} (free : requestHold s r = .none) :
    Guards s (treat r (treatment s r) s) := by
  have eligible := (requestHold_eq_none_iff s r).1 free
  have room : (∀ c, treatment s r ≠ .denied c) → hasRoom s 1 = true := fun sent =>
    (hasRoom_iff s 1).2 (Nat.lt_of_not_le fun full => eligible (.outgoing ⟨sent, full⟩))
  cases treated : treatment s r with
  | pass guarded => exact (passRequest_keeps r guarded s (room (by simp [treated]))).guards
  | passUnpermitted =>
    exact (passRequest_keeps r false s (room (by simp [treated]))).guards.trans (recordViolation_guards _ _ _)
  | passMark value =>
    exact ((passRequest_keeps r false s (room (by simp [treated]))).trans
      ((requestMarkFrom_keeps _ _ _).trans (finish_keeps _))).guards
  | denied cause => exact (deliver_keeps _ _ _ s).guards.trans (recordViolation_guards _ _ _)
  | filterHit => exact (filterHitWrite_keeps r s (room (by simp [treated]))).guards
  | capture mask data =>
    exact createEntry_guards r mask data s (room (by simp [treated]))
      (Nat.lt_of_not_le fun full => eligible (.captureFull ⟨⟨mask, data, treated⟩, full⟩))

theorem accept_upholds (s : State) : Upholds s (accept s) := by
  unfold accept
  split
  · exact .refl s
  · rename_i n taken
    split
    · exact .refl s
    · rename_i r rest head
      have free : requestHold (popIngress n rest s) r = .none :=
        (holdReason_of_cons head).symm.trans (holdReason_of_chosen taken)
      exact Upholds.trans ⟨popIngress_guards n r rest s head, popIngress_sound n rest⟩
        ⟨treat_guards free, treat_sound r⟩

theorem arrive_upholds (r : UpRequest) (s : State) : Upholds s (arrive r s) := ⟨arrive_guards r s, arrive_sound r⟩

theorem issue_upholds (tag : DownTag) (s : State) : Upholds s (issue tag s) := by
  refine ⟨issue_guards tag s, fun sound => ?_⟩
  unfold issue
  split
  · exact sound
  · split
    · exact { sound with }
    · exact sound

theorem passedDone_upholds (initiator : Fin 8) (tag : Byte) (isRead : Bool) (result : ReadResult) (s : State) :
    Upholds s (passedDone initiator tag isRead result s) := by
  unfold passedDone
  split
  · exact (deliver_keeps _ _ _ s).upholds (deliver_sound _ _ _)
  · exact ((deliver_keeps _ _ _ s).trans (countDataError_keeps _)).upholds
      fun sound => countDataError_sound (deliver_sound _ _ _ sound)

theorem queueForwarded_upholds (s : State) : Upholds s (queueForwarded s) :=
  (queueForwarded_keeps s).upholds queueForwarded_sound

theorem queueJournalPair_upholds (s : State) : Upholds s (queueJournalPair s) := by
  refine (queueJournalPair_keeps s).upholds fun sound => ?_
  unfold queueJournalPair
  split
  · exact sound
  · split
    · exact { sound with }
    · exact sound

theorem queueUndo_upholds (s : State) : Upholds s (queueUndo s) := by
  refine (queueUndo_keeps s).upholds fun sound => ?_
  unfold queueUndo
  split
  · exact sound
  · split
    · exact { sound with }
    · exact sound

theorem queueScan_upholds (s : State) : Upholds s (queueScan s) := by
  refine ⟨queueScan_guards s, fun sound => ?_⟩
  unfold queueScan
  split
  · exact sound
  · split
    · exact { sound with }
    · exact sound

theorem endAllocationWait_upholds (s : State) : Upholds s (endAllocationWait s) := by
  unfold endAllocationWait
  split
  · exact .refl s
  · exact ((judgeWaiting_keeps _ s).upholds (judgeWaiting_sound _)).trans (finish_upholds _)

/-- A completion of the walk acts while a walk is in progress (R69). -/
theorem walking_iff (s : State) : walking s = true ↔ s.ctl.state = .rolling ∧ s.rollback.phase = .undo := by
  rw [walking, Bool.and_eq_true, beq_iff_eq, beq_iff_eq]

theorem undoWriteDone_upholds (error : Bool) {s : State} (rolling : s.ctl.state = .rolling) :
    Upholds s (undoWriteDone error s) := by
  unfold undoWriteDone
  split
  · exact (stopWalk_keeps _ s rolling).upholds fun sound => stopWalk_sound _ sound rolling
  · split
    · exact (slotDone_keeps _ s).upholds (slotDone_sound _)
    · exact .refl s

/-! ### Timers and lines -/

theorem expireHold_upholds (s : State) : Upholds s (expireHold s) :=
  Upholds.trans
    (t := { s with capture := { s.capture with hold := { s.capture.hold with count := s.capture.hold.count + 1 } } })
    ⟨{}, fun sound => { sound with }⟩
    (((raiseBreak_keeps .holdTimeout _).upholds (raiseBreak_sound .holdTimeout)).trans (finish_upholds _))

theorem fltreqRises_upholds (s : State) : Upholds s (fltreqRises s) := by
  unfold fltreqRises
  split
  · exact .refl s
  · have edge : Upholds s { s with rollback := { s.rollback with fltreq := true } } :=
      ⟨{}, fun sound => { sound with rback := fun _ _ => rfl }⟩
    refine edge.trans (Upholds.trans ?_ (finish_upholds _))
    split
    · exact (countAbsorbed_keeps _).upholds countAbsorbed_sound
    · split
      · exact (setLineRequest_keeps true _).upholds (setLineRequest_sound true)
      · exact (judgeLine_keeps _).upholds judgeLine_sound

theorem fltreqFalls_upholds (s : State) : Upholds s (fltreqFalls s) := by
  unfold fltreqFalls
  split
  · exact .refl s
  · exact ⟨{}, fun sound => { sound with rback := fun _ high => by cases high }⟩

theorem setFrz_upholds (level : Bool) (s : State) : Upholds s (setFrz level s) := by
  unfold setFrz
  split
  · exact .refl s
  · exact ⟨{}, fun sound => { sound with }⟩

/-- PORST's fall is a power-on reset, which keeps every law and bound but the counters' order (R150). -/
theorem porstFalls_sound {s : State} (h : Sound s) : Sound (porstFalls s) := by
  unfold porstFalls
  split
  · exact h
  · exact { powerOn_sound s with rback := fun _ high => by cases high }

theorem wrstFalls_upholds (s : State) : Upholds s (wrstFalls s) := by
  unfold wrstFalls
  split
  · exact .refl s
  · dsimp only
    split
    · rename_i porst
      exact ⟨{}, fun sound => { sound with rback := fun notHeld _ => by simp [held] at notHeld }⟩
    · exact ⟨(warmReset_guards s).trans {}, fun sound => { warmReset_sound sound with rback := fun _ high => by cases high }⟩

/-- The rise of a reset input ends the reset, which lowers RBACK, unless the other holds the unit in reset still. -/
theorem porstRises_upholds (levels : PinLevels) (s : State) : Upholds s (porstRises levels s) := by
  unfold porstRises
  split
  · dsimp only
    split
    · rename_i wrst
      exact ⟨{}, fun sound => { sound with rback := fun notHeld _ => by simp [held, wrst] at notHeld }⟩
    · exact ⟨{}, fun sound => { sound with rback := fun _ high => by cases high }⟩
  · exact .refl s

theorem wrstRises_upholds (levels : PinLevels) (s : State) : Upholds s (wrstRises levels s) := by
  unfold wrstRises
  split
  · dsimp only
    split
    · rename_i porst
      exact ⟨{}, fun sound => { sound with rback := fun notHeld _ => by simp [held, porst] at notHeld }⟩
    · exact ⟨{}, fun sound => { sound with rback := fun _ high => by cases high }⟩
  · exact .refl s

/-! ### Every command -/

theorem ite_next_upholds {p : Prop} [Decidable p] {s t : State} (h : p → Upholds s t) :
    Upholds s (if p then t else s) := by
  split
  · rename_i taken
    exact h taken
  · exact .refl s

/-- Every command but a fall of PORST has a next state, which upholds the laws. -/
theorem exec_upholds (c : Instr) (s : State) (other : c ≠ .porstFall) : ∃ t, exec c s = .next t ∧ Upholds s t := by
  cases c with
  | getStatus sec => exact ⟨_, rfl, takeFrame_upholds (doGetStatus_upholds sec) s⟩
  | getCheckpoints => exact ⟨_, rfl, takeFrame_upholds (fun s => respond_upholds _ _ _ s) s⟩
  | getWindow index => exact ⟨_, rfl, takeFrame_upholds (doGetWindow_upholds index) s⟩
  | getInitiator number => exact ⟨_, rfl, takeFrame_upholds (doGetInitiator_upholds number) s⟩
  | readViolation => exact ⟨_, rfl, takeFrame_upholds doReadViolation_upholds s⟩
  | setWindow index kind base size => exact ⟨_, rfl, takeFrame_upholds (doSetWindow_upholds index kind base size) s⟩
  | clearWindow index => exact ⟨_, rfl, takeFrame_upholds (doClearWindow_upholds index) s⟩
  | setInitiator number cls permission =>
    exact ⟨_, rfl, takeFrame_upholds (doSetInitiator_upholds number cls permission) s⟩
  | setJournal base slots reserve depth runStamp policy paceMark interval timeout =>
    exact ⟨_, rfl, takeFrame_upholds
      (doSetJournal_upholds base slots reserve depth runStamp policy paceMark interval timeout) s⟩
  | setTiming paceMark interval timeout ageLimit freezeMask =>
    exact ⟨_, rfl, takeFrame_upholds (doSetTiming_upholds paceMark interval timeout ageLimit freezeMask) s⟩
  | setAlertMask mask => exact ⟨_, rfl, takeFrame_upholds (doSetAlertMask_upholds mask) s⟩
  | clearAlerts selection => exact ⟨_, rfl, takeFrame_upholds (doClearAlerts_upholds selection) s⟩
  | mark value => exact ⟨_, rfl, takeFrame_upholds (doMark_upholds value) s⟩
  | rollback depth => exact ⟨_, rfl, takeFrame_upholds (doRollback_upholds depth) s⟩
  | retry => exact ⟨_, rfl, takeFrame_upholds doRetry_upholds s⟩
  | abandon => exact ⟨_, rfl, takeFrame_upholds doAbandon_upholds s⟩
  | discard => exact ⟨_, rfl, takeFrame_upholds doDiscard_upholds s⟩
  | adopt start => exact ⟨_, rfl, takeFrame_upholds (judgeAdopt_upholds start) s⟩
  | reset => exact ⟨_, rfl, takeFrame_upholds commandReset_upholds s⟩
  | writeTransfer address bytes => exact ⟨_, rfl, writeTransfer_upholds address bytes s⟩
  | readTransfer address => exact ⟨_, rfl, readTransfer_upholds address s⟩
  | responseConsumed => exact ⟨_, rfl, consumeResponse_upholds s⟩
  | requestArrival request => exact ⟨_, rfl, arrive_upholds request s⟩
  | acceptance => exact ⟨_, rfl, accept_upholds s⟩
  | downstreamIssue tag => exact ⟨_, rfl, issue_upholds tag s⟩
  | passedRequestCompletion tag result =>
    show ∃ t, execPassedRequestCompletion tag result s = .next t ∧ Upholds s t
    unfold execPassedRequestCompletion
    split
    · exact ⟨_, rfl, (setTag_upholds tag .free s).trans ((passedDone_upholds _ _ _ result _).trans (finish_upholds _))⟩
    · exact ⟨s, rfl, .refl s⟩
  | oldLineReadCompletion tag result =>
    show ∃ t, execOldLineReadCompletion tag result s = .next t ∧ Upholds s t
    unfold execOldLineReadCompletion
    split
    · exact ⟨_, rfl, (setTag_upholds tag .free s).trans
        (((oldLineDone_keeps _ result _).upholds (oldLineDone_sound _ result)).trans (finish_upholds _))⟩
    · exact ⟨s, rfl, .refl s⟩
  | forwardedWriteCompletion tag error =>
    show ∃ t, execForwardedWriteCompletion tag error s = .next t ∧ Upholds s t
    unfold execForwardedWriteCompletion
    split
    · exact ⟨_, rfl, (setTag_upholds tag .free s).trans
        (Upholds.trans ⟨retire_guards _ error _, retire_sound _ error⟩ (finish_upholds _))⟩
    · exact ⟨s, rfl, .refl s⟩
  | journalWriteCompletion tag error =>
    show ∃ t, execJournalWriteCompletion tag error s = .next t ∧ Upholds s t
    unfold execJournalWriteCompletion
    split
    · exact ⟨_, rfl, (setTag_upholds tag .free s).trans
        (((journalWriteDone_keeps _ _ error _).upholds (journalWriteDone_sound _ _ error)).trans (finish_upholds _))⟩
    · exact ⟨s, rfl, .refl s⟩
  | undoReadCompletion tag result =>
    show ∃ t, execUndoReadCompletion tag result s = .next t ∧ Upholds s t
    unfold execUndoReadCompletion
    split
    · exact ⟨_, rfl, (setTag_upholds tag .free s).trans (ite_next_upholds fun walks =>
        (undoReadDone_keeps _ result _ ((walking_iff _).1 walks).1).upholds fun sound =>
          undoReadDone_sound _ result sound ((walking_iff _).1 walks).1)⟩
    · exact ⟨s, rfl, .refl s⟩
  | undoWriteCompletion tag error =>
    show ∃ t, execUndoWriteCompletion tag error s = .next t ∧ Upholds s t
    unfold execUndoWriteCompletion
    split
    · exact ⟨_, rfl, (setTag_upholds tag .free s).trans (ite_next_upholds fun walks =>
        undoWriteDone_upholds error ((walking_iff _).1 walks).1)⟩
    · exact ⟨s, rfl, .refl s⟩
  | voidWriteCompletion tag error =>
    show ∃ t, execVoidWriteCompletion tag error s = .next t ∧ Upholds s t
    unfold execVoidWriteCompletion
    split
    · exact ⟨_, rfl, (setTag_upholds tag .free s).trans (ite_next_upholds fun walks =>
        (settle_keeps error _).upholds fun sound => settle_sound error sound ((walking_iff _).1 walks).1)⟩
    · exact ⟨s, rfl, .refl s⟩
  | scanReadCompletion tag result =>
    show ∃ t, execScanReadCompletion tag result s = .next t ∧ Upholds s t
    unfold execScanReadCompletion
    split
    · exact ⟨_, rfl, (setTag_upholds tag .free s).trans (Upholds.trans
        ⟨(scanReadDone_keeps _ _ _ result _).guards, scanReadDone_sound _ _ _ result⟩
        ((finishScan_keeps _).upholds finishScan_sound))⟩
    · exact ⟨s, rfl, .refl s⟩
  | abandonedCompletion tag result =>
    show ∃ t, execAbandonedCompletion tag result s = .next t ∧ Upholds s t
    unfold execAbandonedCompletion
    split
    · exact ⟨_, rfl, setTag_upholds tag .free s⟩
    · exact ⟨s, rfl, .refl s⟩
  | strayCompletion tag result => exact ⟨s, rfl, .refl s⟩
  | forwardedWriteQueued => exact ⟨_, rfl, queueForwarded_upholds s⟩
  | journalWritesQueued => exact ⟨_, rfl, queueJournalPair_upholds s⟩
  | undoRequestQueued => exact ⟨_, rfl, queueUndo_upholds s⟩
  | scanReadQueued => exact ⟨_, rfl, queueScan_upholds s⟩
  | allocationWaitEnd => exact ⟨_, rfl, endAllocationWait_upholds s⟩
  | holdTimerExpiry => exact ⟨_, rfl, ite_next_upholds fun _ => expireHold_upholds s⟩
  | pacingIntervalElapsed => exact ⟨_, rfl, ite_next_upholds fun _ => ⟨{}, fun sound => { sound with }⟩⟩
  | epochAgeTimerExpiry => exact ⟨_, rfl, ite_next_upholds fun _ => ⟨{}, fun sound => { sound with }⟩⟩
  | fltreqRisingEdge => exact ⟨_, rfl, fltreqRises_upholds s⟩
  | fltreqFall => exact ⟨_, rfl, fltreqFalls_upholds s⟩
  | frzRise => exact ⟨_, rfl, setFrz_upholds true s⟩
  | frzFall => exact ⟨_, rfl, setFrz_upholds false s⟩
  | porstFall => exact absurd rfl other
  | porstRise levels => exact ⟨_, rfl, porstRises_upholds levels s⟩
  | wrstFall => exact ⟨_, rfl, wrstFalls_upholds s⟩
  | wrstRise levels => exact ⟨_, rfl, wrstRises_upholds levels s⟩

/-- What a step keeps: the bounds and laws of Guards.lean, the counters' order apart, and Sound. -/
structure StepKeeps (s t : State) : Prop where
  capacities : Capacities s → Capacities t
  distinct : EntriesDistinct s → EntriesDistinct t
  quiet : NoCheckpointsWhenUnarmed s → NoCheckpointsWhenUnarmed t
  phase : PhaseFollowsState s → PhaseFollowsState t
  sound : Sound s → Sound t

theorem Upholds.stepKeeps {s t : State} (h : Upholds s t) : StepKeeps s t where
  capacities := h.guards.capacities
  distinct := h.guards.distinct
  quiet := h.guards.quiet
  phase := h.guards.phase
  sound := h.sound

theorem porstFalls_stepKeeps (s : State) : StepKeeps s (porstFalls s) := by
  unfold porstFalls
  split
  · exact (Upholds.refl s).stepKeeps
  · exact {
      capacities := fun _ => powerOn_capacities s
      distinct := fun _ => (powerOn_sound s).distinct
      quiet := fun _ => powerOn_quiet s
      phase := fun _ => powerOn_phase s
      sound := fun _ => { powerOn_sound s with rback := fun _ high => by cases high } }

/-! ### The time base -/

/-- One time-base step of the hold timer (R146). -/
theorem tickHold_eq (s : State) : tickHold s = { s with
    capture := { s.capture with
      hold := if s.capture.hold.running = true ∧ frozen s 0 = false ∧ holdStepExpires s = false
        then { s.capture.hold with count := s.capture.hold.count + 1 } else s.capture.hold }
    pending := s.pending ++ if holdStepExpires s then [Instr.holdTimerExpiry] else [] } := by
  cases expires : holdStepExpires s with
  | true => simp [tickHold, expires]
  | false =>
    by_cases runs : s.capture.hold.running = true ∧ frozen s 0 = false
    · simp [tickHold, expires, runs.1, runs.2]
    · have stands : (s.capture.hold.running && !frozen s 0) = false := by simpa using runs
      rw [if_neg fun k => runs ⟨k.1, k.2.1⟩]
      simp [tickHold, expires, stands]

/-- One time-base step of the pacing measurement (R146). -/
theorem tickPacing_eq (s : State) : tickPacing s = { s with
    capture := { s.capture with
      pacing := if frozen s 1 = false ∧ pacingStepElapses s = false
        then s.capture.pacing.map fun n => if n < 1023 then n + 1 else n else s.capture.pacing }
    pending := s.pending ++ if pacingStepElapses s then [Instr.pacingIntervalElapsed] else [] } := by
  cases elapses : pacingStepElapses s with
  | true => simp [tickPacing, elapses]
  | false =>
    rcases s with ⟨_, ⟨_, _, _, _, _, _, pacing, _, _, _⟩, _, _, _, _, _, _, _, _, _, _, _⟩
    cases pacing with
    | none => simp [tickPacing, elapses]
    | some n =>
      cases stands : frozen _ 1 with
      | true => simp [tickPacing, elapses, stands]
      | false =>
        by_cases below : n < 1023
        · simp [tickPacing, elapses, stands, below, stepPacing]
        · simp [tickPacing, elapses, stands, below]

/-- One time-base step of the epoch age timer (R146). -/
theorem tickAge_eq (s : State) : tickAge s = { s with
    ctl := { s.ctl with
      age := if s.ctl.age.running = true ∧ frozen s 2 = false ∧ ageStepExpires s = false ∧ s.ctl.age.count < 65535000
        then { s.ctl.age with count := s.ctl.age.count + 1 } else s.ctl.age }
    pending := s.pending ++ if ageStepExpires s then [Instr.epochAgeTimerExpiry] else [] } := by
  cases expires : ageStepExpires s with
  | true => simp [tickAge, expires]
  | false =>
    by_cases runs : s.ctl.age.running = true ∧ frozen s 2 = false ∧ s.ctl.age.count < 65535000
    · simp [tickAge, expires, runs.1, runs.2.1, runs.2.2, stepAge]
    · have stands : (s.ctl.age.running && !frozen s 2 && decide (s.ctl.age.count < 65535000)) = false := by
        simpa [and_assoc] using runs
      rw [if_neg fun k => runs ⟨k.1, k.2.1, k.2.2.2⟩]
      simp [tickAge, expires, stands]

/-- One step of the time base, where the unit is not held in reset (R146, R150). -/
theorem tick_eq {s : State} (h : held s = false) : tick s = { s with
    capture := { s.capture with
      hold := if s.capture.hold.running = true ∧ frozen s 0 = false ∧ holdStepExpires s = false
        then { s.capture.hold with count := s.capture.hold.count + 1 } else s.capture.hold
      pacing := if frozen s 1 = false ∧ pacingStepElapses s = false
        then s.capture.pacing.map fun n => if n < 1023 then n + 1 else n else s.capture.pacing }
    ctl := { s.ctl with
      age := if s.ctl.age.running = true ∧ frozen s 2 = false ∧ ageStepExpires s = false ∧ s.ctl.age.count < 65535000
        then { s.ctl.age with count := s.ctl.age.count + 1 } else s.ctl.age }
    pending := s.pending ++ (if holdStepExpires s then [Instr.holdTimerExpiry] else []) ++
      (if pacingStepElapses s then [Instr.pacingIntervalElapsed] else []) ++
      (if ageStepExpires s then [Instr.epochAgeTimerExpiry] else []) } := by
  unfold tick
  rw [if_neg (by rw [h]; decide), tickAge_eq, tickPacing_eq, tickHold_eq]
  rfl

theorem tick_stepKeeps (s : State) : StepKeeps s (tick s) := by
  cases isHeld : held s with
  | true =>
    unfold tick
    rw [if_pos isHeld]
    exact (Upholds.refl s).stepKeeps
  | false =>
    have sound := tick_sound (s := s)
    rw [tick_eq isHeld] at sound ⊢
    exact ⟨id, id, id, id, sound⟩

/-! ### Every step -/

theorem step_stepKeeps {s t : State} (h : step s = .next t) : StepKeeps s t := by
  unfold step at h
  split at h
  · cases h
    exact tick_stepKeeps s
  · rename_i c rest queue
    have same : ∀ {u : State}, StepKeeps { s with pending := rest } u → StepKeeps s u := fun k =>
      ⟨k.capacities, k.distinct, k.quiet, k.phase, fun sound => k.sound { sound with }⟩
    refine same ?_
    by_cases falls : c = .porstFall
    · subst falls
      cases h
      exact porstFalls_stepKeeps _
    · obtain ⟨u, next, upholds⟩ := exec_upholds c { s with pending := rest } falls
      rw [next] at h
      cases h
      exact upholds.stepKeeps

/-- Settles O5: a step upholds the capacities and the distinct numbers, and the other bounds follow from Sound. -/
theorem capacitiesKept : Obligations.CapacitiesKept := fun _ _ h =>
  have keeps := step_stepKeeps h
  ⟨keeps.capacities, keeps.distinct, fun sound capacities => (keeps.sound sound).bounded (keeps.capacities capacities)⟩

/-- Settles O6: each command upholds the empty list, the phase and Sound, and so does a step of the time base. -/
theorem listAndPhaseKept : Obligations.ListAndPhaseKept := fun _ _ h =>
  have keeps := step_stepKeeps h
  ⟨fun quiet phase => ⟨keeps.quiet quiet, keeps.phase phase⟩, keeps.sound⟩

theorem porstFalls_pending (s : State) : (porstFalls s).pending = s.pending := by
  unfold porstFalls
  split <;> rfl

/-- Settles O7: every command has a next state, and only PORST's fall takes the counters back. -/
theorem everyCommandCompletes : Obligations.EveryCommandCompletes := by
  intro c s
  by_cases falls : c = .porstFall
  · subst falls
    exact ⟨porstFalls s, rfl, porstFalls_pending s, fun _ other => absurd rfl other⟩
  · obtain ⟨t, next, upholds⟩ := exec_upholds c s falls
    exact ⟨t, next, upholds.guards.pending, fun _ _ => ⟨upholds.guards.seq, upholds.guards.nextCheckpoint⟩⟩

/-- Settles O1. -/
theorem stepRunsFrontCommand : Obligations.StepRunsFrontCommand := by
  intro s c rest queue
  unfold step
  rw [queue]

/-- Settles O2: each of the three timers takes its own step, or queues its own command. -/
theorem emptyQueueTakesTimeStep : Obligations.EmptyQueueTakesTimeStep := by
  intro s empty
  have time : step s = .next (tick s) := by
    unfold step
    rw [empty]
  refine ⟨fun isHeld => ?_, fun notHeld => ?_⟩
  · rw [time, tick, if_pos isHeld]
  · rw [time, tick_eq notHeld, empty, List.nil_append]

end Sys2Proof.Machine
end

section
/-! PROOFS. The transfers of the management port: the frames that are taken, refused or discarded, and the frames sent (R155
to R163). -/

namespace Sys2Proof.Machine

/-! ### Parameters (R182) -/

theorem word16_extract (v : BitVec 16) : word16 (v.extractLsb' 0 8) (v.extractLsb' 8 8) = v := by
  have joined := BitVec.extractLsb'_append_extractLsb'_eq_extractLsb' (x := v) (start₂ := 8) (start₁ := 0) (len₁ := 8)
    (len₂ := 8) rfl
  exact joined.trans BitVec.extractLsb'_eq_self

/-- The four bytes of `v` from bit `k` on. -/
theorem word32_extract_at {w : Nat} (v : BitVec w) (k : Nat) :
    word32 (v.extractLsb' k 8) (v.extractLsb' (k + 8) 8) (v.extractLsb' (k + 16) 8) (v.extractLsb' (k + 24) 8) =
      v.extractLsb' k 32 := by
  unfold word32
  ext i hi
  simp only [BitVec.getElem_append, BitVec.getElem_extractLsb']
  split
  · rfl
  · split
    · congr 1; omega
    · split
      · congr 1; omega
      · congr 1; omega

theorem word32_extract (v : BitVec 32) :
    word32 (v.extractLsb' 0 8) (v.extractLsb' 8 8) (v.extractLsb' 16 8) (v.extractLsb' 24 8) = v :=
  (word32_extract_at v 0).trans BitVec.extractLsb'_eq_self

theorem word64_extract (v : BitVec 64) :
    word64 (word32 (v.extractLsb' 0 8) (v.extractLsb' 8 8) (v.extractLsb' 16 8) (v.extractLsb' 24 8))
      (word32 (v.extractLsb' 32 8) (v.extractLsb' 40 8) (v.extractLsb' 48 8) (v.extractLsb' 56 8)) = v := by
  rw [word32_extract_at v 0, word32_extract_at v 32]
  have joined := BitVec.extractLsb'_append_extractLsb'_eq_extractLsb' (x := v) (start₂ := 32) (start₁ := 0) (len₁ := 32)
    (len₂ := 32) rfl
  exact joined.trans BitVec.extractLsb'_eq_self

/-! ### Frames in -/

theorem addressed_iff (address : BitVec 7) (s : State) :
    addressed address s = true ↔ held s = false ∧ address = s.port.address := by
  rw [addressed, Bool.and_eq_true, Bool.not_eq_true', beq_iff_eq]

/-- A write transfer to the unit with at least one byte is a frame (R156). -/
theorem exec_writeTransfer {s : State} (notHeld : held s = false) {bytes : List Byte} (some_ : bytes ≠ []) :
    exec (.writeTransfer s.port.address bytes) s = .next (takeFrame (judgeFrame bytes) s) := by
  have ours : (addressed s.port.address s && !bytes.isEmpty) = true := by
    rw [(addressed_iff _ _).2 ⟨notHeld, rfl⟩]
    simpa using some_
  show Host.Outcome.next (writeTransfer s.port.address bytes s) = _
  rw [writeTransfer, if_pos ours]

theorem exec_writeTransfer_of_not {a : BitVec 7} {bytes : List Byte} {s : State}
    (h : (addressed a s && !bytes.isEmpty) = false) : exec (.writeTransfer a bytes) s = .next s := by
  show Host.Outcome.next (writeTransfer a bytes s) = _
  rw [writeTransfer, h]
  rfl

/-- A management command is what its code and its parameters are carried out as (R158 step 5, Table 11.2). -/
def CarriedOut (c : Instr) : Prop :=
  ∀ code params, commandParams c = some (code, params) → ∀ s, exec c s = .next (takeFrame (carryOut code params) s)

theorem carriedOut_of {c : Instr} {code : Byte} {params : List Byte} (layout : commandParams c = some (code, params))
    (meaning : ∀ s, exec c s = .next (takeFrame (carryOut code params) s)) : CarriedOut c := by
  intro code' params' h
  rw [layout] at h
  obtain ⟨rfl, rfl⟩ := Prod.mk.inj (Option.some.inj h)
  exact meaning

theorem setWindow_carriedOut (index kind : Byte) (base size : BitVec 32) :
    CarriedOut (.setWindow index kind base size) := by
  refine carriedOut_of rfl fun s => ?_
  have operands : carryOut 0x10 ([index, kind] ++ bytesLE 4 base ++ bytesLE 4 size) = doSetWindow index kind base size := by
    funext s
    show doSetWindow index kind
      (word32 (base.extractLsb' 0 8) (base.extractLsb' 8 8) (base.extractLsb' 16 8) (base.extractLsb' 24 8))
      (word32 (size.extractLsb' 0 8) (size.extractLsb' 8 8) (size.extractLsb' 16 8) (size.extractLsb' 24 8)) s = _
    rw [word32_extract, word32_extract]
  rw [operands]
  rfl

theorem setJournal_carriedOut (base : BitVec 64) (slots : BitVec 32) (reserve depth : Byte) (runStamp : BitVec 16)
    (policy : Byte) (pace : BitVec 32) (interval timeout : BitVec 16) :
    CarriedOut (.setJournal base slots reserve depth runStamp policy pace interval timeout) := by
  refine carriedOut_of rfl fun s => ?_
  have operands : carryOut 0x13 (bytesLE 8 base ++ bytesLE 4 slots ++ [reserve, depth] ++ bytesLE 2 runStamp ++ [policy] ++
      bytesLE 4 pace ++ bytesLE 2 interval ++ bytesLE 2 timeout) =
      doSetJournal base slots reserve depth runStamp policy pace interval timeout := by
    funext s
    show doSetJournal
      (word64 (word32 (base.extractLsb' 0 8) (base.extractLsb' 8 8) (base.extractLsb' 16 8) (base.extractLsb' 24 8))
        (word32 (base.extractLsb' 32 8) (base.extractLsb' 40 8) (base.extractLsb' 48 8) (base.extractLsb' 56 8)))
      (word32 (slots.extractLsb' 0 8) (slots.extractLsb' 8 8) (slots.extractLsb' 16 8) (slots.extractLsb' 24 8))
      reserve depth (word16 (runStamp.extractLsb' 0 8) (runStamp.extractLsb' 8 8)) policy
      (word32 (pace.extractLsb' 0 8) (pace.extractLsb' 8 8) (pace.extractLsb' 16 8) (pace.extractLsb' 24 8))
      (word16 (interval.extractLsb' 0 8) (interval.extractLsb' 8 8))
      (word16 (timeout.extractLsb' 0 8) (timeout.extractLsb' 8 8)) s = _
    rw [word64_extract, word32_extract, word32_extract, word16_extract, word16_extract, word16_extract]
  rw [operands]
  rfl

theorem setTiming_carriedOut (pace : BitVec 32) (interval timeout limit : BitVec 16) (freeze : Byte) :
    CarriedOut (.setTiming pace interval timeout limit freeze) := by
  refine carriedOut_of rfl fun s => ?_
  have operands : carryOut 0x14 (bytesLE 4 pace ++ bytesLE 2 interval ++ bytesLE 2 timeout ++ bytesLE 2 limit ++ [freeze]) =
      doSetTiming pace interval timeout limit freeze := by
    funext s
    show doSetTiming
      (word32 (pace.extractLsb' 0 8) (pace.extractLsb' 8 8) (pace.extractLsb' 16 8) (pace.extractLsb' 24 8))
      (word16 (interval.extractLsb' 0 8) (interval.extractLsb' 8 8))
      (word16 (timeout.extractLsb' 0 8) (timeout.extractLsb' 8 8))
      (word16 (limit.extractLsb' 0 8) (limit.extractLsb' 8 8)) freeze s = _
    rw [word32_extract, word16_extract, word16_extract, word16_extract]
  rw [operands]
  rfl

theorem setAlertMask_carriedOut (mask : BitVec 16) : CarriedOut (.setAlertMask mask) := by
  refine carriedOut_of rfl fun s => ?_
  have operands : carryOut 0x15 (bytesLE 2 mask) = doSetAlertMask mask := by
    funext s
    show doSetAlertMask (word16 (mask.extractLsb' 0 8) (mask.extractLsb' 8 8)) s = _
    rw [word16_extract]
  rw [operands]
  rfl

theorem clearAlerts_carriedOut (selection : BitVec 16) : CarriedOut (.clearAlerts selection) := by
  refine carriedOut_of rfl fun s => ?_
  have operands : carryOut 0x16 (bytesLE 2 selection) = doClearAlerts selection := by
    funext s
    show doClearAlerts (word16 (selection.extractLsb' 0 8) (selection.extractLsb' 8 8)) s = _
    rw [word16_extract]
  rw [operands]
  rfl

theorem mark_carriedOut (v : BitVec 64) : CarriedOut (.mark v) := by
  refine carriedOut_of rfl fun s => ?_
  have operands : carryOut 0x20 (bytesLE 8 v) = doMark v := by
    funext s
    have operand : param64 (bytesLE 8 v) 0 = v := word64_extract v
    simp [carryOut, operand]
  rw [operands]
  rfl

theorem rollback_carriedOut (depth : Byte) : CarriedOut (.rollback depth) := by
  refine carriedOut_of rfl fun s => ?_
  have operands : carryOut 0x21 [depth] = doRollback depth := by
    funext s
    have operand : param8 [depth] 0 = depth := rfl
    simp [carryOut, operand]
  rw [operands]
  rfl

theorem discard_carriedOut : CarriedOut .discard := by
  refine carriedOut_of rfl fun s => ?_
  have isDiscard : carryOut 0x24 [] = doDiscard := by
    funext s
    simp [carryOut]
  rw [isDiscard]
  rfl

theorem adopt_carriedOut (start : BitVec 32) : CarriedOut (.adopt start) := by
  refine carriedOut_of rfl fun s => ?_
  have operands : carryOut 0x25 (bytesLE 4 start) = judgeAdopt start := by
    funext s
    have operand : param32 (bytesLE 4 start) 0 = start := word32_extract start
    simp [carryOut, operand]
  rw [operands]
  rfl

theorem reset_carriedOut : CarriedOut .reset := by
  refine carriedOut_of rfl fun s => ?_
  have isReset : carryOut 0x3F [] = commandReset := by
    funext s
    simp [carryOut]
  rw [isReset]
  rfl

/-- The parameters of a management command, laid out in its frame, read back as its operands; no other command has any. -/
theorem carriedOut (c : Instr) : CarriedOut c := by
  cases c with
  | setWindow index kind base size => exact setWindow_carriedOut index kind base size
  | setJournal base slots reserve depth stamp policy pace interval timeout =>
      exact setJournal_carriedOut base slots reserve depth stamp policy pace interval timeout
  | setTiming pace interval timeout limit freeze => exact setTiming_carriedOut pace interval timeout limit freeze
  | setAlertMask mask => exact setAlertMask_carriedOut mask
  | clearAlerts selection => exact clearAlerts_carriedOut selection
  | mark v => exact mark_carriedOut v
  | adopt start => exact adopt_carriedOut start
  | getStatus sec => exact carriedOut_of rfl fun _ => rfl
  | getCheckpoints => exact carriedOut_of rfl fun _ => rfl
  | getWindow index => exact carriedOut_of rfl fun _ => rfl
  | getInitiator number => exact carriedOut_of rfl fun _ => rfl
  | readViolation => exact carriedOut_of rfl fun _ => rfl
  | clearWindow index => exact carriedOut_of rfl fun _ => rfl
  | setInitiator number cls permission => exact carriedOut_of rfl fun _ => rfl
  | rollback depth => exact rollback_carriedOut depth
  | retry => exact carriedOut_of rfl fun _ => rfl
  | abandon => exact carriedOut_of rfl fun _ => rfl
  | discard => exact discard_carriedOut
  | reset => exact reset_carriedOut
  | _ => exact fun _ _ layout => nomatch layout

/-- Only the nineteen management commands have a frame, and the first four steps of R158 read it back (Table 11.2). -/
theorem frameVerdict_commandFrame {c : Instr} {frame : List Byte} (laid : commandFrame c = some frame) :
    ∃ code params, commandParams c = some (code, params) ∧ frameVerdict frame = .ok (code, params) := by
  have judged : ∀ code params, commandParams c = some (code, params) → Laws.Frame.Statement c →
      frameVerdict frame = .ok (code, params) := by
    intro code params layout lawful
    rw [Laws.Frame.Statement, layout] at lawful
    exact lawful frame laid
  cases c with
  | getStatus sec => exact ⟨_, _, rfl, judged _ _ rfl (Laws.Frame.getStatus sec)⟩
  | getCheckpoints => exact ⟨_, _, rfl, judged _ _ rfl Laws.Frame.getCheckpoints⟩
  | getWindow index => exact ⟨_, _, rfl, judged _ _ rfl (Laws.Frame.getWindow index)⟩
  | getInitiator number => exact ⟨_, _, rfl, judged _ _ rfl (Laws.Frame.getInitiator number)⟩
  | readViolation => exact ⟨_, _, rfl, judged _ _ rfl Laws.Frame.readViolation⟩
  | setWindow index kind base size => exact ⟨_, _, rfl, judged _ _ rfl (Laws.Frame.setWindow index kind base size)⟩
  | clearWindow index => exact ⟨_, _, rfl, judged _ _ rfl (Laws.Frame.clearWindow index)⟩
  | setInitiator number cls permission =>
      exact ⟨_, _, rfl, judged _ _ rfl (Laws.Frame.setInitiator number cls permission)⟩
  | setJournal base slots reserve depth stamp policy pace interval timeout =>
      exact ⟨_, _, rfl,
        judged _ _ rfl (Laws.Frame.setJournal base slots reserve depth stamp policy pace interval timeout)⟩
  | setTiming pace interval timeout limit freeze =>
      exact ⟨_, _, rfl, judged _ _ rfl (Laws.Frame.setTiming pace interval timeout limit freeze)⟩
  | setAlertMask mask => exact ⟨_, _, rfl, judged _ _ rfl (Laws.Frame.setAlertMask mask)⟩
  | clearAlerts selection => exact ⟨_, _, rfl, judged _ _ rfl (Laws.Frame.clearAlerts selection)⟩
  | mark v => exact ⟨_, _, rfl, judged _ _ rfl (Laws.Frame.mark v)⟩
  | rollback depth => exact ⟨_, _, rfl, judged _ _ rfl (Laws.Frame.rollback depth)⟩
  | retry => exact ⟨_, _, rfl, judged _ _ rfl Laws.Frame.retry⟩
  | abandon => exact ⟨_, _, rfl, judged _ _ rfl Laws.Frame.abandon⟩
  | discard => exact ⟨_, _, rfl, judged _ _ rfl Laws.Frame.discard⟩
  | adopt start => exact ⟨_, _, rfl, judged _ _ rfl (Laws.Frame.adopt start)⟩
  | reset => exact ⟨_, _, rfl, judged _ _ rfl Laws.Frame.reset⟩
  | _ => nomatch laid

/-- A management command is a frame that the port takes, or refuses to take (R161, R163). -/
theorem exec_of_commandFrame {c : Instr} (framed : commandFrame c ≠ none) :
    ∃ carry, ∀ s, exec c s = .next (takeFrame carry s) := by
  obtain ⟨frame, laid⟩ := Option.ne_none_iff_exists'.1 framed
  obtain ⟨code, params, layout, -⟩ := frameVerdict_commandFrame laid
  exact ⟨carryOut code params, carriedOut c code params layout⟩

theorem commandFrame_nonempty {c : Instr} {frame : List Byte} (laid : commandFrame c = some frame) : frame ≠ [] := by
  obtain ⟨_, _, -, verdict⟩ := frameVerdict_commandFrame laid
  intro none_
  rw [none_] at verdict
  exact nomatch verdict

/-- Settles O11: the first four steps of R158 read the command's own code and parameters back from its frame, and the fifth
is the command. -/
theorem commandFrameIsCommand : Obligations.CommandFrameIsCommand := by
  unfold Obligations.CommandFrameIsCommand
  intro c frame s laid
  obtain ⟨code, params, layout, verdict⟩ := frameVerdict_commandFrame laid
  have isCommand := carriedOut c code params layout s
  have same : exec (.writeTransfer s.port.address frame) s = exec c s := by
    rw [isCommand]
    by_cases isHeld : held s = true
    · rw [exec_writeTransfer_of_not (by simp [addressed, isHeld]), takeFrame_of_held isHeld]
    · rw [exec_writeTransfer (Bool.eq_false_iff.2 isHeld) (commandFrame_nonempty laid)]
      have judged : judgeFrame frame = carryOut code params := by
        funext s
        rw [judgeFrame, verdict]
      rw [judged]
  exact ⟨same, fun _ => ⟨_, same.trans isCommand, isCommand⟩⟩

/-- The port takes a frame and refuses it. -/
theorem exec_writeTransfer_refused {s : State} (ready : Ready s) {code : Byte} {rest : List Byte} {status : Status}
    (verdict : frameVerdict (code :: rest) = .error (status, code)) :
    exec (.writeTransfer s.port.address (code :: rest)) s = .next (answered status code [] s) := by
  rw [exec_writeTransfer ready.1 (List.cons_ne_nil _ _), takeFrame_of_ready ready, judgeFrame, verdict]
  rfl

/-- The length test of R158 step 1, for a frame that fits the receive buffer. -/
theorem lengthFits_iff (code count : Byte) (rest : List Byte) :
    lengthFits (code :: count :: rest) count = true ↔ rest.length = count.toNat + 1 := by
  rw [lengthFits, Bool.and_eq_true, decide_eq_true_iff, beq_iff_eq]
  simp only [List.length_cons, Config.longestFrame]
  omega

theorem wfFrame_cons_iff (code count : Byte) (rest : List Byte) :
    wfFrame (code :: count :: rest) = true ↔ rest.length = count.toNat + 1 := decide_eq_true_iff

theorem frameVerdict_of_not_wfFrame {code : Byte} {rest : List Byte} (bad : wfFrame (code :: rest) = false) :
    frameVerdict (code :: rest) = .error (.frameError, code) := by
  match rest with
  | [] => rfl
  | count :: rest =>
    have unfit : lengthFits (code :: count :: rest) count = false := by
      rw [Bool.eq_false_iff, Ne, lengthFits_iff, ← wfFrame_cons_iff, bad]
      exact Bool.false_ne_true
    rw [frameVerdict, unfit]
    rfl

/-- A frame of more than 258 bytes has more than its count can say (R156). -/
theorem wfFrame_of_long {code : Byte} {rest : List Byte} (long : 258 < (code :: rest).length) :
    wfFrame (code :: rest) = false := by
  match rest with
  | [] => rfl
  | count :: rest =>
    rw [Bool.eq_false_iff, Ne, wfFrame_cons_iff]
    have := count.isLt
    simp only [List.length_cons] at long
    omega

/-- The verdict on a frame of a fitting length is that of its check and its code's count (R158 steps 2 to 4). -/
theorem frameVerdict_of_wfFrame {code count : Byte} {rest : List Byte} (fits : wfFrame (code :: count :: rest) = true) :
    frameVerdict (code :: count :: rest) =
      if (code :: count :: rest).getLast? ≠ some (crc8 (code :: count :: rest).dropLast) then .error (.frameError, code)
      else match paramCount code with
        | none => .error (.unknown, code)
        | some n => if count.toNat = n then .ok (code, rest.dropLast) else .error (.range, code) := by
  have lengths := (wfFrame_cons_iff code count rest).1 fits
  have last : (code :: count :: rest).getLast? = rest.getLast? := by
    match rest, lengths with
    | b :: bs, _ => rfl
  rw [frameVerdict, (lengthFits_iff code count rest).2 lengths, last]
  rfl

/-- Settles O12: the verdict of R158's first four steps, test by test. -/
theorem badFramesAreRefused : Obligations.BadFramesAreRefused := by
  unfold Obligations.BadFramesAreRefused
  intro s code rest ready
  have bad : wfFrame (code :: rest) = false → exec (.writeTransfer s.port.address (code :: rest)) s =
      .next (answered .frameError code [] s) :=
    fun unfit => exec_writeTransfer_refused ready (frameVerdict_of_not_wfFrame unfit)
  refine ⟨fun n => ?_, fun long => bad (wfFrame_of_long long), bad, fun fits check => ?_, fun fits check unknown => ?_,
    fun fits check n known other => ?_⟩
  · rw [acknowledges, (addressed_iff _ _).2 ⟨ready.1, rfl⟩, Bool.true_and, decide_eq_true_iff]
  · match rest, fits with
    | count :: rest, fits =>
      refine exec_writeTransfer_refused ready ?_
      rw [frameVerdict_of_wfFrame fits, if_pos check]
  · match rest, fits with
    | count :: rest, fits =>
      refine exec_writeTransfer_refused ready ?_
      rw [frameVerdict_of_wfFrame fits, if_neg (not_not.2 check), unknown]
  · match rest, fits with
    | count :: rest, fits =>
      refine exec_writeTransfer_refused ready ?_
      rw [frameVerdict_of_wfFrame fits, if_neg (not_not.2 check), known]
      exact if_neg fun same => other (congrArg some same)

/-- Settles O13: a transfer that does not name the unit changes nothing, and a frame for a busy slot only sets the overrun
flag. -/
theorem framesNotTaken : Obligations.FramesNotTaken := by
  unfold Obligations.FramesNotTaken
  intro s
  refine ⟨fun a bytes away => ?_, fun c framed isHeld => ?_, fun notHeld => ?_, fun notHeld busy bytes some_ => ?_,
    fun notHeld busy c framed => ?_⟩
  · have unnamed : addressed a s = false := by
      rw [Bool.eq_false_iff, Ne, addressed_iff]
      rintro ⟨notHeld, ours⟩
      exact away.elim (fun isHeld => absurd isHeld (by simp [notHeld])) fun other => other ours
    refine ⟨exec_writeTransfer_of_not (by rw [unnamed, Bool.false_and]), ?_, fun n => ?_⟩
    · show Host.Outcome.next (readTransfer a s) = _
      rw [readTransfer, unnamed]
      rfl
    · rw [acknowledges, unnamed, Bool.false_and]
  · obtain ⟨carry, meaning⟩ := exec_of_commandFrame framed
    rw [meaning, takeFrame_of_held isHeld]
  · exact exec_writeTransfer_of_not (by simp)
  · rw [exec_writeTransfer notHeld some_, takeFrame_of_busy notHeld busy]
  · obtain ⟨carry, meaning⟩ := exec_of_commandFrame framed
    rw [meaning, takeFrame_of_busy notHeld busy]

/-! ### Frames out -/

theorem exec_readTransfer {s : State} (notHeld : held s = false) : exec (.readTransfer s.port.address) s =
    .next { s with port := { s.port with reading := some (slotFrame s.port) } } := by
  show Host.Outcome.next (readTransfer s.port.address s) = _
  rw [readTransfer, if_pos ((addressed_iff _ _).2 ⟨notHeld, rfl⟩)]

/-- The overrun flag is bit 7 of the status byte (R183). -/
theorem responseFrame_eq (r : Response) (overrun : Bool) :
    responseFrame r overrun = sentFrame (statusCode r.status) r.echo overrun r.data := by
  cases overrun with
  | true => rfl
  | false =>
    have plain : statusCode r.status ||| flagBit false 7 = statusCode r.status := BitVec.or_zero
    rw [responseFrame, plain]
    rfl

/-- Settles O14: the frame follows the slot's state, and only the held response is consumed. -/
theorem responseIsReadAndConsumed : Obligations.ResponseIsReadAndConsumed := by
  unfold Obligations.ResponseIsReadAndConsumed
  intro s
  have reads {bytes : List Byte} {h : Bool} (notHeld : held s = false) (frame : slotFrame s.port = ⟨bytes, h⟩) :
      exec (.readTransfer s.port.address) s =
        .next { s with port := { s.port with reading := some ⟨bytes, h⟩ } } := by
    rw [exec_readTransfer notHeld, frame]
  refine ⟨fun notHeld slot => reads notHeld ?_, fun v taken notHeld slot => reads notHeld ?_,
    fun d notHeld slot => reads notHeld ?_, fun r notHeld slot => reads notHeld ?_, fun bytes r reading slot => ?_,
    fun other => ?_, fun bytes h n reading => ?_, rfl⟩
  · rw [slotFrame, slot]
    exact congrArg (ReadFrame.mk · false) (responseFrame_eq _ _)
  · rw [slotFrame, slot]
    exact congrArg (ReadFrame.mk · false) (responseFrame_eq _ _)
  · rw [slotFrame, slot]
    exact congrArg (ReadFrame.mk · false) (responseFrame_eq _ _)
  · rw [slotFrame, slot]
    exact congrArg (ReadFrame.mk · true) (responseFrame_eq _ _)
  · show Host.Outcome.next (consumeResponse s) = _
    rw [consumeResponse, reading, slot]
  · show Host.Outcome.next (consumeResponse s) = _
    rcases other with none_ | ⟨bytes, others⟩
    · rw [consumeResponse, none_]
    · rw [consumeResponse, others]
  · have sent : sentByte s.port n = bytes.getD n 0xFF := by rw [sentByte, reading]
    rw [sent]
    exact ⟨fun b at_ => by rw [List.getD_eq_getElem?_getD, at_, Option.getD_some],
      fun past => List.getD_eq_default _ _ past⟩

end Sys2Proof.Machine
end

section
/-! PROOFS. The commands that configure the unit (R2, R109 to R114, R142, R169 to R172). -/

namespace Sys2Proof.Machine

/-! ### Windows and initiators -/

/-- A kind byte names a kind where it is one of the three (Table 11.2). -/
theorem kindOfByte_eq_none_iff (b : Byte) : kindOfByte b = none ↔ b ≠ 1 ∧ b ≠ 2 ∧ b ≠ 3 := by
  unfold kindOfByte
  split_ifs with guarded marker frozen
  · exact ⟨nofun, fun h => absurd guarded h.1⟩
  · exact ⟨nofun, fun h => absurd marker h.2.1⟩
  · exact ⟨nofun, fun h => absurd frozen h.2.2⟩
  · exact ⟨fun _ => ⟨guarded, marker, frozen⟩, fun _ => rfl⟩

/-- The kind that one of the three kind bytes names. -/
def kindNamed (b : Byte) : WindowKind := if b = 1 then .guarded else if b = 2 then .marker else .frozen

theorem kindOfByte_of_named {b : Byte} (h : ¬ (b ≠ 1 ∧ b ≠ 2 ∧ b ≠ 3)) : kindOfByte b = some (kindNamed b) := by
  unfold kindOfByte kindNamed
  split_ifs with guarded marker frozen
  · rfl
  · rfl
  · rfl
  · exact absurd ⟨guarded, marker, frozen⟩ h

theorem kindNamed_eq_guarded_iff {b : Byte} : kindNamed b = .guarded ↔ b = 1 := by
  unfold kindNamed
  split_ifs with guarded marker
  · exact ⟨fun _ => guarded, fun _ => rfl⟩
  · exact ⟨nofun, fun one => absurd one guarded⟩
  · exact ⟨nofun, fun one => absurd one guarded⟩

theorem kindNamed_eq_marker_iff {b : Byte} : kindNamed b = .marker ↔ b = 2 := by
  unfold kindNamed
  split_ifs with guarded marker
  · exact ⟨nofun, fun two => absurd (guarded.symm.trans two) (by decide)⟩
  · exact ⟨fun _ => marker, fun _ => rfl⟩
  · exact ⟨nofun, fun two => absurd two marker⟩

/-- The entry that a SET_WINDOW in range describes. -/
def windowNamed (kind : Byte) (base size : BitVec 32) : Window :=
  { enabled := true, kind := kindNamed kind, base := base.toNat, size := size.toNat }

theorem windowOfParams_of_bad {index kind : Byte} {base size : BitVec 32} (bad : WindowOutOfRange index kind base size) :
    windowOfParams index kind base size = none := by
  unfold windowOfParams
  split
  · rfl
  · next k named =>
    refine if_neg fun ok => ?_
    by_cases unnamed : kind ≠ 1 ∧ kind ≠ 2 ∧ kind ≠ 3
    · exact absurd ((kindOfByte_eq_none_iff kind).2 unnamed) (by simp [named])
    · obtain rfl : kindNamed kind = k := Option.some.inj ((kindOfByte_of_named unnamed).symm.trans named)
      obtain ⟨bound, first, some_, end_, one⟩ := ok
      rcases bad with h | h | h | h | h | h | ⟨two, h⟩
      · omega
      · exact unnamed h
      · omega
      · omega
      · omega
      · omega
      · exact h (one (kindNamed_eq_marker_iff.2 two))

theorem windowOfParams_of_good {index kind : Byte} {base size : BitVec 32} (good : ¬ WindowOutOfRange index kind base size) :
    windowOfParams index kind base size = some (windowNamed kind base size) := by
  have named : ¬ (kind ≠ 1 ∧ kind ≠ 2 ∧ kind ≠ 3) := fun unnamed => good (.inr (.inl unnamed))
  unfold windowOfParams
  rw [kindOfByte_of_named named]
  refine if_pos ?_
  obtain ⟨bound, -, first, some_, -, end_, one⟩ := by simpa only [WindowOutOfRange, not_or] using good
  refine ⟨by omega, by omega, by omega, by omega, fun marker => ?_⟩
  exact by_contra fun other => one ⟨kindNamed_eq_marker_iff.1 marker, other⟩

/-- An edit touches guarded memory where the old entry or the new one is an enabled GUARDED one (R110). -/
theorem touchesGuarded_iff (w : Window) : touchesGuarded w = true ↔ w.enabled = true ∧ w.kind = .guarded := by
  rw [touchesGuarded, Bool.and_eq_true, beq_iff_eq]

theorem touchesGuarded_or_iff {index kind : Byte} {base size : BitVec 32} {s : State} {old : Window}
    (good : ¬ WindowOutOfRange index kind base size) (entry : s.cls.windows[index.toNat]? = some old) :
    (touchesGuarded old || touchesGuarded (windowNamed kind base size)) = true ↔ TouchesGuarded index kind s := by
  have named : ¬ (kind ≠ 1 ∧ kind ≠ 2 ∧ kind ≠ 3) := fun unnamed => good (.inr (.inl unnamed))
  rw [Bool.or_eq_true, touchesGuarded_iff, touchesGuarded_iff, TouchesGuarded]
  simp only [windowNamed, true_and, kindNamed_eq_guarded_iff, entry, Option.some.injEq, exists_eq_left']
  exact or_comm

theorem exec_setWindow {s : State} (ready : Ready s) {index kind : Byte} {base size : BitVec 32} :
    exec (.setWindow index kind base size) s = .next (doSetWindow index kind base size (withoutRead s)) :=
  exec_of_ready ready rfl

theorem setWindow_refused {s : State} (ready : Ready s) {index kind : Byte} {base size : BitVec 32} {status : Status}
    (verdict : setWindowVerdict index kind base size s = .error status) :
    exec (.setWindow index kind base size) s = .next (answered status 0x10 [] s) := by
  have same : setWindowVerdict index kind base size (withoutRead s) = .error status := verdict
  rw [exec_setWindow ready, doSetWindow, same, answered_eq]

/-- The verdict on a SET_WINDOW in range (R109 steps 2 and 3). -/
theorem setWindowVerdict_of_good {index kind : Byte} {base size : BitVec 32} {s : State}
    (good : ¬ WindowOutOfRange index kind base size) :
    ∃ old, s.cls.windows[index.toNat]? = some old ∧ setWindowVerdict index kind base size s =
      if (touchesGuarded old || touchesGuarded (windowNamed kind base size)) && s.ctl.state != .unarmed then .error .armed
      else if windowOverlaps index.toNat (windowNamed kind base size) s then .error .overlap
      else .ok (windowNamed kind base size) := by
  have bound : index.toNat < 16 := by
    unfold WindowOutOfRange at good
    omega
  have entry : s.cls.windows[index.toNat]? = some s.cls.windows[index.toNat] := Vector.getElem?_eq_getElem bound
  refine ⟨s.cls.windows[index.toNat], entry, ?_⟩
  rw [setWindowVerdict, windowOfParams_of_good good, entry]

/-- Settles O17: the three steps of R109, one after another. -/
theorem setWindowJudged : Obligations.SetWindowJudged := by
  unfold Obligations.SetWindowJudged
  intro s index kind base size ready
  refine ⟨fun bad => setWindow_refused ready ?_, fun good touches armed => setWindow_refused ready ?_,
    fun good untouched overlap => setWindow_refused ready ?_, fun good untouched clear => ?_⟩
  · rw [setWindowVerdict, windowOfParams_of_bad bad]
  · obtain ⟨old, entry, verdict⟩ := setWindowVerdict_of_good (s := s) good
    rw [verdict, if_pos]
    rw [Bool.and_eq_true, touchesGuarded_or_iff good entry]
    exact ⟨touches, bne_iff_ne.2 armed⟩
  all_goals
    obtain ⟨old, entry, verdict⟩ := setWindowVerdict_of_good (s := s) good
    have allowed : ¬ ((touchesGuarded old || touchesGuarded (windowNamed kind base size)) && s.ctl.state != .unarmed) =
        true := by
      rw [Bool.and_eq_true, touchesGuarded_or_iff good entry]
      exact fun ⟨touches, armed⟩ => bne_iff_ne.1 armed (untouched touches)
    rw [if_neg allowed] at verdict
  · rw [verdict, if_pos ((windowOverlaps_iff index _ base size s rfl rfl).2 overlap)]
  · rw [if_neg fun overlap => clear ((windowOverlaps_iff index _ base size s rfl rfl).1 overlap)] at verdict
    have same : setWindowVerdict index kind base size (withoutRead s) = .ok (windowNamed kind base size) := verdict
    rw [exec_setWindow ready, doSetWindow, same]
    rfl

theorem setIfInBounds_eq_set {α : Type} {n i : Nat} (v : Vector α n) (bound : i < n) (x : α) :
    v.setIfInBounds i x = v.set i x := by
  refine Vector.ext fun k hk => ?_
  rw [Vector.getElem_setIfInBounds, Vector.getElem_set]

theorem exec_clearWindow {s : State} (ready : Ready s) {index : Byte} :
    exec (.clearWindow index) s = .next (doClearWindow index (withoutRead s)) := exec_of_ready ready rfl

/-- CLEAR_WINDOW of an entry of the table (R113). -/
theorem doClearWindow_of_lt {index : Byte} (bound : index.toNat < 16) (s : State) : doClearWindow index s =
    if touchesGuarded s.cls.windows[index.toNat] && s.ctl.state != .unarmed then respond .armed 0x11 [] s
    else respond .ok 0x11 [] (writeWindow index.toNat { s.cls.windows[index.toNat] with enabled := false } s) := by
  rw [doClearWindow, Vector.getElem?_eq_getElem bound]

/-- Settles O18: the entry, where the index names one, decides between ARMED and OK. -/
theorem clearWindowJudged : Obligations.ClearWindowJudged := by
  unfold Obligations.ClearWindowJudged
  intro s index ready
  refine ⟨fun past => ?_, fun bound enabled guarded armed => ?_, fun bound untouched => ?_⟩
  · have none_ : (withoutRead s).cls.windows[index.toNat]? = none := Vector.getElem?_eq_none past
    rw [exec_clearWindow ready, doClearWindow, none_, answered_eq]
  · have touches : (touchesGuarded (withoutRead s).cls.windows[index.toNat] && (withoutRead s).ctl.state != .unarmed) =
        true := Bool.and_eq_true_iff.2 ⟨(touchesGuarded_iff _).2 ⟨enabled, guarded⟩, bne_iff_ne.2 armed⟩
    rw [exec_clearWindow ready, doClearWindow_of_lt bound, if_pos touches, answered_eq]
  · have allowed : ¬ (touchesGuarded (withoutRead s).cls.windows[index.toNat] &&
        (withoutRead s).ctl.state != .unarmed) = true := by
      rw [Bool.and_eq_true, touchesGuarded_iff, bne_iff_ne]
      exact fun ⟨⟨enabled, guarded⟩, armed⟩ => armed (untouched enabled guarded)
    rw [exec_clearWindow ready, doClearWindow_of_lt bound, if_neg allowed, writeWindow, answered_eq,
      setIfInBounds_eq_set _ bound]
    rfl

theorem exec_setInitiator {s : State} (ready : Ready s) {number cls permission : Byte} :
    exec (.setInitiator number cls permission) s = .next (doSetInitiator number cls permission (withoutRead s)) :=
  exec_of_ready ready rfl

/-- Settles O19: the two bytes that have names, and the number, decide. -/
theorem setInitiatorJudged : Obligations.SetInitiatorJudged := by
  unfold Obligations.SetInitiatorJudged
  intro s number cls permission ready
  rw [exec_setInitiator ready]
  unfold doSetInitiator
  refine ⟨fun bad => ?_, fun good => ?_⟩
  · split
    · next c p hc hp =>
      split
      · next bound =>
        exfalso
        rcases bad with big | unnamed | unnamed
        · omega
        · rw [classOfByte, if_neg unnamed.1, if_neg unnamed.2.1, if_neg unnamed.2.2] at hc
          exact nomatch hc
        · rw [permissionOfByte, if_neg unnamed.1, if_neg unnamed.2] at hp
          exact nomatch hp
      · rw [answered_eq]
    · rw [answered_eq]
  · obtain ⟨bound, hc, hp⟩ : number.toNat < 8 ∧
        classOfByte cls = some (if cls = 1 then .tracked else if cls = 2 then .untracked else .blocked) ∧
        permissionOfByte permission = some (decide (permission = 1)) := by
      rw [not_or, not_or] at good
      obtain ⟨bound, named, flag⟩ := good
      refine ⟨by omega, ?_, ?_⟩
      · unfold classOfByte
        split_ifs with one two three
        · rfl
        · rfl
        · rfl
        · exact absurd ⟨one, two, three⟩ named
      · unfold permissionOfByte
        split_ifs with zero one
        · rw [zero]
          rfl
        · rw [one]
          rfl
        · exact absurd ⟨zero, one⟩ flag
    rw [hc, hp]
    dsimp only
    rw [if_pos bound, answered_eq]
    rfl

/-! ### The journal and timing -/

/-- The configuration that a SET_JOURNAL in range describes. -/
def journalNamed (base : BitVec 64) (slots : BitVec 32) (reserve depth : Byte) (runStamp : BitVec 16) (policy : Byte)
    (paceMark : BitVec 32) (interval timeout : BitVec 16) : JournalConfig :=
  { base := base.setWidth 36, slots := slots.toNat, reserve := reserve.toNat, depth := depth.toNat
    runStamp := runStamp, policy := if policy = 1 then .break_ else .hold, paceMark := paceMark.toNat
    pacingInterval := interval.toNat, holdTimeout := timeout.toNat }

theorem policyOfByte_eq_none {b : Byte} (h : b ≠ 1 ∧ b ≠ 2) : policyOfByte b = none := by
  rw [policyOfByte, if_neg h.1, if_neg h.2]

theorem policyOfByte_of_named {b : Byte} (h : ¬ (b ≠ 1 ∧ b ≠ 2)) :
    policyOfByte b = some (if b = 1 then .break_ else .hold) := by
  unfold policyOfByte
  split_ifs with one two
  · rfl
  · rfl
  · exact absurd ⟨one, two⟩ h

section
variable {base : BitVec 64} {slots : BitVec 32} {reserve depth : Byte} {runStamp : BitVec 16} {policy : Byte}
  {paceMark : BitVec 32} {interval timeout : BitVec 16}

theorem journalOfParams_of_bad (bad : JournalOutOfRange base slots reserve depth policy paceMark interval timeout) :
    journalOfParams base slots reserve depth runStamp policy paceMark interval timeout = none := by
  by_cases named : policy ≠ 1 ∧ policy ≠ 2
  · rw [journalOfParams, policyOfByte_eq_none named]
  · rw [journalOfParams, policyOfByte_of_named named]
    refine if_neg fun ok => ?_
    simp only [JournalOutOfRange, named, false_or] at bad
    omega

theorem policy_named (good : ¬ JournalOutOfRange base slots reserve depth policy paceMark interval timeout) :
    ¬ (policy ≠ 1 ∧ policy ≠ 2) := fun unnamed =>
  good (by simp only [JournalOutOfRange, unnamed, true_or, or_true, ne_eq, not_false_eq_true, and_self])

theorem journalOfParams_of_good (good : ¬ JournalOutOfRange base slots reserve depth policy paceMark interval timeout) :
    journalOfParams base slots reserve depth runStamp policy paceMark interval timeout =
      some (journalNamed base slots reserve depth runStamp policy paceMark interval timeout) := by
  have named := policy_named good
  rw [journalOfParams, policyOfByte_of_named named]
  refine if_pos ?_
  simp only [JournalOutOfRange, named, false_or] at good
  omega

/-- A base in range keeps its value in 36 bits (Table 1.1). -/
theorem journalNamed_base (good : ¬ JournalOutOfRange base slots reserve depth policy paceMark interval timeout) :
    (journalNamed base slots reserve depth runStamp policy paceMark interval timeout).base.toNat = base.toNat := by
  show (base.setWidth 36).toNat = base.toNat
  rw [BitVec.toNat_setWidth]
  refine Nat.mod_eq_of_lt ?_
  simp only [JournalOutOfRange, policy_named good, false_or] at good
  omega

theorem setJournal_refused {s : State} (ready : Ready s) {status : Status}
    (verdict : setJournalVerdict (journalOfParams base slots reserve depth runStamp policy paceMark interval timeout) s =
      .error status) :
    exec (.setJournal base slots reserve depth runStamp policy paceMark interval timeout) s =
      .next (answered status 0x13 [] s) := by
  have same : setJournalVerdict (journalOfParams base slots reserve depth runStamp policy paceMark interval timeout)
      (withoutRead s) = .error status := verdict
  rw [exec_of_ready (carry := doSetJournal base slots reserve depth runStamp policy paceMark interval timeout) ready rfl,
    doSetJournal, same, answered_eq]

theorem setJournal_taken {s : State} (ready : Ready s) {c : JournalConfig}
    (verdict : setJournalVerdict (journalOfParams base slots reserve depth runStamp policy paceMark interval timeout) s =
      .ok c) :
    exec (.setJournal base slots reserve depth runStamp policy paceMark interval timeout) s =
      .next (answered .ok 0x13 [] (configureJournal c s)) := by
  have same : setJournalVerdict (journalOfParams base slots reserve depth runStamp policy paceMark interval timeout)
      (withoutRead s) = .ok c := verdict
  rw [exec_of_ready (carry := doSetJournal base slots reserve depth runStamp policy paceMark interval timeout) ready rfl,
    doSetJournal, same, answered_eq]
  rfl

theorem areaOverlaps_journalNamed_iff (s : State)
    (good : ¬ JournalOutOfRange base slots reserve depth policy paceMark interval timeout) :
    areaOverlaps (journalNamed base slots reserve depth runStamp policy paceMark interval timeout) s = true ↔
      AreaOverlaps base slots s := by
  rw [areaOverlaps_iff, journalNamed_base good]
  rfl

end

/-- Settles O20: the state, the range and the overlap decide in that order. -/
theorem setJournalJudged : Obligations.SetJournalJudged := by
  unfold Obligations.SetJournalJudged
  intro s base slots reserve depth runStamp policy paceMark interval timeout ready
  refine ⟨fun armed => setJournal_refused ready ?_, fun busy => setJournal_refused ready ?_,
    fun unarmed bad => setJournal_refused ready ?_, fun unarmed good overlap => setJournal_refused ready ?_,
    fun unarmed good clear => setJournal_taken ready ?_⟩
  · unfold setJournalVerdict
    rw [armed]
  · rcases busy with state | state | state
    · unfold setJournalVerdict
      rw [state]
    · unfold setJournalVerdict
      rw [state]
    · unfold setJournalVerdict
      rw [state]
  · unfold setJournalVerdict
    rw [unarmed, journalOfParams_of_bad bad]
  · unfold setJournalVerdict
    rw [unarmed, journalOfParams_of_good good]
    exact if_pos ((areaOverlaps_journalNamed_iff s good).2 overlap)
  · unfold setJournalVerdict
    rw [unarmed, journalOfParams_of_good good]
    exact if_neg fun overlap => clear ((areaOverlaps_journalNamed_iff s good).1 overlap)

theorem ageDue_iff (a : AgeTimer) : ageDue a = true ↔ a.limit ≠ 0 ∧ a.stale = false ∧ a.limit * 1000 ≤ a.count := by
  rw [ageDue, Bool.and_eq_true, Bool.and_eq_true, bne_iff_ne, Bool.not_eq_true', decide_eq_true_iff, and_assoc]

theorem timingAllowed_iff (paceMark : BitVec 32) (interval timeout : BitVec 16) (freeze : Byte) (s : State) :
    timingAllowed paceMark interval timeout freeze s = true ↔
      ¬ (interval.toNat < 1 ∨ 1023 < interval.toNat ∨ timeout.toNat < 1 ∨ 4095 < timeout.toNat ∨
        captureLimit s.journal < paceMark.toNat ∨ 7 < freeze.toNat) := by
  simp only [timingAllowed, Bool.and_eq_true, decide_eq_true_iff]
  omega

/-- A SET_TIMING in range (R171). -/
theorem exec_setTiming_allowed {s : State} (ready : Ready s) {paceMark : BitVec 32} {interval timeout limit : BitVec 16}
    {freeze : Byte} (allowed : timingAllowed paceMark interval timeout freeze s = true) :
    exec (.setTiming paceMark interval timeout limit freeze) s = .next (answered .ok 0x14 []
      (if ageDue (setTimingValues paceMark interval timeout limit freeze s).ctl.age
        then expireAge (setTimingValues paceMark interval timeout limit freeze s)
        else setTimingValues paceMark interval timeout limit freeze s)) := by
  have same : timingAllowed paceMark interval timeout freeze (withoutRead s) = true := allowed
  rw [exec_of_ready (carry := doSetTiming paceMark interval timeout limit freeze) ready rfl, doSetTiming, if_pos same,
    answered_eq, apply_ite withoutRead]
  rfl

/-- The new limit expires the epoch age timer (R64, log 28). -/
theorem ageDue_setTimingValues_iff (paceMark : BitVec 32) (interval timeout limit : BitVec 16) (freeze : Byte) (s : State) :
    ageDue (setTimingValues paceMark interval timeout limit freeze s).ctl.age = true ↔
      limit ≠ 0 ∧ s.ctl.age.stale = false ∧ limit.toNat * 1000 ≤ s.ctl.age.count := by
  rw [ageDue_iff]
  refine and_congr (not_congr ?_) Iff.rfl
  exact (BitVec.toNat_eq (x := limit) (y := 0)).symm

/-- Settles O21: the five values in range, and whether the new limit expires the timer. -/
theorem setTimingJudged : Obligations.SetTimingJudged := by
  unfold Obligations.SetTimingJudged
  intro s paceMark interval timeout limit freeze ready
  refine ⟨fun bad => ?_, fun good stands => ?_, fun good expires => ?_⟩
  · have refused : ¬ timingAllowed paceMark interval timeout freeze (withoutRead s) = true :=
      fun allowed => (timingAllowed_iff paceMark interval timeout freeze s).1 allowed bad
    rw [exec_of_ready (carry := doSetTiming paceMark interval timeout limit freeze) ready rfl, doSetTiming, if_neg refused,
      answered_eq]
  · rw [exec_setTiming_allowed ready ((timingAllowed_iff paceMark interval timeout freeze s).2 good),
      if_neg fun due => stands ((ageDue_setTimingValues_iff paceMark interval timeout limit freeze s).1 due)]
    rfl
  · rw [exec_setTiming_allowed ready ((timingAllowed_iff paceMark interval timeout freeze s).2 good),
      if_pos ((ageDue_setTimingValues_iff paceMark interval timeout limit freeze s).2 expires)]
    rfl

/-! ### Alerts -/

/-- The place of a cause's bit (Table 11.3). -/
def alertPlace : AlertCause → Fin 12
  | .nearFull => 0
  | .holding => 1
  | .broken => 2
  | .marked => 3
  | .markRefused => 4
  | .rollbackDone => 5
  | .rollbackFailed => 6
  | .rollbackRefused => 7
  | .adoptDone => 8
  | .violation => 9
  | .dataError => 10
  | .staleEpoch => 11

theorem alertBit_eq (c : AlertCause) : alertBit c = BitVec.twoPow 12 (alertPlace c).val := by cases c <;> rfl

theorem alertPlace_surjective (k : Fin 12) : ∃ c, alertPlace c = k :=
  match k with
  | 0 => ⟨.nearFull, rfl⟩
  | 1 => ⟨.holding, rfl⟩
  | 2 => ⟨.broken, rfl⟩
  | 3 => ⟨.marked, rfl⟩
  | 4 => ⟨.markRefused, rfl⟩
  | 5 => ⟨.rollbackDone, rfl⟩
  | 6 => ⟨.rollbackFailed, rfl⟩
  | 7 => ⟨.rollbackRefused, rfl⟩
  | 8 => ⟨.adoptDone, rfl⟩
  | 9 => ⟨.violation, rfl⟩
  | 10 => ⟨.dataError, rfl⟩
  | 11 => ⟨.staleEpoch, rfl⟩

theorem and_alertBit_ne_zero_iff (v : BitVec 12) (c : AlertCause) :
    v &&& alertBit c ≠ 0 ↔ v.getLsbD (alertPlace c).val = true := by
  rw [alertBit_eq, BitVec.and_twoPow]
  split
  · next on =>
    refine ⟨fun _ => on, fun _ zero => ?_⟩
    have bit := congrArg (fun w : BitVec 12 => w.getLsbD (alertPlace c).val) zero
    simp at bit
  · next off => exact ⟨fun ne => absurd rfl ne, fun on => absurd on off⟩

/-- ALERT is low while one cause is both latched and enabled (R141). -/
theorem alertLow_iff (s : State) : alertLow s = true ↔
    ∃ cause, s.alerts.latches &&& alertBit cause ≠ 0 ∧ s.alerts.mask &&& alertBit cause ≠ 0 := by
  rw [alertLow, bne_iff_ne]
  simp only [and_alertBit_ne_zero_iff]
  constructor
  · intro some_
    by_contra none_
    refine some_ (BitVec.eq_of_getLsbD_eq fun k bound => ?_)
    obtain ⟨c, place⟩ := alertPlace_surjective ⟨k, bound⟩
    rw [BitVec.getLsbD_and]
    have notBoth := not_exists.1 none_ c
    rw [place] at notBoth
    simpa using notBoth
  · rintro ⟨c, latched, enabled⟩ zero
    have bit := congrArg (fun w : BitVec 12 => w.getLsbD (alertPlace c).val) zero
    simp only [BitVec.getLsbD_and, latched, enabled, BitVec.ofNat_eq_ofNat, BitVec.getLsbD_zero, Bool.and_self,
      Bool.true_eq_false] at bit

/-- Settles O22: every bit of the latches belongs to one cause, and the two commands act on the twelve bits. -/
theorem alertCommandsJudged : Obligations.AlertCommandsJudged := by
  unfold Obligations.AlertCommandsJudged
  refine ⟨by decide, alertLow_iff, fun s m ready => ?_⟩
  rw [exec_of_ready (carry := doSetAlertMask m) ready rfl, exec_of_ready (carry := doClearAlerts m) ready rfl]
  refine ⟨fun past => ?_, fun within => ?_⟩
  · rw [doSetAlertMask, doClearAlerts, if_neg (Nat.not_lt.2 past), if_neg (Nat.not_lt.2 past), answered_eq, answered_eq]
    exact ⟨rfl, rfl⟩
  · rw [doSetAlertMask, doClearAlerts, if_pos within, if_pos within, answered_eq, answered_eq]
    exact ⟨rfl, rfl⟩

end Sys2Proof.Machine
end

section
/-! PROOFS. The status sections and the tables: where each field stands (R120, R166 to R168, R182, R184, R185, Tables 11.4 to
11.12). -/

namespace Sys2Proof.Machine

/-! ### Fields -/

@[simp] theorem natLE_length (n v : Nat) : (natLE n v).length = n := Laws.bytesLE_length _ _

@[simp] theorem bytesAt_natLE_all (n v : Nat) : bytesAt (natLE n v) 0 n = natLE n v := bytesAt_bytesLE_all _ _

/-- A slot number, or all ones (R182). -/
theorem slotLE_eq (slot : Option Nat) : slotLE slot = (slot.map (natLE 4)).getD [0xFF, 0xFF, 0xFF, 0xFF] := by
  cases slot with
  | none => rfl
  | some n => rfl

@[simp] theorem slotLE_length (slot : Option Nat) : (slotLE slot).length = 4 := by
  cases slot with
  | none => rfl
  | some n => exact natLE_length 4 n

@[simp] theorem bytesAt_slotLE_all (slot : Option Nat) : bytesAt (slotLE slot) 0 4 = slotLE slot :=
  List.take_of_length_le (by simp)

theorem zeros_two : zeros 2 = [0, 0] := rfl

/-- A table of one byte an entry, at its own place. -/
theorem bytesAt_map_one {α : Type} (f : α → Byte) (l : List α) (k : Nat) (bound : k < l.length) :
    bytesAt (l.map f) k 1 = [f l[k]] := by
  rw [bytesAt, ← List.map_drop, List.drop_eq_getElem_cons bound]
  rfl

/-! ### The sections (Tables 11.6 to 11.12) -/

theorem journalSection_layout (s : State) :
    let d := journalSection s
    let j := s.journal
    let c := s.journal.config
    d.length = 60 ∧
    bytesAt d 0 1 = [flagBit j.configured 0 ||| flagBit j.exhausted 1 ||| flagBit j.adoptable 2] ∧
    bytesAt d 1 1 = [BitVec.ofNat 8 c.depth] ∧ bytesAt d 2 1 = [policyByte c.policy] ∧
    bytesAt d 3 1 = [BitVec.ofNat 8 c.reserve] ∧ bytesAt d 4 2 = bytesLE 2 c.runStamp ∧
    bytesAt d 6 2 = natLE 2 c.pacingInterval ∧ bytesAt d 8 2 = natLE 2 c.holdTimeout ∧ bytesAt d 10 2 = [0, 0] ∧
    bytesAt d 12 4 = natLE 4 c.slots ∧ bytesAt d 16 4 = natLE 4 c.paceMark ∧ bytesAt d 20 8 = natLE 8 c.base.toNat ∧
    bytesAt d 28 4 = natLE 4 j.head ∧ bytesAt d 32 4 = natLE 4 j.commit ∧ bytesAt d 36 4 = natLE 4 j.tail ∧
    bytesAt d 40 4 = natLE 4 j.occupancy ∧
    bytesAt d 44 4 = natLE 4 (if j.configured then c.slots - c.reserve else 0) ∧
    bytesAt d 48 8 = bytesLE 8 j.seq ∧ bytesAt d 56 4 = bytesLE 4 j.nextCheckpoint := by
  simp only [← zeros_two]
  simp [journalSection, byteOf, captureLimit]

theorem controllerSection_layout (s : State) :
    let d := controllerSection s
    let c := s.ctl
    d.length = 24 ∧ bytesAt d 0 1 = [ctlStateByte c.state] ∧ bytesAt d 1 1 = [conditionByte c.condition] ∧
    bytesAt d 2 1 = [breakByte c.lastBreak] ∧ bytesAt d 3 1 = [BitVec.ofNat 8 c.checkpoints.length] ∧
    bytesAt d 4 1 = [flagBit (hasPending s) 0 ||| flagBit c.age.stale 1 ||| flagBit c.memorySuspect 2 |||
      flagBit s.alerts.breakUnrecorded 3] ∧
    bytesAt d 5 1 = [(refusedBytes c.lastRefused).1] ∧ bytesAt d 6 1 = [(refusedBytes c.lastRefused).2.1] ∧
    bytesAt d 16 8 = bytesLE 8 (refusedBytes c.lastRefused).2.2 ∧
    bytesAt d 7 1 = [0] ∧ bytesAt d 8 4 = bytesLE 4 (c.openEpoch.getD 0xFFFFFFFF#32) ∧
    bytesAt d 12 2 = natLE 2 (min 65535 (c.age.count / 1000)) ∧ bytesAt d 14 2 = natLE 2 c.age.limit := by
  simp [controllerSection, byteOf, ageMs, checkpointField]

theorem captureSection_layout (s : State) :
    let d := captureSection s
    let c := s.capture
    let inState := fun x : EntryState => [BitVec.ofNat 8 (c.entries.countP fun e => e.state == x)]
    d.length = 16 ∧ bytesAt d 0 1 = [BitVec.ofNat 8 c.entries.length] ∧ bytesAt d 1 1 = inState .lineRead ∧
    bytesAt d 2 1 = inState .awaitMark ∧ bytesAt d 3 1 = inState .awaitSpace ∧ bytesAt d 4 1 = inState .recording ∧
    bytesAt d 5 1 = inState .awaitCommit ∧ bytesAt d 6 1 = inState .forwarding ∧
    bytesAt d 7 1 = [BitVec.ofNat 8 c.spaceWait.length] ∧
    bytesAt d 8 1 = [flagBit c.hold.running 0 ||| flagBit c.nearFull 1 ||| flagBit (pacingInForce s) 2 |||
      flagBit (pacingElapsed s) 3] ∧
    bytesAt d 9 3 = zeros 3 ∧ bytesAt d 12 4 = natLE 4 c.hold.count := by
  simp [captureSection, byteOf, entriesIn]

theorem rollbackSection_layout (s : State) :
    let d := rollbackSection s
    let r := s.rollback
    let slot := fun x : Option Nat => (x.map (natLE 4)).getD [0xFF, 0xFF, 0xFF, 0xFF]
    d.length = 56 ∧ bytesAt d 0 1 = [phaseByte r.phase] ∧ bytesAt d 1 1 = [originByte r.origin] ∧
    bytesAt d 2 1 = [flagBit r.ackMark 0 ||| flagBit r.pendingLine 1] ∧ bytesAt d 3 1 = [refusalByte r.lastRefusal] ∧
    bytesAt d 4 1 = [(r.failure.map fun f => walkCauseByte f.cause).getD 0] ∧ bytesAt d 5 3 = zeros 3 ∧
    bytesAt d 8 4 = bytesLE 4 ((r.target.map (·.number)).getD 0xFFFFFFFF#32) ∧
    bytesAt d 12 4 = slot (r.target.map (·.slot)) ∧ bytesAt d 16 4 = slot r.undoLimit ∧
    bytesAt d 20 4 = slot r.undoPointer ∧ bytesAt d 24 4 = natLE 4 r.remaining ∧
    bytesAt d 28 4 = slot (r.failure.map (·.slot)) ∧
    bytesAt d 32 4 = natLE 4 ((r.failure.map (·.remaining)).getD 0) ∧
    bytesAt d 36 4 = bytesLE 4 s.alerts.recordsUndone ∧
    bytesAt d 40 8 = bytesLE 8 ((r.target.map (·.seq)).getD 0xFFFFFFFFFFFFFFFF#64) ∧
    bytesAt d 48 8 = bytesLE 8 (r.lastUndone.getD 0xFFFFFFFFFFFFFFFF#64) := by
  simp only [← slotLE_eq]
  simp [rollbackSection, checkpointField, seqField]
  cases s.rollback.failure with
  | none => rfl
  | some f => rfl

theorem adoptionSection_layout (s : State) :
    let d := adoptionSection s
    let a := s.scan
    let slot := fun x : Option Nat => (x.map (natLE 4)).getD [0xFF, 0xFF, 0xFF, 0xFF]
    d.length = 24 ∧ bytesAt d 0 1 = [scanResultByte a.result] ∧ bytesAt d 1 1 = [scanCauseByte a.endCause] ∧
    bytesAt d 2 2 = [0, 0] ∧ bytesAt d 4 4 = slot a.start ∧ bytesAt d 8 4 = slot a.pointer ∧
    bytesAt d 12 4 = slot a.endSlot ∧ bytesAt d 16 4 = natLE 4 a.scanned ∧ bytesAt d 20 4 = bytesLE 4 a.dropped := by
  simp only [← slotLE_eq, ← zeros_two]
  simp [adoptionSection]

theorem pathSection_layout (s : State) :
    let d := pathSection s
    d.length = 24 ∧
    (∀ n : Fin 8, bytesAt d n.val 1 = [BitVec.ofNat 8 s.up.ingress[n.val].length] ∧
      bytesAt d (8 + n.val) 1 = [holdReasonByte (holdReason s n)]) ∧
    bytesAt d 16 1 = [BitVec.ofNat 8 s.up.position.val] ∧ bytesAt d 17 1 = [if gateClosed s then 1 else 0] ∧
    bytesAt d 18 1 = [BitVec.ofNat 8 s.down.outgoing.length] ∧
    bytesAt d 19 1 = [BitVec.ofNat 8 (s.down.outstanding.toList.countP fun t => t != .free)] ∧
    bytesAt d 20 1 = [BitVec.ofNat 8 (s.down.outstanding.toList.countP fun t => t == .abandoned)] ∧
    bytesAt d 21 3 = zeros 3 := by
  have tables (n : Fin 8) : bytesAt (pathSection s) n.val 1 = [BitVec.ofNat 8 s.up.ingress[n.val].length] ∧
      bytesAt (pathSection s) (8 + n.val) 1 = [holdReasonByte (holdReason s n)] := by
    have bound := n.isLt
    unfold pathSection
    constructor
    · rw [List.append_assoc, List.append_assoc, bytesAt_append_of_add_le (by simp), bytesAt_map_one _ _ _ (by simp)]
      simp [byteOf]
    · rw [List.append_assoc, List.append_assoc, bytesAt_append_of_le (by simp), bytesAt_append_of_add_le (by simp),
        bytesAt_map_one _ _ _ (by simp)]
      simp
  refine ⟨by simp [pathSection], tables, ?_⟩
  simp [pathSection, byteOf, boolByte, tagsInUse, tagsAbandoned]

theorem frozenBits_eq (s : State) : frozenBits s = if s.alerts.frz then s.alerts.freezeMask.setWidth 8 else 0 := by
  unfold frozenBits frozen
  generalize s.alerts.frz = level
  generalize s.alerts.freezeMask = mask
  revert level mask
  decide

theorem alertsSection_layout (s : State) :
    let d := alertsSection s
    let a := s.alerts
    d.length = 36 ∧ bytesAt d 0 2 = bytesLE 2 (a.latches.setWidth 16) ∧ bytesAt d 2 2 = bytesLE 2 (a.mask.setWidth 16) ∧
    bytesAt d 4 1 = [BitVec.ofNat 8 s.cls.violations.length] ∧
    bytesAt d 5 1 = [flagBit s.cls.violationLost 0 ||| flagBit a.frz 1 ||| flagBit s.rollback.fltreq 2 |||
      flagBit s.lines.rback 3] ∧
    bytesAt d 6 1 = [a.freezeMask.setWidth 8] ∧
    bytesAt d 7 1 = [if a.frz then a.freezeMask.setWidth 8 else 0] ∧ bytesAt d 8 1 = [s.port.address.setWidth 8] ∧
    bytesAt d 9 3 = zeros 3 ∧ bytesAt d 12 4 = bytesLE 4 a.capturesWritten ∧ bytesAt d 16 4 = bytesLE 4 a.filterHits ∧
    bytesAt d 20 4 = bytesLE 4 a.filterFull ∧ bytesAt d 24 4 = bytesLE 4 a.dataErrors ∧
    bytesAt d 28 4 = bytesLE 4 a.absorbed ∧ bytesAt d 32 4 = bytesLE 4 a.recordsUndone := by
  simp [alertsSection, byteOf, frozenBits_eq]

/-! ### GET_STATUS (R166) -/

/-- The sections do not show the port's read in progress. -/
theorem statusSection_withoutRead (s : State) (sec : Byte) :
    statusSection (withoutRead s) sec = statusSection s sec := rfl

theorem exec_getStatus_of_some {s : State} (ready : Ready s) {sec : Byte} {data : List Byte}
    (found : statusSection s sec = some data) : exec (.getStatus sec) s = .next (answered .ok 0x01 data s) := by
  rw [exec_of_ready (carry := doGetStatus sec) ready rfl, doGetStatus, statusSection_withoutRead, found, answered_eq]

theorem exec_getStatus_of_none {s : State} (ready : Ready s) {sec : Byte}
    (none_ : statusSection s sec = none) : exec (.getStatus sec) s = .next (answered .range 0x01 [] s) := by
  rw [exec_of_ready (carry := doGetStatus sec) ready rfl, doGetStatus, statusSection_withoutRead, none_, answered_eq]

theorem statusSection_eq_none {sec : Byte} (outside : sec.toNat < 1 ∨ 7 < sec.toNat) (s : State) :
    statusSection s sec = none := by
  have other {k : Byte} (inside : 1 ≤ k.toNat ∧ k.toNat ≤ 7) : sec ≠ k := by
    rintro rfl
    omega
  rw [statusSection, if_neg (other (by decide)), if_neg (other (by decide)), if_neg (other (by decide)),
    if_neg (other (by decide)), if_neg (other (by decide)), if_neg (other (by decide)), if_neg (other (by decide))]

/-- The numbers of the enumerated values (Table 11.5). -/
theorem enumerations_numbered :
    let numbers := fun from_ to_ : Nat => (List.range' from_ (to_ + 1 - from_)).map (BitVec.ofNat 8)
    [CtlState.unarmed, .armed, .rolling, .failed, .adopting].map ctlStateByte = numbers 0 4 ∧
    [Condition.intact, .holding, .broken].map conditionByte = numbers 0 2 ∧
    [none, some BreakCause.limit, some .holdTimeout, some .journalWrite, some .exhausted, some .markWrite].map breakByte =
      numbers 0 5 ∧
    [MarkReason.state, .noJournal, .exhausted, .journalFull, .writeError].map markReasonByte = numbers 1 5 ∧
    [Phase.idle, .waiting, .retract, .undo, .stopped].map phaseByte = numbers 0 4 ∧
    [none, some Origin.line, some .management].map originByte = numbers 0 2 ∧
    [WalkCause.readError, .check, .runStamp, .kind, .order, .writeError].map walkCauseByte = numbers 1 6 ∧
    [none, some LineRefusal.noCheckpoint, some .broken, some .state].map refusalByte = numbers 0 3 ∧
    [ScanResult.none, .adopted, .noAnchor, .noCheckpoint].map scanResultByte = numbers 0 3 ∧
    [ScanCause.none, .check, .runStamp, .kind, .order, .epoch, .foreignLine, .readError, .wrapped, .discard].map
      scanCauseByte = numbers 0 9 ∧
    [HoldReason.empty, .gate, .line, .markPending, .captureFull, .pacing, .downstreamFull, .none].map holdReasonByte =
      numbers 0 7 ∧
    [OverflowPolicy.break_, .hold].map policyByte = numbers 1 2 ∧ sourceByte .management = 0x80 ∧
    (∀ n : Fin 8, sourceByte (.initiator n) = BitVec.ofNat 8 n.val) ∧
    ∀ b k, flagBit b k = if b then 1#8 <<< k else 0 :=
  ⟨rfl, rfl, rfl, rfl, rfl, rfl, rfl, rfl, rfl, rfl, rfl, rfl, rfl, fun _ => rfl, fun _ _ => rfl⟩

/-- Settles O15: each section is laid out field by field. -/
theorem statusSections : Obligations.StatusSections := by
  unfold Obligations.StatusSections
  intro s
  refine ⟨enumerations_numbered, fun ready => ⟨exec_getStatus_of_some ready rfl, exec_getStatus_of_some ready rfl,
    exec_getStatus_of_some ready rfl, exec_getStatus_of_some ready rfl, exec_getStatus_of_some ready rfl,
    exec_getStatus_of_some ready rfl, exec_getStatus_of_some ready rfl,
    fun sec outside => exec_getStatus_of_none ready (statusSection_eq_none outside s)⟩, journalSection_layout s, ?_,
    captureSection_layout s, rollbackSection_layout s, adoptionSection_layout s, pathSection_layout s,
    alertsSection_layout s⟩
  obtain ⟨length, state, condition, lastBreak, count, flags, reason, source, value, gap, epoch, age, limit⟩ :=
    controllerSection_layout s
  refine ⟨length, state, condition, lastBreak, count, flags, fun m refused => ?_, fun never => ?_, gap, epoch, age, limit⟩
  · rw [reason, source, value, refused]
    exact ⟨rfl, rfl, rfl⟩
  · rw [reason, source, value, never]
    exact ⟨rfl, rfl, bytesLE_zero 8 64⟩

/-! ### The tables (R120, R167, R168, Table 11.4) -/

@[simp] theorem checkpointBytes_length (c : Checkpoint) : (checkpointBytes c).length = 32 := by simp [checkpointBytes]

theorem checkpointBytes_layout (c : Checkpoint) :
    bytesAt (checkpointBytes c) 0 4 = bytesLE 4 c.number ∧
    bytesAt (checkpointBytes c) 4 1 = [if c.status = .pending then 1 else 2] ∧
    bytesAt (checkpointBytes c) 5 1 = [sourceByte c.source] ∧ bytesAt (checkpointBytes c) 6 2 = [0, 0] ∧
    bytesAt (checkpointBytes c) 8 4 = (c.markSlot.map (natLE 4)).getD [0xFF, 0xFF, 0xFF, 0xFF] ∧
    bytesAt (checkpointBytes c) 12 4 = bytesLE 4 c.captures ∧
    bytesAt (checkpointBytes c) 16 8 = bytesLE 8 (c.markSeq.getD 0xFFFFFFFFFFFFFFFF#64) ∧
    bytesAt (checkpointBytes c) 24 8 = bytesLE 8 c.value := by
  have status : checkpointStatusByte c.status = if c.status = .pending then 1 else 2 := by
    cases c.status with
    | pending => rfl
    | established => rfl
  rw [← slotLE_eq, ← status, ← zeros_two]
  simp [checkpointBytes, seqField]

/-- In a table whose entries take `width` bytes each, entry `k` stands at `width * k`. -/
theorem bytesAt_flatMap {α : Type} {f : α → List Byte} {width : Nat} (fixed : ∀ x, (f x).length = width) (l : List α) :
    ∀ {k offset n : Nat} {x : α}, l[k]? = some x → offset + n ≤ width →
      bytesAt (l.flatMap f) (width * k + offset) n = bytesAt (f x) offset n := by
  induction l with
  | nil => exact fun found => nomatch found
  | cons y l ih =>
    intro k offset n x found within
    rw [List.flatMap_cons]
    cases k with
    | zero =>
      obtain rfl : y = x := Option.some.inj found
      rw [Nat.mul_zero, Nat.zero_add, bytesAt_append_of_add_le (by rw [fixed]; exact within)]
    | succ k =>
      rw [bytesAt_append_of_le (by rw [fixed, Nat.mul_succ]; omega), fixed,
        show width * (k + 1) + offset - width = width * k + offset by rw [Nat.mul_succ]; omega]
      exact ih found within

theorem checkpointsData_length (s : State) : (checkpointsData s).length = 1 + 32 * s.ctl.checkpoints.length := by
  simp [checkpointsData, List.length_flatMap, Nat.mul_comm, Nat.add_comm]

/-- The fields of entry `k` of the checkpoint list (Table 11.4). -/
theorem bytesAt_checkpointsData {s : State} {k : Nat} {c : Checkpoint} (found : s.ctl.checkpoints[k]? = some c)
    {offset n : Nat} (within : offset + n ≤ 32) :
    bytesAt (checkpointsData s) (1 + offset + 32 * k) n = bytesAt (checkpointBytes c) offset n := by
  rw [show 1 + offset + 32 * k = 32 * k + offset + 1 by omega, checkpointsData, bytesAt_cons_succ]
  exact bytesAt_flatMap checkpointBytes_length _ found within

theorem exec_getWindow_of_lt {s : State} (ready : Ready s) {i : Byte} (bound : i.toNat < 16) :
    exec (.getWindow i) s = .next (answered .ok 0x03 (windowBytes i s.cls.windows[i.toNat]) s) := by
  have entry : (withoutRead s).cls.windows[i.toNat]? = some s.cls.windows[i.toNat] := Vector.getElem?_eq_getElem bound
  rw [exec_of_ready (carry := doGetWindow i) ready rfl, doGetWindow, entry, answered_eq]

theorem exec_getInitiator_of_lt {s : State} (ready : Ready s) {n : Byte} (bound : n.toNat < 8) :
    exec (.getInitiator n) s = .next (answered .ok 0x04 (initiatorBytes n s.cls.initiators[n.toNat]) s) := by
  have entry : (withoutRead s).cls.initiators[n.toNat]? = some s.cls.initiators[n.toNat] :=
    Vector.getElem?_eq_getElem bound
  rw [exec_of_ready (carry := doGetInitiator n) ready rfl, doGetInitiator, entry, answered_eq]

/-- READ_VIOLATION removes the oldest violation (R120). -/
theorem exec_readViolation {s : State} (ready : Ready s) : exec .readViolation s =
    .next (answered .ok 0x05 (violationData (withoutRead s))
      { s with cls := { s.cls with violations := s.cls.violations.tail, violationLost := false } }) :=
  exec_of_ready (carry := doReadViolation) ready rfl

/-- Settles O16: the list entry by entry, and each table by the number of its entry. -/
theorem tableReads : Obligations.TableReads := by
  unfold Obligations.TableReads
  refine ⟨rfl, rfl, rfl, rfl, fun _ => rfl, fun s ready => ⟨?_, fun i bound => exec_getWindow_of_lt ready bound,
    fun i past => ?_, fun n bound => exec_getInitiator_of_lt ready bound, fun n past => ?_, fun none_ => ?_,
    fun v rest some_ => ?_⟩⟩
  · refine ⟨checkpointsData s, exec_of_ready (carry := doGetCheckpoints) ready rfl, checkpointsData_length s, rfl,
      fun k c found => ?_⟩
    obtain ⟨number, status, source, gap, slot, captures, seq, value⟩ := checkpointBytes_layout c
    exact ⟨(bytesAt_checkpointsData (offset := 0) found (by decide)).trans number,
      (bytesAt_checkpointsData (offset := 4) found (by decide)).trans status,
      (bytesAt_checkpointsData (offset := 5) found (by decide)).trans source,
      (bytesAt_checkpointsData (offset := 6) found (by decide)).trans gap,
      (bytesAt_checkpointsData (offset := 8) found (by decide)).trans slot,
      (bytesAt_checkpointsData (offset := 12) found (by decide)).trans captures,
      (bytesAt_checkpointsData (offset := 16) found (by decide)).trans seq,
      (bytesAt_checkpointsData (offset := 24) found (by decide)).trans value⟩
  · have none_ : (withoutRead s).cls.windows[i.toNat]? = none := Vector.getElem?_eq_none past
    rw [exec_of_ready (carry := doGetWindow i) ready rfl, doGetWindow, none_, answered_eq]
  · have none_ : (withoutRead s).cls.initiators[n.toNat]? = none := Vector.getElem?_eq_none past
    rw [exec_of_ready (carry := doGetInitiator n) ready rfl, doGetInitiator, none_, answered_eq]
  · have data : violationData (withoutRead s) = [0, 0, boolByte s.cls.violationLost] ++ zeros 9 := by
      have same : (withoutRead s).cls.violations = [] := none_
      rw [violationData, same]
      rfl
    have tail : s.cls.violations.tail = s.cls.violations := by
      rw [none_]
      rfl
    rw [exec_readViolation ready, data, tail]
    rfl
  · have data : violationData (withoutRead s) = [1, byteOf rest.length, boolByte s.cls.violationLost,
        byteOf v.initiator.val, v.tag, violationByte v.cause] ++ zeros 2 ++ bytesLE 4 (v.line.setWidth 32) := by
      have same : (withoutRead s).cls.violations = v :: rest := some_
      rw [violationData, same]
      rfl
    have tail : s.cls.violations.tail = rest := by
      rw [some_]
      rfl
    rw [exec_readViolation ready, data, tail]
    rfl

end Sys2Proof.Machine
end

section
/-! PROOFS. The reset values and the resets, and the levels of the lines (R21, R22, R71, R88, R138, R139, R147 to R152,
R178). -/

namespace Sys2Proof.Machine

/-! ### Power-on reset -/

/-- Settles O3: the reset state is a closed term, evaluated block by block. -/
theorem resetValues : Obligations.ResetValues := by
  unfold Obligations.ResetValues
  exact ⟨by decide, by decide, by decide, by decide, by decide, by decide, by decide, by decide, by decide⟩

theorem reset_sound : Sound State.reset := powerOn_sound State.reset

theorem reset_atRest : AtRest State.reset :=
  ⟨fun _ waiting => (nomatch waiting), fun _ wanted => (nomatch wanted), by decide, by decide⟩

/-- Settles O4: a power-on reset of the reset state is the reset state. -/
theorem invariantsAtReset : Obligations.InvariantsAtReset :=
  ⟨powerOn_capacities State.reset, reset_sound.distinct, reset_sound.quiet, reset_sound.phase, ⟨rfl, rfl⟩, reset_atRest,
    reset_sound⟩

/-! ### The reset lines -/

theorem tagState_powerOn (s : State) (tag : DownTag) : tagState (powerOn s) tag = .free := by
  show (Vector.replicate 64 TagState.free)[tag.val] = .free
  exact Vector.getElem_replicate _

theorem tagState_warmReset (s : State) (tag : DownTag) :
    tagState (warmReset s) tag = if tagState s tag = .free then .free else .abandoned := by
  have mapped : tagState (warmReset s) tag = (tagState s tag).abandon := Vector.getElem_map _ _
  rw [mapped]
  cases tagState s tag with
  | free => rfl
  | inUse source => rfl
  | abandoned => rfl

/-- A warm reset, the reset lines aside (R21, R138, R151). -/
theorem warmReset_resetsWarm (s : State) : ResetsWarm s (warmReset s) :=
  ⟨rfl, rfl, rfl, rfl, rfl, rfl, rfl, rfl, rfl, tagState_warmReset s, rfl, rfl, rfl, rfl⟩

/-- A power-on reset, the reset lines aside (R22, R139, R150). -/
theorem powerOn_resetsPower (s : State) : ResetsPower s (powerOn s) :=
  ⟨rfl, rfl, rfl, rfl, rfl, rfl, rfl, rfl, rfl, tagState_powerOn s, rfl, rfl, rfl, rfl⟩

theorem warmReset_withoutRead (s : State) : warmReset (withoutRead s) = warmReset s := rfl

/-- Settles O32: a warm reset and then its end, whose straps are a free value. -/
theorem resetCommandIsWarmReset : Obligations.ResetCommandIsWarmReset := by
  unfold Obligations.ResetCommandIsWarmReset
  intro s ready
  refine ⟨Config.strapsAtReset s.free, warmReset s, ?_, warmReset_resetsWarm s, rfl⟩
  rw [exec_of_ready (carry := commandReset) ready rfl, commandReset, warmReset_withoutRead]
  rfl

/-- Settles O33: an edge is seen where the line's level changes, and the end of a reset waits for both lines. -/
theorem resetLineEdges : Obligations.ResetLineEdges := by
  unfold Obligations.ResetLineEdges
  intro s levels
  show (_ → Host.Outcome.next (porstFalls s) = _) ∧ (_ → ∃ t, Host.Outcome.next (porstFalls s) = _ ∧ _) ∧
    (_ → Host.Outcome.next (porstRises levels s) = _) ∧ (_ → _ → Host.Outcome.next (porstRises levels s) = _) ∧
    (_ → _ → Host.Outcome.next (porstRises levels s) = _) ∧ (_ → Host.Outcome.next (wrstFalls s) = _) ∧
    (_ → _ → Host.Outcome.next (wrstFalls s) = _) ∧ (_ → _ → ∃ t, Host.Outcome.next (wrstFalls s) = _ ∧ _) ∧
    (_ → Host.Outcome.next (wrstRises levels s) = _) ∧ (_ → _ → Host.Outcome.next (wrstRises levels s) = _) ∧
    (_ → _ → Host.Outcome.next (wrstRises levels s) = _)
  unfold porstFalls porstRises wrstFalls wrstRises
  refine ⟨fun low => ?_, fun high => ?_, fun high => ?_, fun low other => ?_, fun low other => ?_, fun low => ?_,
    fun high low => ?_, fun high other => ?_, fun high => ?_, fun low other => ?_, fun low other => ?_⟩
  · rw [if_pos low]
  · rw [if_neg (by rw [high]; decide)]
    exact ⟨_, rfl, powerOn_resetsPower s, rfl⟩
  · rw [if_neg (by rw [high]; decide)]
  · rw [if_pos low]
    exact congrArg _ (if_pos other)
  · rw [if_pos low]
    exact congrArg _ (if_neg (by show ¬ s.lines.wrstLow = true; rw [other]; decide))
  · rw [if_pos low]
  · rw [if_neg (by rw [high]; decide), if_pos low]
  · rw [if_neg (by rw [high]; decide), if_neg (by rw [other]; decide)]
    exact ⟨_, rfl, warmReset_resetsWarm s, rfl⟩
  · rw [if_neg (by rw [high]; decide)]
  · rw [if_pos low]
    exact congrArg _ (if_pos other)
  · rw [if_pos low]
    exact congrArg _ (if_neg (by show ¬ s.lines.porstLow = true; rw [other]; decide))

/-! ### FLTREQ and FRZ -/

theorem fltreqFalls_of_held {s : State} (isHeld : held s = true) : fltreqFalls s = s := if_pos isHeld

theorem fltreqFalls_of_not_held {s : State} (notHeld : held s = false) : fltreqFalls s =
    { s with rollback := { s.rollback with fltreq := false }, lines := { s.lines with rback := false } } :=
  if_neg (by rw [notHeld]; decide)

theorem setFrz_of_held {s : State} (level : Bool) (isHeld : held s = true) : setFrz level s = s := if_pos isHeld

theorem setFrz_of_not_held {s : State} (level : Bool) (notHeld : held s = false) :
    setFrz level s = { s with alerts := { s.alerts with frz := level } } := if_neg (by rw [notHeld]; decide)

/-- Settles O60: the levels are seen outside a reset. -/
theorem levelChanges : Obligations.LevelChanges := by
  unfold Obligations.LevelChanges
  intro s
  exact ⟨fun isHeld => ⟨congrArg _ (fltreqFalls_of_held isHeld), congrArg _ (setFrz_of_held true isHeld),
      congrArg _ (setFrz_of_held false isHeld)⟩,
    fun notHeld => ⟨congrArg _ (fltreqFalls_of_not_held notHeld), congrArg _ (setFrz_of_not_held true notHeld),
      congrArg _ (setFrz_of_not_held false notHeld)⟩⟩

end Sys2Proof.Machine
end

section
/-! PROOFS. The memory path: arrivals, the treatment of a request, the arbiter, acceptance and issue, and the completions that
end with an answer or are discarded (R115 to R117, R124 to R126, R129 to R133, R135 to R139). -/

namespace Sys2Proof.Machine

/-! ### Arrivals and issue -/

/-- Settles O34: the credit is spent in any case, and the two conditions decide on the queue. -/
theorem arrivalJudged : Obligations.ArrivalJudged := by
  unfold Obligations.ArrivalJudged
  intro s r
  refine ⟨fun discarded => congrArg Host.Outcome.next ?_, fun notHeld room => congrArg Host.Outcome.next ?_⟩
  · rcases discarded with isHeld | full
    · exact if_pos isHeld
    · exact ite_eq_left_iff.2 fun _ => if_pos full
  · exact (if_neg (by show ¬ held s = true; rw [notHeld]; decide)).trans (if_neg (Nat.not_le.2 room))

/-- Settles O40: the port issues the front request where it is not held and the tag is free. -/
theorem downstreamIssue : Obligations.DownstreamIssue := by
  unfold Obligations.DownstreamIssue
  intro s tag
  show (∀ e rest, _ → _ → _ → Host.Outcome.next (issue tag s) = _) ∧ (_ → Host.Outcome.next (issue tag s) = _)
  unfold issue
  refine ⟨fun e rest front notHeld free => ?_, fun stays => ?_⟩
  · have may : (!held s && tagState s tag == .free) = true := by rw [notHeld, free]; rfl
    rw [front]
    exact congrArg Host.Outcome.next (if_pos may)
  · split
    · rfl
    · next e rest front =>
      have mayNot : ¬ (!held s && tagState s tag == .free) = true := by
        rw [Bool.and_eq_true, Bool.not_eq_true', beq_iff_eq]
        rintro ⟨notHeld, free⟩
        rcases stays with empty | isHeld | inUse
        · exact absurd (empty.symm.trans front) (List.cons_ne_nil _ _).symm
        · exact absurd isHeld (by rw [notHeld]; decide)
        · exact inUse free
      rw [if_neg mayNot]

/-! ### Treatment (Table 6.2) -/

/-- The entry is enabled and its granules hold `granule` (R108). -/
def WindowHolds (w : Window) (granule : Nat) : Prop :=
  w.enabled = true ∧ w.base ≤ granule ∧ granule < w.base + w.size

theorem windowHolds_iff (w : Window) (granule : Nat) :
    (w.enabled && decide (w.base ≤ granule) && decide (granule < w.base + w.size)) = true ↔ WindowHolds w granule := by
  rw [Bool.and_eq_true, Bool.and_eq_true, decide_eq_true_iff, decide_eq_true_iff, and_assoc, WindowHolds]

theorem windowOf_eq_none {s : State} {granule : Nat} (none_ : ∀ i : Fin 16, ¬ WindowHolds s.cls.windows[i.val] granule) :
    windowOf s granule = none := by
  rw [windowOf, List.find?_eq_none]
  intro w member
  obtain ⟨i, bound, rfl⟩ := List.getElem_of_mem member
  rw [windowHolds_iff, Vector.getElem_toList]
  exact none_ ⟨i, by simpa using bound⟩

/-- Where one entry alone holds the granule, it is the entry found. -/
theorem windowOf_eq_some {s : State} {granule : Nat} {k : Fin 16} (holds : WindowHolds s.cls.windows[k.val] granule)
    (alone : ∀ i : Fin 16, i ≠ k → ¬ WindowHolds s.cls.windows[i.val] granule) :
    windowOf s granule = some s.cls.windows[k.val] := by
  cases found : windowOf s granule with
  | none =>
    rw [windowOf, List.find?_eq_none] at found
    exact absurd ((windowHolds_iff _ _).2 holds) (found _ (by simp))
  | some w =>
    rw [windowOf] at found
    have test := (windowHolds_iff w granule).1 (List.find?_some (p := fun w : Window =>
      w.enabled && decide (w.base ≤ granule) && decide (granule < w.base + w.size)) found)
    obtain ⟨i, bound, rfl⟩ := List.getElem_of_mem (List.mem_of_find?_eq_some found)
    rw [Vector.getElem_toList] at test ⊢
    have bound16 : i < 16 := by simpa using bound
    by_cases same : (⟨i, bound16⟩ : Fin 16) = k
    · rw [← same]
    · exact absurd test (alone ⟨i, bound16⟩ same)

theorem inJournal_iff (j : Journal) (line : LineAddr) : inJournal j line = true ↔
    j.configured = true ∧ j.config.base.toNat / 64 ≤ line.toNat ∧
      line.toNat < j.config.base.toNat / 64 + 2 * j.config.slots := by
  rw [inJournal, Bool.and_eq_true, Bool.and_eq_true, decide_eq_true_iff, decide_eq_true_iff, and_assoc]
  rfl

theorem capturing_iff (s : State) : capturing s = true ↔ s.ctl.state = .armed ∧ s.ctl.condition ≠ .broken := by
  rw [capturing, Bool.and_eq_true, beq_iff_eq, bne_iff_ne]

theorem treatment_of_read {s : State} {r : UpRequest} (read : r.access = .read) :
    treatment s r = .pass (targetOf s r.line == .window .guarded) := by
  unfold treatment
  rw [read]

theorem markerWrite_of_notCell {s : State} {r : UpRequest} {mask : ByteMask} {data : LineData}
    (partial_ : mask.extractLsb' 0 8 ≠ 0xFF#8) : markerWrite s r mask data = .pass false :=
  if_neg fun cell => partial_ (beq_iff_eq.1 cell)

theorem markerWrite_of_cell {s : State} {r : UpRequest} {mask : ByteMask} {data : LineData}
    (cell : mask.extractLsb' 0 8 = 0xFF#8) : markerWrite s r mask data =
      if s.cls.initiators[r.initiator.val].permission then .passMark (data.extractLsb' 0 64) else .passUnpermitted :=
  if_pos (beq_iff_eq.2 cell)

/-- The treatment of a TRACKED initiator's write to a GUARDED window (R23, R24, R116). -/
theorem guardedWrite_of_tracked {s : State} {r : UpRequest} {mask : ByteMask} {data : LineData}
    (tracked : s.cls.initiators[r.initiator.val].cls = .tracked) : guardedWrite s r mask data =
      if capturing s then (if s.capture.filter.contains r.line then .filterHit else .capture mask data)
      else .pass true := by
  rw [guardedWrite, initiatorOf, tracked]

/-- Settles O35: the three cases of R115 and then the rows of Table 6.2. -/
theorem treatmentTable : Obligations.TreatmentTable := by
  unfold Obligations.TreatmentTable
  intro s r mask data
  refine ⟨fun area => ?_, fun noArea k holds alone => ?_, fun noArea none_ => ?_, treatment_of_read, fun write => ?_⟩
  · rw [targetOf, if_pos ((inJournal_iff _ _).2 area)]
  · rw [targetOf, if_neg fun area => noArea ((inJournal_iff _ _).1 area)]
    have found : windowOf s (granuleOf r.line) = some s.cls.windows[k.val] := windowOf_eq_some holds alone
    rw [found]
  · rw [targetOf, if_neg fun area => noArea ((inJournal_iff _ _).1 area)]
    have found : windowOf s (granuleOf r.line) = none := windowOf_eq_none none_
    rw [found]
  · unfold treatment
    rw [write]
    refine ⟨fun ordinary => ?_, fun area => ?_, fun frozen => ?_, fun marker => ?_, fun guarded => ?_⟩
    · rw [ordinary]
    · rw [area]
    · rw [frozen]
    · rw [marker]
      refine ⟨markerWrite_of_notCell, fun cell permitted => ?_, fun cell unpermitted => ?_⟩
      · exact (markerWrite_of_cell cell).trans (if_pos permitted)
      · exact (markerWrite_of_cell cell).trans (if_neg (by rw [unpermitted]; decide))
    · rw [guarded]
      refine ⟨fun blocked => ?_, fun untracked => ?_, fun tracked closed => ?_, fun tracked armed whole => ?_⟩
      · show guardedWrite s r mask data = _
        rw [guardedWrite, initiatorOf, blocked]
      · show guardedWrite s r mask data = _
        rw [guardedWrite, initiatorOf, untracked]
      · refine (guardedWrite_of_tracked tracked).trans (if_neg fun open_ => ?_)
        obtain ⟨armed, whole⟩ := (capturing_iff s).1 open_
        exact closed.elim (fun other => other armed) whole
      · have chosen_ := (guardedWrite_of_tracked (mask := mask) (data := data) tracked).trans
          (if_pos ((capturing_iff s).2 ⟨armed, whole⟩))
        exact ⟨fun hit => chosen_.trans (if_pos (List.contains_iff_mem.2 hit)),
          fun miss => chosen_.trans (if_neg fun hit => miss (List.contains_iff_mem.1 hit))⟩

/-! ### The arbiter (R129) -/

/-- The place of an initiator in the arbiter's order, counted from 0. -/
def arbiterRank (position n : Fin 8) : Fin 8 := n - position - 1

theorem arbiterOrder_eq (position : Fin 8) :
    arbiterOrder position = (List.finRange 8).map fun k => position + 1 + k := by
  revert position
  decide

theorem arbiterRank_eq_iff (position n k : Fin 8) : arbiterRank position n = k ↔ n = position + 1 + k := by
  revert position n k
  decide

theorem mem_arbiterOrder (position n : Fin 8) : n ∈ arbiterOrder position := by
  rw [arbiterOrder_eq, List.mem_map]
  exact ⟨arbiterRank position n, List.mem_finRange _, ((arbiterRank_eq_iff _ _ _).1 rfl).symm⟩

/-- The first of the order that passes a test is the one of least rank that passes it. -/
theorem find?_arbiterOrder_iff (position n : Fin 8) (p : Fin 8 → Bool) :
    (arbiterOrder position).find? p = some n ↔
      p n = true ∧ ∀ m, arbiterRank position m < arbiterRank position n → p m = false := by
  have place (k : Nat) (h : k < (arbiterOrder position).length) :
      (arbiterOrder position)[k] = position + 1 + ⟨k, by simpa [arbiterOrder] using h⟩ := by
    simp [arbiterOrder_eq]
  have bound (m : Fin 8) : (arbiterRank position m).val < (arbiterOrder position).length := (arbiterRank position m).isLt
  rw [List.find?_eq_some_iff_getElem]
  refine and_congr_right fun _ => ⟨?_, fun first => ?_⟩
  · rintro ⟨k, h, found, before⟩ m rank
    rw [place] at found
    have rankN := (arbiterRank_eq_iff _ _ _).2 found.symm
    rw [rankN] at rank
    have test := before (arbiterRank position m).val rank
    rw [place] at test
    have same : position + 1 + arbiterRank position m = m := ((arbiterRank_eq_iff _ _ _).1 rfl).symm
    rw [Fin.eta, same] at test
    simpa using test
  · refine ⟨(arbiterRank position n).val, bound n, ?_, fun k less => ?_⟩
    · rw [place]
      exact ((arbiterRank_eq_iff _ _ _).1 rfl).symm
    · rw [place, first]
      · rfl
      · rw [(arbiterRank_eq_iff _ _ _).2 rfl]
        exact less

theorem chosen_eq_some_iff (s : State) (n : Fin 8) : chosen s = some n ↔ holdReason s n = .none ∧
    ∀ m, arbiterRank s.up.position m < arbiterRank s.up.position n → holdReason s m ≠ .none := by
  rw [chosen, find?_arbiterOrder_iff, beq_iff_eq]
  simp only [beq_eq_false_iff_ne]

theorem chosen_eq_none_iff (s : State) : chosen s = none ↔ ∀ n, holdReason s n ≠ .none := by
  rw [chosen, List.find?_eq_none]
  simp only [beq_iff_eq]
  exact ⟨fun h n => h n (mem_arbiterOrder _ n), fun h n _ => h n⟩

/-! ### Acceptance (R130) -/

/-- The chosen initiator's head is accepted. -/
theorem exec_acceptance_of_chosen {s : State} {n : Fin 8} {r : UpRequest} {rest : List UpRequest} (c : chosen s = some n)
    (head : s.up.ingress[n.val] = r :: rest) :
    exec .acceptance s = .next (treat r (treatment s r) (popIngress n rest s)) := by
  rw [exec_acceptance, accept, c]
  dsimp only
  rw [head]

/-- The first step of a treatment leaves the credits and the position to the acceptance. -/
theorem treat_credits_position (r : UpRequest) (t : Treatment) (s : State) :
    (treat r t s).up.credits = s.up.credits ∧ (treat r t s).up.position = s.up.position := by
  cases t with
  | pass guarded => exact ⟨rfl, rfl⟩
  | passUnpermitted =>
    rw [treat, recordViolation_up, passRequest_up]
    exact ⟨rfl, rfl⟩
  | passMark value =>
    have marked := (requestMarkFrom_keeps (.initiator r.initiator) value (passRequest r false s)).trans (finish_keeps _)
    exact ⟨marked.credits, marked.position⟩
  | denied cause =>
    rw [treat, recordViolation_up]
    exact ⟨rfl, rfl⟩
  | filterHit => exact ⟨rfl, rfl⟩
  | capture mask data => exact ⟨rfl, rfl⟩

/-- Settles O36: the arbiter's order by rank from the position, and the head that leaves its queue. -/
theorem arbiterChoice : Obligations.ArbiterChoice := by
  unfold Obligations.ArbiterChoice
  intro s
  refine ⟨chosen_eq_some_iff s, chosen_eq_none_iff s, fun none_ => ?_, fun n r rest eligible head first => ?_⟩
  · rw [exec_acceptance, accept, (chosen_eq_none_iff s).2 none_]
  · refine ⟨_, exec_acceptance_of_chosen ((chosen_eq_some_iff s n).2 ⟨eligible, first⟩) head, ?_⟩
    obtain ⟨credits, position⟩ := treat_credits_position r (treatment s r) (popIngress n rest s)
    rw [treat_ingress, credits, position, popIngress_up]
    refine ⟨rfl, Vector.getElem_set_self _, Vector.getElem_set_self _, fun m other => ?_⟩
    have apart : n.val ≠ m.val := fun same => other (Fin.ext same.symm)
    exact ⟨Vector.getElem_set_ne n.isLt m.isLt apart, Vector.getElem_set_ne n.isLt m.isLt apart⟩

/-- Settles O38: each treatment's first step, on the state without the request. -/
theorem acceptanceByTreatment : Obligations.AcceptanceByTreatment := by
  unfold Obligations.AcceptanceByTreatment
  intro s n r rest c head
  rw [exec_acceptance_of_chosen c head]
  refine ⟨fun g pass => ?_, fun unpermitted => ?_, fun cause denied => ?_, fun hit => ?_, fun mask data miss => ?_⟩
  · rw [pass]
    rfl
  · rw [unpermitted]
    show Host.Outcome.next (recordViolation _ _ _) = _
    unfold recordViolation
    exact congrArg Host.Outcome.next (ite_congr rfl (fun _ => rfl) fun _ => rfl)
  · rw [denied]
    show Host.Outcome.next (recordViolation _ _ _) = _
    unfold recordViolation
    exact congrArg Host.Outcome.next (ite_congr rfl (fun _ => rfl) fun _ => rfl)
  · rw [hit]
    rfl
  · rw [miss]
    rfl

/-! ### Completions that are discarded or answered -/

/-- Settles O41: each completion's row first asks what its tag stands for. -/
theorem discardedCompletions : Obligations.DiscardedCompletions := by
  unfold Obligations.DiscardedCompletions
  intro s tag x e
  refine ⟨fun abandoned => ?_, fun other => ?_, rfl, fun other => ?_, fun other => ?_, fun other => ?_, fun other => ?_,
    fun other => ?_, fun other => ?_, fun other => ?_, fun other => ?_⟩
  · show execAbandonedCompletion tag x s = _
    rw [execAbandonedCompletion, abandoned]
    rfl
  · show execAbandonedCompletion tag x s = _
    unfold execAbandonedCompletion
    split
    · next h => exact absurd h other
    · rfl
  · show execPassedRequestCompletion tag x s = _
    unfold execPassedRequestCompletion
    split
    · next n t isRead guarded h => exact absurd h (other n t isRead guarded)
    · rfl
  · show execOldLineReadCompletion tag x s = _
    unfold execOldLineReadCompletion
    split
    · next id h => exact absurd h (other id)
    · rfl
  · show execForwardedWriteCompletion tag e s = _
    unfold execForwardedWriteCompletion
    split
    · next id h => exact absurd h (other id)
    · rfl
  · show execJournalWriteCompletion tag e s = _
    unfold execJournalWriteCompletion
    split
    · next slot half h => exact absurd h (other slot half)
    · rfl
  · show execUndoReadCompletion tag x s = _
    unfold execUndoReadCompletion
    split
    · next slot half h => exact absurd h (other slot half)
    · rfl
  · show execUndoWriteCompletion tag e s = _
    unfold execUndoWriteCompletion
    split
    · next slot h => exact absurd h (other slot)
    · rfl
  · show execVoidWriteCompletion tag e s = _
    unfold execVoidWriteCompletion
    split
    · next slot h => exact absurd h (other slot)
    · rfl
  · show execScanReadCompletion tag x s = _
    unfold execScanReadCompletion
    split
    · next run slot half h => exact absurd h (other run slot half)
    · rfl

/-- A counter rises by one and stops at its largest value (R144). -/
theorem satInc_toNat (c : BitVec 32) : (satInc c).toNat = min (c.toNat + 1) 0xFFFFFFFF := by
  unfold satInc
  split
  · next full =>
    rw [full]
    rfl
  · next room => bv_omega

theorem exec_passedRequest {s : State} {tag : DownTag} {n : Fin 8} {t : Byte} {isRead guarded : Bool}
    (use : tagState s tag = .inUse (.passed n t isRead guarded)) (x : ReadResult) :
    exec (.passedRequestCompletion tag x) s = .next (finish (passedDone n t isRead x (setTag tag .free s))) := by
  show execPassedRequestCompletion tag x s = _
  rw [execPassedRequestCompletion, use]

/-- Settles O42: the answer by the result, and then the event's end. -/
theorem passedRequestCompletes : Obligations.PassedRequestCompletes := by
  unfold Obligations.PassedRequestCompletes
  refine ⟨satInc_toNat, fun s tag n t isRead guarded line use => ⟨?_, ?_⟩⟩
  · rw [exec_passedRequest use]
    rfl
  · rw [exec_passedRequest use]
    rfl

end Sys2Proof.Machine
end

section
/-! PROOFS. Mark requests: the four steps of R54, the mark point, and the exhaustion of a counter (R11, R53 to R59, R63,
R173). -/

namespace Sys2Proof.Machine

/-! ### The four steps of R54 -/

theorem gateClosed_of_open {s : State} (open_ : s.ctl.state = .unarmed ∨ s.ctl.state = .armed) : gateClosed s = false := by
  rw [gateClosed]
  rcases open_ with h | h
  · rw [h]
  · rw [h]

theorem countersSpent_iff (j : Journal) : countersSpent j = true ↔
    j.exhausted = true ∨ j.seq = 0xFFFFFFFFFFFFFFFF#64 ∨ j.nextCheckpoint = 0xFFFFFFFF#32 := by
  rw [countersSpent, Bool.or_eq_true, Bool.or_eq_true, beq_iff_eq, beq_iff_eq, or_assoc]

theorem markVerdict_of_closed {s : State} (closed : gateClosed s = true) : markVerdict s = .refused .state := if_pos closed

section open_
variable {s : State} (open_ : s.ctl.state = .unarmed ∨ s.ctl.state = .armed)
include open_

theorem markVerdict_of_unconfigured (unconfigured : s.journal.configured = false) :
    markVerdict s = .refused .noJournal := by
  rw [markVerdict, gateClosed_of_open open_, unconfigured]
  rfl

theorem markVerdict_of_spent (configured : s.journal.configured = true) (spent : countersSpent s.journal = true) :
    markVerdict s = .refused .exhausted := by
  rw [markVerdict, gateClosed_of_open open_, configured, spent]
  rfl

theorem markVerdict_of_unspent (configured : s.journal.configured = true) (unspent : countersSpent s.journal = false) :
    markVerdict s = if hasPending s then .held else .taken := by
  rw [markVerdict, gateClosed_of_open open_, configured, unspent]
  rfl

end open_

/-! ### Exhaustion (R11) -/

theorem endHold_withoutRead (s : State) : endHold (withoutRead s) = withoutRead (endHold s) := by
  unfold endHold
  rw [apply_ite withoutRead]
  rfl

/-- Entries that go without a record leave the port as it is. -/
theorem letGo_withoutRead (p : CaptureEntry → Bool) (s : State) : letGo p (withoutRead s) = withoutRead (letGo p s) := by
  unfold letGo
  dsimp only
  rw [foldl_forwardEntry fun _ => false, foldl_forwardEntry fun _ => false, ← endHold_withoutRead]
  rfl

theorem enterExhaustion_withoutRead (s : State) : enterExhaustion (withoutRead s) = withoutRead (enterExhaustion s) := by
  unfold enterExhaustion exhaustBreak
  rw [apply_ite withoutRead, apply_ite withoutRead, ← letGo_withoutRead]
  rfl

/-- Settles O24: the entries let go, and the flag and the latch set. -/
theorem exhaustionBreaks : Obligations.ExhaustionBreaks := by
  unfold Obligations.ExhaustionBreaks
  intro s distinct unspent
  have enters : enterExhaustion s = exhaustBreak (setExhausted s) := if_neg (by rw [unspent]; decide)
  rw [enters]
  refine ⟨fun armed whole => ?_, fun stands => ?_⟩
  · have breaks : exhaustBreak (setExhausted s) = letGo (fun _ => true) (noteExhaustedBreak (setExhausted s)) :=
      if_pos ⟨armed, whole⟩
    rw [breaks, letGo_eq (fun _ => true) (noteExhaustedBreak (setExhausted s)) distinct.1]
    exact ⟨(setUnrecorded s.journal.seq s).alerts.unrecordedAt, rfl⟩
  · exact if_neg fun breaks => stands.elim (fun other => other breaks.1) breaks.2

/-! ### The MARK command -/

theorem exec_mark {s : State} (ready : Ready s) (v : BitVec 64) :
    exec (.mark v) s = .next (finish (judgeMarkCommand v (withoutRead s))) :=
  exec_of_ready (carry := doMark v) ready rfl

/-- A refused MARK (R56, R63). -/
theorem exec_mark_refused {s : State} (ready : Ready s) {v : BitVec 64} {reason : MarkReason}
    (verdict : markVerdict s = .refused reason) : exec (.mark v) s =
      .next (finish (respond (refuseStatus s reason) 0x20 [] (refuseMark .management v reason (withoutRead s)))) := by
  have same : markVerdict (withoutRead s) = .refused reason := verdict
  rw [exec_mark ready, judgeMarkCommand, same]
  rfl

/-- Settles O23: the verdict of R54, step by step. -/
theorem markNotTaken : Obligations.MarkNotTaken := by
  unfold Obligations.MarkNotTaken
  intro s v ready
  refine ⟨fun busy => ?_, fun failed => ?_, fun open_ unconfigured => ?_, fun open_ configured spent => ?_,
    fun open_ configured unspent pending => ?_⟩
  · have closed : gateClosed s = true := (gateClosed_iff s).2 (busy.imp_right .inr)
    have status : refuseStatus s .state = .busy := by
      rcases busy with rolling | adopting
      · rw [refuseStatus, rolling]
        rfl
      · rw [refuseStatus, adopting]
        rfl
    rw [exec_mark_refused ready (markVerdict_of_closed closed), status]
    rfl
  · have closed : gateClosed s = true := (gateClosed_iff s).2 (.inr (.inl failed))
    have status : refuseStatus s .state = .state := if_pos failed
    rw [exec_mark_refused ready (markVerdict_of_closed closed), status]
    rfl
  · rw [exec_mark_refused ready (markVerdict_of_unconfigured open_ unconfigured)]
    rfl
  · rw [exec_mark_refused ready (markVerdict_of_spent open_ configured ((countersSpent_iff _).2 spent))]
    have refusal : refuseMark .management v .exhausted (withoutRead s) =
        noteRefused .management v .exhausted (withoutRead (enterExhaustion s)) := by
      rw [← enterExhaustion_withoutRead]
      rfl
    rw [refusal]
    rfl
  · have held_ : markVerdict (withoutRead s) = .held :=
      (markVerdict_of_unspent open_ configured (Bool.eq_false_iff.2 fun h => unspent ((countersSpent_iff _).1 h))).trans
        (if_pos pending)
    rw [exec_mark ready, judgeMarkCommand, held_]
    rfl

/-- Settles O25: the mark point of a MARK command, whose slot stays EXECUTING. -/
theorem markTaken : Obligations.MarkTaken := by
  unfold Obligations.MarkTaken
  intro s v ready open_ configured unexhausted seqLeft numberLeft free
  have unspent : countersSpent s.journal = false := by
    rw [Bool.eq_false_iff, Ne, countersSpent_iff]
    rintro (exhausted | seq | number)
    · exact absurd exhausted (by rw [unexhausted]; decide)
    · exact seqLeft seq
    · exact numberLeft number
  have taken : markVerdict (withoutRead s) = .taken :=
    (markVerdict_of_unspent open_ configured unspent).trans (if_neg (by rw [free]; decide))
  refine ⟨_, ?_, markPoint_eq .management v
    { s with port := { s.port with slot := .executing (.mark v true), reading := none } }⟩
  rw [exec_mark ready, judgeMarkCommand, taken]
  rfl

/-! ### A marker write's mark request (R53) -/

/-- A marker write that is accepted finds no mark pending (R55). -/
theorem hasPending_of_marker_chosen {s : State} {n : Fin 8} {r : UpRequest} {rest : List UpRequest} {v : BitVec 64}
    (c : chosen s = some n) (head : s.up.ingress[n.val] = r :: rest) (mark : treatment s r = .passMark v) :
    hasPending s = false := by
  have free : requestHold s r = .none := (holdReason_of_cons head).symm.trans (holdReason_of_chosen c)
  exact Bool.eq_false_iff.2 fun pending => (requestHold_eq_none_iff s r).1 free (.mark ⟨⟨v, mark⟩, pending⟩)

/-- The state after a marker write has been passed, before its mark request is judged. -/
def markerPassed (n : Fin 8) (r : UpRequest) (rest : List UpRequest) (s : State) : State :=
  passRequest r false (popIngress n rest s)

theorem exec_acceptance_marker {s : State} {n : Fin 8} {r : UpRequest} {rest : List UpRequest} {v : BitVec 64}
    (c : chosen s = some n) (head : s.up.ingress[n.val] = r :: rest) (mark : treatment s r = .passMark v) :
    exec .acceptance s = .next (finish (requestMarkFrom (.initiator r.initiator) v (markerPassed n r rest s))) := by
  rw [exec_acceptance_of_chosen c head, mark]
  rfl

/-- Settles O39: the steps of R54 on the state in which the write has been passed. -/
theorem markerWriteRequestsMark : Obligations.MarkerWriteRequestsMark := by
  unfold Obligations.MarkerWriteRequestsMark
  intro s n r rest v c head mark
  rw [exec_acceptance_marker c head mark]
  refine ⟨fun closed => ?_, fun open_ unconfigured => ?_, fun open_ configured spent => ?_,
    fun open_ configured unspent => ?_⟩
  · have shut : gateClosed s = true := by
      rw [gateClosed_iff]
      cases state : s.ctl.state with
      | unarmed => exact absurd (.inl state) closed
      | armed => exact absurd (.inr state) closed
      | rolling => exact .inl rfl
      | failed => exact .inr (.inl rfl)
      | adopting => exact .inr (.inr rfl)
    have verdict : markVerdict (markerPassed n r rest s) = .refused .state := markVerdict_of_closed shut
    rw [requestMarkFrom, verdict]
    rfl
  · have verdict : markVerdict (markerPassed n r rest s) = .refused .noJournal :=
      markVerdict_of_unconfigured (s := markerPassed n r rest s) open_ unconfigured
    rw [requestMarkFrom, verdict]
    rfl
  · have verdict : markVerdict (markerPassed n r rest s) = .refused .exhausted :=
      markVerdict_of_spent (s := markerPassed n r rest s) open_ configured ((countersSpent_iff _).2 spent)
    rw [requestMarkFrom, verdict]
    rfl
  · have verdict : markVerdict (markerPassed n r rest s) = .taken :=
      (markVerdict_of_unspent (s := markerPassed n r rest s) open_ configured
        (Bool.eq_false_iff.2 fun h => unspent ((countersSpent_iff _).1 h))).trans
        (if_neg fun pending =>
          absurd pending (by rw [show hasPending (markerPassed n r rest s) = hasPending s from rfl,
            hasPending_of_marker_chosen c head mark]; decide))
    refine ⟨_, ?_, markPoint_eq (.initiator r.initiator) v (markerPassed n r rest s)⟩
    rw [requestMarkFrom, verdict]

end Sys2Proof.Machine
end

section
/-! PROOFS. Rollbacks: how a request is judged and what its start does, and the commands RETRY, ABANDON, DISCARD and ADOPT
(R20, R66, R70 to R77, R85, R86, R92, R93, R106, R174 to R177). -/

namespace Sys2Proof.Machine

/-! ### ROLLBACK -/

theorem exec_rollback {s : State} (ready : Ready s) (d : Byte) :
    exec (.rollback d) s = .next (finish (judgeRollback d (withoutRead s))) :=
  exec_of_ready (carry := doRollback d) ready rfl

/-- The steps of a ROLLBACK in ARMED (R70, R72). -/
theorem judgeRollback_of_armed {s : State} (armed : s.ctl.state = .armed) (d : Byte) : judgeRollback d s =
    if d.toNat = 0 ∨ 4 < d.toNat then respond .range 0x21 [] s
    else if hasPending s then keepExecuting (.rollback d) s
    else if s.ctl.condition = .broken then respond .broken 0x21 [] s
    else (s.ctl.checkpoints.reverse[d.toNat - 1]?).elim (respond .range 0x21 [] s) fun c =>
      startRollback .management c (respond .started 0x21 (bytesLE 4 c.number) s) := by
  unfold judgeRollback
  rw [armed]
  cases s.ctl.checkpoints.reverse[d.toNat - 1]? with
  | none => rfl
  | some c => rfl

theorem exec_rollback_refused {s : State} (ready : Ready s) {d : Byte} {status : Status}
    (verdict : judgeRollback d (withoutRead s) = respond status 0x21 [] (withoutRead s)) :
    exec (.rollback d) s = .next (finish (answered status 0x21 [] s)) := by
  rw [exec_rollback ready, verdict, answered_eq]

theorem not_hasPending_withoutRead {s : State} (free : hasPending s = false) :
    ¬ hasPending (withoutRead s) = true := by
  rw [show hasPending (withoutRead s) = false from free]
  decide

/-- Settles O27: the state first, and in ARMED the range, the pending mark, the condition and the list. -/
theorem rollbackNotTaken : Obligations.RollbackNotTaken := by
  unfold Obligations.RollbackNotTaken
  intro s d ready
  have inArmed (armed : s.ctl.state = .armed) := judgeRollback_of_armed (s := withoutRead s) armed d
  refine ⟨fun busy => exec_rollback_refused ready ?_, fun failed => exec_rollback_refused ready ?_,
    fun unarmed => exec_rollback_refused ready ?_, fun armed outside => exec_rollback_refused ready ?_,
    fun armed inside pending => ?_, fun armed inside free broken => exec_rollback_refused ready ?_,
    fun armed inside free whole short => exec_rollback_refused ready ?_⟩
  · rcases busy with rolling | adopting
    · rw [judgeRollback, show (withoutRead s).ctl.state = .rolling from rolling]
    · rw [judgeRollback, show (withoutRead s).ctl.state = .adopting from adopting]
  · rw [judgeRollback, show (withoutRead s).ctl.state = .failed from failed]
  · rw [judgeRollback, show (withoutRead s).ctl.state = .unarmed from unarmed]
  · rw [inArmed armed, if_pos (by omega)]
  · have waits : hasPending (withoutRead s) = true := pending
    rw [exec_rollback ready, inArmed armed, if_neg (by omega), if_pos waits]
    rfl
  · have isBroken : (withoutRead s).ctl.condition = .broken := broken
    rw [inArmed armed, if_neg (by omega), if_neg (not_hasPending_withoutRead free), if_pos isBroken]
  · have notBroken : (withoutRead s).ctl.condition ≠ .broken := whole
    have none_ : (withoutRead s).ctl.checkpoints.reverse[d.toNat - 1]? = none := by
      rw [List.getElem?_eq_none_iff, List.length_reverse]
      show s.ctl.checkpoints.length ≤ d.toNat - 1
      omega
    rw [inArmed armed, if_neg (by omega), if_neg (not_hasPending_withoutRead free), if_neg notBroken, none_]
    rfl

/-- Settles O28: the d-th checkpoint from the newest is the target of the start event. -/
theorem rollbackStarts : Obligations.RollbackStarts := by
  unfold Obligations.RollbackStarts
  intro s d c ready armed least most free whole found long
  have notBroken : (withoutRead s).ctl.condition ≠ .broken := whole
  have target : (withoutRead s).ctl.checkpoints.reverse[d.toNat - 1]? = some c := by
    show s.ctl.checkpoints.reverse[d.toNat - 1]? = some c
    rw [List.getElem?_reverse (by omega), show s.ctl.checkpoints.length - 1 - (d.toNat - 1) =
      s.ctl.checkpoints.length - d.toNat by omega]
    exact found
  refine ⟨_, ?_, startRollback_eq .management c (answered .started 0x21 (bytesLE 4 c.number) s)⟩
  rw [exec_rollback ready, judgeRollback_of_armed (s := withoutRead s) armed, if_neg (by omega),
    if_neg (not_hasPending_withoutRead free), if_neg notBroken, target, answered_eq]
  rfl

/-! ### The FLTREQ edge (R71, R73, R74) -/

theorem rollbackWaits_iff (s : State) :
    rollbackWaits s = true ↔ s.rollback.pendingLine = true ∨ ∃ d, s.port.slot = .executing (.rollback d) := by
  unfold rollbackWaits
  rw [Bool.or_eq_true]
  refine or_congr_right ⟨fun test => ?_, fun ⟨d, slot⟩ => by rw [slot]⟩
  split at test
  · next d slot => exact ⟨d, slot⟩
  · exact nomatch test

/-- The line's level is high. -/
def sawEdge (s : State) : State := { s with rollback := { s.rollback with fltreq := true } }

/-- An edge that is seen (R71). -/
theorem exec_fltreqRisingEdge {s : State} (notHeld : held s = false) (low : s.rollback.fltreq = false) :
    exec .fltreqRisingEdge s = .next (finish
      (if (sawEdge s).rollback.pendingLine && ((sawEdge s).ctl.state == .armed || (sawEdge s).ctl.state == .adopting)
        then absorbEdge (sawEdge s)
      else if (sawEdge s).ctl.state == .armed && rollbackWaits (sawEdge s) then setLineRequest true (sawEdge s)
      else judgeLine (sawEdge s))) := by
  show Host.Outcome.next (fltreqRises s) = _
  rw [fltreqRises, notHeld, low]
  rfl

/-- An edge that is not absorbed and does not join a waiting request is judged at once (R71). -/
theorem exec_fltreqRisingEdge_judged {s : State} (notHeld : held s = false) (low : s.rollback.fltreq = false)
    (fresh : s.ctl.state = .armed ∨ s.ctl.state = .adopting → s.rollback.pendingLine = false)
    (alone : s.ctl.state = .armed → ∀ d, s.port.slot ≠ .executing (.rollback d)) :
    exec .fltreqRisingEdge s = .next (finish (judgeLine (sawEdge s))) := by
  have notAbsorbed : ¬ ((sawEdge s).rollback.pendingLine &&
      ((sawEdge s).ctl.state == .armed || (sawEdge s).ctl.state == .adopting)) = true := by
    rw [Bool.and_eq_true, Bool.or_eq_true, beq_iff_eq, beq_iff_eq]
    rintro ⟨pending, state⟩
    exact absurd (fresh state) (by rw [show s.rollback.pendingLine = true from pending]; decide)
  have notJoined : ¬ ((sawEdge s).ctl.state == .armed && rollbackWaits (sawEdge s)) = true := by
    rw [Bool.and_eq_true, beq_iff_eq, rollbackWaits_iff]
    rintro ⟨armed, pending | ⟨d, slot⟩⟩
    · exact absurd (fresh (.inl armed)) (by rw [show s.rollback.pendingLine = true from pending]; decide)
    · exact alone armed d slot
  rw [exec_fltreqRisingEdge notHeld low, if_neg notAbsorbed, if_neg notJoined]

/-- The line request in ARMED, without one that was pending (R70, R71). -/
theorem judgeLine_of_armed {s : State} (armed : s.ctl.state = .armed) :
    judgeLine s = judgeArmedLine (setLineRequest false s) := by
  unfold judgeLine
  rw [armed]

theorem judgeArmedLine_of_pending {s : State} (pending : hasPending s = true) :
    judgeArmedLine s = setLineRequest true s := if_pos pending

theorem judgeArmedLine_of_broken {s : State} (free : hasPending s = false) (broken : s.ctl.condition = .broken) :
    judgeArmedLine s = refuseLine .broken s := by
  rw [judgeArmedLine, free, if_neg Bool.false_ne_true, if_pos broken]

theorem judgeArmedLine_of_newest {s : State} {c : Checkpoint} (free : hasPending s = false)
    (whole : s.ctl.condition ≠ .broken) (newest : s.ctl.checkpoints.getLast? = some c) :
    judgeArmedLine s = startRollback .line c s := by
  rw [judgeArmedLine, free, if_neg Bool.false_ne_true, if_neg whole, newest]

/-- Settles O59: the edge by state, and in ARMED by what waits and the condition. -/
theorem fltreqEdgeJudged : Obligations.FltreqEdgeJudged := by
  unfold Obligations.FltreqEdgeJudged
  intro s
  refine ⟨fun unseen => ?_, fun notHeld low => ⟨fun unarmed => ?_, fun failed => ?_, fun rolling => ?_,
    fun state pending => ?_, fun adopting fresh => ?_, fun armed fresh => ⟨fun waits => ?_, fun free alone broken => ?_,
      fun c free alone whole newest => ?_⟩⟩⟩
  · show Host.Outcome.next (fltreqRises s) = _
    rw [fltreqRises, if_pos ((Bool.or_eq_true _ _).mpr unseen)]
  · rw [exec_fltreqRisingEdge_judged notHeld low (fun h => by simp [unarmed] at h) (fun h => by simp [unarmed] at h),
      judgeLine, show (sawEdge s).ctl.state = .unarmed from unarmed]
    rfl
  · rw [exec_fltreqRisingEdge_judged notHeld low (fun h => by simp [failed] at h) (fun h => by simp [failed] at h),
      judgeLine, show (sawEdge s).ctl.state = .failed from failed]
    rfl
  · rw [exec_fltreqRisingEdge_judged notHeld low (fun h => by simp [rolling] at h) (fun h => by simp [rolling] at h),
      judgeLine, show (sawEdge s).ctl.state = .rolling from rolling]
    rfl
  · have absorbed : ((sawEdge s).rollback.pendingLine &&
        ((sawEdge s).ctl.state == .armed || (sawEdge s).ctl.state == .adopting)) = true := by
      rw [Bool.and_eq_true, Bool.or_eq_true, beq_iff_eq, beq_iff_eq]
      exact ⟨pending, state⟩
    rw [exec_fltreqRisingEdge notHeld low, if_pos absorbed]
    rfl
  · rw [exec_fltreqRisingEdge_judged notHeld low (fun _ => fresh) (fun h => by simp [adopting] at h),
      judgeLine, show (sawEdge s).ctl.state = .adopting from adopting]
    rfl
  · by_cases joins : ∃ d, s.port.slot = .executing (.rollback d)
    · have notAbsorbed : ¬ ((sawEdge s).rollback.pendingLine &&
          ((sawEdge s).ctl.state == .armed || (sawEdge s).ctl.state == .adopting)) = true := by
        rw [show (sawEdge s).rollback.pendingLine = false from fresh]
        exact Bool.false_ne_true
      have joined : ((sawEdge s).ctl.state == .armed && rollbackWaits (sawEdge s)) = true := by
        rw [Bool.and_eq_true, beq_iff_eq, rollbackWaits_iff]
        exact ⟨armed, .inr joins⟩
      rw [exec_fltreqRisingEdge notHeld low, if_neg notAbsorbed, if_pos joined]
      rfl
    · have pending : hasPending (setLineRequest false (sawEdge s)) = true := waits.resolve_right joins
      rw [exec_fltreqRisingEdge_judged notHeld low (fun _ => fresh) (fun _ d slot => joins ⟨d, slot⟩),
        judgeLine_of_armed (s := sawEdge s) armed, judgeArmedLine_of_pending pending]
      rfl
  · rw [exec_fltreqRisingEdge_judged notHeld low (fun _ => fresh) (fun _ => alone),
      judgeLine_of_armed (s := sawEdge s) armed,
      judgeArmedLine_of_broken (s := setLineRequest false (sawEdge s)) free broken]
    rfl
  · have unchanged : setLineRequest false (sawEdge s) = sawEdge s := by
      rw [setLineRequest, ← show (sawEdge s).rollback.pendingLine = false from fresh]
    refine ⟨_, ?_, startRollback_eq .line c (sawEdge s)⟩
    rw [exec_fltreqRisingEdge_judged notHeld low (fun _ => fresh) (fun _ => alone),
      judgeLine_of_armed (s := sawEdge s) armed, unchanged, judgeArmedLine_of_newest (s := sawEdge s) free whole newest]

/-! ### RETRY, ABANDON and DISCARD -/

theorem exec_retry {s : State} (ready : Ready s) : exec .retry s = .next (doRetry (withoutRead s)) :=
  exec_of_ready (carry := doRetry) ready rfl

theorem exec_abandon {s : State} (ready : Ready s) : exec .abandon s = .next (doAbandon (withoutRead s)) :=
  exec_of_ready (carry := doAbandon) ready rfl

theorem exec_discard {s : State} (ready : Ready s) : exec .discard s = .next (doDiscard (withoutRead s)) :=
  exec_of_ready (carry := doDiscard) ready rfl

/-- A slot's two line reads are placed (R79). -/
theorem readSlot_eq (slot : Nat) (s : State) : ∃ out wait,
    Places s.down.outgoing s.rollback.undoWait (undoReads s.journal slot) out wait ∧
    readSlot slot s = { s with
      down := { s.down with outgoing := out }
      rollback := { s.rollback with pair := { header := none, data := none }, current := none, undoWait := wait } } :=
  undoSubmit_eq (undoReads s.journal slot) (clearPair s)

/-- RETRY resumes the walk at the slot at which it stopped (R85). -/
theorem doRetry_of_failed {s : State} {target : Target} {p : Nat} (failed : s.ctl.state = .failed)
    (ofTarget : s.rollback.target = some target) (at_ : s.rollback.undoPointer = some p) : ∃ out wait,
    Places s.down.outgoing s.rollback.undoWait (undoReads s.journal p) out wait ∧
    doRetry s = respond .started 0x22 (bytesLE 4 target.number) { s with
      ctl := { s.ctl with state := .rolling }
      down := { s.down with outgoing := out }
      rollback := { s.rollback with
        phase := .undo, pair := { header := none, data := none }, current := none, undoWait := wait } } := by
  obtain ⟨out, wait, places, reads⟩ := readSlot_eq p { s with
    ctl := { s.ctl with state := .rolling }, rollback := { s.rollback with phase := .undo } }
  refine ⟨out, wait, places, ?_⟩
  have resumed : resumeWalk s = readSlot p { s with
      ctl := { s.ctl with state := .rolling }, rollback := { s.rollback with phase := .undo } } := by
    unfold resumeWalk
    dsimp only
    rw [at_]
  unfold doRetry
  rw [failed, ofTarget, resumed, reads]
  rfl

theorem giveUp_eq (s : State) : giveUp s = { emptied s with
    capture := { (emptied s).capture with filter := [] }
    ctl := { (emptied s).ctl with memorySuspect := true }
    rollback := { s.rollback with phase := .idle, ackMark := false } } := by
  unfold giveUp
  rw [emptyJournal_eq]
  rfl

/-- Settles O29: the state decides, and in FAILED the walk resumes or is given up. -/
theorem retryAndAbandonJudged : Obligations.RetryAndAbandonJudged := by
  unfold Obligations.RetryAndAbandonJudged
  intro s ready
  rw [exec_retry ready, exec_abandon ready]
  refine ⟨fun failed target p ofTarget at_ => ?_, fun failed => ?_, fun busy => ?_, fun other => ?_⟩
  · obtain ⟨out, wait, places, resumes⟩ := doRetry_of_failed (s := withoutRead s) failed ofTarget at_
    refine ⟨out, wait, ?_, places⟩
    rw [resumes]
    rfl
  · rw [doAbandon, show (withoutRead s).ctl.state = .failed from failed, giveUp_eq]
    rfl
  · rcases busy with state | state
    · rw [doRetry, doAbandon, show (withoutRead s).ctl.state = .rolling from state, answered_eq, answered_eq]
      exact ⟨rfl, rfl⟩
    · rw [doRetry, doAbandon, show (withoutRead s).ctl.state = .adopting from state, answered_eq, answered_eq]
      exact ⟨rfl, rfl⟩
  · rcases other with state | state
    · rw [doRetry, doAbandon, show (withoutRead s).ctl.state = .unarmed from state, answered_eq, answered_eq]
      exact ⟨rfl, rfl⟩
    · rw [doRetry, doAbandon, show (withoutRead s).ctl.state = .armed from state, answered_eq, answered_eq]
      exact ⟨rfl, rfl⟩

/-- Settles O30: the state decides, and the journal is emptied from ARMED and from ADOPTING. -/
theorem discardJudged : Obligations.DiscardJudged := by
  unfold Obligations.DiscardJudged
  refine ⟨fun j l => ?_, fun s => rfl, fun s ready => ?_⟩
  · obtain ⟨perm, ordered⟩ := inSlotOrder_spec j l
    exact ⟨perm, ordered.imp of_decide_eq_true⟩
  · rw [exec_discard ready]
    refine ⟨fun state => ?_, fun state => ?_, fun state => ?_, fun state distinct => ?_, fun state => ?_⟩
    · rw [doDiscard, show (withoutRead s).ctl.state = .unarmed from state, answered_eq]
    · rw [doDiscard, show (withoutRead s).ctl.state = .rolling from state, answered_eq]
    · rw [doDiscard, show (withoutRead s).ctl.state = .failed from state, answered_eq]
    · rw [doDiscard, show (withoutRead s).ctl.state = .armed from state, dropCheckpoints_eq (withoutRead s) distinct.1]
      rfl
    · rw [doDiscard, show (withoutRead s).ctl.state = .adopting from state, endUnarmed, enterUnarmed_emptyJournal_eq]
      rfl

/-! ### ADOPT -/

theorem exec_adopt_refused {s : State} (ready : Ready s) {start : BitVec 32} {status : Status}
    (verdict : adoptVerdict start s = .refused status) : exec (.adopt start) s = .next (answered status 0x25 [] s) := by
  have same : adoptVerdict start (withoutRead s) = .refused status := verdict
  rw [exec_of_ready (carry := judgeAdopt start) ready rfl, judgeAdopt, same, answered_eq]

theorem exec_adopt_taken {s : State} (ready : Ready s) {start : BitVec 32} {slot : Nat}
    (verdict : adoptVerdict start s = .taken slot) :
    exec (.adopt start) s = .next (respond .started 0x25 (natLE 4 slot) (startScan slot (withoutRead s))) := by
  have same : adoptVerdict start (withoutRead s) = .taken slot := verdict
  rw [exec_of_ready (carry := judgeAdopt start) ready rfl, judgeAdopt, same]

section verdict
variable {start : BitVec 32} {s : State}

theorem adoptVerdict_of_outside (outside : ¬ (start = 0xFFFFFFFF#32 ∨ start.toNat ≤ 1048575)) :
    adoptVerdict start s = .refused .range := by
  rw [not_or, Nat.not_le] at outside
  unfold adoptVerdict
  refine if_pos ?_
  rw [Bool.and_eq_true, Bool.not_eq_true', beq_eq_false_iff_ne, decide_eq_true_iff]
  exact outside

/-- The rows of R92, for a start slot in range. -/
theorem adoptVerdict_of_inside (inside : start = 0xFFFFFFFF#32 ∨ start.toNat ≤ 1048575)
    (unarmed : s.ctl.state = .unarmed) : adoptVerdict start s =
      if !s.journal.configured then .refused .noJournal
      else if !(s.cls.windows.toList.any fun w => w.enabled && w.kind == .guarded) then .refused .state
      else if start = 0xFFFFFFFF#32 then
        if s.journal.adoptable then .taken s.journal.head else .refused .noCheckpoint
      else if s.journal.config.slots ≤ start.toNat then .refused .range
      else .taken start.toNat := by
  have notPast : ¬ (!(start == 0xFFFFFFFF#32) && decide (1048575 < start.toNat)) = true := by
    rw [Bool.and_eq_true, Bool.not_eq_true', beq_eq_false_iff_ne, decide_eq_true_iff]
    rintro ⟨given, past⟩
    exact inside.elim given fun small => absurd small (Nat.not_le.2 past)
  unfold adoptVerdict
  dsimp only
  rw [if_neg notPast, unarmed]
  simp only [beq_iff_eq]

theorem adoptVerdict_of_state {status : Status} (inside : start = 0xFFFFFFFF#32 ∨ start.toNat ≤ 1048575)
    (verdict : (s.ctl.state = .rolling ∧ status = .busy) ∨ (s.ctl.state = .adopting ∧ status = .busy) ∨
      (s.ctl.state = .failed ∧ status = .state) ∨ (s.ctl.state = .armed ∧ status = .armed)) :
    adoptVerdict start s = .refused status := by
  have notPast : ¬ (!(start == 0xFFFFFFFF#32) && decide (1048575 < start.toNat)) = true := by
    rw [Bool.and_eq_true, Bool.not_eq_true', beq_eq_false_iff_ne, decide_eq_true_iff]
    rintro ⟨given, past⟩
    exact inside.elim given fun small => absurd small (Nat.not_le.2 past)
  unfold adoptVerdict
  dsimp only
  rw [if_neg notPast]
  rcases verdict with ⟨state, rfl⟩ | ⟨state, rfl⟩ | ⟨state, rfl⟩ | ⟨state, rfl⟩
  · rw [state]
  · rw [state]
  · rw [state]
  · rw [state]

end verdict

/-- Some enabled window is GUARDED (R92). -/
theorem anyGuarded_iff (s : State) : (s.cls.windows.toList.any fun w => w.enabled && w.kind == .guarded) = true ↔
    ∃ k : Fin 16, s.cls.windows[k.val].enabled = true ∧ s.cls.windows[k.val].kind = .guarded := by
  rw [windows_any_iff]
  simp only [Bool.and_eq_true, beq_iff_eq]

/-- Settles O31: the range, the state, the journal, the windows and the start slot, in that order. -/
theorem adoptJudged : Obligations.AdoptJudged := by
  unfold Obligations.AdoptJudged
  intro s start ready
  refine ⟨fun outside => exec_adopt_refused ready (adoptVerdict_of_outside outside), fun inside busy => ?_,
    fun inside failed => ?_, fun inside armed => ?_, fun inside unarmed unconfigured => ?_,
    fun inside unarmed configured unguarded => ?_, fun unarmed configured guarded retained lost => ?_,
    fun inside unarmed configured guarded given past => ?_, fun unarmed configured guarded slot startsAt => ?_⟩
  · exact exec_adopt_refused ready (adoptVerdict_of_state inside
      (busy.elim (fun h => .inl ⟨h, rfl⟩) fun h => .inr (.inl ⟨h, rfl⟩)))
  · exact exec_adopt_refused ready (adoptVerdict_of_state inside (.inr (.inr (.inl ⟨failed, rfl⟩))))
  · exact exec_adopt_refused ready (adoptVerdict_of_state inside (.inr (.inr (.inr ⟨armed, rfl⟩))))
  · refine exec_adopt_refused ready ?_
    rw [adoptVerdict_of_inside inside unarmed, unconfigured]
    rfl
  · refine exec_adopt_refused ready ?_
    rw [adoptVerdict_of_inside inside unarmed, configured,
      Bool.eq_false_iff.2 fun h => unguarded ((anyGuarded_iff s).1 h)]
    rfl
  · refine exec_adopt_refused ready ?_
    rw [adoptVerdict_of_inside (.inl retained) unarmed, configured, (anyGuarded_iff s).2 guarded, lost]
    exact if_pos retained
  · refine exec_adopt_refused ready ?_
    rw [adoptVerdict_of_inside inside unarmed, configured, (anyGuarded_iff s).2 guarded]
    exact (if_neg given).trans (if_pos past)
  · have taken : adoptVerdict start s = .taken slot := by
      rcases startsAt with ⟨retained, adoptable, rfl⟩ | ⟨small, bound, rfl⟩
      · rw [adoptVerdict_of_inside (.inl retained) unarmed, configured, (anyGuarded_iff s).2 guarded, adoptable]
        exact if_pos retained
      · have given : start ≠ 0xFFFFFFFF#32 := by
          rintro rfl
          exact absurd small (by decide)
        rw [adoptVerdict_of_inside (.inr small) unarmed, configured, (anyGuarded_iff s).2 guarded]
        exact (if_neg given).trans (if_neg (Nat.not_le.2 bound))
    rw [exec_adopt_taken ready taken]
    have scanning : ∃ out wait, Places s.down.outgoing [] (scanReads s.journal (s.scan.run + 1) slot) out wait ∧
        startScan slot (withoutRead s) = { withoutRead s with
          ctl := { s.ctl with state := .adopting }
          capture := { s.capture with filter := [], nearFull := false }
          scan := { Scanner.reset with
            start := some slot, pointer := some slot, run := s.scan.run + 1, scanWait := wait }
          down := { s.down with outgoing := out } } :=
      scanSubmit_eq (scanReads s.journal (s.scan.run + 1) slot) { withoutRead s with
        ctl := { s.ctl with state := .adopting }
        capture := { s.capture with filter := [], nearFull := false }
        scan := { Scanner.reset with start := some slot, pointer := some slot, run := s.scan.run + 1 } }
    obtain ⟨out, wait, places, scans⟩ := scanning
    rw [scans]
    exact ⟨_, rfl, rfl, rfl, rfl, rfl, places, rfl, rfl, rfl, rfl, rfl, rfl, rfl, rfl⟩

end Sys2Proof.Machine
end

section
/-! PROOFS. Capture entries: the completion of the old-line read, the request for a CAPTURE slot and how it is judged, and the
retirement of an entry (R13, R30, R31, R33, R36, R40, R41). -/

namespace Sys2Proof.Machine

/-! ### One entry of the capture queue -/

theorem entryOf_id {s : State} {id : Nat} {e : CaptureEntry} (found : entryOf s id = some e) : e.id = id :=
  beq_iff_eq.1 (List.find?_some (p := fun e : CaptureEntry => e.id == id) found)

theorem entryOf_mem {s : State} {id : Nat} {e : CaptureEntry} (found : entryOf s id = some e) : e ∈ s.capture.entries :=
  List.mem_of_find?_eq_some found

theorem entryOf_updateEntry {id : Nat} {f : CaptureEntry → CaptureEntry} (keeps : ∀ x, (f x).id = x.id) (s : State) :
    entryOf (updateEntry id f s) id = (entryOf s id).map f := by
  unfold entryOf
  rw [updateEntry_capture]
  dsimp only
  rw [List.find?_map]
  have same : ((fun e : CaptureEntry => e.id == id) ∘ fun e => if e.id == id then f e else e) = fun e => e.id == id := by
    funext e
    dsimp only [Function.comp]
    split
    · rw [keeps]
    · rfl
  rw [same]
  cases found : s.capture.entries.find? fun e => e.id == id with
  | none => rfl
  | some e =>
    have number : (e.id == id) = true := List.find?_some (p := fun e : CaptureEntry => e.id == id) found
    rw [Option.map_some, Option.map_some, if_pos number]

/-- Two changes of one entry are one change. -/
theorem updateEntry_updateEntry {id : Nat} {f g : CaptureEntry → CaptureEntry} (keeps : ∀ x, (f x).id = x.id) (s : State) :
    updateEntry id g (updateEntry id f s) = updateEntry id (fun x => g (f x)) s := by
  have maps : ((s.capture.entries.map fun e => if e.id == id then f e else e).map fun e => if e.id == id then g e else e) =
      s.capture.entries.map fun e => if e.id == id then g (f e) else e := by
    rw [List.map_map]
    refine List.map_congr_left fun e _ => ?_
    dsimp only [Function.comp]
    by_cases number : e.id = id
    · simp [number, keeps]
    · simp [number]
  unfold updateEntry
  dsimp only
  rw [maps]

/-- Where no two entries have one number, a change of an entry is told by what it does to that entry. -/
theorem updateEntry_congr {s : State} {id : Nat} {e : CaptureEntry} {f g : CaptureEntry → CaptureEntry}
    (distinct : EntriesDistinct s) (found : entryOf s id = some e) (same : f e = g e) :
    updateEntry id f s = updateEntry id g s := by
  have maps : (s.capture.entries.map fun x => if x.id == id then f x else x) =
      s.capture.entries.map fun x => if x.id == id then g x else x := by
    refine List.map_congr_left fun x member => ?_
    split
    · next number =>
      have isEntry : x = e :=
        eq_of_id distinct.1 member (entryOf_mem found) ((beq_iff_eq.1 number).trans (entryOf_id found).symm)
      rw [isEntry, same]
    · rfl
  unfold updateEntry
  rw [maps]

/-! ### The old-line read completes (R30, R31) -/

theorem exec_oldLineRead {s : State} {tag : DownTag} {id : Nat} (use : tagState s tag = .inUse (.oldLine id))
    (x : ReadResult) :
    exec (.oldLineReadCompletion tag x) s = .next (finish (oldLineDone id x (setTag tag .free s))) := by
  show execOldLineReadCompletion tag x s = _
  rw [execOldLineReadCompletion, use]

/-- The old-line read of an entry is no longer in flight. -/
def oldLineBack (tag : DownTag) (id : Nat) (s : State) : State :=
  { s with
    down := { s.down with outstanding := s.down.outstanding.set tag.val .free }
    rollback := { s.rollback with readsLeft := s.rollback.readsLeft.filter fun x => x != id } }

/-- The old line is stored (R30, log 29). -/
def withOldLine (id : Nat) (line : LineData) (s : State) : State :=
  updateEntry id (fun x => { x with oldData := some line }) s

theorem updateEntry_withOldLine (id : Nat) (line : LineData) (g : CaptureEntry → CaptureEntry) (s : State) :
    updateEntry id g (withOldLine id line s) = updateEntry id (fun x => g { x with oldData := some line }) s :=
  updateEntry_updateEntry (f := fun x => { x with oldData := some line }) (fun _ => rfl) s

theorem entryOf_withOldLine {s : State} {id : Nat} {e : CaptureEntry} (found : entryOf s id = some e) (line : LineData) :
    entryOf (withOldLine id line s) id = some { e with oldData := some line } := by
  rw [withOldLine, entryOf_updateEntry (f := fun x => { x with oldData := some line }) (fun _ => rfl), found]
  rfl

theorem oldLineDone_of_none {s : State} {id : Nat} (gone : entryOf s id = none) (tag : DownTag) (x : ReadResult) :
    oldLineDone id x (setTag tag .free s) = oldLineBack tag id s := by
  unfold oldLineDone
  dsimp only
  split
  · rfl
  · next e found => exact absurd (gone.symm.trans found) (by simp)

section found
variable {s : State} {id : Nat} {e : CaptureEntry} (found : entryOf s id = some e) (tag : DownTag)
include found

theorem oldLineDone_error : oldLineDone id .error (setTag tag .free s) =
    if e.state = .lineRead then
      countDataError (deliver e.initiator e.tag .dataError (freeEntry id (oldLineBack tag id s)))
    else oldLineBack tag id s := by
  unfold oldLineDone
  dsimp only
  split
  · next gone => exact absurd (found.symm.trans gone) (by simp)
  · next e' found' =>
    obtain rfl : e = e' := Option.some.inj (found.symm.trans found')
    rfl

theorem oldLineDone_ok (line : LineData) : oldLineDone id (.ok line) (setTag tag .free s) =
    if e.state = .lineRead then
      if awaitsMark e s then updateEntry id (fun x => { x with state := .awaitMark }) (withOldLine id line (oldLineBack tag id s))
      else askCapture id (withOldLine id line (oldLineBack tag id s))
    else withOldLine id line (oldLineBack tag id s) := by
  unfold oldLineDone
  dsimp only
  split
  · next gone => exact absurd (found.symm.trans gone) (by simp)
  · next e' found' =>
    obtain rfl : e = e' := Option.some.inj (found.symm.trans found')
    rfl

end found

theorem awaitsMark_iff (e : CaptureEntry) (s : State) : awaitsMark e s = true ↔
    ∃ c ∈ s.ctl.checkpoints, c.status = .pending ∧ c.number = e.epoch ∧ c.markSlot = none := by
  simp only [awaitsMark, List.any_eq_true, Bool.and_eq_true, beq_iff_eq, Option.isNone_iff_eq_none, and_assoc]

/-- Settles O43: the entry, where it stands, and whether its epoch's MARK slot is still to come. -/
theorem oldLineReadCompletes : Obligations.OldLineReadCompletes := by
  unfold Obligations.OldLineReadCompletes
  intro s tag id line use
  rw [exec_oldLineRead use, exec_oldLineRead use]
  refine ⟨fun x gone => ?_, fun e found late => ⟨?_, ?_⟩, fun e found reading => ⟨?_, fun marks => ?_⟩⟩
  · rw [exec_oldLineRead use, oldLineDone_of_none gone]
    rfl
  · rw [oldLineDone_error found, if_neg late]
    rfl
  · rw [oldLineDone_ok found, if_neg late]
    rfl
  · rw [oldLineDone_error found, if_pos reading]
    rfl
  · rw [oldLineDone_ok found, if_pos reading, if_pos ((awaitsMark_iff e s).2 marks), updateEntry_withOldLine]
    rfl

/-! ### The request for a CAPTURE slot (R13, R33) -/

theorem mustWait_of_canWrite {s : State} (free : CanWrite s) : ¬ MustWait s := by
  obtain ⟨-, -, none_, open_⟩ := free
  rintro (blocked | waits)
  · exact absurd blocked (by rw [open_]; decide)
  · exact waits none_

theorem allocationSpent_of_canWrite {s : State} (free : CanWrite s) : allocationSpent s.journal = false := by
  obtain ⟨left, seq, -, -⟩ := free
  rw [Bool.eq_false_iff, Ne, allocationSpent_iff, left]
  rintro (exhausted | last)
  · exact nomatch exhausted
  · exact seq last

theorem requestCapture_of_mustWait {s : State} (waits : MustWait s) (id : Nat) :
    requestCapture id s = setWaiting (s.journal.allocWait ++ [.capture id]) s := if_pos ((mustWait_iff s).1 waits)

theorem requestCapture_of_not_mustWait {s : State} (free : ¬ MustWait s) (id : Nat) :
    requestCapture id s = judgeCapture id s := if_neg fun waits => free ((mustWait_iff s).2 waits)

section early
variable {s : State} {id : Nat} {e : CaptureEntry} (found : entryOf s id = some e) (early : e.early = true)
include found early

/-- An entry asks: it joins those that wait for space, or requests a slot (R33). -/
theorem askCapture_eq : askCapture id s =
    if s.capture.spaceWait.isEmpty then requestCapture id s else joinSpace id s := by
  rw [askCapture, found]
  exact if_neg (by rw [early]; decide)

theorem judgeCapture_of_spent (spent : allocationSpent s.journal = true) :
    judgeCapture id s = letGo (fun x => x.id == id) (exhaustBreak (enterExhaustion s)) := by
  rw [judgeCapture, found]
  exact (if_neg (by rw [early]; decide)).trans (if_pos spent)

theorem judgeCapture_granted (unspent : allocationSpent s.journal = false)
    (below : s.journal.occupancy < captureLimit s.journal) : judgeCapture id s = withCapture e s := by
  rw [judgeCapture, found, ← grantCapture_eq]
  exact (if_neg (by rw [early]; decide)).trans ((if_neg (by rw [unspent]; decide)).trans (if_pos below))

theorem judgeCapture_hold (unspent : allocationSpent s.journal = false)
    (full : captureLimit s.journal ≤ s.journal.occupancy) (hold : s.journal.config.policy = .hold) :
    judgeCapture id s = joinSpace id s := by
  rw [judgeCapture, found, hold]
  exact (if_neg (by rw [early]; decide)).trans
    ((if_neg (by rw [unspent]; decide)).trans (if_neg (Nat.not_lt.2 full)))

theorem judgeCapture_break (unspent : allocationSpent s.journal = false)
    (full : captureLimit s.journal ≤ s.journal.occupancy) (break_ : s.journal.config.policy = .break_) :
    judgeCapture id s = letGo (fun x => x.id == id) (raiseBreak .limit s) := by
  rw [judgeCapture, found, break_]
  exact (if_neg (by rw [early]; decide)).trans
    ((if_neg (by rw [unspent]; decide)).trans (if_neg (Nat.not_lt.2 full)))

end early

/-- An old-line read that makes its entry ask for a slot. -/
theorem exec_oldLineRead_asks {s : State} {tag : DownTag} {id : Nat} {line : LineData} {e : CaptureEntry}
    (use : tagState s tag = .inUse (.oldLine id)) (found : entryOf s id = some e) (reading : e.state = .lineRead)
    (placed : ∀ c ∈ s.ctl.checkpoints, c.status = .pending → c.number = e.epoch → c.markSlot ≠ none) :
    exec (.oldLineReadCompletion tag (.ok line)) s =
        .next (finish (askCapture id (withOldLine id line (oldLineBack tag id s)))) ∧
      entryOf (withOldLine id line (oldLineBack tag id s)) id = some { e with oldData := some line } ∧
      ({ e with oldData := some line } : CaptureEntry).early = true := by
  have none_ : ¬ awaitsMark e s = true := by
    rw [awaitsMark_iff]
    rintro ⟨c, member, pending, number, unplaced⟩
    exact placed c member pending number unplaced
  refine ⟨?_, entryOf_withOldLine (s := oldLineBack tag id s) found line, ?_⟩
  · rw [exec_oldLineRead use, oldLineDone_ok found, if_pos reading, if_neg none_]
  · rw [CaptureEntry.early, reading]

/-- A granted capture while no entry waits for space (R33, R42). -/
theorem withCapture_of_noneWait {s : State} (none_ : s.capture.spaceWait = []) (e : CaptureEntry) : withCapture e s =
    withRecord (.capture e.id) e.epoch (.capture e.line e.initiator (e.oldData.getD 0))
      { updateEntry e.id (fun x => { x with state := .recording, slot := some s.journal.tail }) s with
        capture := { (updateEntry e.id (fun x => { x with state := .recording, slot := some s.journal.tail }) s).capture with
          hold := { running := false, count := 0, timeout := 0 } }
        ctl := { s.ctl with
          checkpoints := s.ctl.checkpoints.map fun c =>
            if c.number == e.epoch then { c with captures := satInc c.captures } else c
          condition := if s.ctl.condition = .holding then .intact else s.ctl.condition } } := by
  unfold withCapture updateEntry
  dsimp only
  rw [none_]
  simp

/-- Settles O44: the entry asks, and below the limit its slot is granted at once. -/
theorem captureSlotGranted : Obligations.CaptureSlotGranted := by
  unfold Obligations.CaptureSlotGranted
  intro s tag id line e use found reading placed none_ free below
  obtain ⟨asks, found', early⟩ := exec_oldLineRead_asks (line := line) use found reading placed
  have open_ : CanWrite (withOldLine id line (oldLineBack tag id s)) := free
  have noneWait : (withOldLine id line (oldLineBack tag id s)).capture.spaceWait = [] := none_
  obtain rfl : e.id = id := entryOf_id found
  rw [asks, askCapture_eq found' early, if_pos (List.isEmpty_iff.2 noneWait),
    requestCapture_of_not_mustWait (mustWait_of_canWrite open_),
    judgeCapture_granted found' early (allocationSpent_of_canWrite open_) below, withCapture_of_noneWait noneWait]
  dsimp only
  rw [updateEntry_withOldLine]
  rfl

end Sys2Proof.Machine
end

section
/-! PROOFS. A capture for which no slot is granted: it waits, or its epoch breaks and its entry goes without a record (R11,
R13, R40 to R46). -/

namespace Sys2Proof.Machine

/-! ### Entries that have been let go -/

/-- Nothing is left to let go of the entries that `p` selects: each has reached RECORDING or gone to forwarding, and the hold
is over where no entry waits for space (R42, R46). -/
structure LetGone (p : CaptureEntry → Bool) (s : State) : Prop where
  distinct : (s.capture.entries.map (·.id)).Nodup
  early : ∀ e ∈ s.capture.entries, e.early = true → p e = false
  hold : s.capture.spaceWait = [] →
    s.capture.hold = { running := false, count := 0, timeout := 0 } ∧ s.ctl.condition ≠ .holding

theorem endHold_of_ended {s : State} (ended : s.capture.spaceWait = [] →
    s.capture.hold = { running := false, count := 0, timeout := 0 } ∧ s.ctl.condition ≠ .holding) : endHold s = s := by
  unfold endHold
  split
  · next none_ =>
    obtain ⟨hold, condition⟩ := ended (List.isEmpty_iff.1 none_)
    rw [if_neg condition, ← hold]
  · rfl

/-- Letting the entries go once more changes nothing. -/
theorem LetGone.letGo_eq {p : CaptureEntry → Bool} {s : State} (h : LetGone p s) : letGo p s = s := by
  have gone : (s.capture.entries.filter fun e => e.early && p e) = [] := by
    rw [List.filter_eq_nil_iff]
    intro e member selected
    rw [Bool.and_eq_true] at selected
    exact absurd selected.2 (by rw [h.early e member selected.1]; decide)
  have stays : stopWaiting [] s = s := by
    rw [stopWaiting_eq [] s (fun _ => true) fun _ => rfl, List.filter_true]
    have requests : (s.journal.allocWait.filter fun r => match r with
        | .capture _ => true
        | .mark => true
        | .brk _ _ => true) = s.journal.allocWait := by
      rw [List.filter_eq_self]
      intro r _
      cases r with
      | capture id => rfl
      | mark => rfl
      | brk epoch cause => rfl
    exact congrArg (fun l => { s with journal := { s.journal with allocWait := l } }) requests
  unfold letGo
  dsimp only
  rw [gone]
  exact (congrArg endHold stays).trans (endHold_of_ended h.hold)

theorem LetGone.of_same {p : CaptureEntry → Bool} {s t : State} (h : LetGone p s)
    (entries : t.capture.entries = s.capture.entries) (space : t.capture.spaceWait = s.capture.spaceWait)
    (hold : t.capture.hold = s.capture.hold) (condition : t.ctl.condition = s.ctl.condition) : LetGone p t where
  distinct := by rw [entries]; exact h.distinct
  early := by rw [entries]; exact h.early
  hold := by rw [space, hold, condition]; exact h.hold

/-- Entries that are let go take with them those of `p` that `q` reaches. -/
theorem letGone_released {p q : CaptureEntry → Bool} {s : State} (distinct : (s.capture.entries.map (·.id)).Nodup)
    (reached : ∀ e ∈ s.capture.entries, e.early = true → p e = true → q e = true) : LetGone p (released q s) where
  distinct := by
    show ((s.capture.entries.map fun e => if e ∈ s.capture.entries.filter fun e => e.early && q e
      then { e with state := .forwarding, recorded := e.recorded && !e.early } else e).map (·.id)).Nodup
    have same : ((fun e : CaptureEntry => e.id) ∘ fun e => if e ∈ s.capture.entries.filter fun e => e.early && q e
        then { e with state := .forwarding, recorded := e.recorded && !e.early } else e) = fun e => e.id := by
      funext e
      dsimp only [Function.comp]
      split
      · rfl
      · rfl
    rw [List.map_map, same]
    exact distinct
  early := by
    intro e' member early
    obtain ⟨e, isEntry, rfl⟩ := List.mem_map.1 member
    split at early
    · exact nomatch early
    · next stays =>
      rw [if_neg stays]
      rw [List.mem_filter, not_and, Bool.and_eq_true, not_and] at stays
      exact Bool.eq_false_iff.2 fun selected => stays isEntry early (reached e isEntry early selected)
  hold := by
    intro none_
    have space : (s.capture.spaceWait.filter fun id =>
      (s.capture.entries.filter fun e => e.early && q e).all fun e => e.id != id) = [] := none_
    refine ⟨if_pos space, ?_⟩
    show (if _ ∧ s.ctl.condition = .holding then Condition.intact else s.ctl.condition) ≠ .holding
    split
    · exact nofun
    · next other => exact fun holding => other ⟨space, holding⟩

theorem LetGone.released {p : CaptureEntry → Bool} {s : State} (h : LetGone p s) (q : CaptureEntry → Bool) :
    LetGone p (released q s) :=
  letGone_released h.distinct fun e member early selected => absurd selected (by rw [h.early e member early]; decide)

theorem LetGone.enterExhaustion {p : CaptureEntry → Bool} {s : State} (h : LetGone p s) :
    LetGone p (enterExhaustion s) := by
  unfold Machine.enterExhaustion exhaustBreak
  split
  · exact h
  · split
    · rw [Machine.letGo_eq (fun _ => true) (noteExhaustedBreak (setExhausted s)) h.distinct]
      refine letGone_released h.distinct fun _ _ _ _ => rfl
    · exact h.of_same rfl rfl rfl rfl

/-- A request for a BREAK slot brings back no entry that has gone. -/
theorem LetGone.asksBreak {p : CaptureEntry → Bool} {closing : Bool} {epoch : CheckpointNo} {cause : RecordCause}
    {s t : State} (h : LetGone p s) (asks : AsksBreak closing epoch cause s t) : LetGone p t := by
  obtain ⟨waits, spentOne, fullOne, written⟩ := asks
  by_cases mustWait : MustWait s
  · rw [waits mustWait]
    exact h.of_same rfl rfl rfl rfl
  · by_cases spent : s.journal.exhausted = true ∨ s.journal.seq = 0xFFFFFFFFFFFFFFFF#64
    · rw [spentOne mustWait spent]
      exact h.enterExhaustion.of_same rfl rfl rfl rfl
    · by_cases full : s.journal.config.slots ≤ s.journal.occupancy
      · rw [fullOne mustWait spent full]
        exact h.of_same rfl rfl rfl rfl
      · rw [written mustWait spent full]
        exact h.of_same rfl rfl rfl rfl

theorem trailed_hold (s : State) : (trailed s).capture.hold = s.capture.hold := by
  unfold trailed
  dsimp only
  split
  · rfl
  · rfl

theorem LetGone.trailed {p : CaptureEntry → Bool} {s : State} (h : LetGone p s) : LetGone p (trailed s) := by
  obtain ⟨space, entries, ctl, -⟩ := trailed_keeps s
  exact h.of_same entries space (trailed_hold s) (by rw [ctl])

/-- After a break of the open epoch its early entries have gone (R44, R46). -/
theorem BreaksOpen.letGone {p : CaptureEntry → Bool} {epoch : CheckpointNo} {cause : RecordCause} {s t : State}
    (breaks : BreaksOpen epoch cause s t) (distinct : (s.capture.entries.map (·.id)).Nodup)
    (reached : ∀ e ∈ s.capture.entries, e.early = true → p e = true → reachedByBreak epoch e = true) : LetGone p t := by
  obtain ⟨r, asks, rfl⟩ := breaks
  have gone : LetGone p (Machine.released (reachedByBreak epoch) { s with
      ctl := { s.ctl with condition := .broken, lastBreak := some (recordedCause cause) } }) :=
    letGone_released distinct reached
  exact (gone.asksBreak asks).of_same rfl rfl rfl rfl

/-- After a break of the closing epoch likewise (R45, R46). -/
theorem BreaksClosing.letGone {p : CaptureEntry → Bool} {epoch : CheckpointNo} {cause : RecordCause} {s t : State}
    (breaks : BreaksClosing epoch cause s t) (distinct : (s.capture.entries.map (·.id)).Nodup)
    (reached : ∀ e ∈ s.capture.entries, e.early = true → p e = true → reachedByBreak epoch e = true) : LetGone p t := by
  obtain ⟨r, asks, rfl⟩ := breaks
  have gone : LetGone p (Machine.released (reachedByBreak epoch) { s with
      ctl := { s.ctl with lastBreak := some (recordedCause cause) }, capture := { s.capture with closingBroken := true } }) :=
    letGone_released distinct reached
  refine LetGone.trailed ?_
  exact (gone.asksBreak asks).of_same rfl rfl rfl rfl

/-- Entering exhaustion in an unbroken epoch lets every entry go, and the break is made once (R11). -/
theorem letGo_exhaustBreak_enterExhaustion {s : State} (p : CaptureEntry → Bool) (distinct : (s.capture.entries.map (·.id)).Nodup)
    (unspent : s.journal.exhausted = false) (armed : s.ctl.state = .armed) (whole : s.ctl.condition ≠ .broken) :
    letGo p (exhaustBreak (enterExhaustion s)) = enterExhaustion s := by
  have enters : enterExhaustion s = released (fun _ => true) (noteExhaustedBreak (setExhausted s)) := by
    rw [← letGo_eq (fun _ => true) (noteExhaustedBreak (setExhausted s)) distinct]
    exact (if_neg (by rw [unspent]; decide)).trans (if_pos ⟨armed, whole⟩)
  have gone : LetGone p (enterExhaustion s) := by
    rw [enters]
    exact letGone_released distinct fun _ _ _ _ => rfl
  have broken : (enterExhaustion s).ctl.condition = .broken := by
    rw [enters]
    exact if_neg fun h => nomatch h.2
  rw [exhaustBreak, if_neg fun breaks => breaks.2 broken, gone.letGo_eq]

/-! ### An entry that joins those that wait for space (R41) -/

theorem joinSpace_of_others {s : State} {id : Nat} (others : s.capture.spaceWait ≠ []) (new : id ∉ s.capture.spaceWait) :
    joinSpace id s = enterSpace id s := by
  have notIn : ¬ s.capture.spaceWait.contains id = true := fun h => new (List.contains_iff_mem.1 h)
  have notEmpty : ¬ s.capture.spaceWait.isEmpty = true := fun h => others (List.isEmpty_iff.1 h)
  rw [joinSpace, if_neg notIn, if_neg notEmpty]

theorem joinSpace_of_first {s : State} (id : Nat) (none_ : s.capture.spaceWait = []) :
    joinSpace id s = beginHold (enterSpace id s) := by
  rw [joinSpace, none_]
  rfl

theorem enterSpace_withOldLine (id : Nat) (line : LineData) (s : State) : enterSpace id (withOldLine id line s) =
    { s with capture := { s.capture with
      entries := s.capture.entries.map fun x =>
        if x.id == id then { x with oldData := some line, state := .awaitSpace } else x
      spaceWait := s.capture.spaceWait ++ [id] } } := by
  unfold enterSpace
  dsimp only
  rw [updateEntry_withOldLine]
  rfl

/-- The old line stored in an entry that stays in LINE_READ. -/
theorem withOldLine_eq {s : State} {id : Nat} {e : CaptureEntry} (distinct : EntriesDistinct s)
    (found : entryOf s id = some e) (reading : e.state = .lineRead) (line : LineData) : withOldLine id line s =
      { s with capture := { s.capture with entries := s.capture.entries.map fun x =>
        if x.id == id then { x with oldData := some line, state := .lineRead } else x } } := by
  refine updateEntry_congr (g := fun x => { x with oldData := some line, state := .lineRead }) distinct found ?_
  rw [← reading]

/-- The entry that asks is the only one of its number, and a break of its epoch reaches it. -/
theorem reached_of_id {s : State} {id : Nat} {e : CaptureEntry} {line : LineData} {tag : DownTag}
    (distinct : EntriesDistinct s) (found : entryOf s id = some e) :
    ∀ x ∈ (withOldLine id line (oldLineBack tag id s)).capture.entries, x.early = true → (x.id == id) = true →
      reachedByBreak e.epoch x = true := by
  intro x member _ number
  obtain ⟨y, isEntry, rfl⟩ := List.mem_map.1 member
  have epoch : y.epoch = e.epoch := by
    have same : y.id = id := by
      split at number
      · exact beq_iff_eq.1 number
      · exact beq_iff_eq.1 number
    rw [eq_of_id distinct.1 isEntry (entryOf_mem found) (same.trans (entryOf_id found).symm)]
  have kept : (if y.id == id then { y with oldData := some line } else y).epoch = y.epoch := by
    split
    · rfl
    · rfl
  rw [reachedByBreak, Bool.or_eq_true, beq_iff_eq]
  exact .inl (kept.trans epoch)

theorem distinct_withOldLine {s : State} (distinct : EntriesDistinct s) (id : Nat) (line : LineData) (tag : DownTag) :
    ((withOldLine id line (oldLineBack tag id s)).capture.entries.map (·.id)).Nodup := by
  show ((s.capture.entries.map fun x => if x.id == id then { x with oldData := some line } else x).map (·.id)).Nodup
  have same : ((fun x : CaptureEntry => x.id) ∘ fun x => if x.id == id then { x with oldData := some line } else x) =
      fun x => x.id := by
    funext x
    dsimp only [Function.comp]
    split
    · rfl
    · rfl
  rw [List.map_map, same]
  exact distinct.1

/-- Settles O45: the entry asks, and what stands in its way decides. -/
theorem captureLimitReached : Obligations.CaptureLimitReached := by
  unfold Obligations.CaptureLimitReached
  intro s tag id line e use distinct found reading placed
  obtain ⟨asks, found', early⟩ := exec_oldLineRead_asks (line := line) use found reading placed
  have stored := withOldLine_eq (s := oldLineBack tag id s) distinct found reading line
  have distinct' := distinct_withOldLine distinct id line tag
  have reached := reached_of_id (line := line) (tag := tag) distinct found
  rw [askCapture_eq found' early] at asks
  rw [asks]
  have noneWait (none_ : s.capture.spaceWait = []) :
      (withOldLine id line (oldLineBack tag id s)).capture.spaceWait.isEmpty = true := List.isEmpty_iff.2 none_
  refine ⟨fun others new => ?_, fun none_ waits => ?_, fun none_ free left last armed whole => ?_,
    fun none_ free full => ⟨fun hold => ?_, fun break_ armed => ⟨fun plain whole isOpen => ?_, fun closing whole => ?_⟩⟩⟩
  · have someWait : ¬ (withOldLine id line (oldLineBack tag id s)).capture.spaceWait.isEmpty = true :=
      fun h => others (List.isEmpty_iff.1 h)
    rw [if_neg someWait, joinSpace_of_others (s := withOldLine id line (oldLineBack tag id s)) others new,
      enterSpace_withOldLine]
    rfl
  · rw [if_pos (noneWait none_), requestCapture_of_mustWait (s := withOldLine id line (oldLineBack tag id s)) waits, stored]
    rfl
  · have spent : allocationSpent (withOldLine id line (oldLineBack tag id s)).journal = true :=
      (allocationSpent_iff _).2 (.inr last)
    rw [if_pos (noneWait none_), requestCapture_of_not_mustWait (s := withOldLine id line (oldLineBack tag id s)) free,
      judgeCapture_of_spent found' early spent,
      letGo_exhaustBreak_enterExhaustion (s := withOldLine id line (oldLineBack tag id s)) _ distinct' left armed whole,
      stored]
    rfl
  all_goals
    have open_ : CanWrite (withOldLine id line (oldLineBack tag id s)) := free
    rw [if_pos (noneWait none_), requestCapture_of_not_mustWait (mustWait_of_canWrite open_)]
  · rw [judgeCapture_hold found' early (allocationSpent_of_canWrite open_) full hold,
      joinSpace_of_first (s := withOldLine id line (oldLineBack tag id s)) id none_, enterSpace_withOldLine,
      show (oldLineBack tag id s).capture.spaceWait = [] from none_]
    rfl
  · have breaks := raiseBreak_open .limit e.epoch (withOldLine id line (oldLineBack tag id s)) distinct' armed plain whole
      isOpen
    rw [judgeCapture_break found' early (allocationSpent_of_canWrite open_) full break_,
      (breaks.letGone distinct' reached).letGo_eq]
    exact ⟨_, stored ▸ breaks, rfl⟩
  · have breaks := raiseBreak_closing .limit e.epoch (withOldLine id line (oldLineBack tag id s)) distinct' armed closing
      whole
    rw [judgeCapture_break found' early (allocationSpent_of_canWrite open_) full break_,
      (breaks.letGone distinct' reached).letGo_eq]
    exact ⟨_, stored ▸ breaks, rfl⟩

end Sys2Proof.Machine
end

section
/-! PROOFS. The retirement of a capture entry, the requests that waited for room or for a slot, and the timers (R13, R25, R26,
R36, R38, R43, R65, R79, R96, R132, R146). -/

namespace Sys2Proof.Machine

/-! ### Retirement (R36) -/

theorem exec_forwardedWrite {s : State} {tag : DownTag} {id : Nat} (use : tagState s tag = .inUse (.forwarded id))
    (error : Bool) :
    exec (.forwardedWriteCompletion tag error) s = .next (finish (retire id error (setTag tag .free s))) := by
  show execForwardedWriteCompletion tag error s = _
  rw [execForwardedWriteCompletion, use]

theorem retire_of_not_forwarding {s : State} {id : Nat} {e : CaptureEntry} (found : entryOf s id = some e)
    (other : e.state ≠ .forwarding) (error : Bool) : retire id error s = s := by
  rw [retire, found]
  exact if_pos other

theorem retire_failed {s : State} {id : Nat} {e : CaptureEntry} (found : entryOf s id = some e)
    (forwarding : e.state = .forwarding) :
    retire id true s = freeEntry id (countDataError (deliver e.initiator e.tag .dataError s)) := by
  rw [retire, found]
  exact if_neg (not_not.2 forwarding)

theorem retire_done {s : State} {id : Nat} {e : CaptureEntry} (found : entryOf s id = some e)
    (forwarding : e.state = .forwarding) : retire id false s =
      freeEntry id (if insertsLine e s then filterInsert e.line (deliver e.initiator e.tag (.okay none) s)
        else deliver e.initiator e.tag (.okay none) s) := by
  rw [retire, found]
  exact if_neg (not_not.2 forwarding)

theorem insertsLine_iff (e : CaptureEntry) (s : State) : insertsLine e s = true ↔
    e.recorded = true ∧ s.ctl.openEpoch = some e.epoch ∧ s.ctl.state = .armed ∧ s.ctl.condition ≠ .broken := by
  rw [insertsLine, Bool.and_eq_true, Bool.and_eq_true, beq_iff_eq, capturing_iff, and_assoc]

/-- The sets of the filter are told by the low byte of the line (R25). -/
theorem filterSet_beq (x y : LineAddr) : (filterSet x == filterSet y) = (x.toNat % 256 == y.toNat % 256) := by
  rw [Bool.eq_iff_iff, beq_iff_eq, beq_iff_eq, filterSet, filterSet, BitVec.toNat_eq, BitVec.toNat_setWidth,
    BitVec.toNat_setWidth]

theorem filterInsert_of_held {s : State} {line : LineAddr} (held_ : line ∈ s.capture.filter) : filterInsert line s = s :=
  if_pos (List.contains_iff_mem.2 held_)

section new
variable {s : State} {line : LineAddr} (new : line ∉ s.capture.filter)
include new

/-- A new line, by the ways its set has left (R25, R26). -/
theorem filterInsert_of_new : filterInsert line s =
    if (s.capture.filter.filter fun x => x.toNat % 256 == line.toNat % 256).length < Config.filterWays then
      { s with capture := { s.capture with filter := s.capture.filter ++ [line] } }
    else { s with alerts := { s.alerts with filterFull := satInc s.alerts.filterFull } } := by
  have notIn : ¬ s.capture.filter.contains line = true := fun h => new (List.contains_iff_mem.1 h)
  rw [filterInsert, if_neg notIn]
  simp only [filterSet_beq]

theorem filterInsert_of_room
    (room : (s.capture.filter.filter fun x => x.toNat % 256 == line.toNat % 256).length < 16) :
    filterInsert line s = { s with capture := { s.capture with filter := s.capture.filter ++ [line] } } := by
  rw [filterInsert_of_new new, if_pos room]

theorem filterInsert_of_full
    (full : 16 ≤ (s.capture.filter.filter fun x => x.toNat % 256 == line.toNat % 256).length) :
    filterInsert line s = { s with alerts := { s.alerts with filterFull := satInc s.alerts.filterFull } } := by
  rw [filterInsert_of_new new, if_neg (Nat.not_lt.2 full)]

end new

/-- Settles O46: the entry's state, the result, and the filter's own tests. -/
theorem forwardedWriteRetires : Obligations.ForwardedWriteRetires := by
  unfold Obligations.ForwardedWriteRetires
  intro s tag id e use found
  have found' : entryOf (setTag tag .free s) id = some e := found
  refine ⟨fun other x => ?_, fun forwarding => ⟨?_, fun stays => ?_, fun inserts ways => ?_, fun inserts ways => ?_⟩⟩
  · rw [exec_forwardedWrite use, retire_of_not_forwarding found' other]
    rfl
  · rw [exec_forwardedWrite use, retire_failed found' forwarding]
    rfl
  · rw [exec_forwardedWrite use, retire_done found' forwarding]
    split
    · next may =>
      obtain ⟨recorded, isOpen, armed, whole⟩ := (insertsLine_iff e _).1 may
      have held_ : e.line ∈ s.capture.filter := by_contra fun new => stays ⟨recorded, isOpen, armed, whole, new⟩
      rw [filterInsert_of_held (s := deliver e.initiator e.tag (.okay none) (setTag tag .free s)) held_]
      rfl
    · rfl
  all_goals
    obtain ⟨recorded, isOpen, armed, whole, new⟩ := inserts
    have may : insertsLine e (setTag tag .free s) = true := (insertsLine_iff e _).2 ⟨recorded, isOpen, armed, whole⟩
    rw [exec_forwardedWrite use, retire_done found' forwarding, if_pos may]
  · rw [filterInsert_of_room (s := deliver e.initiator e.tag (.okay none) (setTag tag .free s)) new ways]
    rfl
  · rw [filterInsert_of_full (s := deliver e.initiator e.tag (.okay none) (setTag tag .free s)) new ways]
    rfl

/-! ### Requests that waited for room (R132) -/

theorem hasRoom_of_le {s : State} {k : Nat} (room : s.down.outgoing.length + k ≤ 32) : hasRoom s k = true :=
  (hasRoom_iff s k).2 room

theorem not_hasRoom_of_lt {s : State} {k : Nat} (full : 32 < s.down.outgoing.length + k) : ¬ hasRoom s k = true :=
  fun room => absurd ((hasRoom_iff s k).1 room) (Nat.not_le.2 full)

/-- Settles O56: each block's front request, and whether there is room for it. -/
theorem waitingRequestsEnter : Obligations.WaitingRequestsEnter := by
  unfold Obligations.WaitingRequestsEnter
  intro s
  refine ⟨fun id rest e front found room => ?_, fun header data rest front room => ?_, fun e rest front room => ?_,
    fun e rest front room => ?_, fun full => ⟨?_, ?_, ?_⟩, fun full => ?_⟩
  · show Host.Outcome.next (queueForwarded s) = _
    have found' : entryOf { s with capture := { s.capture with forwardWait := rest } } id = some e := found
    rw [queueForwarded, front]
    dsimp only
    rw [if_pos (hasRoom_of_le room), found']
    rfl
  · show Host.Outcome.next (queueJournalPair s) = _
    rw [queueJournalPair, front]
    dsimp only
    rw [if_pos (hasRoom_of_le room)]
    simp [enqueue]
  · show Host.Outcome.next (queueUndo s) = _
    rw [queueUndo, front]
    exact congrArg _ (if_pos (hasRoom_of_le room))
  · show Host.Outcome.next (queueScan s) = _
    rw [queueScan, front]
    exact congrArg _ (if_pos (hasRoom_of_le room))
  · show Host.Outcome.next (queueForwarded s) = _
    unfold queueForwarded
    split
    · rfl
    · rw [if_neg (not_hasRoom_of_lt (by omega))]
  · show Host.Outcome.next (queueUndo s) = _
    unfold queueUndo
    split
    · rfl
    · rw [if_neg (not_hasRoom_of_lt (by omega))]
  · show Host.Outcome.next (queueScan s) = _
    unfold queueScan
    split
    · rfl
    · rw [if_neg (not_hasRoom_of_lt (by omega))]
  · show Host.Outcome.next (queueJournalPair s) = _
    unfold queueJournalPair
    split
    · rfl
    · rw [if_neg (not_hasRoom_of_lt (by omega))]

/-! ### The timers (R38, R43, R65, R146) -/

theorem holdStepExpires_iff (s : State) : holdStepExpires s = true ↔ s.capture.hold.running = true ∧ frozen s 0 = false ∧
    s.capture.hold.timeout * 1000 ≤ s.capture.hold.count + 1 := by
  rw [holdStepExpires, Bool.and_eq_true, Bool.and_eq_true, Bool.not_eq_true', decide_eq_true_iff, and_assoc]

theorem pacingStepElapses_iff (s : State) : pacingStepElapses s = true ↔
    ∃ n, s.capture.pacing = some n ∧ frozen s 1 = false ∧ n + 1 = s.journal.config.pacingInterval := by
  unfold pacingStepElapses
  split
  · next n measured =>
    rw [Bool.and_eq_true, Bool.not_eq_true', beq_iff_eq]
    exact ⟨fun test => ⟨n, measured, test⟩, fun ⟨m, same, test⟩ => by
      obtain rfl : n = m := Option.some.inj (measured.symm.trans same)
      exact test⟩
  · next none_ => exact ⟨nofun, fun ⟨n, some_, _⟩ => absurd (none_.symm.trans some_) nofun⟩

theorem ageStepExpires_iff (s : State) : ageStepExpires s = true ↔ s.ctl.age.running = true ∧ frozen s 2 = false ∧
    s.ctl.age.limit ≠ 0 ∧ s.ctl.age.stale = false ∧ s.ctl.age.limit * 1000 ≤ s.ctl.age.count + 1 := by
  rw [ageStepExpires, Bool.and_eq_true, Bool.and_eq_true, Bool.not_eq_true', ageDue_iff, and_assoc]
  rfl

/-- The hold timer one step on. -/
def holdStepped (s : State) : State :=
  { s with capture := { s.capture with hold := { s.capture.hold with count := s.capture.hold.count + 1 } } }

theorem exec_holdTimerExpiry {s : State} (due : holdStepExpires s = true) :
    exec .holdTimerExpiry s = .next (finish (raiseBreak .holdTimeout (holdStepped s))) :=
  congrArg Host.Outcome.next (if_pos due)

/-- Settles O58: each row fires one step before its timer's value, and the hold timer's expiry is a break. -/
theorem timerRows : Obligations.TimerRows := by
  unfold Obligations.TimerRows
  intro s
  refine ⟨fun due distinct armed plain whole epoch isOpen => ?_, fun due distinct armed whole epoch closing => ?_,
    fun due notTaken => ?_, fun early => ?_, fun n measured moves last => ?_, fun stays => ?_, fun due => ?_, fun early => ?_⟩
  · exact ⟨_, raiseBreak_open .holdTimeout epoch (holdStepped s) distinct.1 armed plain whole isOpen,
      exec_holdTimerExpiry ((holdStepExpires_iff s).2 due)⟩
  · exact ⟨_, raiseBreak_closing .holdTimeout epoch (holdStepped s) distinct.1 armed closing whole,
      exec_holdTimerExpiry ((holdStepExpires_iff s).2 due)⟩
  · show exec .holdTimerExpiry s = _
    rw [exec_holdTimerExpiry ((holdStepExpires_iff s).2 due),
      raiseBreak_notTaken .holdTimeout (holdStepped s) notTaken]
    rfl
  · exact congrArg Host.Outcome.next (if_neg fun due => early ((holdStepExpires_iff s).1 due))
  · have elapses : pacingStepElapses s = true := (pacingStepElapses_iff s).2 ⟨n, measured, moves, last⟩
    have steps : stepPacing s = { s with capture := { s.capture with pacing := some (n + 1) } } := by
      rw [stepPacing, measured]
      rfl
    refine ⟨{ s with capture := { s.capture with pacing := some (n + 1) } }, ?_, ?_, rfl⟩
    · exact congrArg Host.Outcome.next ((if_pos elapses).trans steps)
    · exact decide_eq_true (Nat.le_of_eq last.symm)
  · refine congrArg Host.Outcome.next (if_neg fun elapses => ?_)
    obtain ⟨n, measured, moves, last⟩ := (pacingStepElapses_iff s).1 elapses
    rcases stays with none_ | frozen_ | ⟨m, same, other⟩
    · exact absurd (none_.symm.trans measured) nofun
    · exact absurd (moves.symm.trans frozen_) nofun
    · obtain rfl : n = m := Option.some.inj (measured.symm.trans same)
      exact other last
  · exact congrArg Host.Outcome.next (if_pos ((ageStepExpires_iff s).2 due))
  · exact congrArg Host.Outcome.next (if_neg fun due => early ((ageStepExpires_iff s).1 due))

end Sys2Proof.Machine
end

section
/-! PROOFS. The end of an event: what it never changes, the end of a retraction, and the allocation requests that wait (R13,
R41, R55, R60, R73, R78). -/

namespace Sys2Proof.Machine

/-- Settles O9: what every operation of an event's end keeps. -/
theorem eventEndFrame : Obligations.EventEndFrame := by
  unfold Obligations.EventEndFrame
  intro s ends isEnd
  have keeps : Keeps s (ends s) := by
    rcases isEnd with rfl | rfl
    · exact finish_keeps s
    · exact finishScan_keeps s
  exact ⟨keeps.cls, keeps.scan, keeps.ingress, keeps.credits, keeps.position, keeps.outstanding, keeps.sent, keeps.mask,
    keeps.freezeMask, keeps.frz, keeps.fltreq, keeps.address, keeps.overrun, keeps.delivered⟩

/-! ### The end of a retraction (R78) -/

theorem anyInFlight_eq_false_iff (p : Source → Bool) (s : State) : anyInFlight p s = false ↔
    (∀ e ∈ s.down.outgoing, p e.source = false) ∧ ∀ tag src, tagState s tag = .inUse src → p src = false := by
  unfold anyInFlight
  rw [Bool.or_eq_false_iff, List.any_eq_false, List.any_eq_false]
  refine and_congr ?_ ⟨fun all tag src use => ?_, fun all t member => ?_⟩
  · simp only [Bool.not_eq_true]
  · have test := all (tagState s tag) (by simp [tagState])
    rw [use] at test
    exact Bool.eq_false_iff.2 test
  · obtain ⟨k, bound, rfl⟩ := List.getElem_of_mem member
    have at_ : tagState s ⟨k, by simpa using bound⟩ = s.down.outstanding.toList[k] := by simp [tagState]
    rw [← at_]
    split
    · exact Bool.false_ne_true
    · next src use =>
      rw [all _ src use]
      exact Bool.false_ne_true
    · exact Bool.false_ne_true

/-- Nothing that a retraction waits for is left (R78). -/
theorem retractionDone_iff (s : State) : retractionDone s = true ↔ s.capture.entries = [] ∧
    (∀ r ∈ s.journal.slotRecords, r.forgotten = false → r.header ≠ .outstanding ∧ r.data ≠ .outstanding) ∧
    s.rollback.readsLeft = [] ∧
    ∀ n t isRead, (∀ e ∈ s.down.outgoing, e.source ≠ .passed n t isRead true) ∧
      ∀ tag, tagState s tag ≠ .inUse (.passed n t isRead true) := by
  unfold retractionDone
  rw [Bool.and_eq_true, Bool.and_eq_true, Bool.and_eq_true, List.isEmpty_iff, List.isEmpty_iff, Bool.not_eq_true',
    anyInFlight_eq_false_iff, List.all_eq_true, and_assoc, and_assoc]
  refine and_congr_right fun _ => and_congr ?_ (and_congr_right fun _ => ⟨?_, fun none_ => ⟨fun e member => ?_,
    fun tag src use => ?_⟩⟩)
  · simp only [liveRecords, List.mem_filter, Bool.not_eq_true', and_imp, settled_iff]
  · rintro ⟨queued, issued⟩ n t isRead
    exact ⟨fun e member source => absurd (queued e member) (by rw [source]; exact Bool.false_ne_true ∘ Eq.symm),
      fun tag use => Bool.false_ne_true (issued tag _ use).symm⟩
  · cases source : e.source with
    | passed n t isRead guarded =>
      cases guarded with
      | false => rfl
      | true => exact absurd source ((none_ n t isRead).1 e member)
    | oldLine _ => rfl
    | forwarded _ => rfl
    | journal _ _ => rfl
    | undoRead _ _ => rfl
    | undoWrite _ => rfl
    | voidWrite _ => rfl
    | scanRead _ _ _ => rfl
  · cases src with
    | passed n t isRead guarded =>
      cases guarded with
      | false => rfl
      | true => exact absurd use ((none_ n t isRead).2 tag)
    | oldLine _ => rfl
    | forwarded _ => rfl
    | journal _ _ => rfl
    | undoRead _ _ => rfl
    | undoWrite _ => rfl
    | voidWrite _ => rfl
    | scanRead _ _ _ => rfl

/-- At rest, an event's end only judges the retraction and sets the phase. -/
theorem finish_eq_closeEvent {s : State} (rest : AtRest s) : finish s = closeEvent s := by
  obtain ⟨space, report, waiters, -⟩ := rest
  have lead := markerMayLead_of_atRest s waiters
  have next := judgeNext_of_atRest s space report waiters
  unfold finish
  rw [afterSpace_of_atRest s space report, inTurn_of_not _ lead, next, inTurn_of_not _ lead, next]

theorem checkRetraction_of_done {s : State} (retract : s.rollback.phase = .retract) (done : retractionDone s = true) :
    checkRetraction s = beginUndo s := if_pos ⟨retract, done⟩

/-- While a rollback runs no request of another waits, at rest (R70). -/
theorem rollbackWaits_of_rolling {s : State} (waiters : WaitersAtRest s) (phase : PhaseFollowsState s)
    (rolling : s.ctl.state = .rolling) : rollbackWaits s = false := by
  obtain ⟨-, -, noMark⟩ := phase
  have noPending := noMark (.inl rolling)
  rcases waiters with pending | adopting | ⟨noLine, noCommand⟩
  · exact absurd pending (by rw [noPending]; decide)
  · exact absurd (rolling.symm.trans adopting) nofun
  · rw [Bool.eq_false_iff, Ne, rollbackWaits_iff]
    rintro (line | ⟨d, slot⟩)
    · exact absurd line (by rw [noLine]; decide)
    · rw [waitingCommand, slot] at noCommand
      exact nomatch noCommand

/-- A settle leaves nothing for the phase to be set from. -/
theorem setPhase_of_settles {target : Target} {voidFailed : Bool} {s t : State} (settles : Settles target voidFailed s t)
    (none_ : rollbackWaits s = false) : setPhase t = t := by
  refine setPhase_of_atRest t (.inr (.inr ?_))
  have idle : t.rollback.phase = .idle := by rw [settles]
  have same : rollbackWaits t = rollbackWaits s := by rw [settles]; rfl
  rw [idle, same, none_]
  rfl

/-- Settles O10: the event that leaves nothing to wait for begins the walk, or settles where there is nothing to walk. -/
theorem retractionEnds : Obligations.RetractionEnds := by
  unfold Obligations.RetractionEnds
  intro s limit target rest phase rolling retract limited targeted
  have close := finish_eq_closeEvent rest
  refine ⟨fun notDone => ?_, fun done left => ?_, fun done none_ => ?_⟩
  · exact (finish_of_atRest s rest fun _ => Bool.eq_false_iff.2 fun done => notDone ((retractionDone_iff s).1 done)).1
  all_goals
    rw [close, closeEvent, checkRetraction_of_done retract ((retractionDone_iff s).2 done), beginUndo, limited]
    dsimp only
  · obtain ⟨out, wait, places, reads⟩ := readSlot_eq (prevSlot s.journal limit) (enterUndo (prevSlot s.journal limit) s)
    refine ⟨out, wait, places, ?_⟩
    rw [if_neg left, reads]
    exact setPhase_of_atRest _ (.inl rolling)
  · have settles := settle_eq target false (enterUndo (prevSlot s.journal limit) s) targeted
    have noneWaits : rollbackWaits s = false := rollbackWaits_of_rolling rest.2.2.1 phase rolling
    rw [if_pos none_, setPhase_of_settles settles noneWaits]
    exact settles

/-! ### Space, and the closing report (R13, R41, R60) -/

/-- An event's end begins with what is granted and reported. -/
theorem ends_of_afterSpace {s t : State} {ends : State → State} (isEnd : ends = finish ∨ ends = finishScan)
    (same : afterSpace s = afterSpace t) : ends s = ends t := by
  rcases isEnd with rfl | rfl
  · unfold finish
    rw [same]
  · unfold finishScan
    rw [same]

theorem afterSpace_of_noneWait {s : State} (none_ : s.capture.spaceWait = []) : afterSpace s = reportClosing s := by
  unfold afterSpace
  rw [none_]
  rfl

/-- The MARK slot of a pending mark is requested once no entry of the closing epoch is short of RECORDING (R60). -/
theorem reportClosing_of_due {s : State} {c : Checkpoint} (pending : pendingEntry s = some c) (unplaced : c.markSlot = none)
    (unasked : AllocRequest.mark ∉ s.journal.allocWait)
    (clear : ∀ epoch, s.capture.closing = some epoch → ∀ e ∈ s.capture.entries, e.epoch = epoch → e.early = false) :
    reportClosing s = requestMark s := by
  have isClear : closingClear s = true := by
    unfold closingClear
    split
    · rfl
    · next epoch closing =>
      rw [List.all_eq_true]
      intro e member
      rw [Bool.not_eq_true', Bool.and_eq_false_iff]
      by_cases ofEpoch : e.epoch = epoch
      · exact .inr (clear epoch closing e member ofEpoch)
      · exact .inl (beq_eq_false_iff_ne.2 ofEpoch)
  unfold reportClosing
  rw [pending]
  refine if_pos ⟨unplaced, ?_, isClear⟩
  rw [← Bool.not_eq_true, List.contains_iff_mem]
  exact unasked

theorem requestMark_of_mustWait {s : State} (waits : MustWait s) :
    requestMark s = setWaiting (s.journal.allocWait ++ [.mark]) s := if_pos ((mustWait_iff s).1 waits)

theorem requestMark_of_not_mustWait {s : State} (free : ¬ MustWait s) : requestMark s = judgeMark s :=
  if_neg fun waits => free ((mustWait_iff s).2 waits)

/-- A MARK slot that can be granted is granted (R60). -/
theorem judgeMark_granted {s : State} {c : Checkpoint} {p : PendingMark} (pending : pendingEntry s = some c)
    (mark : s.ctl.pendingMark = some p) (unspent : allocationSpent s.journal = false)
    (room : s.journal.occupancy < s.journal.config.slots) :
    judgeMark s = askWaiting (trailed (withMark c p s)) := by
  rw [judgeMark, pending, ← grantMark_eq c p s mark]
  exact (if_neg (by rw [unspent]; decide)).trans (if_pos room)

theorem contains_append_self {l : List AllocRequest} (r : AllocRequest) : (l ++ [r]).contains r = true :=
  List.contains_iff_mem.2 (List.mem_append_right _ List.mem_cons_self)

/-- Freed space is granted to the front of the list (R41). -/
theorem grantSpace_step {s : State} {id : Nat} {rest : List Nat} (front : s.capture.spaceWait = id :: rest)
    (below : s.journal.occupancy < captureLimit s.journal) (unasked : AllocRequest.capture id ∉ s.journal.allocWait)
    (n : Nat) : grantSpace (n + 1) s = grantSpace n (requestCapture id s) := by
  have notAsked : s.journal.allocWait.contains (.capture id) = false := by
    rw [← Bool.not_eq_true, List.contains_iff_mem]
    exact unasked
  rw [grantSpace, front]
  exact if_pos ⟨below, notAsked⟩

/-! ### Requests that waited for a slot (R13) -/

theorem judgeWaiting_of_nil {s : State} (none_ : s.journal.allocWait = []) (n : Nat) : judgeWaiting n s = s := by
  cases n with
  | zero => rfl
  | succ n => rw [judgeWaiting, none_]

/-- The waiting requests are judged where the tail's slot is free and one waits (R13). -/
theorem exec_allocationWaitEnd_alone {s t : State} {r : AllocRequest} (alone : s.journal.allocWait = [r])
    (open_ : tailBlocked s.journal = false)
    (judged : judgeRequest r { s with journal := { s.journal with allocWait := [] } } = t)
    (none_ : t.journal.allocWait = []) : exec .allocationWaitEnd s = .next (finish t) := by
  have goes : ¬ (s.journal.allocWait.isEmpty || tailBlocked s.journal) = true := by
    rw [alone, open_]
    exact Bool.false_ne_true
  have first : judgeWaiting (4 * Config.captureEntries) s = judgeWaiting 63 (judgeRequest r (setWaiting [] s)) := by
    show judgeWaiting (63 + 1) s = _
    rw [judgeWaiting, alone]
    exact if_neg (by rw [open_]; decide)
  show Host.Outcome.next (endAllocationWait s) = _
  rw [endAllocationWait, if_neg goes, first, show judgeRequest r (setWaiting [] s) = t from judged,
    judgeWaiting_of_nil none_]

/-- Settles O57: a request joins those that wait where the tail's slot is forgotten, and one that waited alone is judged once
it is not. -/
theorem waitingAllocationJudged : Obligations.WaitingAllocationJudged := by
  unfold Obligations.WaitingAllocationJudged
  intro s
  refine ⟨fun c none_ pending unplaced unasked clear waits => ?_, fun id rest front unasked below waits => ?_,
    fun blocked => ?_, fun none_ => ?_, fun epoch cause alone free room => ?_, fun id e alone found early free below => ?_,
    fun c p alone pending mark noneAwait free room => ?_⟩
  · refine ends_of_afterSpace (.inl rfl) ?_
    rw [afterSpace_of_noneWait none_, reportClosing_of_due pending unplaced unasked clear, requestMark_of_mustWait waits]
    refine (afterSpace_of_atRest _ (fun id front => ?_) fun c' _ => .inr (.inl (contains_append_self _))).symm
    rw [show (setWaiting (s.journal.allocWait ++ [.mark]) s).capture.spaceWait = [] from none_] at front
    exact nomatch front
  · refine ends_of_afterSpace (.inl rfl) ?_
    have asked : SpaceAtRest (setWaiting (s.journal.allocWait ++ [.capture id]) s) := fun id' front' => by
      obtain rfl : id = id' := by
        rw [show (setWaiting (s.journal.allocWait ++ [.capture id]) s).capture.spaceWait = id :: rest from front] at front'
        exact Option.some.inj front'
      exact .inr (contains_append_self _)
    have granted : grantSpace s.capture.spaceWait.length s = setWaiting (s.journal.allocWait ++ [.capture id]) s := by
      rw [show s.capture.spaceWait.length = rest.length + 1 by rw [front]; rfl,
        grantSpace_step front below unasked, requestCapture_of_mustWait waits, grantSpace_of_atRest _ _ asked]
    show reportClosing (grantSpace s.capture.spaceWait.length s) = reportClosing (grantSpace _ (setWaiting _ s))
    rw [granted, grantSpace_of_atRest _ _ asked]
  · exact congrArg Host.Outcome.next (if_pos ((Bool.or_eq_true _ _).mpr (.inr blocked)))
  · exact congrArg Host.Outcome.next (if_pos ((Bool.or_eq_true _ _).mpr (.inl (List.isEmpty_iff.2 none_))))
  · refine exec_allocationWaitEnd_alone alone free.2.2.2 ?_ rfl
    rw [judgeRequest, judgeBreak, allocateSlot_eq]
    exact (if_neg (by rw [allocationSpent_of_canWrite free]; decide)).trans (if_pos room)
  · refine exec_allocationWaitEnd_alone alone free.2.2.2 ?_ rfl
    exact judgeCapture_granted (s := { s with journal := { s.journal with allocWait := [] } }) found early
      (allocationSpent_of_canWrite free) below
  · obtain ⟨-, entries, -, -, -, alloc, -⟩ :=
      trailed_keeps (withMark c p { s with journal := { s.journal with allocWait := [] } })
    refine exec_allocationWaitEnd_alone alone free.2.2.2 ?_ alloc
    have granted := judgeMark_granted (s := { s with journal := { s.journal with allocWait := [] } }) pending mark
      (allocationSpent_of_canWrite free) room
    rw [judgeRequest, granted, askWaiting_of_none]
    rw [entries]
    exact noneAwait

end Sys2Proof.Machine
end

section
/-! PROOFS. The walk of a rollback: its reads, its undo writes and its void write complete (R79 to R84). -/

namespace Sys2Proof.Machine

/-! ### The completions, while a walk is in progress -/

theorem exec_undoRead {s : State} {tag : DownTag} {k : Nat} {half : Half} (use : tagState s tag = .inUse (.undoRead k half))
    (walks : walking s = true) (x : ReadResult) :
    exec (.undoReadCompletion tag x) s = .next (undoReadDone half x (setTag tag .free s)) := by
  show execUndoReadCompletion tag x s = _
  rw [execUndoReadCompletion, use]
  exact congrArg Host.Outcome.next (if_pos walks)

theorem exec_undoWrite {s : State} {tag : DownTag} {k : Nat} (use : tagState s tag = .inUse (.undoWrite k))
    (walks : walking s = true) (error : Bool) :
    exec (.undoWriteCompletion tag error) s = .next (undoWriteDone error (setTag tag .free s)) := by
  show execUndoWriteCompletion tag error s = _
  rw [execUndoWriteCompletion, use]
  exact congrArg Host.Outcome.next (if_pos walks)

theorem exec_voidWrite {s : State} {tag : DownTag} {k : Nat} (use : tagState s tag = .inUse (.voidWrite k))
    (walks : walking s = true) (error : Bool) :
    exec (.voidWriteCompletion tag error) s = .next (settle error (setTag tag .free s)) := by
  show execVoidWriteCompletion tag error s = _
  rw [execVoidWriteCompletion, use]
  exact congrArg Host.Outcome.next (if_pos walks)

/-! ### A slot of the walk is done, or the walk stops (R79, R84) -/

theorem stopWalk_stops {s : State} {p : Nat} (at_ : s.rollback.undoPointer = some p) (cause : WalkCause) :
    StopsWalk cause p s (stopWalk cause s) := by
  unfold StopsWalk stopWalk
  rw [at_]
  rfl

section
variable {s : State} {target : Target} {p : Nat} (targeted : s.rollback.target = some target)
  (at_ : s.rollback.undoPointer = some p)
include targeted at_

/-- The slot before the one that is done is read while one is left. -/
theorem slotDone_reads (seq : SeqNo) (more : 1 < s.rollback.remaining) : ∃ out wait,
    Places s.down.outgoing s.rollback.undoWait (undoReads s.journal (prevSlot s.journal p)) out wait ∧
    slotDone seq s = { s with
      alerts := { s.alerts with recordsUndone := satInc s.alerts.recordsUndone }
      rollback := { s.rollback with
        undoPointer := some (prevSlot s.journal p), remaining := s.rollback.remaining - 1, lastUndone := some seq
        current := none, pair := { header := none, data := none }, undoWait := wait }
      down := { s.down with outgoing := out } } := by
  obtain ⟨out, wait, places, reads⟩ := readSlot_eq (prevSlot s.journal p) (countSlot seq (prevSlot s.journal p) s)
  refine ⟨out, wait, places, ?_⟩
  rw [slotDone, targeted, at_]
  exact (if_neg (Nat.not_le.2 more)).trans reads

/-- Behind the last slot of the walk the void write goes out. -/
theorem slotDone_voids (seq : SeqNo) (last : s.rollback.remaining = 1) : ∃ out wait,
    Places s.down.outgoing s.rollback.undoWait
      [wholeWrite (slotLine s.journal (nextSlot s.journal target.slot) .header) 0
        (.voidWrite (nextSlot s.journal target.slot))] out wait ∧
    slotDone seq s = { s with
      alerts := { s.alerts with recordsUndone := satInc s.alerts.recordsUndone }
      rollback := { s.rollback with
        undoPointer := some (prevSlot s.journal p), remaining := s.rollback.remaining - 1, lastUndone := some seq
        current := none, undoWait := wait }
      down := { s.down with outgoing := out } } := by
  obtain ⟨out, wait, places, voids⟩ := undoSubmit_eq
    [wholeWrite (slotLine s.journal (nextSlot s.journal target.slot) .header) 0
      (.voidWrite (nextSlot s.journal target.slot))] (countSlot seq (prevSlot s.journal p) s)
  refine ⟨out, wait, places, ?_⟩
  rw [slotDone, targeted, at_]
  exact (if_pos (Nat.le_of_eq last)).trans voids

end

/-- Settles O52: the slot of the undo write is done, or the walk stops. -/
theorem undoWriteCompletes : Obligations.UndoWriteCompletes := by
  unfold Obligations.UndoWriteCompletes
  intro s tag k p target seq use rolling undo targeted at_ current
  have walks := (walking_iff s).2 ⟨rolling, undo⟩
  have done : undoWriteDone false (setTag tag .free s) = slotDone seq (setTag tag .free s) := by
    have current' : (setTag tag .free s).rollback.current = some seq := current
    rw [undoWriteDone, current']
    rfl
  refine ⟨⟨_, exec_undoWrite use walks true, stopWalk_stops (s := setTag tag .free s) at_ .writeError⟩, fun more => ?_,
    fun last => ?_⟩
  all_goals rw [exec_undoWrite use walks, done]
  · obtain ⟨out, wait, places, eq⟩ := slotDone_reads (s := setTag tag .free s) targeted at_ seq more
    exact ⟨out, wait, places, congrArg Host.Outcome.next eq⟩
  · obtain ⟨out, wait, places, eq⟩ := slotDone_voids (s := setTag tag .free s) targeted at_ seq last
    exact ⟨out, wait, places, congrArg Host.Outcome.next eq⟩

/-- Settles O53: the settle is what a void write's completion does, whichever its result. -/
theorem rollbackSettles : Obligations.RollbackSettles := by
  unfold Obligations.RollbackSettles
  intro s tag k target error use rolling undo targeted
  exact ⟨_, exec_voidWrite use ((walking_iff s).2 ⟨rolling, undo⟩) error,
    settle_eq target error (setTag tag .free s) targeted⟩

/-! ### The two lines of a slot (R79, R80) -/

/-- The state with the pair of line reads of the walk. -/
def withUndoPair (pair : PairRead) (s : State) : State := { s with rollback := { s.rollback with pair := pair } }

/-- The first of the two line reads is kept, and nothing else happens (log 21). -/
theorem undoReadDone_first {s : State} {half : Half} (x : ReadResult)
    (first : half = .header ∧ s.rollback.pair.data = none ∨ half = .data ∧ s.rollback.pair.header = none) :
    undoReadDone half x s = withUndoPair (s.rollback.pair.store half x) s := by
  unfold undoReadDone judgePair storePair PairRead.store
  rcases first with ⟨rfl, other⟩ | ⟨rfl, other⟩
  all_goals
    dsimp only
    rw [other]
    cases x <;> rfl

/-- The last of the two line reads completes: the slot is judged. -/
theorem undoReadDone_both {s : State} {half : Half} {x h d : ReadResult}
    (completes : CompletesPair s.rollback.pair half x h d) :
    undoReadDone half x s = judgePair (withUndoPair { header := some h, data := some d } s) := by
  unfold undoReadDone storePair PairRead.store
  rcases completes with ⟨rfl, rfl, other⟩ | ⟨rfl, rfl, other⟩
  all_goals
    dsimp only
    rw [other]
    rfl

theorem judgePair_error {s : State} {h d : ReadResult} (failed : h = .error ∨ d = .error) :
    judgePair (withUndoPair { header := some h, data := some d } s) =
      stopWalk .readError (withUndoPair { header := some h, data := some d } s) := by
  rcases failed with rfl | rfl
  · rfl
  · cases h <;> rfl

theorem walkOrder_iff (s : State) (t : Target) (seq : SeqNo) :
    walkOrder s t seq = true ↔ t.seq < seq ∧ seq < s.rollback.lastUndone.getD s.journal.seq := by
  unfold walkOrder
  cases s.rollback.lastUndone with
  | none => rw [Bool.and_eq_true, decide_eq_true_iff, decide_eq_true_iff]; rfl
  | some last => rw [Bool.and_eq_true, decide_eq_true_iff, decide_eq_true_iff]; rfl

section
variable {s : State} {target : Target} {p : Nat} {header data : LineData} (targeted : s.rollback.target = some target)
  (at_ : s.rollback.undoPointer = some p)
include targeted at_

/-! The tests of R80, in their order. -/

theorem undoSlot_check (k : checkPasses header data = false) : undoSlot header data s = stopWalk .check s := by
  rw [undoSlot, targeted, at_]
  exact if_pos (by rw [k]; rfl)

theorem undoSlot_runStamp (k : checkPasses header data = true)
    (other : headerRunStamp header ≠ s.journal.config.runStamp) : undoSlot header data s = stopWalk .runStamp s := by
  rw [undoSlot, targeted, at_]
  exact (if_neg (by rw [k]; decide)).trans (if_pos other)

variable (sound : checkPasses header data = true ∧ headerRunStamp header = s.journal.config.runStamp)
include sound

theorem undoSlot_kind (none_ : decodeBody header data = none) : undoSlot header data s = stopWalk .kind s := by
  rw [undoSlot, targeted, at_]
  refine (if_neg (by rw [sound.1]; decide)).trans ((if_neg (not_not.2 sound.2)).trans ?_)
  rw [none_]

theorem undoSlot_order {body : RecordBody} (decoded : decodeBody header data = some body)
    (unordered : walkOrder s target (headerSeq header) = false) : undoSlot header data s = stopWalk .order s := by
  rw [undoSlot, targeted, at_]
  refine (if_neg (by rw [sound.1]; decide)).trans ((if_neg (not_not.2 sound.2)).trans ?_)
  rw [decoded]
  exact if_neg (by rw [unordered]; decide)

theorem undoSlot_record {body : RecordBody} (decoded : decodeBody header data = some body)
    (ordered : walkOrder s target (headerSeq header) = true) :
    undoSlot header data s = undoRecord p (headerSeq header) (headerCheckpoint header) body s := by
  rw [undoSlot, targeted, at_]
  refine (if_neg (by rw [sound.1]; decide)).trans ((if_neg (not_not.2 sound.2)).trans ?_)
  rw [decoded]
  exact if_pos ordered

end

/-- The last of the two line reads of the walk's slot has completed. -/
def bothRead (tag : DownTag) (h d : ReadResult) (s : State) : State :=
  withUndoPair { header := some h, data := some d } (setTag tag .free s)

/-- A walk that stops at the pair of lines it has just read. -/
theorem exec_undoRead_stops {s : State} {tag : DownTag} {k p : Nat} {half : Half} {x h d : ReadResult} {cause : WalkCause}
    (use : tagState s tag = .inUse (.undoRead k half)) (walks : walking s = true) (at_ : s.rollback.undoPointer = some p)
    (completes : CompletesPair s.rollback.pair half x h d)
    (stops : judgePair (bothRead tag h d s) =
      stopWalk cause (bothRead tag h d s)) :
    ∃ t, exec (.undoReadCompletion tag x) s = .next t ∧
      StopsWalk cause p (bothRead tag h d s) t := by
  refine ⟨_, (exec_undoRead use walks x).trans (congrArg Host.Outcome.next ?_),
    stopWalk_stops (s := bothRead tag h d s) at_ cause⟩
  exact (undoReadDone_both (s := setTag tag .free s) completes).trans stops

/-- A record of the walk that has passed the tests of R80 but the place test. -/
theorem exec_undoRead_record {s : State} {tag : DownTag} {k p : Nat} {target : Target} {half : Half} {x : ReadResult}
    {header data : LineData} {body : RecordBody} (use : tagState s tag = .inUse (.undoRead k half))
    (walks : walking s = true) (targeted : s.rollback.target = some target) (at_ : s.rollback.undoPointer = some p)
    (completes : CompletesPair s.rollback.pair half x (.ok header) (.ok data))
    (sound : checkPasses header data = true ∧ headerRunStamp header = s.journal.config.runStamp)
    (decoded : decodeBody header data = some body) (ordered : walkOrder s target (headerSeq header) = true) :
    exec (.undoReadCompletion tag x) s = .next (undoRecord p (headerSeq header) (headerCheckpoint header) body
      (bothRead tag (.ok header) (.ok data) s)) := by
  rw [exec_undoRead use walks, undoReadDone_both (s := setTag tag .free s) completes]
  exact congrArg Host.Outcome.next
    (undoSlot_record (s := bothRead tag (.ok header) (.ok data) s) targeted at_ sound decoded ordered)

/-- Settles O51: a lone read is kept; of a pair, the tests of R80 in their order, and then the record by its kind. -/
theorem undoReadCompletes : Obligations.UndoReadCompletes := by
  unfold Obligations.UndoReadCompletes
  intro s tag k p target half x h d header data use rolling undo targeted at_
  have walks := (walking_iff s).2 ⟨rolling, undo⟩
  have order := walkOrder_iff s target (headerSeq header)
  refine ⟨fun ofHeader none_ => ?_, fun ofData none_ => ?_, fun both failed => ?_, fun both headerRead dataRead => ?_⟩
  · subst ofHeader
    rw [exec_undoRead use walks, undoReadDone_first (s := setTag tag .free s) x (.inl ⟨rfl, none_⟩)]
    rfl
  · subst ofData
    rw [exec_undoRead use walks, undoReadDone_first (s := setTag tag .free s) x (.inr ⟨rfl, none_⟩)]
    rfl
  · exact exec_undoRead_stops use walks at_ both (judgePair_error failed)
  subst headerRead dataRead
  have stops : ∀ {cause}, undoSlot header data
      (bothRead tag (.ok header) (.ok data) s) =
        stopWalk cause (bothRead tag (.ok header) (.ok data) s) → _ :=
    exec_undoRead_stops (h := .ok header) (d := .ok data) use walks at_ both
  have acts := fun {body} => exec_undoRead_record (body := body) use walks targeted at_ both
  refine ⟨fun bad => stops (undoSlot_check targeted at_ bad), fun good other => stops (undoSlot_runStamp targeted at_ good other),
    fun sound none_ => stops (undoSlot_kind targeted at_ sound none_),
    fun body sound decoded unordered =>
      stops (undoSlot_order targeted at_ sound decoded (Bool.eq_false_iff.2 fun ordered => unordered (order.1 ordered))),
    fun cause sound decoded ordered => ?_, fun line n old sound decoded ordered => ⟨fun foreign => ?_, fun guarded => ?_⟩,
    fun v src prev restart sound decoded ordered => ⟨fun unlisted => ?_, fun listed => ?_⟩⟩
  · exact ⟨_, acts sound decoded (order.2 ordered), stopWalk_stops (s := bothRead tag (.ok header) (.ok data) s) at_ .kind⟩
  · refine ⟨_, acts sound decoded (order.2 ordered), ?_⟩
    rw [undoRecord, if_neg (by exact Bool.eq_false_iff.1 foreign)]
    exact stopWalk_stops (s := bothRead tag (.ok header) (.ok data) s) at_ .kind
  · obtain ⟨out, wait, places, eq⟩ := undoSubmit_eq [wholeWrite line old (.undoWrite p)]
      { bothRead tag (.ok header) (.ok data) s with
        rollback := { (bothRead tag (.ok header) (.ok data) s).rollback with
          current := some (headerSeq header) } }
    refine ⟨out, wait, places, (acts sound decoded (order.2 ordered)).trans (congrArg Host.Outcome.next ?_)⟩
    rw [undoRecord, if_pos (by exact guarded)]
    exact eq
  · refine ⟨_, acts sound decoded (order.2 ordered), ?_⟩
    rw [undoRecord, if_neg (by exact Bool.eq_false_iff.1 unlisted)]
    exact stopWalk_stops (s := bothRead tag (.ok header) (.ok data) s) at_ .kind
  · have done : ∀ {t}, slotDone (headerSeq header) (removeMatched (headerCheckpoint header) p (headerSeq header)
        (bothRead tag (.ok header) (.ok data) s)) = t →
        exec (.undoReadCompletion tag x) s = .next t := fun eq => by
      rw [acts sound decoded (order.2 ordered), undoRecord, if_pos (by exact listed), eq]
    refine ⟨fun more => ?_, fun last => ?_⟩
    · obtain ⟨out, wait, places, eq⟩ := slotDone_reads (s := removeMatched _ p _ (bothRead tag (.ok header) (.ok data) s))
        targeted at_ (headerSeq header) more
      exact ⟨out, wait, places, done eq⟩
    · obtain ⟨out, wait, places, eq⟩ := slotDone_voids (s := removeMatched _ p _ (bothRead tag (.ok header) (.ok data) s))
        targeted at_ (headerSeq header) last
      exact ⟨out, wait, places, done eq⟩

end Sys2Proof.Machine
end

section
/-! PROOFS. The adoption scan: a line read completes, and the scan reads on or ends (R95 to R106). -/

namespace Sys2Proof.Machine

theorem exec_scanRead {s : State} {tag : DownTag} {run p : Nat} {half : Half}
    (use : tagState s tag = .inUse (.scanRead run p half)) (x : ReadResult) :
    exec (.scanReadCompletion tag x) s = .next (finishScan (scanReadDone run p half x (setTag tag .free s))) := by
  show execScanReadCompletion tag x s = _
  rw [execScanReadCompletion, use]

/-- A read of an earlier scan, or one that outlives its scan, has no effect (R106). -/
theorem scanReadDone_old {s : State} {run : Nat} (old : s.ctl.state ≠ .adopting ∨ run ≠ s.scan.run) (p : Nat) (half : Half)
    (x : ReadResult) : scanReadDone run p half x s = s :=
  if_neg fun current => old.elim (fun k => k current.1) fun k => k current.2

/-- The first of the two line reads is kept, and nothing else happens (log 21). -/
theorem scanReadDone_first {s : State} {half : Half} (p : Nat) (x : ReadResult) (adopting : s.ctl.state = .adopting)
    (first : half = .header ∧ s.scan.pair.data = none ∨ half = .data ∧ s.scan.pair.header = none) :
    scanReadDone s.scan.run p half x s = { s with scan := { s.scan with pair := s.scan.pair.store half x } } := by
  unfold scanReadDone
  rw [if_pos ⟨adopting, rfl⟩]
  unfold PairRead.store
  rcases first with ⟨rfl, other⟩ | ⟨rfl, other⟩
  all_goals
    dsimp only
    rw [other]

/-- The last of the two line reads of the scan's slot has completed. -/
def bothScanned (tag : DownTag) (h d : ReadResult) (s : State) : State :=
  { setTag tag .free s with scan := { s.scan with pair := { header := some h, data := some d } } }

section
variable {s : State} {tag : DownTag} {p : Nat} {half : Half} {x h d : ReadResult}
  (use : tagState s tag = .inUse (.scanRead s.scan.run p half)) (adopting : s.ctl.state = .adopting)
  (completes : CompletesPair s.scan.pair half x h d)
include use adopting completes

/-- The last of the two line reads completes: the slot is judged, and the event ends. -/
theorem exec_scanRead_both :
    exec (.scanReadCompletion tag x) s = .next (finishScan (scanSlot p h d (bothScanned tag h d s))) := by
  rw [exec_scanRead use]
  exact congrArg (Host.Outcome.next ∘ finishScan) (scanReadDone_both (s := setTag tag .free s) p adopting completes)

/-- The anchor, or a later record, fails a test: the scan stops at its slot. -/
theorem exec_scanRead_stops {cause : ScanCause}
    (ends : (s.scan.scanned = 0 ∧ anchorTests h d s = .ends cause) ∨ (s.scan.scanned ≠ 0 ∧ walkTests h d s = .ends cause)) :
    exec (.scanReadCompletion tag x) s = .next (finishScan (stopScan cause p (bothScanned tag h d s))) := by
  rw [exec_scanRead_both use adopting completes]
  rcases ends with ⟨first, tests⟩ | ⟨later, tests⟩
  · have tests' : anchorTests h d (bothScanned tag h d s) = .ends cause := tests
    rw [scanSlot_anchor (s := bothScanned tag h d s) p h d first, tests']
  · have tests' : walkTests h d (bothScanned tag h d s) = .ends cause := tests
    rw [scanSlot_walk (s := bothScanned tag h d s) p h d later, tests']

/-- The anchor, or a later record, passes its tests. -/
theorem exec_scanRead_accepts {seq : SeqNo} {number : CheckpointNo} {body : RecordBody}
    (accepted : (s.scan.scanned = 0 ∧ anchorTests h d s = .accepted seq number body) ∨
      (s.scan.scanned ≠ 0 ∧ walkTests h d s = .accepted seq number body)) :
    exec (.scanReadCompletion tag x) s =
      .next (finishScan (acceptRecord p seq number body (bothScanned tag h d s))) := by
  rw [exec_scanRead_both use adopting completes]
  rcases accepted with ⟨first, tests⟩ | ⟨later, tests⟩
  · have tests' : anchorTests h d (bothScanned tag h d s) = .accepted seq number body := tests
    rw [scanSlot_anchor (s := bothScanned tag h d s) p h d first, tests']
  · have tests' : walkTests h d (bothScanned tag h d s) = .accepted seq number body := tests
    rw [scanSlot_walk (s := bothScanned tag h d s) p h d later, tests']

end

/-- A scan that ends in UNARMED leaves the journal emptied (R104). -/
theorem endUnarmed_bothScanned (result : ScanResult) (cause : ScanCause) (p : Nat) (tag : DownTag) (h d : ReadResult)
    (s : State) : endUnarmed result cause (some p) (bothScanned tag h d s) = { emptied s with
      scan := { s.scan with
        result := result, endCause := cause, endSlot := some p, lastSlot := none, lastSeq := none, segment := none
        working := [], segBreak := none, pair := { header := none, data := none }, scanWait := [] }
      down := { s.down with outstanding := s.down.outstanding.set tag.val .free }
      alerts := { s.alerts with latches := s.alerts.latches ||| 0x100#12 } } := by
  rw [endUnarmed, enterUnarmed_emptyJournal_eq]
  rfl

theorem stopScan_of_none {s : State} (none_ : s.scan.scanned = 0) (cause : ScanCause) (p : Nat) :
    stopScan cause p s = endUnarmed .noAnchor cause (some p) s := if_pos none_

theorem stopScan_of_lost {s : State} (some_ : s.scan.scanned ≠ 0) {cause : ScanCause}
    (lost : cause = .foreignLine ∨ cause = .readError) (p : Nat) :
    stopScan cause p s = endUnarmed .noCheckpoint cause (some p) s := (if_neg some_).trans (if_pos lost)

theorem readScanSlot_eq (slot : Nat) (s : State) : ∃ out wait,
    Places s.down.outgoing s.scan.scanWait (scanReads s.journal s.scan.run slot) out wait ∧
    readScanSlot slot s = { s with
      down := { s.down with outgoing := out }
      scan := { s.scan with pair := { header := none, data := none }, scanWait := wait } } :=
  scanSubmit_eq (scanReads s.journal s.scan.run slot)
    { s with scan := { s.scan with pair := { header := none, data := none } } }

/-- An accepted record is applied, and the next slot is read where the ring has not been walked round. -/
theorem acceptRecord_reads {s : State} (tag : DownTag) (h d : ReadResult) {p : Nat}
    (goesOn : s.scan.start ≠ some (nextSlot s.journal p)) (seq : SeqNo) (number : CheckpointNo) (body : RecordBody) :
    ∃ working segment brk dropped out wait, AcceptsRecord s p seq number body working segment brk dropped ∧
      Places s.down.outgoing s.scan.scanWait (scanReads s.journal s.scan.run (nextSlot s.journal p)) out wait ∧
      acceptRecord p seq number body (bothScanned tag h d s) = { s with
        scan := { s.scan with
          lastSlot := some p, lastSeq := some seq, scanned := s.scan.scanned + 1, pointer := some (nextSlot s.journal p)
          working := working, segment := segment, segBreak := brk, dropped := dropped
          pair := { header := none, data := none }, scanWait := wait }
        down := { s.down with outstanding := s.down.outstanding.set tag.val .free, outgoing := out } } := by
  obtain ⟨working, segment, brk, dropped, applies, accepts⟩ := acceptRecord_eq p seq number body (bothScanned tag h d s)
  obtain ⟨out, wait, places, reads⟩ := readScanSlot_eq (nextSlot s.journal p) { bothScanned tag h d s with
    scan := { (bothScanned tag h d s).scan with
      lastSlot := some p, lastSeq := some seq, scanned := s.scan.scanned + 1, pointer := some (nextSlot s.journal p)
      working := working, segment := segment, segBreak := brk, dropped := dropped } }
  exact ⟨working, segment, brk, dropped, out, wait, applies, places, accepts.trans ((if_neg goesOn).trans reads)⟩

theorem countNewest_append : ∀ (older : List Checkpoint) (c : Checkpoint),
    countNewest (older ++ [c]) = older ++ [{ c with captures := satInc c.captures }]
  | [], _ => rfl
  | [_], _ => rfl
  | a :: b :: rest, c => congrArg (a :: ·) (countNewest_append (b :: rest) c)

/-- Settles O54: a lone read is kept; of a pair, the anchor's tests or those of Table 5.2, and then the record or the end. -/
theorem scanReadCompletes : Obligations.ScanReadCompletes := by
  unfold Obligations.ScanReadCompletes
  refine ⟨rfl, countNewest_append, fun s tag run p half x h d use => ⟨fun old => ?_, fun adopting run_ => ?_⟩⟩
  · rw [exec_scanRead use, scanReadDone_old (s := setTag tag .free s) old]
    rfl
  subst run_
  have first := fun at_ => (exec_scanRead use x).trans (congrArg (Host.Outcome.next ∘ finishScan)
    (scanReadDone_first (s := setTag tag .free s) (half := half) p x adopting at_))
  refine ⟨fun ofHeader none_ => ?_, fun ofData none_ => ?_, fun both failed => ⟨fun anchor => ?_, fun later => ?_⟩,
    fun header data both headerRead dataRead => ?_⟩
  · subst ofHeader
    exact first (.inl ⟨rfl, none_⟩)
  · subst ofData
    exact first (.inr ⟨rfl, none_⟩)
  · rw [exec_scanRead_stops use adopting both (.inl ⟨anchor, anchorTests_ends (recordTests_error h d s failed)⟩),
      stopScan_of_none (s := bothScanned tag h d s) anchor, endUnarmed_bothScanned]
  · rw [exec_scanRead_stops use adopting both (.inr ⟨later, walkTests_ends (recordTests_error h d s failed)⟩),
      stopScan_of_lost (s := bothScanned tag h d s) later (.inr rfl), endUnarmed_bothScanned]
  subst headerRead dataRead
  refine ⟨fun anchor => ?_, fun last segment body later lastSeq ofSegment sound decoded order fits =>
    ⟨fun line n old capture foreign => ?_, fun guarded goesOn => ?_⟩⟩
  · have stops : ∀ {cause}, anchorTests (.ok header) (.ok data) s = .ends cause → exec (.scanReadCompletion tag x) s = _ :=
      fun {cause} tests => by
        rw [exec_scanRead_stops use adopting both (.inl ⟨anchor, tests⟩),
          stopScan_of_none (s := bothScanned tag (.ok header) (.ok data) s) anchor, endUnarmed_bothScanned]
    refine ⟨fun bad => stops (anchorTests_ends (recordTests_check s bad)),
      fun good other => stops (anchorTests_ends (recordTests_runStamp s good other)),
      fun sound none_ => stops (anchorTests_ends (recordTests_kind s sound.1 sound.2 none_)),
      fun body sound decoded other => stops (anchorTests_not_mark (recordTests_ok s sound.1 sound.2 decoded) other),
      fun body sound decoded mark goesOn => ?_⟩
    obtain ⟨working, segment, brk, dropped, out, wait, applies, places, eq⟩ :=
      acceptRecord_reads tag (.ok header) (.ok data) goesOn (headerSeq header) (headerCheckpoint header) body
    refine ⟨working, segment, brk, dropped, out, wait, applies, places, ?_⟩
    rw [exec_scanRead_accepts use adopting both
      (.inl ⟨anchor, anchorTests_mark (recordTests_ok s sound.1 sound.2 decoded) mark⟩), eq]
  all_goals
    obtain ⟨-, -, misplaced, passes⟩ := walkTests_eq (recordTests_ok s sound.1 sound.2 decoded) lastSeq ofSegment
  · have place : placeTest body s = false := by
      rw [capture]
      exact foreign
    rw [exec_scanRead_stops use adopting both (.inr ⟨later, misplaced order fits place⟩),
      stopScan_of_lost (s := bothScanned tag _ _ s) later (.inl rfl), endUnarmed_bothScanned]
  · obtain ⟨working, segment, brk, dropped, out, wait, applies, places, eq⟩ :=
      acceptRecord_reads tag (.ok header) (.ok data) goesOn (headerSeq header) (headerCheckpoint header) body
    refine ⟨working, segment, brk, dropped, out, wait, applies, places, ?_⟩
    rw [exec_scanRead_accepts use adopting both (.inr ⟨later, passes order fits ((placeTest_iff body s).2 guarded)⟩), eq]

/-- Settles O55: the tests that fail beyond the last good record, and the pointer's return to the start, each end the scan
ADOPTED. -/
theorem scanEndsAdopted : Obligations.ScanEndsAdopted := by
  unfold Obligations.ScanEndsAdopted
  intro s tag p half x header data last segment use adopting later lastSeq ofSegment both
  have stops : ∀ {cause}, cause ≠ .foreignLine ∧ cause ≠ .readError →
      walkTests (.ok header) (.ok data) s = .ends cause → ∀ lastSlot lastSeq number oldest newest head,
      s.scan.lastSlot = some lastSlot → s.scan.lastSeq = some lastSeq → s.scan.segment = some number →
      s.scan.working.head? = some oldest → s.scan.working.getLast? = some newest → oldest.markSlot = some head →
      ∃ t, exec (.scanReadCompletion tag x) s = .next (finishScan t) ∧
        EndsAdopted cause p lastSlot lastSeq number newest head (setTag tag .free s) t :=
    fun {cause} good tests _ _ _ _ _ _ a b c d e f => ⟨_, exec_scanRead_stops use adopting both (.inr ⟨later, tests⟩),
      stopScan_adopts cause p (setTag tag .free s) _ later good a b c d e f⟩
  refine ⟨fun bad => stops (by decide) (walkTests_ends (recordTests_check s bad)),
    fun good other => stops (by decide) (walkTests_ends (recordTests_runStamp s good other)),
    fun sound none_ => stops (by decide) (walkTests_ends (recordTests_kind s sound.1 sound.2 none_)),
    fun body sound decoded disorder => ?_, fun body sound decoded order unfit => ?_,
    fun body sound decoded order fits guarded wraps => ?_⟩
  all_goals
    obtain ⟨disordered, misfits, -, passes⟩ := walkTests_eq (recordTests_ok s sound.1 sound.2 decoded) lastSeq ofSegment
  · exact stops (by decide) (disordered disorder)
  · exact stops (by decide) (misfits order unfit)
  · obtain ⟨working, seg, brk, dropped, applies, accepts⟩ := acceptRecord_eq p (headerSeq header) (headerCheckpoint header)
      body (bothScanned tag (.ok header) (.ok data) s)
    refine ⟨working, seg, brk, dropped, applies, fun lastSlot lastSeq number oldest newest head a b c d e f => ⟨_,
      (exec_scanRead_accepts use adopting both
        (.inr ⟨later, passes order fits ((placeTest_iff body s).2 guarded)⟩)).trans
        (congrArg (Host.Outcome.next ∘ finishScan) (accepts.trans (if_pos wraps))), ?_⟩⟩
    exact stopScan_adopts .wrapped (nextSlot s.journal p) { setTag tag .free s with scan := { s.scan with
      lastSlot := some p, lastSeq := some (headerSeq header), scanned := s.scan.scanned + 1
      pointer := some (nextSlot s.journal p), working := working, segment := seg, segBreak := brk, dropped := dropped } }
      _ (Nat.succ_ne_zero _) (by decide) a b c d e f

end Sys2Proof.Machine
end

section
/-! PROOFS. A MARK from UNARMED, whose record is written in the same event (R57, R59, R60). -/

namespace Sys2Proof.Machine

/-- What is granted and reported leaves nothing to judge: the retraction's end is judged and the phase set. -/
theorem finish_of_afterSpace {s t : State} (granted : afterSpace s = t) (space : SpaceAtRest t) (report : ReportAtRest t)
    (waiters : WaitersAtRest t) : finish s = closeEvent t := by
  have lead := markerMayLead_of_atRest t waiters
  have next := judgeNext_of_atRest t space report waiters
  unfold finish
  rw [granted, inTurn_of_not _ lead, next, inTurn_of_not _ lead, next]

/-- Outside a retraction, ROLLING and FAILED, only the phase is set as an event closes. -/
theorem closeEvent_of_armed {s : State} (phase : s.rollback.phase ≠ .retract) (armed : s.ctl.state = .armed) :
    closeEvent s = { s with
      rollback := { s.rollback with phase := if rollbackWaits s then .waiting else .idle } } := by
  rw [closeEvent, checkRetraction_of_not _ fun retract => absurd retract phase, setPhase, armed]
  rfl

/-- The PENDING entry of a command's mark point. -/
def commandMark (v : BitVec 64) (s : State) : Checkpoint :=
  { number := s.journal.nextCheckpoint, status := .pending, markSlot := none, markSeq := none, value := v
    source := .management, captures := 0 }

/-- A command's mark point from UNARMED, before its MARK slot is asked for: the PENDING entry is the whole list. -/
def armedByMark (v : BitVec 64) (s : State) : State :=
  { s with
    journal := { s.journal with nextCheckpoint := s.journal.nextCheckpoint + 1, adoptable := true }
    capture := { s.capture with filter := [], nearFull := false, closing := none, closingBroken := false }
    ctl := { s.ctl with
      state := .armed, condition := .intact, openEpoch := some s.journal.nextCheckpoint
      checkpoints := [commandMark v s]
      pendingMark := some { previous := none, restart := true } }
    port := { s.port with slot := .executing (.mark v true), reading := none } }

theorem markPoint_of_unarmed {s : State} (v : BitVec 64) (unarmed : s.ctl.state = .unarmed) (none_ : s.ctl.checkpoints = [])
    (noWait : s.capture.spaceWait = []) :
    markPoint .management v (keepExecuting (.mark v true) (withoutRead s)) = armedByMark v s := by
  unfold markPoint makeRoom closeEpoch appendPending armedByMark commandMark keepExecuting withoutRead
  simp [unarmed, none_, noWait]

theorem exec_mark_of_unarmed {s : State} {v : BitVec 64} (ready : Ready s) (unarmed : s.ctl.state = .unarmed)
    (none_ : s.ctl.checkpoints = []) (noWait : s.capture.spaceWait = []) (configured : s.journal.configured = true)
    (unspent : countersSpent s.journal = false) : exec (.mark v) s = .next (finish (armedByMark v s)) := by
  have noPending : hasPending (withoutRead s) = false := by
    show s.ctl.checkpoints.any _ = false
    rw [none_]
    rfl
  have taken : markVerdict (withoutRead s) = .taken :=
    (markVerdict_of_unspent (s := withoutRead s) (.inl unarmed) configured unspent).trans
      (if_neg (by rw [noPending]; decide))
  rw [exec_mark ready, judgeMarkCommand, taken, ← markPoint_of_unarmed v unarmed none_ noWait]

theorem trailed_of_not_trailing {s : State} (untrailing : s.journal.trailing = false) : trailed s = s :=
  if_neg (by rw [untrailing]; decide)

/-- The MARK slot of a mark point from UNARMED is granted where there is room (R60). -/
theorem afterSpace_armedByMark {s : State} (v : BitVec 64) (noWait : s.capture.spaceWait = [])
    (room : s.journal.occupancy < s.journal.config.slots) (untrailing : s.journal.trailing = false) (writes : CanWrite s)
    (noneAwait : ∀ e ∈ s.capture.entries, e.state ≠ .awaitMark) : afterSpace (armedByMark v s) =
      withMark (commandMark v s) { previous := none, restart := true } (armedByMark v s) := by
  have pending : pendingEntry (armedByMark v s) = some (commandMark v s) := rfl
  have writes' : CanWrite (armedByMark v s) := writes
  have noWait' : (armedByMark v s).capture.spaceWait = [] := noWait
  have asked : AllocRequest.mark ∉ (armedByMark v s).journal.allocWait := by
    rw [show (armedByMark v s).journal.allocWait = [] from writes.2.2.1]
    exact List.not_mem_nil
  rw [afterSpace_of_noneWait noWait', reportClosing_of_due pending rfl asked (fun epoch closing => nomatch closing),
    requestMark_of_not_mustWait (mustWait_of_canWrite writes'),
    judgeMark_granted pending rfl (allocationSpent_of_canWrite writes') room]
  have stays : trailed (withMark (commandMark v s) { previous := none, restart := true } (armedByMark v s)) = _ :=
    trailed_of_not_trailing untrailing
  rw [stays]
  exact askWaiting_of_none _ noneAwait

/-- Settles O26: the mark point, the MARK slot granted in the same event, and the phase. -/
theorem markFromUnarmedWritesRecord : Obligations.MarkFromUnarmedWritesRecord := by
  unfold Obligations.MarkFromUnarmedWritesRecord
  intro s v ready unarmed none_ phase configured numbered room untrailing writes noWait noneAwait
  have unspent : countersSpent s.journal = false := by
    rw [Bool.eq_false_iff, Ne, countersSpent_iff]
    rintro (exhausted | seq | number)
    · exact absurd exhausted (by rw [writes.1]; decide)
    · exact writes.2.1 seq
    · exact numbered number
  have granted := afterSpace_armedByMark v noWait room untrailing writes noneAwait
  rw [exec_mark_of_unarmed ready unarmed none_ noWait configured unspent,
    finish_of_afterSpace granted (fun id front => ?_) (fun c found => .inl ?_) (.inl rfl)]
  · have waits : rollbackWaits (withMark (commandMark v s) { previous := none, restart := true } (armedByMark v s)) =
        s.rollback.pendingLine := Bool.or_false _
    have closes : closeEvent (withMark (commandMark v s) { previous := none, restart := true } (armedByMark v s)) = _ :=
      closeEvent_of_armed phase rfl
    rw [closes, waits]
    rfl
  · have empty : (withMark (commandMark v s) { previous := none, restart := true } (armedByMark v s)).capture.spaceWait = [] :=
      noWait
    rw [empty] at front
    exact nomatch front
  · obtain rfl := Option.some.inj found
    exact fun none_ => nomatch none_

end Sys2Proof.Machine
end

section
/-! PROOFS. Journal line writes complete: slots settle, and the commit point advances (R14 to R16, R34, R35, R61). -/

namespace Sys2Proof.Machine

/-! ### The pending mark at the end of the list (R52) -/

section
variable {s : State} {c : Checkpoint} {older : List Checkpoint} (list : s.ctl.checkpoints = older ++ [c])
  (before : ∀ x ∈ older, x.status = .established) (pending : c.status = .pending)
include list before pending

theorem pendingEntry_of_last : pendingEntry s = some c := by
  have none_ : older.find? (fun x => x.status == .pending) = none :=
    List.find?_eq_none.2 fun x member => by rw [before x member]; decide
  unfold pendingEntry
  rw [list, List.find?_append, none_, List.find?_singleton, pending]
  rfl

theorem established_of_last : (s.ctl.checkpoints.map fun x =>
    if x.status == .pending then { x with status := .established } else x) =
      older ++ [{ c with status := .established }] := by
  have stays : (older.map fun x => if x.status == .pending then { x with status := .established } else x) = older :=
    (List.map_congr_left (g := id) fun x member => by rw [before x member]; rfl).trans (List.map_id older)
  rw [list, List.map_append, stays, List.map_singleton, pending]
  rfl

end

/-! ### The last line write of a slot (R14) -/

/-- The bookkeeping of a slot one of whose line writes has completed. -/
def slotWritten (tag : DownTag) (r r' : SlotRecord) (s : State) : State := replaceSlot r r' (setTag tag .free s)

section
variable {s : State} {tag : DownTag} {error : Bool} {r r' : SlotRecord} (last : LastWrite s tag error r r')
  (found : s.journal.slotRecords.find? (fun x => x.slot == r.slot) = some r)
include last found

theorem exec_journalWrite_live (live : r.forgotten = false) : exec (.journalWriteCompletion tag error) s =
    .next (finish (advanceCommit (reportSettled r' (slotWritten tag r r' s)))) := by
  have done := (journalWrite_last last found).1
  rw [live] at done
  exact done

theorem exec_journalWrite_forgotten (forgotten : r.forgotten = true) : exec (.journalWriteCompletion tag error) s =
    .next (finish (dropForgotten r' (slotWritten tag r r' s))) := by
  have done := (journalWrite_last last found).1
  rw [forgotten] at done
  exact done

end

/-! ### A slot is reported to its owner (R16, R34) -/

theorem reportSettled_mark_unfailed {s : State} {r : SlotRecord} (mark : r.owner = .mark) (unfailed : r.failed = false) :
    reportSettled r s = s := by
  rw [reportSettled, mark]
  dsimp only
  split
  · exact if_neg fun both => absurd both.1 (by rw [unfailed]; decide)
  · rfl

theorem failed_eq_false {r : SlotRecord} (header : r.header = .ok) (data : r.data = .ok) : r.failed = false := by
  rw [Bool.eq_false_iff, Ne, failed_iff, header, data]
  rintro (failed | failed)
  · exact nomatch failed
  · exact nomatch failed

/-- The commit point passes the first slot alone (R15). -/
theorem advanceCommit_first {s : State} {r : SlotRecord} {rest : List SlotRecord} (armed : s.ctl.state = .armed)
    (first : s.journal.slotRecords = r :: rest) (live : r.forgotten = false) (settled : r.settled = true)
    (stops : ∀ x, rest.find? (fun x => !x.forgotten) = some x → x.header = .outstanding ∨ x.data = .outstanding) :
    advanceCommit s = passSlot r s := by
  have left : (passSlot r s).journal.slotRecords = rest := by
    rw [passSlot_eq, passedSlot_slotRecords, first, List.erase_cons_head]
  have step : advanceCommit s = passSettled s.journal.slotRecords.length s := by
    rw [advanceCommit, armed]
  rw [step, first, List.length_cons, passSettled_step _ r rest s first live settled, passSettled_stop]
  intro x next
  rw [left] at next
  rw [Bool.eq_false_iff, Ne, settled_iff]
  rintro ⟨header, data⟩
  exact (stops x next).elim header data

/-- The commit point passes the slot of the pending mark that has settled complete (R15, R61). -/
theorem tellOwner_mark {s : State} {r : SlotRecord} {c : Checkpoint} (mark : r.owner = .mark)
    (pending : pendingEntry s = some c) (unfailed : r.failed = false) (placed : c.markSlot = some r.slot) :
    tellOwner r s = establish c s := by
  rw [tellOwner, mark]
  dsimp only
  rw [pending]
  exact if_pos ⟨unfailed, placed⟩

/-- Settles O47: the slot is the first that the commit point passes, and the next one stops it. -/
theorem markEstablished : Obligations.MarkEstablished := by
  unfold Obligations.MarkEstablished
  intro s tag r r' rest c older last header data first fresh stops live mark armed list before pending placed noVoid
  have found : s.journal.slotRecords.find? (fun x => x.slot == r.slot) = some r := by
    rw [first, List.find?_cons_of_pos (by exact beq_self_eq_true _)]
  obtain ⟨-, settled, owner, slot, -, forgotten⟩ := journalWrite_last last found
  have unfailed := failed_eq_false header data
  have first' : (slotWritten tag r r' s).journal.slotRecords = r' :: rest := by
    show (s.journal.slotRecords.map fun x => if x = r then r' else x) = r' :: rest
    rw [first, slots_after_first r r' rest fresh]
  have entry : pendingEntry s = some c := pendingEntry_of_last list before pending
  have told : tellOwner r' (moveCommit r' (slotWritten tag r r' s)) = establish c (moveCommit r' (slotWritten tag r r' s)) :=
    tellOwner_mark (owner.trans mark) entry unfailed (by rw [slot]; exact placed)
  have listed := established_of_last (s := slotWritten tag r r' s) list before pending
  have moved := moveCommit_first r' rest (slotWritten tag r r' s) first' noVoid
  rw [exec_journalWrite_live last found live, reportSettled_mark_unfailed (owner.trans mark) unfailed,
    advanceCommit_first (s := slotWritten tag r r' s) armed first' (forgotten.trans live) settled stops, passSlot, told,
    moved, trailStep_eq, establish_eq, listed]
  rfl

/-! ### Every completion of a journal line write (R14, R16, R34, R35) -/

/-- While the other line write of its slot is outstanding, a completion is only kept (R14). -/
theorem exec_journalWrite_unsettled {s : State} {tag : DownTag} {half : Half} {error : Bool} {r : SlotRecord}
    (use : tagState s tag = .inUse (.journal r.slot half))
    (found : s.journal.slotRecords.find? (fun x => x.slot == r.slot) = some r)
    (unsettled : (r.complete half error).settled = false) : exec (.journalWriteCompletion tag error) s =
      .next (finish (slotWritten tag r (r.complete half error) s)) := by
  have found' : (setTag tag .free s).journal.slotRecords.find? (fun x => x.slot == r.slot) = some r := found
  show execJournalWriteCompletion tag error s = _
  rw [execJournalWriteCompletion, use]
  dsimp only
  rw [journalWriteDone, found']
  exact congrArg (Host.Outcome.next ∘ finish) (if_neg (by rw [unsettled]; decide))

theorem settled_eq_false {r : SlotRecord} (outstanding : r.header = .outstanding ∨ r.data = .outstanding) :
    r.settled = false := by
  rw [Bool.eq_false_iff, Ne, settled_iff]
  rintro ⟨header, data⟩
  exact outstanding.elim header data

/-- The entry of a capture's slot that settles: in AWAIT_COMMIT where it was in RECORDING (R34). -/
def commitAwaited (e : CaptureEntry) : CaptureEntry := if e.state = .recording then { e with state := .awaitCommit } else e

theorem commitAwaited_eq (e : CaptureEntry) :
    commitAwaited e = { e with state := if e.state = .recording then .awaitCommit else e.state } := by
  unfold commitAwaited
  split
  · rfl
  · rfl

theorem commitAwaited_id (e : CaptureEntry) : (commitAwaited e).id = e.id := by
  rw [commitAwaited_eq]

theorem updateEntry_of_none {s : State} {id : Nat} (none_ : entryOf s id = none) (f : CaptureEntry → CaptureEntry) :
    updateEntry id f s = s := by
  have other := List.find?_eq_none.1 none_
  have stays : (s.capture.entries.map fun e => if e.id == id then f e else e) = s.capture.entries :=
    (List.map_congr_left (g := fun e => e) fun e member => if_neg (other e member)).trans (List.map_id' _)
  rw [updateEntry, stays]

theorem distinct_updateEntry {s : State} {id : Nat} {f : CaptureEntry → CaptureEntry} (keeps : ∀ x, (f x).id = x.id)
    (distinct : (s.capture.entries.map (·.id)).Nodup) : ((updateEntry id f s).capture.entries.map (·.id)).Nodup := by
  have same : ((fun x : CaptureEntry => x.id) ∘ fun x => if x.id == id then f x else x) = fun x => x.id := by
    funext x
    dsimp only [Function.comp]
    split
    · exact keeps x
    · rfl
  rw [updateEntry_capture]
  dsimp only
  rw [List.map_map, same]
  exact distinct

theorem reportSettled_capture {s : State} {r : SlotRecord} {id : Nat} (capture : r.owner = .capture id) :
    (r.failed = true → reportSettled r s = raiseBreak .journalWrite (updateEntry id commitAwaited s)) ∧
    (r.failed = false → entryOf s id = none → reportSettled r s = s) ∧
    (r.failed = false → entryOf s id ≠ none → reportSettled r s = countCaptureWritten (updateEntry id commitAwaited s)) := by
  have entry := entryOf_updateEntry (id := id) commitAwaited_id s
  have report : reportSettled r s = if r.failed then raiseBreak .journalWrite (updateEntry id commitAwaited s)
      else if (entryOf (updateEntry id commitAwaited s) id).isSome then countCaptureWritten (updateEntry id commitAwaited s)
      else updateEntry id commitAwaited s := by
    rw [reportSettled, capture]
    rfl
  refine ⟨fun failed => report.trans (if_pos failed), fun unfailed none_ => ?_, fun unfailed some_ => ?_⟩
  all_goals refine report.trans ((if_neg (by rw [unfailed]; decide)).trans ?_)
  · rw [entry, none_]
    exact updateEntry_of_none none_ _
  · obtain ⟨e, found⟩ := Option.ne_none_iff_exists'.1 some_
    rw [entry, found]
    rfl

theorem reportSettled_brk {s : State} {r : SlotRecord} (brk : r.owner = .brk) :
    reportSettled r s = if r.failed then withUnrecorded r.seq s else s := by
  rw [reportSettled, brk, ← setUnrecorded_eq]

theorem reportSettled_mark_other {s : State} {r : SlotRecord} (mark : r.owner = .mark)
    (other : ∀ c, pendingEntry s = some c → c.markSlot ≠ some r.slot) : reportSettled r s = s := by
  rw [reportSettled, mark]
  dsimp only
  split
  · next c pending => exact if_neg fun both => other c pending both.2
  · rfl

/-- A forgotten slot goes, and the entry in RECORDING that holds it forwards (R20, R47). -/
theorem dropForgotten_stays {s : State} {r : SlotRecord}
    (other : ∀ id e, r.owner = .capture id → entryOf s id = some e → e.state ≠ .recording) :
    dropForgotten r s = eraseSlot r s := by
  rw [dropForgotten]
  split
  · next id capture =>
    split
    · next e found => exact if_neg (other id e capture found)
    · rfl
  · rfl
  · rfl

theorem dropForgotten_forwards {s : State} {r : SlotRecord} {id : Nat} {e : CaptureEntry} (capture : r.owner = .capture id)
    (found : entryOf s id = some e) (recording : e.state = .recording) :
    dropForgotten r s = withForwarded e (eraseSlot r s) := by
  rw [dropForgotten, capture]
  dsimp only
  rw [found]
  exact (if_pos recording).trans (forwardEntry_eq_withForwarded e _)

/-- Settles O48: a lone completion is kept; the last one settles its slot, which is reported, and the commit point advances. -/
theorem journalWriteCompletes : Obligations.JournalWriteCompletes := by
  unfold Obligations.JournalWriteCompletes
  intro s tag error r found
  refine ⟨fun use outstanding => ?_, fun use outstanding => ?_, fun r' last => ?_⟩
  · rw [exec_journalWrite_unsettled use found (settled_eq_false (.inr outstanding))]
    rfl
  · rw [exec_journalWrite_unsettled use found (settled_eq_false (.inl outstanding))]
    rfl
  obtain ⟨-, settled, owner, slot, seq, forgotten⟩ := journalWrite_last last found
  have unfailed : ¬ (r'.header = .error ∨ r'.data = .error) → r'.failed = false := fun h =>
    Bool.eq_false_iff.2 fun failed => h ((failed_iff r').1 failed)
  refine ⟨fun live => ?_, fun gone => ?_⟩
  · have settles : ∀ {u}, reportSettled r' (slotWritten tag r r' s) = u →
        ∃ t, CommitAdvances u t ∧ exec (.journalWriteCompletion tag error) s = .next (finish t) := fun {u} report =>
      ⟨advanceCommit u, advanceCommit_eq u, by rw [exec_journalWrite_live last found live, report]⟩
    refine ⟨fun id capture => ?_, fun mark unbroken => ?_, fun brk => ?_⟩
    · obtain ⟨broken, absent, counted⟩ := reportSettled_capture (s := slotWritten tag r r' s) (owner.trans capture)
      have eq : (commitAwaited : CaptureEntry → CaptureEntry) =
          fun e => { e with state := if e.state = .recording then .awaitCommit else e.state } := funext commitAwaited_eq
      rw [eq] at broken counted
      refine ⟨fun ok none_ => settles (absent (unfailed ok) none_), fun ok some_ => settles (counted (unfailed ok) some_),
        fun failed notTaken => ?_, fun failed distinct armed closing unbroken epoch ofEpoch => ?_,
        fun failed distinct armed unbroken epoch closing => ?_⟩
      · exact settles ((broken ((failed_iff r').2 failed)).trans (raiseBreak_notTaken .journalWrite _ notTaken))
      · have breaks : BreaksOpen epoch .journalWrite _ _ := raiseBreak_open .journalWrite epoch
          (updateEntry id (fun e => { e with state := if e.state = .recording then .awaitCommit else e.state })
            (slotWritten tag r r' s)) (distinct_updateEntry (fun _ => rfl) distinct.1) armed closing unbroken ofEpoch
        exact ⟨_, breaks, settles (broken ((failed_iff r').2 failed))⟩
      · have breaks : BreaksClosing epoch .journalWrite _ _ := raiseBreak_closing .journalWrite epoch
          (updateEntry id (fun e => { e with state := if e.state = .recording then .awaitCommit else e.state })
            (slotWritten tag r r' s)) (distinct_updateEntry (fun _ => rfl) distinct.1) armed closing unbroken
        exact ⟨_, breaks, settles (broken ((failed_iff r').2 failed))⟩
    · rcases unbroken with ok | other
      · exact settles (reportSettled_mark_unfailed (owner.trans mark) (unfailed ok))
      · exact settles (reportSettled_mark_other (owner.trans mark) fun c pending => by rw [slot]; exact other c pending)
    · have report := reportSettled_brk (s := slotWritten tag r r' s) (owner.trans brk)
      refine ⟨fun ok => settles (report.trans (if_neg (by rw [unfailed ok]; decide))), fun failed => ?_⟩
      rw [seq, if_pos ((failed_iff r').2 failed)] at report
      exact settles report
  · have done := exec_journalWrite_forgotten last found gone
    refine ⟨fun other => ?_, fun id e capture entry recording => ?_⟩
    · have stays : dropForgotten r' (slotWritten tag r r' s) = eraseSlot r' (slotWritten tag r r' s) :=
        dropForgotten_stays fun id e capture => other id e (owner.symm.trans capture)
      rw [done, stays]
      rfl
    · have forwards : dropForgotten r' (slotWritten tag r r' s) = withForwarded e (eraseSlot r' (slotWritten tag r r' s)) :=
        dropForgotten_forwards (owner.trans capture) entry recording
      rw [done, forwards]
      rfl

end Sys2Proof.Machine
end

section
/-! PROOFS. A MARK slot that settles failed (R15, R16, R20, R46, R62). -/

namespace Sys2Proof.Machine

theorem reportSettled_mark_failed {s : State} {r : SlotRecord} {c : Checkpoint} (mark : r.owner = .mark)
    (pending : pendingEntry s = some c) (failed : r.failed = true) (placed : c.markSlot = some r.slot) :
    reportSettled r s = failMark .writeError s := by
  rw [reportSettled, mark]
  dsimp only
  rw [pending]
  exact if_pos ⟨failed, placed⟩

/-- The pending mark has failed for a failed write, and a waiting MARK has been answered; what becomes of the checkpoints that
remain is not yet judged (R62). -/
def markLost (c : Checkpoint) (older : List Checkpoint) (s : State) : State :=
  { s with
    ctl := { s.ctl with
      checkpoints := older, pendingMark := none, lastRefused := some ⟨c.source, c.value, .writeError⟩ }
    capture := { s.capture with closing := none, closingBroken := false }
    alerts := { s.alerts with latches := s.alerts.latches ||| 0x010#12 }
    port := (answerMark .broken [] s).port }

section
variable {s : State} {c : Checkpoint} {older : List Checkpoint} (list : s.ctl.checkpoints = older ++ [c])
  (before : ∀ x ∈ older, x.status = .established) (pending : c.status = .pending)
include list before pending

theorem answerMark_removePending :
    answerMark .broken [] (latch .markRefused (removePending c .writeError s)) = markLost c older s := by
  have remain : (s.ctl.checkpoints.filter fun x => x.status != .pending) = older := by
    rw [list, List.filter_append, List.filter_eq_self.2 fun x member => by rw [before x member]; rfl,
      List.filter_singleton, pending]
    exact List.append_nil older
  rw [removePending, remain, answerMark_eq, markLost, answerMark_eq]
  rfl

theorem failMark_of_first (first : older = []) : failMark .writeError s = dropCheckpoints (markLost c older s) := by
  rw [failMark, pendingEntry_of_last list before pending]
  dsimp only [failStatus]
  rw [answerMark_removePending list before pending, first]
  rfl

theorem failMark_of_later (later : older ≠ []) : failMark .writeError s = breakByMark .writeError (markLost c older s) := by
  rw [failMark, pendingEntry_of_last list before pending]
  dsimp only [failStatus]
  rw [answerMark_removePending list before pending]
  exact if_neg fun empty => later (List.isEmpty_iff.1 empty)

end

/-- The condition is BROKEN, and BROKEN latched with the refused mark (R62; log 12). -/
theorem latch_breakCondition_markLost (c : Checkpoint) (older : List Checkpoint) (s : State) :
    latch .broken (breakCondition .writeError (markLost c older s)) = { markLost c older s with
      ctl := { (markLost c older s).ctl with
        condition := .broken, lastBreak := if s.ctl.condition = .broken then s.ctl.lastBreak else some .markWrite }
      alerts := { s.alerts with latches := s.alerts.latches ||| 0x014#12 } } := by
  have both : s.alerts.latches ||| 0x010#12 ||| 0x004#12 = s.alerts.latches ||| 0x014#12 := BitVec.or_assoc _ _ _
  rw [← both]
  unfold breakCondition
  by_cases broken : s.ctl.condition = .broken
  · have state : (markLost c older s).ctl.condition = .broken := broken
    rw [if_pos (.inl state), if_pos broken, ← broken]
    rfl
  · have state : (markLost c older s).ctl.condition ≠ .broken := broken
    rw [if_neg (by rintro (k | k); exacts [state k, nomatch k]), if_neg broken]
    rfl

/-- After an emptying every slot that is left is forgotten (R20). -/
theorem forgotten_of_emptiedFromArmed (s : State) : ∀ r ∈ (emptiedFromArmed s).journal.slotRecords, r.forgotten = true := by
  intro r member
  obtain ⟨x, -, rfl⟩ := List.mem_map.1 member
  rfl

/-- Settles O49: the mark fails, and either the journal is emptied or the older checkpoints are left in a broken epoch. -/
theorem firstMarkFails : Obligations.FirstMarkFails := by
  unfold Obligations.FirstMarkFails
  intro s tag error r r' c distinct last found live mark broken armed pending placed
  obtain ⟨-, settled, owner, slot, -, -⟩ := journalWrite_last last found
  have failed := (failed_iff r').2 broken
  have report : ∀ {older}, s.ctl.checkpoints = older ++ [c] → (∀ x ∈ older, x.status = .established) →
      reportSettled r' (slotWritten tag r r' s) = failMark .writeError (slotWritten tag r r' s) := fun list before =>
    reportSettled_mark_failed (owner.trans mark) (pendingEntry_of_last (s := slotWritten tag r r' s) list before pending)
      failed (by rw [slot]; exact placed)
  have done := exec_journalWrite_live last found live
  refine ⟨fun only => ?_, fun older list some_ before => ?_⟩
  · have none_ : ∀ x ∈ ([] : List Checkpoint), x.status = .established := fun x member => nomatch member
    have emptied_ := dropCheckpoints_eq (markLost c [] (slotWritten tag r r' s)) distinct.1
    rw [done, report (older := []) only none_,
      failMark_of_first (s := slotWritten tag r r' s) (older := []) only none_ pending rfl, emptied_,
      advanceCommit_of_allForgotten (forgotten_of_emptiedFromArmed _), markLost, answerMark_eq]
    rfl
  · refine ⟨_, done, ?_⟩
    rw [report list before, failMark_of_later (s := slotWritten tag r r' s) list before pending some_, breakByMark,
      latch_breakCondition_markLost, letGo_eq _ _ (by exact distinct.1), markLost, answerMark_eq]
    exact advanceCommit_eq _

end Sys2Proof.Machine
end

section
/-! PROOFS. What an event's end grants: freed space, the MARK slot of a pending mark, and the slots of the entries that waited
for it (R32, R41, R60). -/

namespace Sys2Proof.Machine

/-! ### Freed space (R41) -/

theorem early_of_awaitSpace {e : CaptureEntry} (waits : e.state = .awaitSpace) : e.early = true := by
  rw [CaptureEntry.early, waits]

theorem early_of_awaitMark {e : CaptureEntry} (waits : e.state = .awaitMark) : e.early = true := by
  rw [CaptureEntry.early, waits]

/-- The entry at the front of the space wait list is granted its slot, and the rest of the list waits on. -/
theorem afterSpace_withCapture {s : State} {e : CaptureEntry} {id : Nat} {rest : List Nat}
    (front : s.capture.spaceWait = id :: rest) (once : id ∉ rest) (found : entryOf s id = some e)
    (waits : e.state = .awaitSpace) (free : CanWrite s) (below : s.journal.occupancy < captureLimit s.journal) :
    afterSpace s = afterSpace (withCapture e s) := by
  have number := entryOf_id found
  have unasked : AllocRequest.capture id ∉ s.journal.allocWait := by
    rw [free.2.2.1]
    exact List.not_mem_nil
  have left : (withCapture e s).capture.spaceWait = rest := by
    show (s.capture.spaceWait.filter fun x => x != e.id) = rest
    rw [front, number, List.filter_cons_of_neg (by simp)]
    exact List.filter_eq_self.2 fun x member => bne_iff_ne.2 fun same => once (same ▸ member)
  have granted : requestCapture id s = withCapture e s :=
    (requestCapture_of_not_mustWait (mustWait_of_canWrite free) id).trans
      (judgeCapture_granted found (early_of_awaitSpace waits) (allocationSpent_of_canWrite free) below)
  unfold afterSpace
  rw [left, ← granted, ← grantSpace_step front below unasked, front]
  rfl

/-! ### The MARK slot, and the entries that waited for it (R32, R60) -/

/-- Every pending mark has its MARK slot (R60). -/
def MarksPlaced (s : State) : Prop := ∀ c ∈ s.ctl.checkpoints, c.status = .pending → c.markSlot ≠ none

theorem marksPlaced_withMark (c : Checkpoint) (p : PendingMark) (s : State) : MarksPlaced (trailed (withMark c p s)) := by
  rw [MarksPlaced, (trailed_keeps _).2.2.1]
  intro x member pending
  obtain ⟨y, -, rfl⟩ := List.mem_map.1 member
  split
  · exact nofun
  · next other =>
    rw [if_neg other] at pending
    exact absurd (beq_iff_eq.2 pending) other

theorem marksPlaced_withCapture {s : State} (placed : MarksPlaced s) (e : CaptureEntry) : MarksPlaced (withCapture e s) := by
  intro x member pending
  obtain ⟨y, listed, rfl⟩ := List.mem_map.1 member
  by_cases counted : (y.number == e.epoch) = true
  · rw [if_pos counted] at pending ⊢
    exact placed y listed pending
  · rw [if_neg counted] at pending ⊢
    exact placed y listed pending

theorem marksPlaced_withCaptures : ∀ (l : List CaptureEntry) {s : State}, MarksPlaced s →
    MarksPlaced (l.foldl (fun t e => withCapture e t) s)
  | [], _, placed => placed
  | e :: l, _, placed => marksPlaced_withCaptures l (marksPlaced_withCapture placed e)

/-- With no entry waiting for space and every pending mark placed, nothing is granted. -/
theorem afterSpace_of_marksPlaced {s : State} (noWait : s.capture.spaceWait = []) (placed : MarksPlaced s) :
    afterSpace s = s := by
  refine afterSpace_of_atRest s (fun id front => ?_) fun c pending => .inl ?_
  · rw [noWait] at front
    exact nomatch front
  · exact placed c (List.mem_of_find?_eq_some pending) (beq_iff_eq.1 (List.find?_some (p := fun c : Checkpoint => c.status == .pending) pending))

theorem canWrite_of_canWriteAll {n : Nat} {s : State} (free : CanWriteAll (1 + n) s) : CanWrite s := by
  obtain ⟨left, seq, none_, unforgotten⟩ := free
  refine ⟨left, fun last => ?_, none_, tailBlocked_of_noneForgotten unforgotten⟩
  rw [last, show (0xFFFFFFFFFFFFFFFF#64).toNat = 2 ^ 64 - 1 from rfl] at seq
  omega

/-- Behind a granted MARK slot, and a trailing head's move, the slots that are left can be granted. -/
theorem grants_withMark {n : Nat} {s : State} (c : Checkpoint) (p : PendingMark) (noWait : s.capture.spaceWait = [])
    (free : CanWriteAll (1 + n) s) (below : s.journal.occupancy + 1 + n ≤ captureLimit s.journal) :
    Grants n (trailed (withMark c p s)) := by
  obtain ⟨left, seq, none_, unforgotten⟩ := free
  obtain ⟨space, -, -, exhausted, seqs, alloc, records, -, -, occupancy, limit⟩ := trailed_keeps (withMark c p s)
  refine ⟨space.trans noWait, exhausted.trans left, ?_, alloc.trans none_, ?_, ?_⟩
  · rw [seqs, show (withMark c p s).journal.seq = s.journal.seq + 1 from rfl, BitVec.toNat_add,
      show (1 : BitVec 64).toNat = 1 from rfl, Nat.mod_eq_of_lt (by omega)]
    omega
  · rw [records]
    intro r member
    rcases List.mem_append.1 member with older | new
    · exact unforgotten r older
    · obtain rfl := List.mem_singleton.1 new
      rfl
  · have limit' : captureLimit (withMark c p s).journal = captureLimit s.journal := rfl
    have occupancy' : (withMark c p s).journal.occupancy = s.journal.occupancy + 1 := rfl
    rw [limit, limit']
    omega

theorem entryOf_of_mem {s : State} (distinct : EntriesDistinct s) {e : CaptureEntry} (member : e ∈ s.capture.entries) :
    entryOf s e.id = some e := by
  cases found : entryOf s e.id with
  | none => exact absurd (beq_self_eq_true e.id) (List.find?_eq_none.1 found e member)
  | some x => rw [eq_of_id distinct.1 (entryOf_mem found) member (entryOf_id found)]

/-- The MARK slot of the pending mark is granted, and then those of the entries in AWAIT_MARK, in the order of their
acceptance. -/
theorem afterSpace_withMark {s : State} {c : Checkpoint} {p : PendingMark} (distinct : EntriesDistinct s)
    (noWait : s.capture.spaceWait = []) (pending : pendingEntry s = some c) (unplaced : c.markSlot = none)
    (mark : s.ctl.pendingMark = some p)
    (clear : ∀ epoch, s.capture.closing = some epoch → ∀ e ∈ s.capture.entries, e.epoch = epoch → e.early = false)
    (free : CanWriteAll (1 + (s.capture.entries.filter fun e => e.state == .awaitMark).length) s)
    (below : s.journal.occupancy + 1 + (s.capture.entries.filter fun e => e.state == .awaitMark).length ≤
      captureLimit s.journal) :
    afterSpace s = afterSpace ((s.capture.entries.filter fun e => e.state == .awaitMark).foldl
      (fun t e => withCapture e t) (trailed (withMark c p s))) := by
  have free' := canWrite_of_canWriteAll free
  have unasked : AllocRequest.mark ∉ s.journal.allocWait := by
    rw [free.2.2.1]
    exact List.not_mem_nil
  have most : captureLimit s.journal ≤ s.journal.config.slots :=
    captureLimit_le s.journal
  have entries : (trailed (withMark c p s)).capture.entries = s.capture.entries := (trailed_keeps (withMark c p s)).2.1
  obtain ⟨asks, grants⟩ := askCaptures_of_grants (s.capture.entries.filter fun e => e.state == .awaitMark)
    (trailed (withMark c p s)) (grants_withMark c p noWait free below)
    ((List.filter_sublist.map _).nodup distinct.1) fun e member => by
      obtain ⟨listed, waits⟩ := List.mem_filter.1 member
      refine ⟨?_, early_of_awaitMark (beq_iff_eq.1 waits)⟩
      rw [entryOf, entries]
      exact entryOf_of_mem distinct listed
  rw [afterSpace_of_noneWait noWait, reportClosing_of_due pending unplaced unasked clear,
    requestMark_of_not_mustWait (mustWait_of_canWrite free'),
    judgeMark_granted pending mark (allocationSpent_of_canWrite free') (by omega), askWaiting, entries, asks,
    afterSpace_of_marksPlaced grants.space (marksPlaced_withCaptures _ (marksPlaced_withMark c p s))]

end Sys2Proof.Machine
end

section
/-! PROOFS. The requests that an event's end judges: what a judged request leaves, and the end of an event that judges one
request or two (R55, R71, R73). -/

namespace Sys2Proof.Machine

/-! ### What a judged request leaves -/

/-- An operation that adds nothing to what waits, and leaves the port, the line request and the list as they are. -/
structure LeavesWaiting (s t : State) : Prop where
  port : t.port = s.port
  line : t.rollback.pendingLine = s.rollback.pendingLine
  list : t.ctl.checkpoints = s.ctl.checkpoints
  space : s.capture.spaceWait = [] → t.capture.spaceWait = []

theorem letGo_leavesWaiting (p : CaptureEntry → Bool) (s : State) : LeavesWaiting s (letGo p s) := by
  unfold letGo endHold
  dsimp only
  rw [foldl_forwardEntry fun _ => false]
  have space : s.capture.spaceWait = [] → ∀ ids : List Nat, s.capture.spaceWait.filter (fun id => !ids.contains id) = [] :=
    fun none_ ids => by rw [none_]; rfl
  split
  · exact ⟨rfl, rfl, rfl, fun none_ => space none_ _⟩
  · exact ⟨rfl, rfl, rfl, fun none_ => space none_ _⟩

theorem enterExhaustion_leavesWaiting (s : State) : LeavesWaiting s (enterExhaustion s) := by
  unfold enterExhaustion exhaustBreak
  split
  · exact ⟨rfl, rfl, rfl, id⟩
  · split
    · obtain ⟨port, line, list, space⟩ := letGo_leavesWaiting (fun _ => true) (noteExhaustedBreak (setExhausted s))
      exact ⟨port, line, list, space⟩
    · exact ⟨rfl, rfl, rfl, id⟩

/-- The start of a rollback leaves the port, the line request and the list, and no entry waits for space (R75, R77). -/
theorem startRollback_leavesWaiting (origin : Origin) (c : Checkpoint) (s : State) :
    LeavesWaiting s (startRollback origin c s) ∧ (startRollback origin c s).ctl.state = .rolling := by
  have starts := startRollback_eq origin c s
  unfold StartsRollback at starts
  rw [starts]
  exact ⟨⟨rfl, rfl, rfl, fun _ => rfl⟩, rfl⟩

theorem hasPending_of_list {s t : State} (list : t.ctl.checkpoints = s.ctl.checkpoints) : hasPending t = hasPending s := by
  unfold hasPending
  rw [list]

theorem waitingCommand_of_port {s t : State} (port : t.port = s.port) : waitingCommand t = waitingCommand s := by
  unfold waitingCommand
  rw [port]

/-- A judged line request leaves none (R70, R71). -/
theorem judgeLine_leaves {s : State} (free : hasPending s = false) (state : s.ctl.state ≠ .adopting) :
    LeavesWaiting (setLineRequest false s) (judgeLine s) := by
  have free' : hasPending (setLineRequest false s) = false := free
  unfold judgeLine
  cases phase : s.ctl.state with
  | unarmed => exact ⟨rfl, rfl, rfl, id⟩
  | rolling => exact ⟨rfl, rfl, rfl, id⟩
  | failed => exact ⟨rfl, rfl, rfl, id⟩
  | adopting => exact absurd phase state
  | armed =>
    dsimp only
    unfold judgeArmedLine
    rw [free', if_neg Bool.false_ne_true]
    split
    · exact ⟨rfl, rfl, rfl, id⟩
    · split
      · exact (startRollback_leavesWaiting _ _ _).1
      · exact ⟨rfl, rfl, rfl, id⟩

/-- A judged ROLLBACK command is answered: no command waits, and the list is as it was (R70, R72). -/
theorem judgeRollback_leaves {s : State} (free : hasPending s = false) (d : Byte) :
    ∃ response, LeavesWaiting { s with port := { s.port with slot := .done response } } (judgeRollback d s) := by
  unfold judgeRollback
  cases s.ctl.state with
  | unarmed => exact ⟨_, ⟨rfl, rfl, rfl, id⟩⟩
  | rolling => exact ⟨_, ⟨rfl, rfl, rfl, id⟩⟩
  | failed => exact ⟨_, ⟨rfl, rfl, rfl, id⟩⟩
  | adopting => exact ⟨_, ⟨rfl, rfl, rfl, id⟩⟩
  | armed =>
    dsimp only
    rw [free]
    split
    · exact ⟨_, ⟨rfl, rfl, rfl, id⟩⟩
    · split
      · next pending => exact absurd pending Bool.false_ne_true
      · split
        · exact ⟨_, ⟨rfl, rfl, rfl, id⟩⟩
        · split
          · exact ⟨_, ⟨rfl, rfl, rfl, id⟩⟩
          · next c _ => exact ⟨_, (startRollback_leavesWaiting .management c
              (respond .started 0x21 (bytesLE 4 c.number) s)).1⟩

/-- A refused MARK command is answered, likewise (R56, R63). -/
theorem respond_refuseMark_leaves (v : BitVec 64) (reason : MarkReason) (status : Status) (s : State) :
    LeavesWaiting { s with port := { s.port with slot := .done ⟨status, 0x20, []⟩ } }
      (respond status 0x20 [] (refuseMark .management v reason s)) := by
  unfold refuseMark
  by_cases exhausted : reason = .exhausted
  · rw [if_pos exhausted]
    obtain ⟨port, line, list, space⟩ := enterExhaustion_leavesWaiting s
    exact ⟨congrArg (fun q : Port => { q with slot := .done ⟨status, 0x20, []⟩ }) port, line, list, space⟩
  · rw [if_neg exhausted]
    exact ⟨rfl, rfl, rfl, id⟩

/-- A mark point leaves the port, the entries and what waits as they are (R57). -/
theorem takesMark_leaves {source : MarkSource} {v : BitVec 64} {s t : State} (takes : TakesMark source v s t) :
    t.port = s.port ∧ t.rollback = s.rollback ∧ t.capture.spaceWait = s.capture.spaceWait ∧
    t.capture.entries = s.capture.entries :=
  ⟨(congrArg State.port takes.1 :), (congrArg State.rollback takes.1 :),
    (congrArg (fun u => u.capture.spaceWait) takes.1 :), (congrArg (fun u => u.capture.entries) takes.1 :)⟩

/-! ### Nothing left to judge -/

/-- No request is due to be judged, and nothing to be granted or reported. -/
structure Quiet (s : State) : Prop where
  waiters : WaitersAtRest s
  spaced : afterSpace s = s

theorem Quiet.judgeNext {s : State} (quiet : Quiet s) : judgeNext s = s := by
  unfold Machine.judgeNext
  rw [judgeWaiter_of_atRest s quiet.waiters, quiet.spaced]

theorem Quiet.noMarkerLeads {s : State} (quiet : Quiet s) : markerMayLead s = false :=
  markerMayLead_of_atRest s quiet.waiters

theorem quiet_of_noneWait {s : State} (h : NoneWait (afterSpace s) ∧ afterSpace (afterSpace s) = afterSpace s) :
    Quiet (afterSpace s) := ⟨.inr (.inr ⟨h.1.line, h.1.command⟩), h.2⟩

/-- What is due after a request has been judged that leaves no mark pending. -/
theorem LeavesWaiting.afterSpace {line : Bool} {s t : State} (leaves : LeavesWaiting s t)
    (noWait : s.capture.spaceWait = []) (free : hasPending s = false) (ofLine : s.rollback.pendingLine = line)
    (noCommand : waitingCommand s = none) :
    Waits line (afterSpace t) ∧ afterSpace (afterSpace t) = Machine.afterSpace t := by
  have waits : Waits line t :=
    ⟨leaves.space noWait, leaves.line.trans ofLine, (waitingCommand_of_port leaves.port).trans noCommand⟩
  have same := afterSpace_of_noneDue t waits.space ((hasPending_of_list leaves.list).trans free)
  rw [same]
  exact ⟨waits, same⟩

/-- What is due after a mark point, where no entry waits for its MARK slot. -/
theorem afterSpace_of_takesMark {line : Bool} {source : MarkSource} {v w : BitVec 64} {s t : State}
    (takes : TakesMark source v s t) (noWait : s.capture.spaceWait = []) (ofLine : s.rollback.pendingLine = line)
    (slot : s.port.slot = .executing (.mark w true)) (noneAwait : ∀ e ∈ s.capture.entries, e.state ≠ .awaitMark) :
    Waits line (afterSpace t) ∧ afterSpace (afterSpace t) = afterSpace t := by
  obtain ⟨port, rollback, space, entries⟩ := takesMark_leaves takes
  have waits : Waits line t := by
    refine ⟨space.trans noWait, by rw [rollback]; exact ofLine, (waitingCommand_of_port port).trans ?_⟩
    rw [waitingCommand, slot]
  refine waits.afterSpace ?_
  rw [entries]
  exact noneAwait

/-- A command that waits: a ROLLBACK, or a MARK whose mark point is still to come (R55, R73). -/
theorem waitingCommand_cases {s : State} {c : SlotCommand} (waiting : waitingCommand s = some c) :
    (∃ d, c = .rollback d ∧ s.port.slot = .executing (.rollback d)) ∨
      ∃ v, c = .mark v false ∧ s.port.slot = .executing (.mark v false) := by
  unfold waitingCommand at waiting
  split at waiting
  · next v slot => exact .inr ⟨v, (Option.some.inj waiting).symm, slot⟩
  · next d slot => exact .inl ⟨d, (Option.some.inj waiting).symm, slot⟩
  · exact nomatch waiting

/-- With no mark pending a mark request is not held (R54). -/
theorem markVerdict_ne_held {s : State} (free : hasPending s = false) : markVerdict s ≠ .held := by
  unfold markVerdict
  rw [free, if_neg Bool.false_ne_true]
  split
  · exact nofun
  · split
    · exact nofun
    · split
      · exact nofun
      · exact nofun

/-- What is due after a waiting command has been judged; entries that wait for a MARK slot matter only to a MARK. -/
theorem judgeCommand_waits {line : Bool} {s : State} {c : SlotCommand} (noWait : s.capture.spaceWait = [])
    (free : hasPending s = false) (ofLine : s.rollback.pendingLine = line) (waiting : waitingCommand s = some c)
    (noneAwait : (∃ d, c = .rollback d) ∨ ∀ e ∈ s.capture.entries, e.state ≠ .awaitMark) :
    Waits line (afterSpace (judgeCommand c s)) ∧
      afterSpace (afterSpace (judgeCommand c s)) = afterSpace (judgeCommand c s) := by
  rcases waitingCommand_cases waiting with ⟨d, rfl, slot⟩ | ⟨v, rfl, slot⟩
  · obtain ⟨response, leaves⟩ := judgeRollback_leaves free d
    exact leaves.afterSpace noWait free ofLine rfl
  · rw [judgeCommand, judgeMarkCommand]
    cases verdict : markVerdict s with
    | refused reason => exact (respond_refuseMark_leaves v reason _ s).afterSpace noWait free ofLine rfl
    | held => exact absurd verdict (markVerdict_ne_held free)
    | taken =>
      have calm : ∀ e ∈ s.capture.entries, e.state ≠ .awaitMark :=
        noneAwait.resolve_left fun ⟨_, other⟩ => nomatch other
      exact afterSpace_of_takesMark (markPoint_eq .management v (keepExecuting (.mark v true) s)) noWait ofLine rfl calm

/-! ### The turns of two requests -/

/-- The two ways an event ends, and what the second request that waits is judged by (R55, R71, R73). -/
inductive Turns : (State → State) → (State → State) → Prop where
  | scan : Turns finishScan judgeNext
  | plain : Turns finish (inTurn judgeNext)

namespace Turns
variable {ends turn : State → State}

theorem of_noMarkerLeads (turns : Turns ends turn) {s : State} (lead : markerMayLead s = false) : turn s = judgeNext s := by
  cases turns with
  | scan => rfl
  | plain => exact inTurn_of_not _ lead

theorem of_quiet (turns : Turns ends turn) {s : State} (quiet : Quiet s) : turn s = s :=
  (turns.of_noMarkerLeads quiet.noMarkerLeads).trans quiet.judgeNext

/-- Where nothing is left to judge, the retraction's end is judged and the phase set. -/
theorem ends_of_quiet (turns : Turns ends turn) {s : State} (quiet : Quiet (afterSpace s)) :
    ends s = closeEvent (afterSpace s) := by
  cases turns with
  | scan =>
    unfold finishScan
    rw [quiet.judgeNext, quiet.judgeNext]
  | plain =>
    unfold finish
    rw [inTurn_of_not _ quiet.noMarkerLeads, quiet.judgeNext, inTurn_of_not _ quiet.noMarkerLeads, quiet.judgeNext]

end Turns

/-- A line request that waits alone is judged, and nothing waits then. -/
theorem quiet_judgeNext_of_line {s : State} (waits : Waits true s) (spaced : afterSpace s = s) : Quiet (judgeNext s) := by
  by_cases due : hasPending s = true ∨ s.ctl.state = .adopting
  · have atRest : WaitersAtRest s := due.elim .inl fun adopting => .inr (.inl adopting)
    rw [Quiet.judgeNext ⟨atRest, spaced⟩]
    exact ⟨atRest, spaced⟩
  · rw [not_or, Bool.not_eq_true] at due
    obtain ⟨free, state⟩ := due
    have judged : judgeWaiter s = judgeLine s := by
      unfold judgeWaiter
      rw [if_neg (by rw [free]; exact fun k => k.elim Bool.false_ne_true state), waits.line, waits.command]
    have leaves := judgeLine_leaves free state
    rw [judgeNext, judged]
    exact quiet_of_noneWait (leaves.afterSpace waits.space free rfl waits.command)

/-- A line request that waits alone behind a judged request is judged alike, whether it comes first or second. -/
theorem Turns.ends_of_line {ends turn : State → State} (turns : Turns ends turn) {s : State} (waits : Waits true (afterSpace s))
    (spaced : afterSpace (afterSpace s) = afterSpace s) : ends s = closeEvent (turn (afterSpace s)) := by
  have quiet := quiet_judgeNext_of_line waits spaced
  cases turns with
  | scan =>
    unfold finishScan
    rw [quiet.judgeNext]
  | plain =>
    unfold finish
    refine congrArg closeEvent ?_
    cases lead : markerMayLead (afterSpace s) with
    | false => rw [inTurn_of_not _ lead, inTurn_of_not _ lead, inTurn_of_not _ quiet.noMarkerLeads, quiet.judgeNext]
    | true =>
      have free : hasPending (afterSpace s) = false := by
        unfold markerMayLead at lead
        simp only [Bool.and_eq_true, Bool.not_eq_true'] at lead
        exact lead.1.1.2
      have later : Quiet (judgeNext (takeFree (afterSpace s))) :=
        quiet_judgeNext_of_line ⟨waits.space, waits.line, waits.command⟩
          (afterSpace_of_noneDue (takeFree (afterSpace s)) waits.space free)
      unfold inTurn
      rw [lead, if_pos rfl, if_pos rfl]
      split
      · rfl
      · show inTurn judgeNext (judgeNext (takeFree (afterSpace s))) = _
        rw [inTurn_of_not _ later.noMarkerLeads, later.judgeNext]

end Sys2Proof.Machine
end

section
/-! PROOFS. The requests that waited come to their turn: one alone, two in either order, and behind a marker write (R55, R71,
R73). -/

namespace Sys2Proof.Machine

/-! ### Which request is judged (R55, R73) -/

section
variable {s : State} (free : hasPending s = false) (state : s.ctl.state ≠ .adopting)
include free state

theorem not_held_back : ¬ (hasPending s = true ∨ s.ctl.state = .adopting) := by
  rw [free]
  exact fun due => due.elim Bool.false_ne_true state

theorem judgeWaiter_of_line (line : s.rollback.pendingLine = true) (noCommand : waitingCommand s = none) :
    judgeWaiter s = judgeLine s := by
  rw [judgeWaiter, if_neg (not_held_back free state), line, noCommand]

theorem judgeWaiter_of_command {c : SlotCommand} (noLine : s.rollback.pendingLine = false)
    (waiting : waitingCommand s = some c) : judgeWaiter s = judgeCommand c s := by
  rw [judgeWaiter, if_neg (not_held_back free state), noLine, waiting]

theorem judgeWaiter_of_both {c : SlotCommand} (line : s.rollback.pendingLine = true)
    (waiting : waitingCommand s = some c) : judgeWaiter s =
      if Config.lineFirst s.free then judgeLine (takeFree s) else judgeCommand c (takeFree s) := by
  rw [judgeWaiter, if_neg (not_held_back free state), line, waiting]

end

theorem waitingCommand_rollback {s : State} {d : Byte} (slot : s.port.slot = .executing (.rollback d)) :
    waitingCommand s = some (.rollback d) := by
  rw [waitingCommand, slot]

theorem waitingCommand_mark {s : State} {v : BitVec 64} (slot : s.port.slot = .executing (.mark v false)) :
    waitingCommand s = some (.mark v false) := by
  rw [waitingCommand, slot]

/-! ### The last request that waits -/

/-- A line request that waits alone. -/
theorem judgeNext_line {s : State} (noWait : s.capture.spaceWait = []) (free : hasPending s = false)
    (state : s.ctl.state ≠ .adopting) (line : s.rollback.pendingLine = true) (noCommand : waitingCommand s = none) :
    judgeNext s = afterSpace (judgeLine s) ∧ Quiet (judgeNext s) := by
  refine ⟨?_, quiet_judgeNext_of_line ⟨noWait, line, noCommand⟩ (afterSpace_of_noneDue s noWait free)⟩
  rw [judgeNext, judgeWaiter_of_line free state line noCommand]

/-- A command that waits alone. -/
theorem judgeNext_command {s : State} {c : SlotCommand} (noWait : s.capture.spaceWait = []) (free : hasPending s = false)
    (state : s.ctl.state ≠ .adopting) (noLine : s.rollback.pendingLine = false) (waiting : waitingCommand s = some c)
    (noneAwait : (∃ d, c = .rollback d) ∨ ∀ e ∈ s.capture.entries, e.state ≠ .awaitMark) :
    judgeNext s = afterSpace (judgeCommand c s) ∧ Quiet (judgeNext s) := by
  have judged : judgeNext s = afterSpace (judgeCommand c s) := by
    rw [judgeNext, judgeWaiter_of_command free state noLine waiting]
  refine ⟨judged, ?_⟩
  rw [judged]
  exact quiet_of_noneWait (judgeCommand_waits noWait free noLine waiting noneAwait)

/-- Once the last request has been judged the event ends as it does without one. -/
theorem Turns.ends_of_last {ends turn : State → State} (turns : Turns ends turn) {s t : State}
    (judged : judgeNext s = afterSpace t ∧ Quiet (judgeNext s)) : closeEvent (judgeNext s) = ends t := by
  obtain ⟨same, quiet⟩ := judged
  rw [turns.ends_of_quiet (same ▸ quiet), same]

/-! ### The judged request, written out -/

/-- A refused line request (R74). -/
theorem judgeLine_of_unarmed {s : State} (unarmed : s.ctl.state = .unarmed) :
    judgeLine s = refuseLine .noCheckpoint (setLineRequest false s) := by
  rw [judgeLine, unarmed]

theorem judgeLine_of_failed {s : State} (failed : s.ctl.state = .failed) :
    judgeLine s = refuseLine .state (setLineRequest false s) := by
  rw [judgeLine, failed]

theorem judgeLine_of_rolling {s : State} (rolling : s.ctl.state = .rolling) :
    judgeLine s = absorbInRolling (setLineRequest false s) := by
  rw [judgeLine, rolling]

theorem judgeLine_of_newest {s : State} {c : Checkpoint} (armed : s.ctl.state = .armed) (free : hasPending s = false)
    (whole : s.ctl.condition ≠ .broken) (newest : s.ctl.checkpoints.getLast? = some c) :
    judgeLine s = startRollback .line c (setLineRequest false s) := by
  rw [judgeLine_of_armed armed, judgeArmedLine_of_newest (s := setLineRequest false s) free whole newest]

theorem judgeLine_of_broken {s : State} (armed : s.ctl.state = .armed) (free : hasPending s = false)
    (broken : s.ctl.condition = .broken) : judgeLine s = refuseLine .broken (setLineRequest false s) := by
  rw [judgeLine_of_armed armed, judgeArmedLine_of_broken (s := setLineRequest false s) free broken]

/-- The `d`-th checkpoint from the newest (R70). -/
theorem reverse_getElem?_eq (l : List Checkpoint) {d : Nat} (least : 1 ≤ d) :
    l.reverse[d - 1]? = if d ≤ l.length then l[l.length - d]? else none := by
  split
  · rw [List.getElem?_reverse (by omega), show l.length - 1 - (d - 1) = l.length - d by omega]
  · rw [List.getElem?_eq_none_iff, List.length_reverse]
    omega

section
variable {s : State} {d : Byte} (armed : s.ctl.state = .armed) (least : 1 ≤ d.toNat) (most : d.toNat ≤ 4)
  (free : hasPending s = false)
include armed least most free

theorem judgeRollback_of_broken (broken : s.ctl.condition = .broken) :
    judgeRollback d s = respond .broken 0x21 [] s := by
  rw [judgeRollback_of_armed armed, if_neg (by omega), free, if_neg Bool.false_ne_true, if_pos broken]

theorem judgeRollback_of_nth (whole : s.ctl.condition ≠ .broken) : judgeRollback d s =
    (if d.toNat ≤ s.ctl.checkpoints.length then s.ctl.checkpoints[s.ctl.checkpoints.length - d.toNat]? else none).elim
      (respond .range 0x21 [] s) fun c =>
        startRollback .management c (respond .started 0x21 (bytesLE 4 c.number) s) := by
  rw [judgeRollback_of_armed armed, if_neg (by omega), free, if_neg Bool.false_ne_true, if_neg whole,
    reverse_getElem?_eq _ least]

end

/-- A MARK command that waited and is refused (R56, R63). -/
theorem judgeMarkCommand_of_refused {s : State} {reason : MarkReason} (verdict : markVerdict s = .refused reason)
    (v : BitVec 64) : judgeMarkCommand v s =
      respond (refuseStatus s reason) 0x20 [] (refuseMark .management v reason s) := by
  rw [judgeMarkCommand, verdict]

theorem judgeMarkCommand_of_taken {s : State} (verdict : markVerdict s = .taken) (v : BitVec 64) :
    judgeMarkCommand v s = markPoint .management v (keepExecuting (.mark v true) s) := by
  rw [judgeMarkCommand, verdict]

theorem judgeMarkCommand_of_spent {s : State} (v : BitVec 64) (verdict : markVerdict s = .refused .exhausted) :
    judgeMarkCommand v s = { enterExhaustion s with
      ctl := { (enterExhaustion s).ctl with lastRefused := some ⟨.management, v, .exhausted⟩ }
      alerts := { (enterExhaustion s).alerts with latches := (enterExhaustion s).alerts.latches ||| 0x010#12 }
      port := { s.port with slot := .done ⟨.exhausted, 0x20, []⟩ } } := by
  rw [judgeMarkCommand_of_refused verdict, ← (enterExhaustion_leavesWaiting s).port]
  rfl

theorem markVerdict_eq_taken {s : State} (open_ : s.ctl.state = .unarmed ∨ s.ctl.state = .armed)
    (configured : s.journal.configured = true) (free : hasPending s = false)
    (unspent : ¬ (s.journal.exhausted = true ∨ s.journal.seq = 0xFFFFFFFFFFFFFFFF#64 ∨
      s.journal.nextCheckpoint = 0xFFFFFFFF#32)) : markVerdict s = .taken := by
  rw [markVerdict_of_unspent open_ configured (Bool.eq_false_iff.2 fun h => unspent ((countersSpent_iff _).1 h)), free]
  rfl

end Sys2Proof.Machine
end

section
/-! PROOFS. A line request and a command that wait together, and every way an event ends (R41, R55, R60, R71, R73). -/

namespace Sys2Proof.Machine

/-- The end of an event that judges the requests that wait at once. -/
theorem turns_of_judgesAtOnce {ends : State → State} {s : State} (once : JudgesAtOnce ends s)
    (noWait : s.capture.spaceWait = []) (free : hasPending s = false) :
    ∃ turn, Turns ends turn ∧ ends s = closeEvent (turn (judgeNext s)) ∧ ∀ t, Keeps s t → turn t = judgeNext t := by
  have spaced := afterSpace_of_noneDue s noWait free
  rcases once with rfl | ⟨rfl, noMarker⟩
  · refine ⟨judgeNext, .scan, ?_, fun _ _ => rfl⟩
    rw [finishScan, spaced]
  · have none_ : markerWaits s = false := Bool.eq_false_iff.2 fun h => noMarker ((markerWaits_iff s).1 h)
    refine ⟨inTurn judgeNext, .plain, ?_, fun t keeps => inTurn_of_not _ (markerMayLead_of_none (keeps.markerWaits.trans none_))⟩
    rw [finish, spaced, inTurn_of_not _ (markerMayLead_of_none none_)]

/-! ### Two requests (R55, R73) -/

theorem markerMayLead_of_rolling {s : State} (rolling : s.ctl.state = .rolling) : markerMayLead s = false := by
  rw [markerMayLead, rolling]
  rfl

/-- The entries that the start of a rollback leaves are on their way to memory (R77). -/
theorem startRollback_noneAwait (origin : Origin) (c : Checkpoint) (s : State) :
    ∀ e ∈ (startRollback origin c s).capture.entries, e.state ≠ .awaitMark := by
  have starts : (startRollback origin c s).capture.entries = s.capture.entries.filter fun e => e.state == .forwarding :=
    (congrArg (fun u => u.capture.entries) (startRollback_eq origin c s) :)
  intro e member
  rw [starts] at member
  rw [beq_iff_eq.1 (List.mem_filter.1 member).2]
  exact nofun

section
variable {ends turn : State → State} (turns : Turns ends turn) {s : State} (noWait : s.capture.spaceWait = [])
  (free : hasPending s = false) (line : s.rollback.pendingLine = true)
include turns noWait free line

/-- The line request starts a rollback before the command that waits with it is judged. -/
theorem ends_of_lineFirst {c : SlotCommand} {newest : Checkpoint} (armed : s.ctl.state = .armed)
    (whole : s.ctl.condition ≠ .broken) (last : s.ctl.checkpoints.getLast? = some newest)
    (waiting : waitingCommand s = some c) (first : Config.lineFirst s.free = true) :
    ∃ t, StartsRollback .line newest (setLineRequest false (takeFree s)) t ∧ t.ctl.state = .rolling ∧
      t.port = s.port ∧ closeEvent (turn (judgeNext s)) = ends (judgeCommand c t) := by
  have state : s.ctl.state ≠ .adopting := by rw [armed]; exact nofun
  have judged : judgeWaiter s = startRollback .line newest (setLineRequest false (takeFree s)) := by
    rw [judgeWaiter_of_both free state line waiting, if_pos first,
      judgeLine_of_newest (s := takeFree s) armed free whole last]
  have starts := startRollback_eq .line newest (setLineRequest false (takeFree s))
  have noneAwait := startRollback_noneAwait .line newest (setLineRequest false (takeFree s))
  obtain ⟨leaves, rolling⟩ := startRollback_leavesWaiting .line newest (setLineRequest false (takeFree s))
  generalize startRollback .line newest (setLineRequest false (takeFree s)) = t at *
  have space : t.capture.spaceWait = [] := leaves.space noWait
  have free' : hasPending t = false := (hasPending_of_list leaves.list).trans free
  refine ⟨t, starts, rolling, leaves.port, ?_⟩
  rw [judgeNext, judged, afterSpace_of_noneDue t space free', turns.of_noMarkerLeads (markerMayLead_of_rolling rolling)]
  exact turns.ends_of_last (judgeNext_command space free' (by rw [rolling]; exact nofun) leaves.line
    ((waitingCommand_of_port leaves.port).trans waiting) (.inr noneAwait))

/-- The MARK command's mark point comes before the line request that waits with it, which then waits for the mark. -/
theorem ends_of_markFirst {v : BitVec 64} (state : s.ctl.state ≠ .adopting) (waiting : waitingCommand s = some (.mark v false))
    (noneAwait : ∀ e ∈ s.capture.entries, e.state ≠ .awaitMark) (verdict : markVerdict s = .taken)
    (second : Config.lineFirst s.free = false) :
    ∃ t, TakesMark .management v (keepExecuting (.mark v true) (takeFree s)) t ∧
      closeEvent (turn (judgeNext s)) = ends t := by
  have verdict' : markVerdict (takeFree s) = .taken := verdict
  have judged : judgeWaiter s = markPoint .management v (keepExecuting (.mark v true) (takeFree s)) := by
    rw [judgeWaiter_of_both free state line waiting, second, if_neg Bool.false_ne_true, judgeCommand,
      judgeMarkCommand_of_taken verdict']
  have takes := markPoint_eq .management v (keepExecuting (.mark v true) (takeFree s))
  obtain ⟨waits, spaced⟩ := afterSpace_of_takesMark (line := true) takes noWait line rfl noneAwait
  refine ⟨_, takes, ?_⟩
  rw [judgeNext, judged, turns.ends_of_line waits spaced]

/-- A line request and a ROLLBACK command that both can be taken: one starts a rollback, and the other finds it (R70 to
R73). -/
theorem lineAndRollback_judged {d : Byte} {newest c : Checkpoint} (slot : s.port.slot = .executing (.rollback d))
    (least : 1 ≤ d.toNat) (most : d.toNat ≤ 4) (armed : s.ctl.state = .armed) (whole : s.ctl.condition ≠ .broken)
    (last : s.ctl.checkpoints.getLast? = some newest)
    (nth : (if d.toNat ≤ s.ctl.checkpoints.length then s.ctl.checkpoints[s.ctl.checkpoints.length - d.toNat]?
      else none) = some c) :
    (∃ t, StartsRollback .line newest (setLineRequest false (takeFree s)) t ∧
      closeEvent (turn (judgeNext s)) = ends { t with port := { s.port with slot := .done ⟨.busy, 0x21, []⟩ } }) ∨
    (∃ t, StartsRollback .management c (respond .started 0x21 (bytesLE 4 c.number) (takeFree s)) t ∧
      closeEvent (turn (judgeNext s)) = ends (absorbInRolling (setLineRequest false t))) := by
  have state : s.ctl.state ≠ .adopting := by rw [armed]; exact nofun
  have waiting := waitingCommand_rollback slot
  cases first : Config.lineFirst s.free with
  | true =>
    obtain ⟨t, starts, rolling, port, same⟩ := ends_of_lineFirst turns noWait free line armed whole last waiting first
    refine .inl ⟨t, starts, ?_⟩
    rw [same, judgeCommand, judgeRollback, rolling, ← port]
    rfl
  | false =>
    have judged : judgeWaiter s =
        startRollback .management c (respond .started 0x21 (bytesLE 4 c.number) (takeFree s)) := by
      rw [judgeWaiter_of_both free state line waiting, first, if_neg Bool.false_ne_true, judgeCommand,
        judgeRollback_of_nth (s := takeFree s) armed least most free whole]
      show (if d.toNat ≤ s.ctl.checkpoints.length then s.ctl.checkpoints[s.ctl.checkpoints.length - d.toNat]?
        else none).elim _ _ = _
      rw [nth]
      rfl
    have starts := startRollback_eq .management c (respond .started 0x21 (bytesLE 4 c.number) (takeFree s))
    obtain ⟨leaves, rolling⟩ := startRollback_leavesWaiting .management c
      (respond .started 0x21 (bytesLE 4 c.number) (takeFree s))
    generalize startRollback .management c (respond .started 0x21 (bytesLE 4 c.number) (takeFree s)) = t at *
    have space : t.capture.spaceWait = [] := leaves.space noWait
    have free' : hasPending t = false := (hasPending_of_list leaves.list).trans free
    refine .inr ⟨t, starts, ?_⟩
    rw [judgeNext, judged, afterSpace_of_noneDue t space free', turns.of_noMarkerLeads (markerMayLead_of_rolling rolling),
      ← judgeLine_of_rolling rolling]
    exact turns.ends_of_last (judgeNext_line space free' (by rw [rolling]; exact nofun) (leaves.line.trans line)
      (waitingCommand_of_port leaves.port))

/-- A line request and a MARK command that both can be taken: a rollback refuses the mark, or the line request waits for the
mark (R54, R55, R73). -/
theorem lineAndMark_judged {v : BitVec 64} {newest : Checkpoint} (slot : s.port.slot = .executing (.mark v false))
    (noneAwait : ∀ e ∈ s.capture.entries, e.state ≠ .awaitMark) (verdict : markVerdict s = .taken)
    (armed : s.ctl.state = .armed) (whole : s.ctl.condition ≠ .broken) (last : s.ctl.checkpoints.getLast? = some newest) :
    (∃ t, StartsRollback .line newest (setLineRequest false (takeFree s)) t ∧
      closeEvent (turn (judgeNext s)) = ends { t with
        ctl := { t.ctl with lastRefused := some ⟨.management, v, .state⟩ }
        alerts := { t.alerts with latches := t.alerts.latches ||| 0x010#12 }
        port := { s.port with slot := .done ⟨.busy, 0x20, []⟩ } }) ∨
    (∃ t, TakesMark .management v (keepExecuting (.mark v true) (takeFree s)) t ∧
      closeEvent (turn (judgeNext s)) = ends t) := by
  have state : s.ctl.state ≠ .adopting := by rw [armed]; exact nofun
  have waiting := waitingCommand_mark slot
  cases first : Config.lineFirst s.free with
  | true =>
    obtain ⟨t, starts, rolling, port, same⟩ := ends_of_lineFirst turns noWait free line armed whole last waiting first
    have closed : markVerdict t = .refused .state := markVerdict_of_closed ((gateClosed_iff t).2 (.inl rolling))
    have busy : refuseStatus t .state = .busy := if_neg (by rw [rolling]; exact nofun)
    refine .inl ⟨t, starts, ?_⟩
    rw [same, judgeCommand, judgeMarkCommand_of_refused closed, busy, ← port]
    rfl
  | false => exact .inr (ends_of_markFirst turns noWait free line state waiting noneAwait verdict first)

end

end Sys2Proof.Machine
end

section
/-! PROOFS. Every way an event ends, put together (R41, R55, R60, R71, R73). -/

namespace Sys2Proof.Machine

section
variable {ends : State → State} {s : State} (once : JudgesAtOnce ends s) (noWait : s.capture.spaceWait = [])
  (free : hasPending s = false) (state : s.ctl.state ≠ .adopting)
include once noWait free state

/-- A line request that waits alone is judged. -/
theorem ends_of_line (line : s.rollback.pendingLine = true) (noCommand : waitingCommand s = none) :
    ends s = ends (judgeLine s) := by
  obtain ⟨turn, turns, same, -⟩ := turns_of_judgesAtOnce once noWait free
  have judged := judgeNext_line noWait free state line noCommand
  rw [same, turns.of_quiet judged.2, turns.ends_of_last judged]

/-- A command that waits alone is judged. -/
theorem ends_of_command {c : SlotCommand} (noLine : s.rollback.pendingLine = false) (waiting : waitingCommand s = some c)
    (noneAwait : (∃ d, c = .rollback d) ∨ ∀ e ∈ s.capture.entries, e.state ≠ .awaitMark) :
    ends s = ends (judgeCommand c s) := by
  obtain ⟨turn, turns, same, -⟩ := turns_of_judgesAtOnce once noWait free
  have judged := judgeNext_command noWait free state noLine waiting noneAwait
  rw [same, turns.of_quiet judged.2, turns.ends_of_last judged]

/-- A line request that is refused does not keep a MARK command that waits with it from its mark point, and where the mark
point comes first the line request waits for the mark. -/
theorem ends_of_refusedLineAndMark {v : BitVec 64} {reason : LineRefusal} (line : s.rollback.pendingLine = true)
    (slot : s.port.slot = .executing (.mark v false)) (noneAwait : ∀ e ∈ s.capture.entries, e.state ≠ .awaitMark)
    (verdict : markVerdict s = .taken)
    (refused : judgeLine (takeFree s) = refuseLine reason (setLineRequest false (takeFree s))) :
    (∃ t, TakesMark .management v
        (keepExecuting (.mark v true) (refuseLine reason (setLineRequest false (takeFree s)))) t ∧ ends s = ends t) ∨
      ∃ t, TakesMark .management v (keepExecuting (.mark v true) (takeFree s)) t ∧ ends s = ends t := by
  obtain ⟨turn, turns, same, noLead⟩ := turns_of_judgesAtOnce once noWait free
  have waiting := waitingCommand_mark slot
  rw [same]
  cases first : Config.lineFirst s.free with
  | false => exact .inr (ends_of_markFirst turns noWait free line state waiting noneAwait verdict first)
  | true =>
    have judged : judgeWaiter s = refuseLine reason (setLineRequest false (takeFree s)) := by
      rw [judgeWaiter_of_both free state line waiting, if_pos first, refused]
    have keeps : Keeps s (refuseLine reason (setLineRequest false (takeFree s))) := judged ▸ judgeWaiter_keeps s
    have verdict' : markVerdict (refuseLine reason (setLineRequest false (takeFree s))) = .taken := verdict
    have second := judgeNext_command (s := refuseLine reason (setLineRequest false (takeFree s))) (c := .mark v false)
      noWait free state rfl waiting (.inr noneAwait)
    refine .inl ⟨_, markPoint_eq .management v _, ?_⟩
    rw [judgeNext, judged, afterSpace_of_noneDue (refuseLine reason (setLineRequest false (takeFree s))) noWait free,
      noLead _ keeps, turns.ends_of_last second, judgeCommand, judgeMarkCommand_of_taken verdict']

end

/-- Where a marker write may lead, the requests that wait go on waiting or come to their turn behind it (R55, R73). -/
theorem finish_of_markerAtHead {s : State} (atHead : MarkerAtHead s) (noWait : s.capture.spaceWait = [])
    (free : hasPending s = false) (armed : s.ctl.state = .armed) (phase : s.rollback.phase ≠ .retract)
    (waits : s.rollback.pendingLine = true ∨ waitingCommand s ≠ none) :
    finish s = { s with
      free := s.free + 1, rollback := { s.rollback with phase := if rollbackWaits s then .waiting else .idle } } ∨
    finish s = closeEvent (inTurn judgeNext (judgeNext (takeFree s))) := by
  have someWaits : (s.rollback.pendingLine || (waitingCommand s).isSome) = true := by
    rw [Bool.or_eq_true, Option.isSome_iff_ne_none]
    exact waits
  have lead : markerMayLead s = true := by
    rw [markerMayLead, armed, free, someWaits, (markerWaits_iff s).2 atHead]
    rfl
  rcases finish_of_marker noWait lead with same | same
  · exact .inl (same.trans (closeEvent_of_armed (s := takeFree s) phase armed))
  · exact .inr same

/-- A request that waits alone behind a marker write is judged as it is without one. -/
theorem closeEvent_of_alone {s : State} (noWait : s.capture.spaceWait = []) (free : hasPending s = false)
    (state : s.ctl.state ≠ .adopting) (noneAwait : ∀ e ∈ s.capture.entries, e.state ≠ .awaitMark)
    (alone : s.rollback.pendingLine = true ∧ waitingCommand s = none ∨
      s.rollback.pendingLine = false ∧ waitingCommand s ≠ none) :
    closeEvent (inTurn judgeNext (judgeNext s)) = finishScan s := by
  have quiet : Quiet (judgeNext s) := by
    rcases alone with ⟨line, noCommand⟩ | ⟨noLine, waits⟩
    · exact (judgeNext_line noWait free state line noCommand).2
    · obtain ⟨c, waiting⟩ := Option.ne_none_iff_exists'.1 waits
      exact (judgeNext_command noWait free state noLine waiting (.inr noneAwait)).2
  rw [inTurn_of_not _ quiet.noMarkerLeads, finishScan, afterSpace_of_noneDue s noWait free, quiet.judgeNext]

/-- Settles O8: what is granted, and the requests judged by who waits and whether a marker write may lead. -/
theorem eventEndsPlainly : Obligations.EventEndsPlainly := by
  unfold Obligations.EventEndsPlainly
  refine ⟨fun ends isEnd => ⟨fun c s t done rest retract => ?_, fun s e id rest front once found waits writes below => ?_,
    fun s c p distinct noWait pending unplaced mark clear writes below => ?_⟩, fun s ends noWait free state =>
      ⟨fun once => ⟨fun line noCommand => ?_, fun d noLine slot least most => ?_, fun v noLine slot noneAwait => ?_,
        fun d newest c line slot least most armed whole last nth => ?_,
        fun v newest line slot noneAwait configured unspent armed whole last => ?_,
        fun v reason line slot noneAwait configured unspent refuses => ?_⟩,
      fun isFinish atHead armed phase noneAwait => ⟨fun alone => ?_, fun line waits => ?_⟩⟩⟩
  · obtain ⟨plain, scan⟩ := finish_of_atRest t rest retract
    rcases isEnd with rfl | rfl
    · rw [done, plain]
    · rw [done, scan]
  · exact ends_of_afterSpace isEnd (afterSpace_withCapture front once found waits writes below)
  · exact ends_of_afterSpace isEnd (afterSpace_withMark distinct noWait pending unplaced mark clear writes below)
  · have same := ends_of_line once noWait free state line noCommand
    refine ⟨fun armed whole c last => ⟨_, startRollback_eq .line c (setLineRequest false s), ?_⟩, fun armed broken => ?_,
      fun unarmed => ?_, fun failed => ?_, fun rolling => ?_⟩
    · rw [same, judgeLine_of_newest armed free whole last]
    · rw [same, judgeLine_of_broken armed free broken]
      rfl
    · rw [same, judgeLine_of_unarmed unarmed]
      rfl
    · rw [same, judgeLine_of_failed failed]
      rfl
    · rw [same, judgeLine_of_rolling rolling]
      rfl
  · have same := ends_of_command once noWait free state noLine (waitingCommand_rollback slot) (.inl ⟨d, rfl⟩)
    rw [judgeCommand] at same
    refine ⟨fun armed whole c nth => ⟨_, startRollback_eq .management c (respond .started 0x21 (bytesLE 4 c.number) s), ?_⟩,
      fun armed whole none_ => ?_, fun armed broken => ?_, fun unarmed => ?_, fun failed => ?_, fun rolling => ?_⟩
    · have judged := judgeRollback_of_nth armed least most free whole
      rw [show (if d.toNat ≤ s.ctl.checkpoints.length then s.ctl.checkpoints[s.ctl.checkpoints.length - d.toNat]?
        else none) = some c from nth] at judged
      rw [same, judged]
      rfl
    · have judged := judgeRollback_of_nth armed least most free whole
      rw [show (if d.toNat ≤ s.ctl.checkpoints.length then s.ctl.checkpoints[s.ctl.checkpoints.length - d.toNat]?
        else none) = none from none_] at judged
      rw [same, judged]
      rfl
    · rw [same, judgeRollback_of_broken armed least most free broken]
      rfl
    · rw [same, judgeRollback, unarmed]
      rfl
    · rw [same, judgeRollback, failed]
      rfl
    · rw [same, judgeRollback, rolling]
      rfl
  · have same := ends_of_command once noWait free state noLine (waitingCommand_mark slot) (.inr noneAwait)
    rw [judgeCommand] at same
    refine ⟨fun open_ configured unspent => ⟨_, markPoint_eq .management v (keepExecuting (.mark v true) s), ?_⟩,
      fun open_ configured spent => ?_, fun open_ unconfigured => ?_, fun rolling => ?_, fun failed => ?_⟩
    · rw [same, judgeMarkCommand_of_taken (markVerdict_eq_taken open_ configured free unspent)]
    · rw [same, judgeMarkCommand_of_spent v (markVerdict_of_spent open_ configured ((countersSpent_iff _).2 spent))]
    · rw [same, judgeMarkCommand_of_refused (markVerdict_of_unconfigured open_ unconfigured)]
      rfl
    · have busy : refuseStatus s .state = .busy := if_neg (by rw [rolling]; exact nofun)
      rw [same, judgeMarkCommand_of_refused (markVerdict_of_closed ((gateClosed_iff s).2 (.inl rolling))), busy]
      rfl
    · have status : refuseStatus s .state = .state := if_pos failed
      rw [same, judgeMarkCommand_of_refused (markVerdict_of_closed ((gateClosed_iff s).2 (.inr (.inl failed)))), status]
      rfl
  · obtain ⟨turn, turns, same, -⟩ := turns_of_judgesAtOnce once noWait free
    rw [same]
    exact lineAndRollback_judged turns noWait free line slot least most armed whole last nth
  · obtain ⟨turn, turns, same, -⟩ := turns_of_judgesAtOnce once noWait free
    rw [same]
    exact lineAndMark_judged turns noWait free line slot noneAwait
      (markVerdict_eq_taken (.inr armed) configured free unspent) armed whole last
  · rcases refuses with ⟨armed, broken, rfl⟩ | ⟨unarmed, rfl⟩
    · exact ends_of_refusedLineAndMark once noWait free state line slot noneAwait
        (markVerdict_eq_taken (.inr armed) configured free unspent)
        (judgeLine_of_broken (s := takeFree s) armed free broken)
    · exact ends_of_refusedLineAndMark once noWait free state line slot noneAwait
        (markVerdict_eq_taken (.inl unarmed) configured free unspent) (judgeLine_of_unarmed (s := takeFree s) unarmed)
  · subst isFinish
    have waits : s.rollback.pendingLine = true ∨ waitingCommand s ≠ none := alone.imp (·.1) (·.2)
    refine (finish_of_markerAtHead atHead noWait free armed phase waits).imp_right fun same => same.trans ?_
    exact closeEvent_of_alone (s := takeFree s) noWait free state noneAwait alone
  · subst isFinish
    refine (finish_of_markerAtHead atHead noWait free armed phase (.inl line)).imp_right fun same =>
      ⟨fun d newest c line slot least most armed whole last nth => ?_,
        fun v newest line slot noneAwait configured unspent armed whole last => ?_⟩
    · rw [same]
      exact lineAndRollback_judged .plain (s := takeFree s) noWait free line slot least most armed whole last nth
    · rw [same]
      exact lineAndMark_judged .plain (s := takeFree s) noWait free line slot noneAwait
        (markVerdict_eq_taken (s := takeFree s) (.inr armed) configured free unspent) armed whole last

end Sys2Proof.Machine
end
